-- ==== Sys2Proof/Word.lean ====
section
/-! DEFINITION. The word types of the block: 8-bit bytes of planes and streams, 32-bit registers and command words. -/

namespace Sys2Proof

/-- One byte of a plane, of the stream or of an output element (00_scope.md R12, R14). -/
abbrev Byte := BitVec 8

/-- A register, a command word or a window value: 32 bits, bit 0 the least significant (R8, R32). -/
abbrev Word := BitVec 32

end Sys2Proof
end

