-- ==== Sys2Proof/Syntax.lean ====
section
/-! DEFINITION. The nine commands of spec/opcode_table.json, the block's instructions (30_encoding.md R100 to R107). -/

namespace Sys2Proof

/-- The index of a plane descriptor slot, 0..7 (R109, 10_state.md R45). -/
abbrev SlotIx := BitVec 3

/-- One command word's meaning as syntax: the opcode and the operand fields its format uses. -/
inductive Instr where
  /-- NOP (R101). -/
  | nop
  /-- LOADHT (R102): number of tables, first table slot, and whether an EPT byte follows. -/
  | loadht (nt first : BitVec 2) (ept : Bool)
  /-- CLEAR (R103): the slot of the plane to zero. -/
  | clear (slot : SlotIx)
  /-- DECODE.H24 (R104, HDR = 0): the delta planes' slots and the plane enables. -/
  | decodeH24 (ys c1s c2s : SlotIx) (pen : BitVec 3)
  /-- DECODE.H32 (R104, HDR = 1). -/
  | decodeH32 (ys c1s c2s : SlotIx) (pen : BitVec 3)
  /-- UPRES.BL (R105, MODE = 0): source and destination slots. -/
  | upresBl (src dst : SlotIx)
  /-- UPRES.ADD (R105, MODE = 1): source, destination and delta slots. -/
  | upresAdd (src dst dlt : SlotIx)
  /-- UPRES.NN (R105, MODE = 2). -/
  | upresNn (src dst : SlotIx)
  /-- CONVERT (R106): the Y, C1 and C2 planes' slots. -/
  | convert (ys c1s c2s : SlotIx)
  deriving DecidableEq, Repr

/-- Why a command word is no instruction: the first of the three word checks that fails (R108; 60_exceptions.md R283, steps 2 to 4). -/
inductive DecodeError where
  /-- OP in 0x6..0xF: ILLEGAL_CMD(0). -/
  | reservedOp
  /-- A reserved bit is nonzero (for UPRES.BL and UPRES.NN this includes DLT): ILLEGAL_CMD(1). -/
  | reservedBit
  /-- UPRES MODE = 3: ILLEGAL_CMD(2). -/
  | illegalField
  deriving DecidableEq, Repr

end Sys2Proof
end

