-- ==== Sys2Proof/Decode.lean ====
section
/-! DEFINITION. Command words (30_encoding.md R100 to R108): the decoder, total on 32-bit words and rejecting by name, and the
encoder, written from the same bit tables. -/

namespace Sys2Proof

/-- Bits `lo + len - 1` down to `lo` of a command word (R8). -/
def wordField (w : Word) (lo len : Nat) : BitVec len := w.extractLsb' lo len

/-- Bits 31 down to `lo` of a command word are zero: the reserved bits above a format's last field (R100). -/
def zeroAbove (w : Word) (lo : Nat) : Bool := w >>> lo == 0

/-- UPRES (R105): MODE selects the form; DLT must be 0 for BL and NN; MODE = 3 is reserved (43_upsampler.md R227). -/
def decodeUpres (w : Word) : Except DecodeError Instr :=
  let src := wordField w 4 3
  let dst := wordField w 7 3
  let dlt := wordField w 10 3
  if !zeroAbove w 15 then .error .reservedBit
  else
    match (wordField w 13 2).toNat with
    | 0 => if dlt == 0 then .ok (.upresBl src dst) else .error .reservedBit
    | 1 => .ok (.upresAdd src dst dlt)
    | 2 => if dlt == 0 then .ok (.upresNn src dst) else .error .reservedBit
    | _ => .error .illegalField

/-- The command a word names (R101 to R107), or the first word check it fails (R108; 60_exceptions.md R283, steps 2 to 4).
LOADHT's illegal NT and FIRST values are left to LOADHT's own launch check (assumption log 21). -/
def decode (w : Word) : Except DecodeError Instr :=
  match (wordField w 0 4).toNat with
  | 0 => if zeroAbove w 4 then .ok .nop else .error .reservedBit
  | 1 =>
    if zeroAbove w 9 then .ok (.loadht (wordField w 4 2) (wordField w 6 2) (w.getLsbD 8))
    else .error .reservedBit
  | 2 => if zeroAbove w 7 then .ok (.clear (wordField w 4 3)) else .error .reservedBit
  | 3 =>
    if !zeroAbove w 17 then .error .reservedBit
    else if w.getLsbD 4 then
      .ok (.decodeH32 (wordField w 5 3) (wordField w 8 3) (wordField w 11 3) (wordField w 14 3))
    else
      .ok (.decodeH24 (wordField w 5 3) (wordField w 8 3) (wordField w 11 3) (wordField w 14 3))
  | 4 => decodeUpres w
  | 5 =>
    if zeroAbove w 13 then .ok (.convert (wordField w 4 3) (wordField w 7 3) (wordField w 10 3))
    else .error .reservedBit
  | _ => .error .reservedOp

/-- A field's value at its place in a command word. -/
def placeField {len : Nat} (v : BitVec len) (lo : Nat) : Word := v.setWidth 32 <<< lo

/-- The word of a command (R118's table of words). -/
def encode : Instr → Word
  | .nop => 0x0#32
  | .loadht nt first ept =>
    0x1#32 ||| placeField nt 4 ||| placeField first 6 ||| placeField (BitVec.ofBool ept) 8
  | .clear slot => 0x2#32 ||| placeField slot 4
  | .decodeH24 ys c1s c2s pen =>
    0x3#32 ||| placeField ys 5 ||| placeField c1s 8 ||| placeField c2s 11 ||| placeField pen 14
  | .decodeH32 ys c1s c2s pen =>
    0x13#32 ||| placeField ys 5 ||| placeField c1s 8 ||| placeField c2s 11 ||| placeField pen 14
  | .upresBl src dst => 0x4#32 ||| placeField src 4 ||| placeField dst 7
  | .upresAdd src dst dlt =>
    0x2004#32 ||| placeField src 4 ||| placeField dst 7 ||| placeField dlt 10
  | .upresNn src dst => 0x4004#32 ||| placeField src 4 ||| placeField dst 7
  | .convert ys c1s c2s =>
    0x5#32 ||| placeField ys 4 ||| placeField c1s 7 ||| placeField c2s 10

/-- Whether a word's opcode is one of the two whose commands take a byte stream, LOADHT and DECODE (20_memory.md R87, R90). -/
def takesStream (w : Word) : Bool :=
  (wordField w 0 4).toNat == 1 || (wordField w 0 4).toNat == 3

/-- The instruction the decoder reads from a table row's bits. A command is one 32-bit word (R100), written to CMD as it stands. -/
def decodeTableWord (nbits w : Nat) : Option Instr :=
  (decode (BitVec.ofNat 32 (w % 2 ^ nbits))).toOption

end Sys2Proof
end

