-- ==== Sys2Proof/Config.lean ====
section
/-! DEFINITION. What an implementation fixes (00_scope.md R6, R7; 92_eei_decisions.md, OPEN parameters): the fixed sizes, and
the open parameters as constants without a body. -/

namespace Sys2Proof

/-- Data memory has 2^32 byte addresses (20_memory.md R80). -/
def Config.memSize : Nat := 2 ^ 32

/-- A colour index is one of 0..1388 (R6, R15): the domain of every lookup ROM. -/
def Config.numColours : Nat := 1389

/-- A colour index, an integer in 0..1388 (R15). -/
abbrev Colour := Fin 1389

/-- A binary32 value in [0.0, 1.0] (R7): a pattern from 0x00000000 (0.0) to 0x3F800000 (1.0), or negative zero, 0x80000000, which
equals 0.0 (assumption log 4). -/
inductive UnitFloat where
  | nonneg (pattern : Fin 0x3F800001)
  | negZero
  deriving DecidableEq, Repr, Inhabited

/-- LIN, D0's `toLinearLight`: its contents are a parameter (R7, R52; assumption log 3). -/
opaque Config.lin : Vector Colour 1389

/-- SRGB, D0's `ccir709_to_srgb`: its contents are a parameter (R7, R52; assumption log 3). -/
opaque Config.srgb : Vector Colour 1389

/-- OUT8: its contents are a parameter (R7, R52; assumption log 3). -/
opaque Config.out8 : Vector Byte 1389

/-- OUT16: its contents are a parameter (R7, R52; assumption log 3). -/
opaque Config.out16 : Vector (BitVec 16) 1389

/-- OUTF: its contents are a parameter (R7, R52; assumption log 3). -/
opaque Config.outf : Vector UnitFloat 1389

/-- BLOCK_BASE, the bus address of the 4 KiB register window: the platform's choice (R7, R32; assumption log 15). -/
opaque Config.blockBase : Word

/-- Whether a soft reset that lands inside a wide output element finds a byte of it written: the resets before it and the byte's
address give a free value (93 S12: 'which bytes were written is `any value`'; assumption log 20). -/
opaque Config.tornByteWritten : Nat → Nat → Bool

/-- The bus address of the register at an offset of the window (R32). The block sees the offset alone. -/
def Config.registerAddress (off : BitVec 12) : Word := Config.blockBase + off.setWidth 32

end Sys2Proof
end

