-- ==== Sys2Proof/Machine/State.lean ====
section
/-! DEFINITION. The state of the block, of the data memory it reads and writes, and of the host's pending actions, as plain data
(10_state.md R30 to R56); the reasons a step can stop; and the state right after reset (10_state.md R55, 70_reset_and_hazards.md R320). -/

namespace Sys2Proof.Machine

/-- Data memory (20_memory.md R80): address and byte pairs in canonical form (`Memory.wf` in Machine/Ops.lean). -/
abbrev Memory := List Host.Cell

/-- A plane descriptor slot: DESC_BASE and the two halves of DESC_SIZE (R45). -/
structure Desc where
  base : Word
  w : BitVec 16
  h : BitVec 16
  deriving DecidableEq, Repr

/-- The parameter registers, only the host writes them (R40 to R46, R48). Only bits the map implements are stored: reserved
bits read 0 (R49). A running command sees them unchanged from its launch to its end (R50, 40_control.md R142). -/
structure Params where
  /-- SEQ_COUNT (R40). -/
  seqCount : Word
  /-- SEQ_SIZE bits 15:0 (R41). -/
  seqSize : BitVec 16
  /-- COL_OFFSET bits 15:0 (R41). -/
  colOffset : BitVec 16
  /-- HDR_CFG.SKIP24 (R42). -/
  skip24 : BitVec 6
  /-- HDR_CFG.SKIP32 (R42). -/
  skip32 : BitVec 6
  /-- SYNC_PAT (R43). -/
  syncPat : Word
  /-- SYNC_MASK (R43). -/
  syncMask : Word
  /-- CONV_CFG bits 9:0 (R44). -/
  convCfg : BitVec 10
  /-- OUT_R (R46). -/
  outR : Word
  /-- OUT_G (R46). -/
  outG : Word
  /-- OUT_B (R46). -/
  outB : Word
  /-- OUT_A, 0 for no alpha (R46). -/
  outA : Word
  /-- OUT_STRIDE, in elements (R46). -/
  outStride : Word
  /-- WB_M0..WB_M8, the signed coefficients row by row (R48). -/
  wb : Vector (BitVec 16) 9
  /-- The eight descriptor slots (R45). -/
  slots : Vector Desc 8
  deriving DecidableEq, Repr

/-- One applied table entry: the stored codeword, the code's length (1..16) and its symbol (30_encoding.md R111). -/
structure Code where
  cw : BitVec 16
  len : BitVec 5
  sym : Byte
  deriving DecidableEq, Repr

/-- A Huffman table slot (R51): the entries applied since the table was last emptied, newest first, and its TBL_VALID bit
(R47). The arrays KEY and LEN are read off the entries (`keyAt`, `lenAt` in Machine/Operands.lean; assumption log 5). -/
structure TableSlot where
  codes : List Code
  valid : Bool
  deriving DecidableEq, Repr

/-- The three table slots: slot 0 for Y, 1 for C1, 2 for C2 (R51). -/
structure Tables where
  y : TableSlot
  c1 : TableSlot
  c2 : TableSlot
  deriving DecidableEq, Repr

/-- What the host delivers on the stream port: a byte, or the end-of-stream mark (20_memory.md R90). -/
inductive PortItem where
  | byte (b : Byte)
  | eos
  deriving DecidableEq, Repr

/-- Everything a running command writes: data memory, the tables, the counters and flags it keeps, the stream reader, and the
port it takes bytes from (R38, R39, R47, R51, R53; STATUS.EOS_SYNC and STATUS.SYMERR of R35). -/
structure Engine where
  /-- Data memory. -/
  mem : Memory
  /-- The Huffman tables. -/
  tables : Tables
  /-- BYTES_IN (R38). -/
  bytesIn : Word
  /-- SEQ_DONE (R39). -/
  seqDone : Word
  /-- SEQ_SKIP (R39). -/
  seqSkip : Word
  /-- SYM_ERRS (R39). -/
  symErrs : Word
  /-- STATUS.EOS_SYNC (R35). -/
  eosSync : Bool
  /-- STATUS.SYMERR (R35). -/
  symErr : Bool
  /-- POS, the bit position of DECODE's reader (R53). -/
  pos : Nat
  /-- NB, the byte position of LOADHT's reader (R53). -/
  nb : Nat
  /-- What the port holds: the current or next stream, and anything delivered after its end (20_memory.md R90). -/
  port : List PortItem
  /-- How many streams of ended commands are still to be discarded up to an EOS that has not been delivered (20_memory.md R90;
  assumption log 8). -/
  toDiscard : Nat
  deriving DecidableEq, Repr

/-- What a running command is: an instruction, or a word that is none and is about to be rejected. -/
inductive Work where
  | command (i : Instr)
  | reject (why : DecodeError) (stream : Bool)
  deriving DecidableEq, Repr

/-- A command that has not ended (R54): what it is, the engine's data at its launch, and how many accesses it has made since.
Its loop indices are those its rule has reached after that many accesses (assumption log 7). -/
structure Running where
  work : Work
  base : Engine
  used : Nat
  deriving DecidableEq, Repr

/-- The five lookup ROMs (R52). Nothing writes them. -/
structure Roms where
  lin : Vector Colour 1389
  srgb : Vector Colour 1389
  out8 : Vector Byte 1389
  out16 : Vector (BitVec 16) 1389
  outf : Vector UnitFloat 1389
  deriving DecidableEq, Repr

/-- How data memory answers the block at an address: as plain memory, not at all (MEM_OK is false, 20_memory.md R86), or as a
device with access side effects, to which the spec gives no meaning (R88). The host's own accesses do not ask (assumption log 26). -/
inductive MemKind where
  | plain
  | absent
  | device
  deriving DecidableEq, Repr

/-- A run of `size` addresses from `base` that answer alike. -/
structure Region where
  base : Nat
  size : Nat
  kind : MemKind
  deriving DecidableEq, Repr

/-- The platform's parameters (00_scope.md R7; 20_memory.md R84, R86, R88): the regions of data memory that are not plain
memory (assumption log 2) and the byte order of wide output elements (assumption log 14). Nothing writes them. -/
structure Platform where
  regions : List Region
  outBigEndian : Bool
  deriving DecidableEq, Repr

/-- The width of a host access to the register window (20_memory.md R81). -/
inductive Width where
  | byte
  | half
  | word
  deriving DecidableEq, Repr

/-- What the host can do to the block (R30; 70_reset_and_hazards.md). Offsets are within the 4 KiB register window. -/
inductive HostEvent where
  /-- Store a value in the register window. -/
  | write (off : BitVec 12) (width : Width) (v : Word)
  /-- Load from the register window. -/
  | read (off : BitVec 12) (width : Width)
  /-- Deliver a byte on the stream port. -/
  | streamByte (b : Byte)
  /-- Deliver the end-of-stream mark. -/
  | streamEnd
  /-- Write a byte of data memory, at any address (assumption log 26). -/
  | memWrite (a : Word) (b : Byte)
  /-- Read a byte of data memory, at any address (assumption log 26). -/
  | memRead (a : Word)
  /-- Let the engine make `n` more accesses, or go on until it ends or needs stream bytes it does not have. -/
  | letRun (n : Option Nat)
  /-- From the next launch on, let a command make `n` accesses before the host's next action, or run on to its end. -/
  | setPace (n : Option Nat)
  /-- Assert the reset input (R320). -/
  | assertReset
  /-- Release the reset input. -/
  | releaseReset
  deriving DecidableEq, Repr

/-- The whole state. `busy` to `faultAddr` are the STATUS fields and fault registers of R35 and R37 that are not the engine's. -/
structure State where
  /-- The parameter registers. -/
  params : Params
  /-- CTRL.IRQ_EN (R34). -/
  irqEn : Bool
  /-- STATUS.BUSY (R35). -/
  busy : Bool
  /-- STATUS.DONE (R35). -/
  done : Bool
  /-- STATUS.FAULT (R35). -/
  fault : Bool
  /-- STATUS.OVR (R35). -/
  ovr : Bool
  /-- STATUS.FAULT_CODE (R35). -/
  faultCode : Byte
  /-- FAULT_INFO (R37). -/
  faultInfo : Word
  /-- FAULT_ADDR (R37). -/
  faultAddr : Word
  /-- CUR, the current command word (R54, 40_control.md R140). -/
  cur : Word
  /-- What commands write. -/
  eng : Engine
  /-- The command that runs, if one does. -/
  running : Option Running
  /-- The lookup ROMs. -/
  roms : Roms
  /-- The platform's parameters. -/
  plat : Platform
  /-- Whether the reset input is asserted (R320). -/
  resetLine : Bool
  /-- The word the host's last read returned. -/
  busRead : Word
  /-- How many resets there have been: the count that the free values of a torn element take (assumption log 20). -/
  resets : Nat
  /-- How many accesses a launched command makes before the host's next action (assumption log 7). -/
  pace : Option Nat
  /-- The host's pending actions, first one first (assumption log 6). -/
  inbox : List HostEvent
  deriving DecidableEq, Repr

/-- Why a run can end in a fault. The block's own faults are states, not these. -/
inductive Fault where
  /-- Raised by `step` when a running command needs stream bytes, none are left and the host has nothing more to do: the
  command stays BUSY for ever (20_memory.md R90, 93 S11 'stuck'). Safe: the block makes no step either. -/
  | streamStarved
  deriving DecidableEq, Repr

/-- Why a step can be refused. Each is safe: the spec gives the case no effect, and nothing can be proved of what follows. -/
inductive Refusal where
  /-- Raised by `exec` for an instruction without a meaning. No arm answers it. Safe. -/
  | notModelled (mnemonic : String)
  /-- Raised by a register access that is not an aligned 32-bit one (20_memory.md R81: 'A model refuses the access'). Safe. -/
  | registerAccess
  /-- Raised by a register access while the reset input is asserted (70 R320: 'the block accepts no register access'). Safe. -/
  | heldInReset
  /-- Raised by a command's access to a region with side effects (20_memory.md R88: 'a model gives it no meaning'). Safe. -/
  | sideEffectRegion
  /-- Raised by a host access to a running command's buffers (70 R342, 93 S16: 'has no defined result'). Safe. -/
  | hostBufferAccess
  deriving DecidableEq, Repr

/-- The parameter registers after reset (R32's table; R42, R43, R46, R48). -/
def Params.reset : Params where
  seqCount := 0
  seqSize := 0
  colOffset := 0
  skip24 := 28
  skip32 := 36
  syncPat := 0xFFFFE000
  syncMask := 0xFFFFF000
  convCfg := 0
  outR := 0
  outG := 0
  outB := 0
  outA := 0
  outStride := 1
  wb := #v[5930, -143, 393, -176, 6268, 131, 76, -128, 8256]
  slots := Vector.replicate 8 ⟨0, 0, 0⟩

/-- A table slot that holds no table: TBL_VALID = 0 (R47, R55). -/
def TableSlot.empty : TableSlot := ⟨[], false⟩

/-- The engine's data after reset (R55, R320): counters and flags 0, no valid table, the reader idle, the port empty. -/
def Engine.reset : Engine where
  mem := []
  tables := ⟨.empty, .empty, .empty⟩
  bytesIn := 0
  seqDone := 0
  seqSkip := 0
  symErrs := 0
  eosSync := false
  symErr := false
  pos := 0
  nb := 0
  port := []
  toDiscard := 0

/-- The machine right after reset (R55, R320), with nothing placed: no host action pending, data memory with nothing listed,
the ROMs at the parameters of Config. -/
def State.reset : State where
  params := .reset
  irqEn := false
  busy := false
  done := false
  fault := false
  ovr := false
  faultCode := 0
  faultInfo := 0
  faultAddr := 0
  cur := 0
  eng := .reset
  running := none
  roms := ⟨Config.lin, Config.srgb, Config.out8, Config.out16, Config.outf⟩
  plat := ⟨[], false⟩
  resetLine := false
  busRead := 0
  resets := 0
  pace := none
  inbox := []

end Sys2Proof.Machine
end

