-- ==== Sys2Proof/Machine/Flags.lean ====
section
/-! DEFINITION. STATUS and the flags: the word the host reads, the interrupt output, and how launch, completion and an ignored write
change the flags (10_state.md R35, R56; 40_control.md R140, R144; 60_exceptions.md R281, R298). -/

namespace Sys2Proof.Machine

/-- The fault names of R281's table. -/
inductive FaultName where
  | illegalCmd
  | geom
  | overlap
  | noTable
  | eofInTable
  | huffLen
  | eofInSeq
  | badPlane
  | busError
  deriving DecidableEq, Repr

/-- FAULT_CODE of a fault (R281). -/
def FaultName.code : FaultName → Byte
  | .illegalCmd => 0x01
  | .geom => 0x02
  | .overlap => 0x03
  | .noTable => 0x04
  | .eofInTable => 0x05
  | .huffLen => 0x06
  | .eofInSeq => 0x07
  | .badPlane => 0x08
  | .busError => 0x09

/-- One flag at its place in the STATUS word. -/
def flagBit (b : Bool) (place : Nat) : Word := (BitVec.ofBool b).setWidth 32 <<< place

/-- The STATUS register (R35): BUSY 0, DONE 1, FAULT 2, EOS_SYNC 3, OVR 4, SYMERR 5, FAULT_CODE 15:8, every other bit 0. -/
def State.statusWord (s : State) : Word :=
  flagBit s.busy 0 ||| flagBit s.done 1 ||| flagBit s.fault 2 ||| flagBit s.eng.eosSync 3 |||
    flagBit s.ovr 4 ||| flagBit s.eng.symErr 5 ||| s.faultCode.setWidth 32 <<< 8

/-- TBL_VALID (R47): bit t is table slot t's valid bit. -/
def Tables.validWord (t : Tables) : Word :=
  flagBit t.y.valid 0 ||| flagBit t.c1.valid 1 ||| flagBit t.c2.valid 2

/-- The interrupt output (R298). -/
def State.irq (s : State) : Bool := s.irqEn && (s.done || s.fault)

/-- What every launch does to the flags, the counters and the reader (R140, R53): DONE, EOS_SYNC and SYMERR cleared, the four
counters zeroed, POS and NB at 0, BUSY set, the word held in CUR. R299 and vector V-CT8 say the same of DONE; R300's last
sentence says otherwise (assumption log 11). -/
def launchState (w : Word) (s : State) : State :=
  { s with
    done := false
    busy := true
    cur := w
    eng := { s.eng with
      eosSync := false
      symErr := false
      bytesIn := 0
      seqDone := 0
      seqSkip := 0
      symErrs := 0
      pos := 0
      nb := 0 } }

/-- A CMD or other register write that is ignored sets OVR (R50, R140). -/
def ignoreWrite (s : State) : State := { s with ovr := true }

/-- Normal completion (R144): BUSY falls and DONE is set. -/
def completeState (s : State) : State :=
  { s with busy := false, done := true, running := none }

end Sys2Proof.Machine
end

