-- ==== Sys2Proof/Machine/Ops.lean ====
section
/-! DEFINITION. The named operations: data memory, the command monad with its byte accesses and stream primitives, loops, launch,
fault entry and completion (00_scope.md R9, R11; 20_memory.md; 40_control.md R140, R144; 60_exceptions.md R282). -/

namespace Sys2Proof.Machine

/-! ## Data memory -/

/-- What a byte of data memory that nothing has written reads as. DESIGN CHOICE (assumption log 1), unsafe. -/
def unwrittenByte : Byte := 0

/-- The byte at an address. -/
def Memory.read : Memory → Nat → Byte
  | [], _ => unwrittenByte
  | (k, b) :: rest, a => if k = a then b else Memory.read rest a

/-- The cell of an address, listed only where its byte is not what an unlisted address reads as. -/
def cellFor (a : Nat) (b : Byte) : Memory := if b = unwrittenByte then [] else [(a, b)]

/-- Write one byte, keeping addresses strictly rising and unwritten bytes unlisted. -/
def Memory.write : Memory → Nat → Byte → Memory
  | [], a, b => cellFor a b
  | (k, v) :: rest, a, b =>
    if a < k then cellFor a b ++ (k, v) :: rest
    else if a = k then cellFor a b ++ rest
    else (k, v) :: Memory.write rest a b

/-- The canonical form: addresses strictly rising and below 2^32 (R80), no listed byte equal to an unwritten one. -/
abbrev Memory.wf (m : Memory) : Prop :=
  m.Pairwise (fun c d => c.1 < d.1) ∧ ∀ c ∈ m, c.1 < Config.memSize ∧ c.2 ≠ unwrittenByte

/-- Whether an address lies in a region. -/
def Region.holds (r : Region) (a : Nat) : Bool := r.base ≤ a && a < r.base + r.size

/-- How data memory answers the block at an address: as the first region that holds it says, else as plain memory. An address
of 2^32 or above is none: nothing answers (R80, R86). -/
def Platform.kindAt (p : Platform) (a : Nat) : MemKind :=
  if Config.memSize ≤ a then .absent
  else
    match p.regions.find? (·.holds a) with
    | some r => r.kind
    | none => .plain

/-! ## Commands

A command's rule is a function of the registers it reads, which stay as they were at its launch (R142), and of the engine's
data. It ends normally, or stops with one of the reasons below, the data being what its accesses so far have made them. -/

/-- What a command reads and never writes. -/
structure Env where
  params : Params
  plat : Platform
  roms : Roms
  /-- How many resets there have been (assumption log 20). -/
  resets : Nat

/-- The registers and parameters a command of this state reads. -/
def State.env (s : State) : Env := ⟨s.params, s.plat, s.roms, s.resets⟩

/-- A command as it runs: the engine's data, the accesses made, and how many it may make before the host's next action. -/
structure Run where
  eng : Engine
  spent : Nat
  limit : Option Nat

/-- Why a command's rule stops before its end: a fault (R282), a pause (the host's next action comes first, or the stream has
not delivered what the rule needs, R90), or a refusal of the model. -/
inductive Stop where
  | fault (f : FaultName) (info addr : Nat)
  | pause
  | refuse (why : Refusal)
  deriving DecidableEq, Repr

/-- A step of a command's rule. -/
abbrev Cmd (α : Type) : Type := EStateM Stop Run α

/-- The engine's data. -/
def engine : Cmd Engine := fun r => .ok r.eng r

/-- Change the engine's data. -/
def updateEngine (f : Engine → Engine) : Cmd Unit := fun r => .ok () { r with eng := f r.eng }

/-- `raise F(info, addr)` (R11, R282). -/
def raise {α : Type} (f : FaultName) (info addr : Nat) : Cmd α := fun r => .error (.fault f info addr) r

/-- Stop here until the host has acted. -/
def pause {α : Type} : Cmd α := fun r => .error .pause r

/-- Raise a fault where a check fails. -/
def check (ok : Bool) (f : FaultName) (info addr : Nat) : Cmd Unit :=
  if ok then pure () else raise f info addr

/-- Account for one access: a command that has used up its accesses pauses before the next one. -/
def tick : Cmd Unit := fun r =>
  if r.limit = some r.spent then .error .pause r else .ok () { r with spent := r.spent + 1 }

/-- `body i`, `body (i + 1)`, ..., `n` times. -/
def forFrom (body : Nat → Cmd Unit) : Nat → Nat → Cmd Unit
  | _, 0 => pure ()
  | i, n + 1 => do
    body i
    forFrom body (i + 1) n

/-- `for i in 0..n-1: body i`. -/
def forUpTo (n : Nat) (body : Nat → Cmd Unit) : Cmd Unit := forFrom body 0 n

/-! ## Byte accesses (R83, R86) -/

/-- `MemRead(a, 1)`: MEM_OK is tested first, and a read it fails raises BUS_ERROR(0, a). -/
def readByte (env : Env) (a : Nat) : Cmd Byte := do
  tick
  match env.plat.kindAt a with
  | .plain => return (← engine).mem.read a
  | .absent => raise .busError 0 a
  | .device => throw (.refuse .sideEffectRegion)

/-- `MemWrite(a, 1, b)`: MEM_OK is tested first, and a write it fails raises BUS_ERROR(1, a). -/
def writeByte (env : Env) (a : Nat) (b : Byte) : Cmd Unit := do
  tick
  match env.plat.kindAt a with
  | .plain => updateEngine fun e => { e with mem := e.mem.write a b }
  | .absent => raise .busError 1 a
  | .device => throw (.refuse .sideEffectRegion)

/-- `MemWrite` of several bytes at ascending addresses (R11, R84). -/
def writeBytes (env : Env) : Nat → List Byte → Cmd Unit
  | _, [] => pure ()
  | a, b :: rest => do
    writeByte env a b
    writeBytes env (a + 1) rest

/-- An element's bytes in memory `m` when a reset lands inside it: of the bytes before the first that data memory does not
answer, those the free value says are written (70 R321; 93 S12; assumption log 20). -/
def tearElement (env : Env) : Nat → List Byte → Memory → Memory
  | _, [], m => m
  | a, b :: rest, m =>
    if env.plat.kindAt a = .plain then
      tearElement env (a + 1) rest (if Config.tornByteWritten env.resets a then m.write a b else m)
    else m

/-- `MemWrite` of an output element. A pause inside it leaves what a reset at that point leaves; a command that goes on from
there is followed anew from its launch (`proceed` in Machine/HostPort.lean), so nothing else sees it. -/
def writeElement (env : Env) (a : Nat) (bytes : List Byte) : Cmd Unit := fun r =>
  match writeBytes env a bytes r with
  | .error .pause r' =>
    if r'.spent = r.spent then .error .pause r'
    else .error .pause { r' with eng := { r'.eng with mem := tearElement env a bytes r.eng.mem } }
  | result => result

/-! ## The stream (R9, R11, R90) -/

/-- The bytes of the current stream, B[0..L-1]: those delivered before its EOS, so far. -/
def streamBytes : List PortItem → List Byte
  | .byte b :: rest => b :: streamBytes rest
  | _ => []

/-- Whether the current stream's EOS has been delivered. -/
def streamEnded : List PortItem → Bool
  | [] => false
  | .eos :: _ => true
  | .byte _ :: rest => streamEnded rest

/-- What the port holds after the current stream's EOS. -/
def afterStream : List PortItem → List PortItem
  | [] => []
  | .eos :: rest => rest
  | .byte _ :: rest => afterStream rest

/-- Stream bit j (R9): bytes are read most significant bit first, and bits past the end are 0. -/
def streamBit (bs : List Byte) (j : Nat) : Bool := (bs[j / 8]?.getD 0).getMsbD (j % 8)

/-- Five bytes from byte k as one number, the first the most significant, 0 past the end: they hold any 32 bits that begin in byte k. -/
def fiveBytes (bs : List Byte) (k : Nat) : Nat :=
  (List.range 5).foldl (fun acc i => acc * 256 + (bs[k + i]?.getD 0).toNat) 0

/-- `Window(p)` (R11): bit 31 - k is stream bit p + k (`window_getMsbD` in Laws/Stream.lean). -/
def window (bs : List Byte) (p : Nat) : Word :=
  BitVec.ofNat 32 (fiveBytes bs (p / 8) >>> (8 - p % 8))

/-- Go on only when `n` stream bits have been delivered, or no more will be (R90). -/
def needBits (n : Nat) : Cmd Unit := do
  let e ← engine
  if !streamEnded e.port && decide (8 * (streamBytes e.port).length < n) then pause else pure ()

/-- `Window(POS)`: every byte a bit of which enters the window must have been delivered, or the stream ended (R90, R174). -/
def windowHere : Cmd Word := do
  needBits ((← engine).pos + 32)
  let e ← engine
  return window (streamBytes e.port) e.pos

/-- Move the reader to bit position p, and keep BYTES_IN at min(L, ceil(POS / 8)) (R38). -/
def setPos (p : Nat) : Cmd Unit :=
  updateEngine fun e =>
    { e with
      pos := p
      bytesIn := BitVec.ofNat 32 (min (streamBytes e.port).length ((p + 7) / 8)) }

/-- `Consume(n)` (42_delta_decoder.md R182). -/
def consume (n : Nat) : Cmd Unit := do
  needBits ((← engine).pos + n)
  tick
  let e ← engine
  if 8 * (streamBytes e.port).length < e.pos + n then raise .eofInSeq 0 e.pos
  else setPos (e.pos + n)

/-- `NextByte(t)` (41_huffman_tables.md R150). -/
def nextByte (t : Nat) : Cmd Byte := do
  let e ← engine
  match (streamBytes e.port)[e.nb]? with
  | some b =>
    tick
    updateEngine fun e => { e with nb := e.nb + 1, bytesIn := BitVec.ofNat 32 (e.nb + 1) }
    return b
  | none => if streamEnded e.port then raise .eofInTable t e.nb else pause

/-- Discard the rest of the stream up to and including EOS (R90, R144, R282). Where the EOS has not been delivered yet, what
comes before it is discarded as it comes (`deliver` in Machine/HostPort.lean; assumption log 8). -/
def Engine.drain (e : Engine) : Engine :=
  if streamEnded e.port then { e with port := afterStream e.port }
  else { e with port := [], toDiscard := e.toDiscard + 1 }

/-- A command with a stream: at its end, normal or by a fault, the rest of its stream is discarded (R144, R282). -/
def withStream (body : Cmd Unit) : Cmd Unit := fun r =>
  match body r with
  | .ok _ r' => .ok () { r' with eng := r'.eng.drain }
  | .error (.fault f info addr) r' => .error (.fault f info addr) { r' with eng := r'.eng.drain }
  | .error e r' => .error e r'

/-! ## Launch, fault entry and completion -/

/-- Taking a fault, the block's exception (R282): the one operation that sets FAULT, FAULT_CODE, FAULT_INFO and FAULT_ADDR. BUSY falls,
DONE stays 0 and nothing is rolled back. The two words are registers of 32 bits (assumption log 12). -/
def faultEntry (f : FaultName) (info addr : Nat) (s : State) : State :=
  { s with
    faultInfo := BitVec.ofNat 32 info
    faultAddr := BitVec.ofNat 32 addr
    faultCode := f.code
    busy := false
    fault := true
    running := none }

/-- The return from a fault (R286): there is no resume; the host clears FAULT, which also zeroes FAULT_CODE, FAULT_INFO and
FAULT_ADDR (R35, R37), and launches anew. -/
def clearFault (s : State) : State :=
  { s with fault := false, faultCode := 0, faultInfo := 0, faultAddr := 0 }

/-- What a command has come to: completion (R144), fault entry (R282), or a command that still runs, BUSY staying 1. -/
def settle (work : Work) (base : Engine) (s : State) :
    EStateM.Result Stop Run Unit → Host.Outcome State Fault Refusal
  | .ok _ r => .next (completeState { s with eng := r.eng })
  | .error (.fault f info addr) r => .next (faultEntry f info addr { s with eng := r.eng })
  | .error .pause r => .next { s with eng := r.eng, running := some ⟨work, base, r.spent⟩ }
  | .error (.refuse why) _ => .refused why

/-- A command's rule between its launch and its end: the host may act after the launch and before the first access, between
any two accesses, and after the last one, BUSY being 1 all the while (R141, R350, R351; assumption log 7). -/
def whileBusy (rule : Cmd Unit) : Cmd Unit := do
  tick
  rule
  tick

/-- Launch (R140): a CMD write while BUSY or FAULT is 1 is ignored with OVR; otherwise the launch effects, then the command's
rule, as far as the pace lets it go before the host's next action. -/
def launch (w : Word) (work : Work) (rule : Env → Cmd Unit) (s : State) :
    Host.Outcome State Fault Refusal :=
  if s.busy || s.fault then .next (ignoreWrite s)
  else
    let s' := launchState w s
    settle work s'.eng s' (whileBusy (rule s'.env) ⟨s'.eng, 0, s'.pace⟩)

end Sys2Proof.Machine
end

