-- ==== Sys2Proof/Machine/Operands.lean ====
section
/-! DEFINITION. What command operands name (30_encoding.md R109): slots and their byte ranges, the planes of a DECODE, header fields,
table entries, the fields of CONV_CFG, and the geometry and overlap checks over them (60_exceptions.md R284, R285). -/

namespace Sys2Proof.Machine

/-! ## Slots and byte ranges -/

/-- Descriptor slot k (10_state.md R45). -/
def Params.slot (p : Params) (k : SlotIx) : Desc := p.slots[k.toNat]

/-- The bytes of a slot's plane, w*h (R45). -/
def Desc.bytes (d : Desc) : Nat := d.w.toNat * d.h.toNat

/-- The address of pixel (x, y): base + y*w + x (00_scope.md R12). -/
def Desc.pixel (d : Desc) (x y : Nat) : Nat := d.base.toNat + y * d.w.toNat + x

/-- The slot geometry check (R284), computed without wrap. -/
def Desc.geometryOk (d : Desc) : Bool :=
  1 ≤ d.w.toNat && 1 ≤ d.h.toNat && d.base.toNat + d.bytes ≤ Config.memSize

/-- A half-open range of byte addresses [lo, hi) (R285). -/
structure ByteRange where
  lo : Nat
  hi : Nat
  deriving DecidableEq, Repr

/-- A slot's byte range [base, base + w*h) (R285). -/
def Desc.range (d : Desc) : ByteRange := ⟨d.base.toNat, d.base.toNat + d.bytes⟩

/-- Two ranges intersect when each begins below the other's end (R285). -/
def ByteRange.meets (a b : ByteRange) : Bool := a.lo < b.hi && b.lo < a.hi

/-- Whether a range holds an address. -/
def ByteRange.holds (r : ByteRange) (a : Nat) : Bool := r.lo ≤ a && a < r.hi

/-- GEOM(info = k) unless slot k passes the slot geometry check (R284). -/
def checkSlot (env : Env) (k : SlotIx) : Cmd Unit :=
  check (env.params.slot k).geometryOk .geom k.toNat 0

/-! ## Huffman tables (41_huffman_tables.md R151 to R155) -/

/-- Whether an entry writes index idx: idx = cw | i for some i in 0..2^(16-len)-1 (R151, R155; `covers_iff` in Laws/Tables.lean).
The bits of idx above the low 16 - len are cw's, and every 1 bit of cw is a 1 bit of idx. -/
def Code.covers (c : Code) (idx : BitVec 16) : Bool :=
  idx >>> (16 - c.len.toNat) == c.cw >>> (16 - c.len.toNat) && idx &&& c.cw == c.cw

/-- KEY[idx] (R51): the symbol of the last applied entry that writes idx, else 0x7F (R152, R153). -/
def keyAt (codes : List Code) (idx : BitVec 16) : Byte :=
  match codes.find? (·.covers idx) with
  | some c => c.sym
  | none => 0x7F

/-- LEN[idx] (R51): the length of the last applied entry that writes idx, else the sentinel 31 (R152, R153). -/
def lenAt (codes : List Code) (idx : BitVec 16) : Nat :=
  match codes.find? (·.covers idx) with
  | some c => c.len.toNat
  | none => 31

/-- Table slot t, t = 0, 1, 2. -/
def Tables.get (ts : Tables) : Nat → TableSlot
  | 0 => ts.y
  | 1 => ts.c1
  | _ => ts.c2

/-- Replace table slot t. -/
def Tables.set (ts : Tables) (t : Nat) (v : TableSlot) : Tables :=
  match t with
  | 0 => { ts with y := v }
  | 1 => { ts with c1 := v }
  | _ => { ts with c2 := v }

/-! ## Planes of a DECODE (42_delta_decoder.md) -/

/-- The three planes a sequence can name. -/
inductive Plane where
  | y
  | c1
  | c2
  deriving DecidableEq, Repr

/-- T(P): the table slot of a plane, and its place in PEN (R104, R171). -/
def Plane.index : Plane → Nat
  | .y => 0
  | .c1 => 1
  | .c2 => 2

/-- Every plane, in the order Y, C1, C2 of the launch checks (R172, R173). -/
def allPlanes : List Plane := [.y, .c1, .c2]

/-- The operands of a DECODE: the slots named for the planes and the plane enables (R104). -/
structure DecodeOps where
  ys : SlotIx
  c1s : SlotIx
  c2s : SlotIx
  pen : BitVec 3

/-- The slot named for a plane: YS, C1S or C2S (R171). -/
def DecodeOps.slotOf (o : DecodeOps) : Plane → SlotIx
  | .y => o.ys
  | .c1 => o.c1s
  | .c2 => o.c2s

/-- PEN[P]: bit 14 of the word is Y's, bit 15 C1's, bit 16 C2's (R104). -/
def DecodeOps.enabled (o : DecodeOps) (p : Plane) : Bool := o.pen.getLsbD p.index

/-- The plane of a header's plane code, none for an invalid one (30_encoding.md R116, R183). -/
def planeOfCode : Nat → Option Plane
  | 0 => some .y
  | 2 => some .c1
  | 3 => some .c2
  | 4 => some .c2
  | _ => none

/-- The two header forms (R104). -/
inductive Header where
  | h24
  | h32
  deriving DecidableEq, Repr

/-- The fields of a sequence header: plane code, row and sequence (R179, R180). -/
structure HeaderFields where
  pc : Nat
  row : Nat
  seq : Nat
  deriving DecidableEq, Repr

/-- `Fields(hdr, W)` on W = Window(p + 16): R179 for H24, R180 for H32. -/
def Header.fields (h : Header) (w : Word) : HeaderFields :=
  match h with
  | .h24 => ⟨((w >>> 22) &&& 0x6).toNat, ((w >>> 9) &&& 0x1FFF).toNat, 0⟩
  | .h32 => ⟨((w >>> 19) &&& 0x6).toNat, ((w >>> 6) &&& 0x3FFF).toNat, ((w >>> 1) &&& 0xF).toNat⟩

/-- The header bits consumed after the first 16 (R42, R181). -/
def Header.skip (h : Header) (p : Params) : Nat :=
  match h with
  | .h24 => p.skip24.toNat
  | .h32 => p.skip32.toNat

/-- The row index in rows of the destination plane (R184). -/
def Header.rowIndex (h : Header) (p : Plane) (row : Nat) : Nat :=
  match h, p with
  | .h24, .y => row
  | .h24, _ => row >>> 1
  | .h32, .y => 2 * row
  | .h32, _ => row

/-- The sequence's column offset (R185). -/
def columnOffset (p : Params) : Plane → Nat
  | .y => p.colOffset.toNat
  | _ => p.colOffset.toNat >>> 1

/-- SYNC_LEN (R43, R175): 32 minus the number of trailing zero bits of SYNC_MASK. -/
def syncLen (mask : Word) : Nat := 32 - ((List.range 32).find? (mask.getLsbD ·)).getD 32

/-- The sync search matches this window (R43, R176). -/
def syncMatches (p : Params) (w : Word) : Bool := w &&& p.syncMask == p.syncPat &&& p.syncMask

/-! ## CONV_CFG and the output channels (10_state.md R44, 44_color_converter.md) -/

/-- The colour spaces of CONV_CFG.CSPACE (R44). -/
inductive ColourSpace where
  | raw709
  | lin709
  | srgb
  | ycc
  deriving DecidableEq, Repr

/-- CONV_CFG.CSPACE (R44). -/
def Params.cspace (p : Params) : ColourSpace :=
  match (p.convCfg.extractLsb' 0 2).toNat with
  | 0 => .raw709
  | 1 => .lin709
  | 2 => .srgb
  | _ => .ycc

/-- CONV_CFG.WB_D50 (R44). -/
def Params.wbD50 (p : Params) : Bool := p.convCfg.getLsbD 2

/-- CONV_CFG.MONO (R44). -/
def Params.mono (p : Params) : Bool := p.convCfg.getLsbD 3

/-- CONV_CFG.FMT (R44): 0 u8, 1 u16, 2 f32, 3 reserved. -/
def Params.fmt (p : Params) : Nat := (p.convCfg.extractLsb' 4 2).toNat

/-- CONV_CFG.ROT (R44). -/
def Params.rot (p : Params) : Nat := (p.convCfg.extractLsb' 6 2).toNat

/-- CONV_CFG.CSHIFT (R44): s = 0, 1, 2; 3 is reserved. -/
def Params.cshift (p : Params) : Nat := (p.convCfg.extractLsb' 8 2).toNat

/-- es, the bytes of an output element (R240, R254). -/
def Params.elemSize (p : Params) : Nat :=
  match p.fmt with
  | 0 => 1
  | 1 => 2
  | _ => 4

/-- CONVERT's output channels, in the order they are written (R242, R257). -/
inductive Channel where
  | r
  | g
  | b
  | a
  deriving DecidableEq, Repr

/-- A channel's number in FAULT_INFO (R242). -/
def Channel.index : Channel → Nat
  | .r => 0
  | .g => 1
  | .b => 2
  | .a => 3

/-- A channel's base address (R46). -/
def Params.outBase (p : Params) : Channel → Nat
  | .r => p.outR.toNat
  | .g => p.outG.toNat
  | .b => p.outB.toNat
  | .a => p.outA.toNat

/-- The channels a CONVERT writes: the alpha only if OUT_A is not 0 (R46, R255). -/
def Params.channels (p : Params) : List Channel :=
  if p.outA == 0 then [.r, .g, .b] else [.r, .g, .b, .a]

/-- A channel's byte range, its full span, for a luma plane of `pixels` pixels (R242). -/
def Params.channelRange (p : Params) (pixels : Nat) (ch : Channel) : ByteRange :=
  ⟨p.outBase ch, p.outBase ch + p.elemSize * ((pixels - 1) * p.outStride.toNat + 1)⟩

/-- The slots a CONVERT reads, with their plane numbers: the chroma planes only without MONO (R242, R245). -/
def Params.sources (p : Params) (ys c1s c2s : SlotIx) : List (Nat × SlotIx) :=
  if p.mono then [(0, ys)] else [(0, ys), (1, c1s), (2, c2s)]

/-- `RotIndex(ROT, r, c, W, H)` (R256). -/
def rotIndex (rot r c w h : Nat) : Nat :=
  match rot with
  | 0 => c + r * w
  | 1 => r + (w - 1 - c) * h
  | 2 => (w - 1 - c) + (h - 1 - r) * w
  | _ => (h - 1 - r) + c * h

end Sys2Proof.Machine
end

