-- ==== Sys2Proof/Machine/Control.lean ====
section
/-! DEFINITION. NOP, and the rejection of a word that is no command (40_control.md R145; 60_exceptions.md R283, steps 2 to 4). -/

namespace Sys2Proof.Machine

/-- NOP (R145): `done`. It takes no stream. -/
def nopRule (_ : Env) : Cmd Unit := pure ()

/-- The meaning of NOP (R145): the launch effects, then DONE. -/
def execNop (s : State) : Host.Outcome State Fault Refusal :=
  launch (encode .nop) (.command .nop) nopRule s

/-- FAULT_INFO of a word check (R281, R283): 0 reserved OP, 1 nonzero reserved bit, 2 illegal field value. -/
def rejectInfo : DecodeError → Nat
  | .reservedOp => 0
  | .reservedBit => 1
  | .illegalField => 2

/-- A word that is no command faults ILLEGAL_CMD before any access (R108, R283); if its opcode is one whose commands take a
stream, that stream is discarded like any faulted command's (R282; assumption log 9). -/
def rejectRule (why : DecodeError) (stream : Bool) (_ : Env) : Cmd Unit :=
  if stream then withStream (raise .illegalCmd (rejectInfo why) 0) else raise .illegalCmd (rejectInfo why) 0

/-- A CMD write of a word that is no command (R140, R283). -/
def rejectWord (w : Word) (why : DecodeError) (s : State) : Host.Outcome State Fault Refusal :=
  launch w (.reject why (takesStream w)) (rejectRule why (takesStream w)) s

end Sys2Proof.Machine
end

