-- ==== Sys2Proof/Machine/Convert.lean ====
section
/-! DEFINITION. CONVERT, colour conversion (44_color_converter.md R240 to R261). -/

namespace Sys2Proof.Machine

/-! ## The pixel index (R246 to R253) -/

/-- One value for each of the channels R, G and B. -/
structure Rgb (α : Type) where
  r : α
  g : α
  b : α
  deriving DecidableEq, Repr

/-- The same function of each channel. -/
def Rgb.map {α β : Type} (f : α → β) (v : Rgb α) : Rgb β := ⟨f v.r, f v.g, f v.b⟩

/-- `clamp(v, 0, 1388)` (R10): a colour index. -/
def clampColour (v : Int) : Colour := ⟨(max 0 (min v 1388)).toNat, by omega⟩

/-- `Yidx(v) = min(1388, floor(v * 1024 / 188))` (R246). -/
def yccIndex (v : Nat) : Colour := ⟨min 1388 (v * 1024 / 188), by omega⟩

/-- Li, C1i and C2i (R247): `none` is monochrome, where C1i = C2i = 0. -/
def matrixInputs (l : Nat) (chroma : Option (Nat × Nat)) : Int × Int × Int :=
  match chroma with
  | some (c1, c2) => ((l : Int) * 5573, ((c1 : Int) - 156) * 9085, ((c2 : Int) - 137) * 7461)
  | none => ((l : Int) * 5573, 0, 0)

/-- The matrix outputs (R248, R249): arithmetic shifts for R and B, divisions truncated toward zero for G. -/
def matrixIndex (l : Nat) (chroma : Option (Nat × Nat)) : Rgb Colour :=
  let (li, c1i, c2i) := matrixInputs l chroma
  { r := clampColour ((li + c2i) >>> 10)
    g := clampColour ((li >>> 10) - c1i.tdiv 5278 - c2i.tdiv 2012)
    b := clampColour ((li + c1i) >>> 10) }

/-- Coefficient WB_M[i], signed (10_state.md R48). -/
def Params.wbCoeff (p : Params) (i : Fin 9) : Int := p.wb[i].toInt

/-- One row of the white-balance matrix applied to the three values, floored (R251). -/
def wbRow (p : Params) (m0 m1 m2 : Fin 9) (v : Rgb Colour) : Int :=
  (p.wbCoeff m0 * (v.r.val : Int) + p.wbCoeff m1 * (v.g.val : Int) + p.wbCoeff m2 * (v.b.val : Int)) >>> 13

/-- The white-balance step, if WB_D50 is set, and the range clamp (R251, R252). -/
def whiteBalance (p : Params) (v : Rgb Colour) : Rgb Colour :=
  if p.wbD50 then
    { r := clampColour (wbRow p 0 1 2 v)
      g := clampColour (wbRow p 3 4 5 v)
      b := clampColour (wbRow p 6 7 8 v) }
  else v

/-- YCC mode (R246): no table and no white balance; monochrome gives three copies of the luma index. -/
def yccPixel (l : Nat) (chroma : Option (Nat × Nat)) : Rgb Colour :=
  match chroma with
  | some (c1, c2) => ⟨yccIndex l, yccIndex c1, yccIndex c2⟩
  | none => ⟨yccIndex l, yccIndex l, yccIndex l⟩

/-- `PixelIndex(L, c1, c2)` (R253's summary): the pipeline of each colour space. -/
def pixelIndex (env : Env) (l : Nat) (chroma : Option (Nat × Nat)) : Rgb Colour :=
  let p := env.params
  match p.cspace with
  | .raw709 => whiteBalance p (matrixIndex l chroma)
  | .lin709 => whiteBalance p ((matrixIndex l chroma).map fun v => env.roms.lin[v])
  | .srgb => (whiteBalance p ((matrixIndex l chroma).map fun v => env.roms.lin[v])).map fun v => env.roms.srgb[v]
  | .ycc => yccPixel l chroma

/-! ## Output elements (R254, R255; 20_memory.md R84) -/

/-- An element's bytes in memory order: least significant first, unless OUT_BIG_ENDIAN (R84, assumption log 14). -/
def memoryOrder (plat : Platform) (little : List Byte) : List Byte :=
  if plat.outBigEndian then little.reverse else little

/-- The bytes of a 16-bit value, least significant first (R84). -/
def bytes16 (v : BitVec 16) : List Byte := [v.extractLsb' 0 8, v.extractLsb' 8 8]

/-- The bytes of a 32-bit value, least significant first (R84). -/
def bytes32 (v : BitVec 32) : List Byte :=
  [v.extractLsb' 0 8, v.extractLsb' 8 8, v.extractLsb' 16 8, v.extractLsb' 24 8]

/-- The binary32 bit pattern of an OUTF entry (R7, R254; assumption log 4). -/
def floatPattern : UnitFloat → BitVec 32
  | .nonneg p => BitVec.ofNat 32 p.val
  | .negZero => 0x80000000

/-- `OutLUT(v)` as bytes in memory order (R254): OUT8, OUT16 or OUTF by CONV_CFG.FMT. -/
def outElement (env : Env) (v : Colour) : List Byte :=
  memoryOrder env.plat <|
    match env.params.fmt with
    | 0 => [env.roms.out8[v]]
    | 1 => bytes16 env.roms.out16[v]
    | _ => bytes32 (floatPattern env.roms.outf[v])

/-- OPAQUE as bytes in memory order (R255): 0xFF, 0xFFFF or 0x3F800000. -/
def opaqueElement (env : Env) : List Byte :=
  memoryOrder env.plat <|
    match env.params.fmt with
    | 0 => [0xFF]
    | 1 => bytes16 0xFFFF
    | _ => bytes32 0x3F800000

/-- What a channel's element holds at a pixel of index v (R240, R255). -/
def channelElement (env : Env) (v : Rgb Colour) : Channel → List Byte
  | .r => outElement env v.r
  | .g => outElement env v.g
  | .b => outElement env v.b
  | .a => opaqueElement env

/-! ## Launch checks (R241 to R243) -/

/-- The luma plane's pixels, W*H. -/
def lumaPixels (env : Env) (ys : SlotIx) : Nat := (env.params.slot ys).bytes

/-- Chroma slot k covers every chroma read of the luma plane (R241, step 2). -/
def chromaCovers (env : Env) (ys k : SlotIx) : Bool :=
  let y := env.params.slot ys
  let d := env.params.slot k
  d.geometryOk && decide ((y.w.toNat - 1) >>> env.params.cshift < d.w.toNat) &&
    decide ((y.h.toNat - 1) >>> env.params.cshift < d.h.toNat)

/-- GEOM(8..11) unless each channel's span ends within the address space (R241, steps 5 to 8). -/
def checkChannels (env : Env) (pixels : Nat) : List Channel → Cmd Unit
  | [] => pure ()
  | ch :: rest => do
    check ((env.params.channelRange pixels ch).hi ≤ Config.memSize) .geom (8 + ch.index) 0
    checkChannels env pixels rest

/-- OVERLAP((ch << 4) | pl) for the first source plane a channel's span meets (R242). -/
def checkChannelSources (env : Env) (pixels : Nat) (ch : Channel) : List (Nat × SlotIx) → Cmd Unit
  | [] => pure ()
  | (pl, k) :: rest => do
    check (!(env.params.channelRange pixels ch).meets (env.params.slot k).range)
      .overlap (ch.index <<< 4 ||| pl) 0
    checkChannelSources env pixels ch rest

/-- The overlap check, channels in the order R, G, B, A (R242). -/
def checkOutputs (env : Env) (pixels : Nat) (sources : List (Nat × SlotIx)) : List Channel → Cmd Unit
  | [] => pure ()
  | ch :: rest => do
    checkChannelSources env pixels ch sources
    checkOutputs env pixels sources rest

/-- CONVERT's launch checks in order: CONV_CFG (R243), geometry (R241), overlap (R242). -/
def convertChecks (env : Env) (ys c1s c2s : SlotIx) : Cmd Unit := do
  let p := env.params
  check (p.fmt != 3 && p.cshift != 3) .illegalCmd 3 0
  checkSlot env ys
  check (p.mono || chromaCovers env ys c1s) .geom c1s.toNat 0
  check (p.mono || chromaCovers env ys c2s) .geom c2s.toNat 0
  check (p.outStride != 0) .geom 12 0
  checkChannels env (lumaPixels env ys) p.channels
  checkOutputs env (lumaPixels env ys) (p.sources ys c1s c2s) p.channels

/-! ## The pixel loop (R240, R244, R245, R257) -/

/-- c1 and c2 of luma pixel (r, c), not read with MONO (R245). -/
def readChroma (env : Env) (c1s c2s : SlotIx) (r c : Nat) : Cmd (Option (Nat × Nat)) :=
  let s := env.params.cshift
  if env.params.mono then return none
  else do
    let c1 ← readByte env ((env.params.slot c1s).pixel (c >>> s) (r >>> s))
    let c2 ← readByte env ((env.params.slot c2s).pixel (c >>> s) (r >>> s))
    return some (c1.toNat, c2.toNat)

/-- Write a pixel's element of each channel, in the order R, G, B, A (R257). -/
def writeChannels (env : Env) (v : Rgb Colour) (d : Nat) : List Channel → Cmd Unit
  | [] => pure ()
  | ch :: rest => do
    writeElement env (env.params.outBase ch + env.params.elemSize * d) (channelElement env v ch)
    writeChannels env v d rest

/-- CONVERT's work for luma pixel (r, c) (R240, R244). -/
def convertPixel (env : Env) (ys c1s c2s : SlotIx) (r c : Nat) : Cmd Unit := do
  let p := env.params
  let y := p.slot ys
  let l ← readByte env (y.pixel c r)
  let chroma ← readChroma env c1s c2s r c
  let d := rotIndex p.rot r c y.w.toNat y.h.toNat * p.outStride.toNat
  writeChannels env (pixelIndex env l.toNat chroma) d p.channels

/-- CONVERT (R240). -/
def convertRule (ys c1s c2s : SlotIx) (env : Env) : Cmd Unit := do
  convertChecks env ys c1s c2s
  let y := env.params.slot ys
  forUpTo y.h.toNat fun r => forUpTo y.w.toNat fun c => convertPixel env ys c1s c2s r c

/-- The meaning of CONVERT (R240). -/
def execConvert (ys c1s c2s : SlotIx) (s : State) : Host.Outcome State Fault Refusal :=
  launch (encode (.convert ys c1s c2s)) (.command (.convert ys c1s c2s)) (convertRule ys c1s c2s) s

end Sys2Proof.Machine
end

