-- ==== Sys2Proof/Machine/Delta.lean ====
section
/-! DEFINITION. The delta decoder: CLEAR, DECODE.H24 and DECODE.H32 (42_delta_decoder.md R170 to R201). -/

namespace Sys2Proof.Machine

/-! ## CLEAR -/

/-- CLEAR (R170): GEOM(k), then a zero byte to every address of the plane, ascending. -/
def clearRule (k : SlotIx) (env : Env) : Cmd Unit := do
  checkSlot env k
  let d := env.params.slot k
  forUpTo d.bytes fun i => writeByte env (d.base.toNat + i) 0

/-- The meaning of CLEAR (R170). -/
def execClear (k : SlotIx) (s : State) : Host.Outcome State Fault Refusal :=
  launch (encode (.clear k)) (.command (.clear k)) (clearRule k) s

/-! ## DECODE: launch checks -/

/-- GEOM for each enabled plane's slot, in the order given (R172, step 2). -/
def checkPlaneSlots (env : Env) (o : DecodeOps) : List Plane → Cmd Unit
  | [] => pure ()
  | p :: rest => do
    if o.enabled p then checkSlot env (o.slotOf p) else pure ()
    checkPlaneSlots env o rest

/-- NO_TABLE for each enabled plane whose table is not valid, in the order given (R173). -/
def checkPlaneTables (o : DecodeOps) : List Plane → Cmd Unit
  | [] => pure ()
  | p :: rest => do
    let e ← engine
    check (!o.enabled p || (e.tables.get p.index).valid) .noTable p.index 0
    checkPlaneTables o rest

/-- DECODE's launch checks (R172, R173; 60_exceptions.md R283): SYNC_MASK, slots, tables. -/
def decodeChecks (env : Env) (o : DecodeOps) : Cmd Unit := do
  check (env.params.syncMask != 0) .illegalCmd 4 0
  checkPlaneSlots env o allPlanes
  checkPlaneTables o allPlanes

/-! ## DECODE: the sync search (R175 to R178) -/

/-- `Sync()` over at most `n` bit positions: true with POS at a marker, false when fewer than SYNC_LEN bits remain. It is R175's after an
unknown symbol in the padding too, where a mask with SYNC_LEN of 15 or less can still match, although R199 says that this search ends
with EOS_SYNC. DEDUCED (assumption log 27), unsafe. -/
def syncFrom (p : Params) : Nat → Cmd Bool
  | 0 => return false
  | n + 1 => do
    needBits ((← engine).pos + 32)
    tick
    let e ← engine
    if 8 * (streamBytes e.port).length < e.pos + syncLen p.syncMask then return false
    else if syncMatches p (window (streamBytes e.port) e.pos) then return true
    else do
      setPos (e.pos + 1)
      syncFrom p n

/-- `Sync()` (R175). The search passes each delivered bit at most once, so one position more than that is never reached. -/
def sync (p : Params) : Cmd Bool := do
  let e ← engine
  syncFrom p (8 * (streamBytes e.port).length + 1)

/-! ## DECODE: symbols (R187 to R192) -/

/-- `Put(P, i, v)` (R171, R190): a byte past the plane's end is dropped. -/
def putByte (env : Env) (d : Desc) (i : Nat) (v : Byte) : Cmd Unit :=
  if i < d.bytes then writeByte env (d.base.toNat + i) v else pure ()

/-- The unknown-symbol recovery (R192): zeros to the sequence's remaining `n` offsets from `i`, then SYM_ERRS and SYMERR. -/
def recoverSymbol (env : Env) (d : Desc) (i n : Nat) : Cmd Unit := do
  forFrom (fun m => putByte env d m 0) i n
  updateEngine fun e => { e with symErrs := e.symErrs + 1, symErr := true }

/-- The symbol loop (R189): `n` symbols still to decode, the next one to offset `i` of the plane. Lookup, then write, then consume. -/
def symbolsFrom (env : Env) (d : Desc) (t : Nat) : Nat → Nat → Cmd Unit
  | _, 0 => pure ()
  | i, n + 1 => do
    let idx := (← windowHere).extractLsb' 16 16
    let codes := ((← engine).tables.get t).codes
    if lenAt codes idx = 31 then recoverSymbol env d i (n + 1)
    else do
      putByte env d i (keyAt codes idx)
      consume (lenAt codes idx)
      symbolsFrom env d t (i + 1) n

/-! ## DECODE: sequences (R179 to R188) -/

/-- Skip a sequence (R186). -/
def skipSequence : Cmd Unit := updateEngine fun e => { e with seqSkip := e.seqSkip + 1 }

/-- The symbols a sequence carries (R187). -/
def symbolCount (p : Params) (d : Desc) : Nat := if p.seqSize = 0 then d.w.toNat else p.seqSize.toNat

/-- The offset of a sequence's first symbol (R188): ri*w(P) + seq*SEQ_SIZE + coff. -/
def firstOffset (p : Params) (h : Header) (pl : Plane) (d : Desc) (f : HeaderFields) : Nat :=
  h.rowIndex pl f.row * d.w.toNat + f.seq * p.seqSize.toNat + columnOffset p pl

/-- A sequence whose header named plane `pl` (R184 to R189): skipped, or its symbols decoded. -/
def planeSequence (env : Env) (h : Header) (o : DecodeOps) (pl : Plane) (f : HeaderFields) : Cmd Unit :=
  let d := env.params.slot (o.slotOf pl)
  if !o.enabled pl || decide (d.h.toNat ≤ h.rowIndex pl f.row) then skipSequence
  else symbolsFrom env d pl.index (firstOffset env.params h pl d f) (symbolCount env.params d)

/-- One sequence, POS being at its marker (R171, R181, R183, R198). -/
def decodeSequence (env : Env) (h : Header) (o : DecodeOps) : Cmd Unit := do
  let p := (← engine).pos
  consume 16
  let f := h.fields (← windowHere)
  consume (h.skip env.params)
  updateEngine fun e => { e with seqDone := e.seqDone + 1 }
  match planeOfCode f.pc with
  | none => raise .badPlane f.pc p
  | some pl => planeSequence env h o pl f

/-- The sequence loop (R171, R193) with `n` sequences left of the budget: SEQ_DONE starts at 0 and each pass that finds a marker
adds 1 to it, so SEQ_COUNT passes are `while SEQ_DONE < SEQ_COUNT`. A stream that ends in the search sets EOS_SYNC (R178). -/
def sequencesFrom (env : Env) (h : Header) (o : DecodeOps) : Nat → Cmd Unit
  | 0 => pure ()
  | n + 1 => do
    if ← sync env.params then do
      decodeSequence env h o
      sequencesFrom env h o n
    else updateEngine fun e => { e with eosSync := true }

/-- `DecodeBody(hdr)` after the launch checks (R171, R196, R197). -/
def decodeBody (h : Header) (o : DecodeOps) (env : Env) : Cmd Unit := do
  decodeChecks env o
  sequencesFrom env h o env.params.seqCount.toNat

/-- A DECODE: the rest of its stream is discarded at its end (R194). -/
def decodeRule (h : Header) (o : DecodeOps) (env : Env) : Cmd Unit := withStream (decodeBody h o env)

/-- The meaning of DECODE.H24 (R196). -/
def execDecodeH24 (ys c1s c2s : SlotIx) (pen : BitVec 3) (s : State) : Host.Outcome State Fault Refusal :=
  launch (encode (.decodeH24 ys c1s c2s pen)) (.command (.decodeH24 ys c1s c2s pen))
    (decodeRule .h24 ⟨ys, c1s, c2s, pen⟩) s

/-- The meaning of DECODE.H32 (R197). -/
def execDecodeH32 (ys c1s c2s : SlotIx) (pen : BitVec 3) (s : State) : Host.Outcome State Fault Refusal :=
  launch (encode (.decodeH32 ys c1s c2s pen)) (.command (.decodeH32 ys c1s c2s pen))
    (decodeRule .h32 ⟨ys, c1s, c2s, pen⟩) s

end Sys2Proof.Machine
end

