-- ==== Sys2Proof/WellFormed.lean ====
section
/-! DEFINITION. Which operand values are legal (30_encoding.md R102, R108). Only LOADHT has illegal ones; the width of every
other field is the width of its type. -/

namespace Sys2Proof

/-- LOADHT loads at least one table (R108: NT = 0 is illegal). -/
def Instr.loadsATable : Instr → Bool
  | .loadht nt _ _ => nt != 0
  | _ => true

/-- LOADHT's first slot is one of 0..2 (R108: FIRST = 3 is illegal). -/
def Instr.firstSlotExists : Instr → Bool
  | .loadht _ first _ => first != 3
  | _ => true

/-- LOADHT's last slot exists (R108: FIRST + NT > 3 is illegal). -/
def Instr.lastSlotExists : Instr → Bool
  | .loadht nt first _ => first.toNat + nt.toNat ≤ 3
  | _ => true

/-- A well-formed command: no field holds a value that R108 calls illegal. -/
def Instr.wellFormed (i : Instr) : Bool :=
  i.loadsATable && i.firstSlotExists && i.lastSlotExists

end Sys2Proof
end

