-- ==== Sys2Proof/Machine/Huffman.lean ====
section
/-! DEFINITION. LOADHT, Huffman table loading (41_huffman_tables.md R150 to R161). -/

namespace Sys2Proof.Machine

/-- Change table slot t. -/
def updateTable (t : Nat) (f : TableSlot → TableSlot) : Cmd Unit :=
  updateEngine fun e => { e with tables := e.tables.set t (f (e.tables.get t)) }

/-- TBL_VALID[t] <- v (R157). -/
def setValid (t : Nat) (v : Bool) : Cmd Unit := updateTable t fun x => { x with valid := v }

/-- Every index of slot t to KEY 0x7F, LEN 31 (R153): no entry applied. -/
def emptyTable (t : Nat) : Cmd Unit := updateTable t fun x => { x with codes := [] }

/-- `for i in 0..2^(16-len)-1: KEY[t][cw | i] <- sym; LEN[t][cw | i] <- len` (R151, R152, R155). -/
def applyEntry (t : Nat) (c : Code) : Cmd Unit := updateTable t fun x => { x with codes := c :: x.codes }

/-- KEY[t] and LEN[t] become copies of slot t - 1's (R156). -/
def copyTable (t : Nat) : Cmd Unit := do
  let previous := (← engine).tables.get (t - 1)
  updateTable t fun x => { x with codes := previous.codes }

/-- One entry of slot t's table (R151, R154, R155): four bytes, then, unless the table is a copy, the length check and the
entry's indices. -/
def loadEntry (copy : Bool) (t e : Nat) : Cmd Unit := do
  let epos := (← engine).nb
  let b0 ← nextByte t
  let hi ← nextByte t
  let lo ← nextByte t
  let sym ← nextByte t
  if copy then pure ()
  else do
    let len := b0.toNat + 1
    check (len ≤ 16) .huffLen (t <<< 8 ||| e) epos
    applyEntry t ⟨hi ++ lo, BitVec.ofNat 5 len, sym⟩

/-- `BuildTable(j, t)` (R151, R156, R157). -/
def buildTable (j t : Nat) : Cmd Unit := do
  setValid t false
  let n := (← nextByte t).toNat + 1
  let copy := decide (1 ≤ j ∧ n < 4)
  if copy then pure () else emptyTable t
  forUpTo n (loadEntry copy t)
  if copy then copyTable t else pure ()
  setValid t true

/-- LOADHT's launch check and body (R160; 60_exceptions.md R283, step 4): illegal field values, then NT tables, then the EPT byte. -/
def loadhtBody (nt first : BitVec 2) (ept : Bool) : Cmd Unit := do
  check (Instr.loadht nt first ept).wellFormed .illegalCmd 2 0
  forUpTo nt.toNat fun j => buildTable j (first.toNat + j)
  if ept then do
    let _ ← nextByte (first.toNat + nt.toNat - 1)
    pure ()
  else pure ()

/-- LOADHT (R160): the rest of its stream is drained at its end. -/
def loadhtRule (nt first : BitVec 2) (ept : Bool) (_ : Env) : Cmd Unit :=
  withStream (loadhtBody nt first ept)

/-- The meaning of LOADHT (R160). -/
def execLoadht (nt first : BitVec 2) (ept : Bool) (s : State) : Host.Outcome State Fault Refusal :=
  launch (encode (.loadht nt first ept)) (.command (.loadht nt first ept)) (loadhtRule nt first ept) s

end Sys2Proof.Machine
end

