-- ==== Sys2Proof/Machine/Upsample.lean ====
section
/-! DEFINITION. Up-resolution: UPRES.BL, UPRES.ADD and UPRES.NN (43_upsampler.md R220 to R230). -/

namespace Sys2Proof.Machine

/-! ## The kernel (R222, R228) -/

/-- The average of two taps, a half rounded up (R222, R228). -/
def average2 (a b : Nat) : Nat := (a + b + 1) >>> 1

/-- The average of four taps, a half rounded up and the bias applied once (R222, R228). -/
def average4 (a b d e : Nat) : Nat := (a + b + d + e + 2) >>> 2

/-- The right-edge and bottom-edge clamp: the next column or row, or the last one (R222). -/
def nextClamped (i n : Nat) : Nat := min (i + 1) (n - 1)

/-- The four source taps of a source pixel. -/
structure Taps where
  a : Nat
  b : Nat
  d : Nat
  e : Nat

/-- Which of its four destination pixels: column 2c or 2c + 1, row 2r or 2r + 1. -/
structure Quarter where
  dx : Nat
  dy : Nat

/-- The four destination pixels in the order they are written (R226): (2c, 2r), (2c+1, 2r), (2c, 2r+1), (2c+1, 2r+1). -/
def quarters : List Quarter := [⟨0, 0⟩, ⟨1, 0⟩, ⟨0, 1⟩, ⟨1, 1⟩]

/-- The bilinear value of a destination pixel (R222's table). -/
def Taps.bilinear (t : Taps) (q : Quarter) : Nat :=
  match q.dx, q.dy with
  | 0, 0 => t.a
  | _, 0 => average2 t.a t.b
  | 0, _ => average2 t.a t.d
  | _, _ => average4 t.a t.b t.d t.e

/-- `clamp(u + sext_8(t), 0, 255)` (R224). -/
def saturatingAdd (u : Nat) (t : Byte) : Byte := BitVec.ofInt 8 (max 0 (min 255 ((u : Int) + t.toInt)))

/-! ## Launch checks (R221) -/

/-- The source and destination geometry (R220, R221, steps 1 and 2). -/
def checkUpresSlots (env : Env) (src dst : SlotIx) : Cmd Unit := do
  checkSlot env src
  let s := env.params.slot src
  let d := env.params.slot dst
  check (d.geometryOk && d.w.toNat == 2 * s.w.toNat && d.h.toNat == 2 * s.h.toNat) .geom dst.toNat 0

/-- The delta plane has the destination's dimensions (R221, step 3). -/
def checkDeltaSlot (env : Env) (dst dlt : SlotIx) : Cmd Unit :=
  let d := env.params.slot dst
  let x := env.params.slot dlt
  check (x.geometryOk && x.w == d.w && x.h == d.h) .geom dlt.toNat 0

/-- OVERLAP(1) if the destination meets the source (R221, step 4). -/
def checkUpresOverlap (env : Env) (src dst : SlotIx) : Cmd Unit :=
  check (!(env.params.slot dst).range.meets (env.params.slot src).range) .overlap 1 0

/-- OVERLAP(2) if the delta plane meets the destination without being equal to it (R221, step 5). -/
def checkDeltaOverlap (env : Env) (dst dlt : SlotIx) : Cmd Unit :=
  let d := (env.params.slot dst).range
  let x := (env.params.slot dlt).range
  check (!x.meets d || x == d) .overlap 2 0

/-! ## Pixels -/

/-- S[x, y] (R223). -/
def readPixel (env : Env) (k : SlotIx) (x y : Nat) : Cmd Byte := readByte env ((env.params.slot k).pixel x y)

/-- D[x, y] <- v (R223). -/
def writePixel (env : Env) (k : SlotIx) (x y : Nat) (v : Byte) : Cmd Unit :=
  writeByte env ((env.params.slot k).pixel x y) v

/-- a, b, d, e of source pixel (c, r), read in that order, a repeated address being read again (R222, R226). -/
def readTaps (env : Env) (src : SlotIx) (c r : Nat) : Cmd Taps := do
  let s := env.params.slot src
  let c1 := nextClamped c s.w.toNat
  let r1 := nextClamped r s.h.toNat
  let a ← readPixel env src c r
  let b ← readPixel env src c1 r
  let d ← readPixel env src c r1
  let e ← readPixel env src c1 r1
  return ⟨a.toNat, b.toNat, d.toNat, e.toNat⟩

/-- Do `f` for the destination pixels of source pixel (c, r), in order. -/
def forQuarters (f : Quarter → Nat → Nat → Cmd Unit) (c r : Nat) : List Quarter → Cmd Unit
  | [] => pure ()
  | q :: rest => do
    f q (2 * c + q.dx) (2 * r + q.dy)
    forQuarters f c r rest

/-- Every pixel of the source, row by row (R226). -/
def forPixels (w h : Nat) (f : Nat → Nat → Cmd Unit) : Cmd Unit :=
  forUpTo h fun r => forUpTo w fun c => f c r

/-- UPRES.BL's work for one source pixel (R223). -/
def bilinearPixel (env : Env) (src dst : SlotIx) (c r : Nat) : Cmd Unit := do
  let t ← readTaps env src c r
  forQuarters (fun q x y => writePixel env dst x y (BitVec.ofNat 8 (t.bilinear q))) c r quarters

/-- UPRES.ADD's work for one source pixel (R224): each delta byte is read just before its destination byte is written (R226). -/
def addPixel (env : Env) (src dst dlt : SlotIx) (c r : Nat) : Cmd Unit := do
  let t ← readTaps env src c r
  forQuarters (fun q x y => do
    let v ← readPixel env dlt x y
    writePixel env dst x y (saturatingAdd (t.bilinear q) v)) c r quarters

/-- UPRES.NN's work for one source pixel (R225): only a is read. -/
def nearestPixel (env : Env) (src dst : SlotIx) (c r : Nat) : Cmd Unit := do
  let a ← readPixel env src c r
  forQuarters (fun _ x y => writePixel env dst x y a) c r quarters

/-! ## The commands -/

/-- UPRES.BL (R223). -/
def upresBlRule (src dst : SlotIx) (env : Env) : Cmd Unit := do
  checkUpresSlots env src dst
  checkUpresOverlap env src dst
  let s := env.params.slot src
  forPixels s.w.toNat s.h.toNat (bilinearPixel env src dst)

/-- UPRES.ADD (R224). -/
def upresAddRule (src dst dlt : SlotIx) (env : Env) : Cmd Unit := do
  checkUpresSlots env src dst
  checkDeltaSlot env dst dlt
  checkUpresOverlap env src dst
  checkDeltaOverlap env dst dlt
  let s := env.params.slot src
  forPixels s.w.toNat s.h.toNat (addPixel env src dst dlt)

/-- UPRES.NN (R225). -/
def upresNnRule (src dst : SlotIx) (env : Env) : Cmd Unit := do
  checkUpresSlots env src dst
  checkUpresOverlap env src dst
  let s := env.params.slot src
  forPixels s.w.toNat s.h.toNat (nearestPixel env src dst)

/-- The meaning of UPRES.BL (R223). -/
def execUpresBl (src dst : SlotIx) (s : State) : Host.Outcome State Fault Refusal :=
  launch (encode (.upresBl src dst)) (.command (.upresBl src dst)) (upresBlRule src dst) s

/-- The meaning of UPRES.ADD (R224). -/
def execUpresAdd (src dst dlt : SlotIx) (s : State) : Host.Outcome State Fault Refusal :=
  launch (encode (.upresAdd src dst dlt)) (.command (.upresAdd src dst dlt)) (upresAddRule src dst dlt) s

/-- The meaning of UPRES.NN (R225). -/
def execUpresNn (src dst : SlotIx) (s : State) : Host.Outcome State Fault Refusal :=
  launch (encode (.upresNn src dst)) (.command (.upresNn src dst)) (upresNnRule src dst) s

end Sys2Proof.Machine
end

