-- ==== Sys2Proof/Machine/Dispatch.lean ====
section
/-! DEFINITION. The meaning of each command, one arm per constructor (30_encoding.md R107). -/

namespace Sys2Proof.Machine

/-- What a CMD write of the instruction's word does. -/
def exec (i : Instr) (s : State) : Host.Outcome State Fault Refusal :=
  match i with
  | .nop => Sys2Proof.Machine.execNop s
  | .loadht nt first ept => Sys2Proof.Machine.execLoadht nt first ept s
  | .clear slot => Sys2Proof.Machine.execClear slot s
  | .decodeH24 ys c1s c2s pen => Sys2Proof.Machine.execDecodeH24 ys c1s c2s pen s
  | .decodeH32 ys c1s c2s pen => Sys2Proof.Machine.execDecodeH32 ys c1s c2s pen s
  | .upresBl src dst => Sys2Proof.Machine.execUpresBl src dst s
  | .upresAdd src dst dlt => Sys2Proof.Machine.execUpresAdd src dst dlt s
  | .upresNn src dst => Sys2Proof.Machine.execUpresNn src dst s
  | .convert ys c1s c2s => Sys2Proof.Machine.execConvert ys c1s c2s s

end Sys2Proof.Machine
end

