-- ==== Sys2Proof/Machine/Registers.lean ====
section
/-! DEFINITION. The register window: the map from offsets to registers, reads, writes of everything but CMD, and reset
(10_state.md R32 to R50, R55; 70_reset_and_hazards.md R320, R321). -/

namespace Sys2Proof.Machine

/-- The registers of R32's map. -/
inductive Reg where
  | id
  | ctrl
  | status
  | cmd
  | faultInfo
  | faultAddr
  | bytesIn
  | seqDone
  | seqSkip
  | symErrs
  | seqCount
  | seqSize
  | colOffset
  | hdrCfg
  | syncPat
  | syncMask
  | convCfg
  | outR
  | outG
  | outB
  | outA
  | outStride
  | tblValid
  | wb (i : Fin 9)
  | descBase (k : SlotIx)
  | descSize (k : SlotIx)
  deriving DecidableEq, Repr

/-- The register at a word offset, 0x060 + 4i for WB_Mi, 0x100 + 8k and 0x104 + 8k for slot k; none where R32 reserves it. -/
def regAt (off : BitVec 12) : Option Reg :=
  match off.toNat with
  | 0x000 => some .id
  | 0x004 => some .ctrl
  | 0x008 => some .status
  | 0x00C => some .cmd
  | 0x010 => some .faultInfo
  | 0x014 => some .faultAddr
  | 0x018 => some .bytesIn
  | 0x01C => some .seqDone
  | 0x020 => some .seqSkip
  | 0x024 => some .symErrs
  | 0x028 => some .seqCount
  | 0x02C => some .seqSize
  | 0x030 => some .colOffset
  | 0x034 => some .hdrCfg
  | 0x038 => some .syncPat
  | 0x03C => some .syncMask
  | 0x040 => some .convCfg
  | 0x044 => some .outR
  | 0x048 => some .outG
  | 0x04C => some .outB
  | 0x050 => some .outA
  | 0x054 => some .outStride
  | 0x058 => some .tblValid
  | n =>
    if n % 4 ≠ 0 then none
    else if h : 0x060 ≤ n ∧ n ≤ 0x080 then some (.wb ⟨(n - 0x060) / 4, by omega⟩)
    else if 0x100 ≤ n ∧ n < 0x140 then
      if n % 8 = 0 then some (.descBase (BitVec.ofNat 3 ((n - 0x100) / 8)))
      else some (.descSize (BitVec.ofNat 3 ((n - 0x100) / 8)))
    else none

/-- HDR_CFG as read (R42): SKIP24 in bits 5:0, SKIP32 in bits 13:8. -/
def Params.hdrCfgWord (p : Params) : Word := p.skip24.setWidth 32 ||| p.skip32.setWidth 32 <<< 8

/-- DESC_SIZE as read (R45): the width in bits 15:0, the height in bits 31:16. -/
def Desc.sizeWord (d : Desc) : Word := d.h ++ d.w

/-- The word a read of a register returns (R32 to R48). No read has a side effect. -/
def readReg (s : State) : Reg → Word
  | .id => 0x50434401
  | .ctrl => flagBit s.irqEn 0
  | .status => s.statusWord
  | .cmd => 0
  | .faultInfo => s.faultInfo
  | .faultAddr => s.faultAddr
  | .bytesIn => s.eng.bytesIn
  | .seqDone => s.eng.seqDone
  | .seqSkip => s.eng.seqSkip
  | .symErrs => s.eng.symErrs
  | .seqCount => s.params.seqCount
  | .seqSize => s.params.seqSize.setWidth 32
  | .colOffset => s.params.colOffset.setWidth 32
  | .hdrCfg => s.params.hdrCfgWord
  | .syncPat => s.params.syncPat
  | .syncMask => s.params.syncMask
  | .convCfg => s.params.convCfg.setWidth 32
  | .outR => s.params.outR
  | .outG => s.params.outG
  | .outB => s.params.outB
  | .outA => s.params.outA
  | .outStride => s.params.outStride
  | .tblValid => s.eng.tables.validWord
  | .wb i => s.params.wb[i].signExtend 32
  | .descBase k => s.params.slots[k.toNat].base
  | .descSize k => s.params.slots[k.toNat].sizeWord

/-- The word a read at an offset returns: reserved offsets read 0 (R32). -/
def readOffset (s : State) (off : BitVec 12) : Word :=
  match regAt off with
  | some r => readReg s r
  | none => 0

/-- A write of a parameter register: the implemented bits take the word's, reserved bits are dropped (R40 to R49). A
read-only register ignores it. -/
def writeParam (r : Reg) (v : Word) (p : Params) : Params :=
  match r with
  | .seqCount => { p with seqCount := v }
  | .seqSize => { p with seqSize := v.extractLsb' 0 16 }
  | .colOffset => { p with colOffset := v.extractLsb' 0 16 }
  | .hdrCfg => { p with skip24 := v.extractLsb' 0 6, skip32 := v.extractLsb' 8 6 }
  | .syncPat => { p with syncPat := v }
  | .syncMask => { p with syncMask := v }
  | .convCfg => { p with convCfg := v.extractLsb' 0 10 }
  | .outR => { p with outR := v }
  | .outG => { p with outG := v }
  | .outB => { p with outB := v }
  | .outA => { p with outA := v }
  | .outStride => { p with outStride := v }
  | .wb i => { p with wb := p.wb.set i (v.extractLsb' 0 16) }
  | .descBase k =>
    let d := p.slots[k.toNat]
    { p with slots := p.slots.set k.toNat { d with base := v } }
  | .descSize k =>
    let d := p.slots[k.toNat]
    { p with slots := p.slots.set k.toNat { d with w := v.extractLsb' 0 16, h := v.extractLsb' 16 16 } }
  | .id | .ctrl | .status | .cmd | .faultInfo | .faultAddr | .bytesIn | .seqDone | .seqSkip | .symErrs
  | .tblValid => p

/-- A STATUS write (R35): a 1 in DONE, FAULT or OVR clears that field, clearing FAULT as `clearFault` says; every other bit is
not writable. It takes effect while BUSY too, and does not touch the running command (R143). -/
def writeStatus (v : Word) (s : State) : State :=
  let s := if v.getLsbD 1 then { s with done := false } else s
  let s := if v.getLsbD 2 then clearFault s else s
  if v.getLsbD 4 then { s with ovr := false } else s

/-- Reset (R55, R320, R321): every register at its reset value, no valid table, no command running, the reader idle, the port
empty. Data memory, the ROMs and the platform's parameters are as they were; so are the entries of the tables, which no
command can read now (R322; assumption log 5). The host's side is not the block's: its pending actions, the schedule, the last
word it read and the reset input stay. The reset is counted, so that the next torn element's free values are fresh ones. -/
def resetBlock (s : State) : State :=
  { State.reset with
    eng := { Engine.reset with
      mem := s.eng.mem
      tables :=
        { y := { s.eng.tables.y with valid := false }
          c1 := { s.eng.tables.c1 with valid := false }
          c2 := { s.eng.tables.c2 with valid := false } } }
    roms := s.roms
    plat := s.plat
    resetLine := s.resetLine
    busRead := s.busRead
    resets := s.resets + 1
    pace := s.pace
    inbox := s.inbox }

/-- A CTRL write (R34, R321): bit 31 resets the block, and the other bits are then ignored; else bit 0 is IRQ_EN. It takes
effect while BUSY too. -/
def writeCtrl (v : Word) (s : State) : State :=
  if v.getLsbD 31 then resetBlock s else { s with irqEn := v.getLsbD 0 }

/-- A write of a register that is not CMD (R34, R35, R50): while BUSY, one to any register but CTRL and STATUS is ignored and
sets OVR (assumption log 10). -/
def writeReg (r : Reg) (v : Word) (s : State) : State :=
  match r with
  | .ctrl => writeCtrl v s
  | .status => writeStatus v s
  | r => if s.busy then ignoreWrite s else { s with params := writeParam r v s.params }

end Sys2Proof.Machine
end

