-- ==== Sys2Proof/Machine/HostPort.lean ====
section
/-! DEFINITION. The host's actions on the block (10_state.md R30; 20_memory.md R81, R90; 40_control.md R140, R143;
70_reset_and_hazards.md R320, R342, R344), and a running command going on. -/

namespace Sys2Proof.Machine

/-! ## A running command going on -/

/-- The rule of a running command: the same rule that was launched. -/
def ruleOf : Work → Env → Cmd Unit
  | .command .nop => nopRule
  | .command (.loadht nt first ept) => loadhtRule nt first ept
  | .command (.clear k) => clearRule k
  | .command (.decodeH24 ys c1s c2s pen) => decodeRule .h24 ⟨ys, c1s, c2s, pen⟩
  | .command (.decodeH32 ys c1s c2s pen) => decodeRule .h32 ⟨ys, c1s, c2s, pen⟩
  | .command (.upresBl src dst) => upresBlRule src dst
  | .command (.upresAdd src dst dlt) => upresAddRule src dst dlt
  | .command (.upresNn src dst) => upresNnRule src dst
  | .command (.convert ys c1s c2s) => convertRule ys c1s c2s
  | .reject why stream => rejectRule why stream

/-- Let the running command make `n` more accesses, or go on until it ends or needs bytes the stream has not delivered. Its
rule is followed from its launch on, over what has been delivered since, to `n` accesses past those already made: a command's
registers and buffers do not change while it runs (R142, R342), so the accesses already made come out as they were
(assumption log 7). -/
def proceed (n : Option Nat) (s : State) : Host.Outcome State Fault Refusal :=
  match s.running with
  | none => .next s
  | some c => settle c.work c.base s (whileBusy (ruleOf c.work s.env) ⟨c.base, 0, n.map (c.used + ·)⟩)

/-! ## Registers -/

/-- A CMD write (R36, R140): the word's command is launched, or the word is rejected. -/
def commandWrite (w : Word) (s : State) : Host.Outcome State Fault Refusal :=
  match decode w with
  | .ok i => exec i s
  | .error why => rejectWord w why s

/-- Whether an access is a 32-bit one at a 4-byte-aligned offset (R81). -/
def accessAllowed (off : BitVec 12) (width : Width) : Bool := width == .word && off.toNat % 4 == 0

/-- Refuse an access the block gives no response to: one of another width or alignment (R81), or any during reset (R320). -/
def whenAnswered (off : BitVec 12) (width : Width) (s : State)
    (answer : Host.Outcome State Fault Refusal) : Host.Outcome State Fault Refusal :=
  if s.resetLine then .refused .heldInReset
  else if accessAllowed off width then answer
  else .refused .registerAccess

/-- A host store in the register window (R32, R81): reserved offsets ignore it. -/
def hostWrite (off : BitVec 12) (v : Word) (s : State) : Host.Outcome State Fault Refusal :=
  match regAt off with
  | none => .next s
  | some .cmd => commandWrite v s
  | some r => .next (writeReg r v s)

/-! ## Stream and data memory -/

/-- A delivery on the port: discarded while the EOS of an ended command's stream is outstanding, else it joins the end of what
the port holds (R90, R344). -/
def Engine.deliver (item : PortItem) (e : Engine) : Engine :=
  match e.toDiscard, item with
  | 0, _ => { e with port := e.port ++ [item] }
  | _ + 1, .byte _ => e
  | n + 1, .eos => { e with toDiscard := n }

/-- Change the engine's data from outside, for a running command also as it was at the launch. -/
def updateBoth (f : Engine → Engine) (s : State) : State :=
  { s with eng := f s.eng, running := s.running.map fun c => { c with base := f c.base } }

/-- A delivery on the stream port. During reset it is discarded (R320). -/
def deliver (item : PortItem) (s : State) : State :=
  if s.resetLine then s else updateBoth (Engine.deliver item) s

/-- The byte ranges of a command (R342): the slots it names and reads, and for CONVERT the output channels' spans. -/
def commandRanges (p : Params) : Work → List ByteRange
  | .command (.clear k) => [(p.slot k).range]
  | .command (.decodeH24 ys c1s c2s pen) =>
    (allPlanes.filter (DecodeOps.enabled ⟨ys, c1s, c2s, pen⟩ ·)).map fun pl =>
      (p.slot (DecodeOps.slotOf ⟨ys, c1s, c2s, pen⟩ pl)).range
  | .command (.decodeH32 ys c1s c2s pen) =>
    (allPlanes.filter (DecodeOps.enabled ⟨ys, c1s, c2s, pen⟩ ·)).map fun pl =>
      (p.slot (DecodeOps.slotOf ⟨ys, c1s, c2s, pen⟩ pl)).range
  | .command (.upresBl src dst) => [(p.slot src).range, (p.slot dst).range]
  | .command (.upresAdd src dst dlt) => [(p.slot src).range, (p.slot dst).range, (p.slot dlt).range]
  | .command (.upresNn src dst) => [(p.slot src).range, (p.slot dst).range]
  | .command (.convert ys c1s c2s) =>
    (p.sources ys c1s c2s).map (fun x => (p.slot x.2).range) ++
      p.channels.map (p.channelRange (p.slot ys).bytes)
  | .command .nop => []
  | .command (.loadht _ _ _) => []
  | .reject _ _ => []

/-- Whether an address is in the byte ranges of the running command. -/
def inUse (s : State) (a : Nat) : Bool :=
  match s.running with
  | some c => (commandRanges s.params c.work).any (·.holds a)
  | none => false

/-- A host write of a data-memory byte: not to a running command's buffers (R342; assumption log 18). Elsewhere the byte takes the
value, in an absent and in a device region too: MEM_OK says what responds to the block, and the spec does not say what the host's
own access there does. DESIGN CHOICE (assumption log 26), unsafe. -/
def hostMemWrite (a : Nat) (b : Byte) (s : State) : Host.Outcome State Fault Refusal :=
  if inUse s a then .refused .hostBufferAccess
  else .next (updateBoth (fun e => { e with mem := e.mem.write a b }) s)

/-- A host read of a data-memory byte: not from a running command's buffers (R342; assumption log 18). Elsewhere it returns the
byte's last value, in an absent and in a device region too, and has no side effect. DESIGN CHOICE (assumption log 26), unsafe. -/
def hostMemRead (a : Nat) (s : State) : Host.Outcome State Fault Refusal :=
  if inUse s a then .refused .hostBufferAccess
  else .next { s with busRead := (s.eng.mem.read a).setWidth 32 }

/-! ## All actions -/

/-- One action of the host. -/
def hostAct (ev : HostEvent) (s : State) : Host.Outcome State Fault Refusal :=
  match ev with
  | .write off width v => whenAnswered off width s (hostWrite off v s)
  | .read off width => whenAnswered off width s (.next { s with busRead := readOffset s off })
  | .streamByte b => .next (deliver (.byte b) s)
  | .streamEnd => .next (deliver .eos s)
  | .memWrite a b => hostMemWrite a.toNat b s
  | .memRead a => hostMemRead a.toNat s
  | .letRun n => proceed n s
  | .setPace n => .next { s with pace := n }
  | .assertReset => .next { resetBlock s with resetLine := true }
  | .releaseReset => .next { s with resetLine := false }

/-- With no host action left, a running command goes on to its end (R147); one that needs stream bytes that will never come
is stuck (R90, 93 S11); an idle block stays as it is. -/
def withoutHost (s : State) : Host.Outcome State Fault Refusal :=
  match proceed none s with
  | .next s' => if s'.busy then .fault .streamStarved else .next s'
  | o => o

end Sys2Proof.Machine
end

