-- ==== Sys2Proof/Machine/Step.lean ====
section
/-! DEFINITION. One step of the machine: the host's next pending action, or the engine's when none is left. -/

namespace Sys2Proof.Machine

/-- The block fetches nothing (10_state.md R31): a command runs because the host's next action writes it to CMD (R36, R140). -/
def step (s : State) : Host.Outcome State Fault Refusal :=
  match s.inbox with
  | [] => withoutHost s
  | ev :: rest => hostAct ev { s with inbox := rest }

/-- The offset of CMD in the register window (R32). -/
def cmdOffset : BitVec 12 := 0x00C

/-- The state whose very next step launches the command word with these bits: the host's next action writes it to CMD, and
the block is able to take it, being out of reset, idle and without a fault (R140; assumption log 6). -/
def State.withFetchWord (s : State) (nbits w : Nat) : State :=
  { clearFault s with
    inbox := .write cmdOffset .word (BitVec.ofNat 32 (w % 2 ^ nbits)) :: s.inbox
    resetLine := false
    busy := false
    running := none }

end Sys2Proof.Machine
end

