-- ==== Sys2Proof/Safety.lean ====
section
/-! DEFINITION. The terms the statements use: when the block can take a command, how a command can end, what the launch checks say,
what a legal state is, and what LOADHT, DECODE, UPRES and CONVERT leave, each written from the spec's own words. -/

namespace Sys2Proof.Machine

/-! ## Launching and ending -/

/-- The block takes a command: BUSY = 0, FAULT = 0 (R140); and no host action comes before the command has ended (log 7). -/
def Ready (s : State) : Prop := s.busy = false ∧ s.fault = false ∧ s.pace = none

/-- The engine's data right after a launch (R140, R53): counters, flags and reader positions cleared, nothing else changed. -/
def launched (e : Engine) : Engine :=
  { e with
    bytesIn := 0
    seqDone := 0
    seqSkip := 0
    symErrs := 0
    eosSync := false
    symErr := false
    pos := 0
    nb := 0 }

/-- The state after command i has completed normally (R144), the engine's data being e. Everything else is as at the launch. -/
def endedNormally (i : Instr) (s : State) (e : Engine) : State :=
  { s with busy := false, done := true, cur := encode i, running := none, eng := e }

/-- The state after the command of word w has ended in a fault (R282), the engine's data being e. -/
def endedByFault (w : Word) (f : FaultName) (info addr : Nat) (s : State) (e : Engine) : State :=
  { s with
    busy := false
    done := false
    fault := true
    faultCode := f.code
    faultInfo := BitVec.ofNat 32 info
    faultAddr := BitVec.ofNat 32 addr
    cur := w
    running := none
    eng := e }

/-- The engine's data once the rest of a stream command's stream is discarded (R144, R282); other commands leave the port alone. -/
def drainedFor (w : Word) (e : Engine) : Engine := if takesStream w then e.drain else e

/-- Every byte of a range is plain memory: MEM_OK holds and no access has a side effect (R86, R88). -/
def Platform.plainOn (p : Platform) (r : ByteRange) : Prop :=
  ∀ a, r.lo ≤ a → a < r.hi → p.kindAt a = .plain

/-- No byte of data memory has access side effects (R88). -/
def Platform.noDevice (p : Platform) : Prop := ∀ a, p.kindAt a ≠ .device

/-! ## The launch checks (60_exceptions.md R283) -/

/-- The first of a list of checks that fails, with the fault and the FAULT_INFO it raises. -/
def firstFailure : List (Bool × FaultName × Nat) → Option (FaultName × Nat)
  | [] => none
  | (fails, f, info) :: rest => if fails then some (f, info) else firstFailure rest

/-- A slot that fails the slot geometry check (R284): w = 0, h = 0, or base + w*h > 2^32. -/
def Desc.unfit (d : Desc) : Bool :=
  d.w.toNat == 0 || d.h.toNat == 0 || decide (2 ^ 32 < d.base.toNat + d.w.toNat * d.h.toNat)

/-- Two slots' byte ranges intersect (R285). -/
def Desc.meets (a b : Desc) : Bool :=
  decide (a.base.toNat < b.base.toNat + b.w.toNat * b.h.toNat) &&
    decide (b.base.toNat < a.base.toNat + a.w.toNat * a.h.toNat)

/-- DECODE's checks of the planes with PEN[P] = 1, slots first, then tables (R172, R173). -/
def decodePlaneChecks (p : Params) (ts : Tables) (o : DecodeOps) (planes : List Plane) : List (Bool × FaultName × Nat) :=
  planes.map (fun pl => ((p.slot (o.slotOf pl)).unfit, .geom, (o.slotOf pl).toNat)) ++
    planes.map fun pl => (!(ts.get pl.index).valid, .noTable, pl.index)

/-- DECODE's checks in order (R172, R173). -/
def decodeVerdict (p : Params) (ts : Tables) (o : DecodeOps) : Option (FaultName × Nat) :=
  firstFailure ((p.syncMask == 0, .illegalCmd, 4) :: decodePlaneChecks p ts o (allPlanes.filter (o.enabled ·)))

/-- UPRES's checks of source and destination (R221, steps 1 and 2). -/
def upresGeometry (p : Params) (src dst : SlotIx) : List (Bool × FaultName × Nat) :=
  let s := p.slot src
  let d := p.slot dst
  [(s.unfit, .geom, src.toNat),
    (d.unfit || d.w.toNat != 2 * s.w.toNat || d.h.toNat != 2 * s.h.toNat, .geom, dst.toNat)]

/-- UPRES.BL's and UPRES.NN's checks in order (R221). -/
def upresVerdict (p : Params) (src dst : SlotIx) : Option (FaultName × Nat) :=
  firstFailure (upresGeometry p src dst ++ [((p.slot dst).meets (p.slot src), .overlap, 1)])

/-- UPRES.ADD's checks of the delta plane and of overlap (R221, steps 3 to 5). -/
def upresDelta (p : Params) (src dst dlt : SlotIx) : List (Bool × FaultName × Nat) :=
  let d := p.slot dst
  let x := p.slot dlt
  [(x.unfit || x.w != d.w || x.h != d.h, .geom, dlt.toNat),
    (d.meets (p.slot src), .overlap, 1),
    (x.meets d && (x.base != d.base || x.w.toNat * x.h.toNat != d.w.toNat * d.h.toNat), .overlap, 2)]

/-- UPRES.ADD's checks in order (R221). -/
def upresAddVerdict (p : Params) (src dst dlt : SlotIx) : Option (FaultName × Nat) :=
  firstFailure (upresGeometry p src dst ++ upresDelta p src dst dlt)

/-- A CONVERT's chroma slot k fails (R241, checks 2 and 3): unless MONO, its geometry, or a chroma read past its right or bottom edge. -/
def chromaFails (p : Params) (ys k : SlotIx) : Bool :=
  !p.mono && ((p.slot k).unfit || decide ((p.slot k).w.toNat ≤ ((p.slot ys).w.toNat - 1) >>> p.cshift) ||
    decide ((p.slot k).h.toNat ≤ ((p.slot ys).h.toNat - 1) >>> p.cshift))

/-- The end of a channel's span (R241, R242): OUT_ch + es*((W*H - 1)*OUT_STRIDE + 1). -/
def spanEnd (p : Params) (ys : SlotIx) (ch : Channel) : Nat :=
  p.outBase ch + p.elemSize * (((p.slot ys).w.toNat * (p.slot ys).h.toNat - 1) * p.outStride.toNat + 1)

/-- A channel's span and a source plane intersect (R242, R285). -/
def spanMeets (p : Params) (ys : SlotIx) (ch : Channel) (k : SlotIx) : Bool :=
  decide (p.outBase ch < (p.slot k).base.toNat + (p.slot k).w.toNat * (p.slot k).h.toNat) &&
    decide ((p.slot k).base.toNat < spanEnd p ys ch)

/-- CONVERT's checks of CONV_CFG, the planes and OUT_STRIDE, in order (R243; R241, checks 1 to 4). -/
def convertGeometry (p : Params) (ys c1s c2s : SlotIx) : List (Bool × FaultName × Nat) :=
  [(p.fmt == 3 || p.cshift == 3, .illegalCmd, 3),
    ((p.slot ys).unfit, .geom, ys.toNat),
    (chromaFails p ys c1s, .geom, c1s.toNat),
    (chromaFails p ys c2s, .geom, c2s.toNat),
    (p.outStride == 0, .geom, 12)]

/-- The checks of the channels' spans (R241, checks 5 to 8). -/
def convertSpans (p : Params) (ys : SlotIx) : List (Bool × FaultName × Nat) :=
  p.channels.map fun ch => (decide (2 ^ 32 < spanEnd p ys ch), .geom, 8 + ch.index)

/-- The overlap checks, channel by channel, plane by plane (R242). -/
def convertOverlaps (p : Params) (ys c1s c2s : SlotIx) : List (Bool × FaultName × Nat) :=
  p.channels.flatMap fun ch =>
    (p.sources ys c1s c2s).map fun x => (spanMeets p ys ch x.2, .overlap, 16 * ch.index + x.1)

/-- CONVERT's checks in order (R243, R241, R242). -/
def convertVerdict (p : Params) (ys c1s c2s : SlotIx) : Option (FaultName × Nat) :=
  firstFailure (convertGeometry p ys c1s c2s ++ convertSpans p ys ++ convertOverlaps p ys c1s c2s)

/-- What the launch checks say of a command whose word is one (R283, steps 4 to 8): the fault to raise and its FAULT_INFO, or none. -/
def launchVerdict (p : Params) (ts : Tables) : Instr → Option (FaultName × Nat)
  | .nop => none
  | .loadht nt first _ =>
    firstFailure [(nt == 0 || first == 3 || decide (3 < first.toNat + nt.toNat), .illegalCmd, 2)]
  | .clear k => firstFailure [((p.slot k).unfit, .geom, k.toNat)]
  | .decodeH24 ys c1s c2s pen => decodeVerdict p ts ⟨ys, c1s, c2s, pen⟩
  | .decodeH32 ys c1s c2s pen => decodeVerdict p ts ⟨ys, c1s, c2s, pen⟩
  | .upresBl src dst => upresVerdict p src dst
  | .upresAdd src dst dlt => upresAddVerdict p src dst dlt
  | .upresNn src dst => upresVerdict p src dst
  | .convert ys c1s c2s => convertVerdict p ys c1s c2s

/-- The reserved bits of a command word's format, by OP and, for UPRES, MODE (R101 to R106): DLT too for UPRES.BL and UPRES.NN. -/
def reservedBits (op mode : Nat) : Word :=
  match op with
  | 0 => 0xFFFFFFF0
  | 1 => 0xFFFFFE00
  | 2 => 0xFFFFFF80
  | 3 => 0xFFFE0000
  | 4 => if mode = 0 ∨ mode = 2 then 0xFFFF9C00 else 0xFFFF8000
  | _ => 0xFFFFE000

/-- FAULT_INFO of the ILLEGAL_CMD a command word raises by R108 and R283, steps 2 to 4, or none for a legal word. -/
def illegalWord (w : Word) : Option Nat :=
  let op := w.toNat % 16
  let mode := w.toNat / 2 ^ 13 % 4
  let nt := w.toNat / 2 ^ 4 % 4
  let first := w.toNat / 2 ^ 6 % 4
  if 6 ≤ op then some 0
  else if w &&& reservedBits op mode ≠ 0 then some 1
  else if op = 1 ∧ (nt = 0 ∨ first = 3 ∨ 3 < first + nt) then some 2
  else if op = 4 ∧ mode = 3 then some 2
  else none

/-- The byte ranges a command can write (R87): the destination planes of its slots, for CONVERT the channels' spans (R242). -/
def writtenRanges (p : Params) : Instr → List ByteRange
  | .clear k => [(p.slot k).range]
  | .decodeH24 ys c1s c2s pen =>
    (allPlanes.filter (DecodeOps.enabled ⟨ys, c1s, c2s, pen⟩ ·)).map fun pl =>
      (p.slot (DecodeOps.slotOf ⟨ys, c1s, c2s, pen⟩ pl)).range
  | .decodeH32 ys c1s c2s pen =>
    (allPlanes.filter (DecodeOps.enabled ⟨ys, c1s, c2s, pen⟩ ·)).map fun pl =>
      (p.slot (DecodeOps.slotOf ⟨ys, c1s, c2s, pen⟩ pl)).range
  | .upresBl _ dst => [(p.slot dst).range]
  | .upresAdd _ dst _ => [(p.slot dst).range]
  | .upresNn _ dst => [(p.slot dst).range]
  | .convert ys _ _ => p.channels.map (p.channelRange (p.slot ys).bytes)
  | .nop => []
  | .loadht _ _ _ => []

/-! ## Legal states -/

/-- The lengths a table can hold are 1..16 (R153: 'No index has LEN 0 or LEN in 17..30'). -/
def TableSlot.wf (t : TableSlot) : Prop := ∀ c ∈ t.codes, 1 ≤ c.len.toNat ∧ c.len.toNat ≤ 16

/-- Legal engine data: memory in canonical form, tables with legal lengths, and an empty port while the EOS of an ended
command's stream is outstanding. -/
def Engine.wf (e : Engine) : Prop :=
  e.mem.wf ∧ e.tables.y.wf ∧ e.tables.c1.wf ∧ e.tables.c2.wf ∧ (0 < e.toDiscard → e.port = [])

/-- The phases of R141 and the fault registers of R35 and R37: BUSY is 1 exactly while a command runs, and DONE and FAULT are then
0; DONE and FAULT are never both 1; FAULT_CODE, FAULT_INFO and FAULT_ADDR are 0 unless FAULT is 1, and FAULT_CODE is then one of
1..9; no command runs while the reset input is asserted (70 R320). -/
def State.phaseOk (s : State) : Prop :=
  (s.busy = s.running.isSome) ∧
  (s.busy = true → s.done = false ∧ s.fault = false) ∧
  ¬(s.done = true ∧ s.fault = true) ∧
  (s.fault = false → s.faultCode = 0 ∧ s.faultInfo = 0 ∧ s.faultAddr = 0) ∧
  (s.fault = true → 1 ≤ s.faultCode.toNat ∧ s.faultCode.toNat ≤ 9) ∧
  (s.resetLine = true → s.busy = false)

/-- A legal state: legal phases, and legal engine data now and, while a command runs, at its launch, where its counters, flags and
reader positions were cleared (R140). -/
def State.wf (s : State) : Prop :=
  s.phaseOk ∧ s.eng.wf ∧ ∀ c, s.running = some c → c.base.wf ∧ c.base = launched c.base

/-! ## The register map (10_state.md R32, R48) -/

/-- R32's register map and R48's coefficients: every register's offset, with what a read of it returns after reset. -/
def resetMap : List (BitVec 12 × Word) :=
  [(0x000, 0x50434401), (0x004, 0), (0x008, 0), (0x00C, 0), (0x010, 0), (0x014, 0), (0x018, 0), (0x01C, 0), (0x020, 0),
    (0x024, 0), (0x028, 0), (0x02C, 0), (0x030, 0), (0x034, 0x0000241C), (0x038, 0xFFFFE000), (0x03C, 0xFFFFF000),
    (0x040, 0), (0x044, 0), (0x048, 0), (0x04C, 0), (0x050, 0), (0x054, 1), (0x058, 0)] ++
  [(0x060, 0x172A), (0x064, 0xFFFFFF71), (0x068, 0x189), (0x06C, 0xFFFFFF50), (0x070, 0x187C), (0x074, 0x83), (0x078, 0x4C),
    (0x07C, 0xFFFFFF80), (0x080, 0x2040)] ++
  (List.range 16).map fun k => (BitVec.ofNat 12 (0x100 + 4 * k), 0)

/-- The parameter registers: those a host write changes (R40 to R46, R48). -/
def Reg.isParam : Reg → Bool
  | .seqCount | .seqSize | .colOffset | .hdrCfg | .syncPat | .syncMask | .convCfg | .outR | .outG | .outB | .outA
  | .outStride | .wb _ | .descBase _ | .descSize _ => true
  | _ => false

/-- What a parameter register reads after a write of v: the implemented bits of v, reserved bits 0 (R49); a WB register its 16
bits sign-extended (R48). -/
def Reg.kept (r : Reg) (v : Word) : Word :=
  match r with
  | .seqSize | .colOffset => v &&& 0xFFFF
  | .hdrCfg => v &&& 0x3F3F
  | .convCfg => v &&& 0x3FF
  | .wb _ => (v.setWidth 16).signExtend 32
  | _ => v

/-- The fields that commands use hold what a write of v to a parameter register puts there, as bits of v (R40 to R46, R48). -/
def Params.took (p : Params) (v : Word) : Reg → Prop
  | .seqCount => p.seqCount = v
  | .seqSize => p.seqSize.toNat = v.toNat % 2 ^ 16
  | .colOffset => p.colOffset.toNat = v.toNat % 2 ^ 16
  | .hdrCfg => p.skip24.toNat = v.toNat % 2 ^ 6 ∧ p.skip32.toNat = v.toNat / 2 ^ 8 % 2 ^ 6
  | .syncPat => p.syncPat = v
  | .syncMask => p.syncMask = v
  | .convCfg =>
    (p.cspace = .raw709 ↔ v.toNat % 4 = 0) ∧ (p.cspace = .lin709 ↔ v.toNat % 4 = 1) ∧ (p.cspace = .srgb ↔ v.toNat % 4 = 2) ∧
      (p.cspace = .ycc ↔ v.toNat % 4 = 3) ∧ p.wbD50 = v.getLsbD 2 ∧ p.mono = v.getLsbD 3 ∧ p.fmt = v.toNat / 2 ^ 4 % 4 ∧
      p.rot = v.toNat / 2 ^ 6 % 4 ∧ p.cshift = v.toNat / 2 ^ 8 % 4
  | .outR => p.outR = v
  | .outG => p.outG = v
  | .outB => p.outB = v
  | .outA => p.outA = v
  | .outStride => p.outStride = v
  | .wb i => p.wb[i] = v.setWidth 16
  | .descBase k => (p.slot k).base = v
  | .descSize k => (p.slot k).w.toNat = v.toNat % 2 ^ 16 ∧ (p.slot k).h.toNat = v.toNat / 2 ^ 16
  | .id | .ctrl | .status | .cmd | .faultInfo | .faultAddr | .bytesIn | .seqDone | .seqSkip | .symErrs | .tblValid => True

/-- The read-only registers (R33, R37 to R39, R47). -/
def Reg.isReadOnly : Reg → Bool
  | .id | .faultInfo | .faultAddr | .bytesIn | .seqDone | .seqSkip | .symErrs | .tblValid => true
  | _ => false

/-- The bits of a register that are not reserved (R33 to R48). A WB register's upper half repeats its sign (R48). -/
def Reg.implemented : Reg → Word
  | .ctrl => 0x80000001
  | .status => 0x0000FF3F
  | .seqSize | .colOffset => 0x0000FFFF
  | .hdrCfg => 0x00003F3F
  | .convCfg => 0x000003FF
  | .tblValid => 0x00000007
  | _ => 0xFFFFFFFF

/-! ## LOADHT (30_encoding.md R110, R111; 41_huffman_tables.md R151 to R157) -/

/-- The four bytes of a table entry as they stand in the stream (R110). -/
structure RawEntry where
  b0 : Byte
  hi : Byte
  lo : Byte
  sym : Byte

/-- An entry's bytes in stream order. -/
def RawEntry.bytes (r : RawEntry) : List Byte := [r.b0, r.hi, r.lo, r.sym]

/-- The entry's code (R111): len = b0 + 1, the codeword big-endian and as stored. -/
def RawEntry.code (r : RawEntry) : Code := ⟨r.hi ++ r.lo, BitVec.ofNat 5 (r.b0.toNat + 1), r.sym⟩

/-- One table of a table block (R110): the byte N - 1, then N entries. -/
def tableBytes (es : List RawEntry) : List Byte := BitVec.ofNat 8 (es.length - 1) :: es.flatMap RawEntry.bytes

/-- Table j of a LOADHT is a copy (R156): j >= 1 and N < 4. -/
def isCopy (j : Nat) (es : List RawEntry) : Bool := decide (1 ≤ j ∧ es.length < 4)

/-- A table LOADHT builds (R154, R156): 1..256 entries, none longer than 16 bits unless the table is a copy. -/
def buildable (j : Nat) (es : List RawEntry) : Prop :=
  1 ≤ es.length ∧ es.length ≤ 256 ∧ (isCopy j es = false → ∀ r ∈ es, r.b0.toNat + 1 ≤ 16)

/-- The table slots after tables j, j + 1, ... of a LOADHT have been built into slots first + j, ... (R151, R152, R156, R157): each
valid, holding its entries, a later one before an earlier one, or a copy of the slot before it. -/
def loadTables (first : Nat) : Nat → List (List RawEntry) → Tables → Tables
  | _, [], ts => ts
  | j, es :: rest, ts =>
    let codes := if isCopy j es then (ts.get (first + j - 1)).codes else (es.map RawEntry.code).reverse
    loadTables first (j + 1) rest (ts.set (first + j) ⟨codes, true⟩)

/-- The tables of a LOADHT, the first of them being table j, can all be built. -/
def allBuildable : Nat → List (List RawEntry) → Prop
  | _, [] => True
  | j, es :: rest => buildable j es ∧ allBuildable (j + 1) rest

/-- The engine's data of a LOADHT that has taken n stream bytes and left tables ts (R150, R53). -/
def loadedTables (e : Engine) (ts : Tables) (n : Nat) : Engine :=
  { launched e with tables := ts, nb := n, bytesIn := BitVec.ofNat 32 n }

/-- The first bytes of table j, cut short by the end of the stream (R150, R154): no byte at all, or the byte N - 1, fewer than N
entries that raise no fault, and at most three bytes of the next. -/
def cutTable (j : Nat) (part : List Byte) : Prop :=
  part = [] ∨ ∃ (count : Byte) (es : List RawEntry) (more : List Byte),
    part = count :: (es.flatMap RawEntry.bytes ++ more) ∧ es.length ≤ count.toNat ∧ more.length < 4 ∧
      (¬(1 ≤ j ∧ count.toNat + 1 < 4) → ∀ r ∈ es, r.b0.toNat + 1 ≤ 16)

/-! ## DECODE (42_delta_decoder.md R182 to R192) -/

/-- The bit position of symbol k of a sequence whose first symbol is at `start` (R189): each symbol's LEN bits are consumed. -/
def symbolPos (codes : List Code) (bs : List Byte) (start : Nat) : Nat → Nat
  | 0 => start
  | k + 1 =>
    let p := symbolPos codes bs start k
    p + lenAt codes ((window bs p).extractLsb' 16 16)

/-- LEN of symbol k (R189). -/
def symbolLen (codes : List Code) (bs : List Byte) (start k : Nat) : Nat :=
  lenAt codes ((window bs (symbolPos codes bs start k)).extractLsb' 16 16)

/-- KEY of symbol k (R189). -/
def symbolKey (codes : List Code) (bs : List Byte) (start k : Nat) : Byte :=
  keyAt codes ((window bs (symbolPos codes bs start k)).extractLsb' 16 16)

/-- The 32 stream bits at p match the marker under the mask (R43, R176). -/
def isMarker (par : Params) (bs : List Byte) (p : Nat) : Prop :=
  window bs p &&& par.syncMask = par.syncPat &&& par.syncMask

/-- A sync search that starts at bit `start` of a stream ends at p with a match, the first one (R175, R176). -/
def markerFrom (par : Params) (bs : List Byte) (start p : Nat) : Prop :=
  start ≤ p ∧ p + syncLen par.syncMask ≤ 8 * bs.length ∧ isMarker par bs p ∧
    ∀ q, start ≤ q → q < p → ¬isMarker par bs q

/-- A sync search that starts at bit `start` of a stream ends at p without a match: fewer than SYNC_LEN bits remain there, and not
before (R175, R178). -/
def searchEnds (par : Params) (bs : List Byte) (start p : Nat) : Prop :=
  start ≤ p ∧ 8 * bs.length < p + syncLen par.syncMask ∧
    ∀ q, start ≤ q → q < p → q + syncLen par.syncMask ≤ 8 * bs.length ∧ ¬isMarker par bs q

/-- BYTES_IN at bit position p of a stream (R38): min(L, ceil(p / 8)). -/
def bytesAt (bs : List Byte) (p : Nat) : Word := BitVec.ofNat 32 (min bs.length ((p + 7) / 8))

/-- The instruction of a DECODE's header form and operands. -/
def decodeInstr (h : Header) (o : DecodeOps) : Instr :=
  match h with
  | .h24 => .decodeH24 o.ys o.c1s o.c2s o.pen
  | .h32 => .decodeH32 o.ys o.c1s o.c2s o.pen

/-- Where the first symbol of a sequence stands whose marker is at p (R181): past 16 bits and the header skip. -/
def payloadAt (par : Params) (h : Header) (p : Nat) : Nat := p + 16 + h.skip par

/-- The fields of the header of a sequence whose marker is at p (R179, R180). -/
def headerAt (h : Header) (bs : List Byte) (p : Nat) : HeaderFields := h.fields (window bs (p + 16))

/-- `Put` in memory (R190): offset i of plane d takes v if it lies in the plane. -/
def putIn (d : Desc) (m : Memory) (i : Nat) (v : Byte) : Memory :=
  if i < d.w.toNat * d.h.toNat then m.write (d.base.toNat + i) v else m

/-- Memory after the first `count` of the values v 0, v 1, ... have been put at offsets off, off + 1, ... (R189, R192). -/
def putAll (d : Desc) (off : Nat) (v : Nat → Byte) (m : Memory) (count : Nat) : Memory :=
  (List.range count).foldl (fun m k => putIn d m (off + k) (v k)) m

/-- What a DECODE has changed at a point of its loop: the reader, memory and the counts (R171). -/
structure Progress where
  pos : Nat
  mem : Memory
  headers : Nat
  skips : Nat
  errors : Nat

/-- The fault that ends a command, with FAULT_INFO and FAULT_ADDR. -/
structure Failure where
  name : FaultName
  info : Nat
  addr : Nat
  deriving DecidableEq, Repr

/-- The values a sequence puts from its symbol k on when symbol `bad` is unknown: decoded before it, zeros from it on (R192). -/
def recoveredValue (codes : List Code) (bs : List Byte) (start bad k : Nat) : Byte :=
  if k < bad then symbolKey codes bs start k else 0

/-- How the symbols of a sequence end (R187 to R192): `n` symbols for offsets off, off + 1, ... of plane d, the first code at bit
`start`. A byte of memory that does not respond stops the command (20_memory.md R86). -/
inductive SymbolsEnd (plat : Platform) (d : Desc) (codes : List Code) (bs : List Byte) (off n start : Nat) (m : Memory) :
    Option Failure → (pos : Nat) → Memory → (errors : Nat) → Prop where
  /-- Every symbol is known, and its code lies within the stream. -/
  | decoded (known : ∀ k, k < n → symbolLen codes bs start k ≠ 31)
      (fits : symbolPos codes bs start n ≤ 8 * bs.length)
      (plain : ∀ k, k < n → off + k < d.w.toNat * d.h.toNat → plat.kindAt (d.base.toNat + (off + k)) = .plain) :
      SymbolsEnd plat d codes bs off n start m none (symbolPos codes bs start n)
        (putAll d off (symbolKey codes bs start) m n) 0
  /-- Symbol `bad` is unknown: zeros from it on, and no bit of it consumed (R192). -/
  | recovered (bad : Nat) (inside : bad < n) (known : ∀ k, k < bad → symbolLen codes bs start k ≠ 31)
      (fits : symbolPos codes bs start bad ≤ 8 * bs.length) (unknown : symbolLen codes bs start bad = 31)
      (plain : ∀ k, k < n → off + k < d.w.toNat * d.h.toNat → plat.kindAt (d.base.toNat + (off + k)) = .plain) :
      SymbolsEnd plat d codes bs off n start m none (symbolPos codes bs start bad)
        (putAll d off (recoveredValue codes bs start bad) m n) 1
  /-- The code of symbol `cut` extends past the end of the stream: its value has been put (R182, R189). -/
  | truncated (cut : Nat) (inside : cut < n) (known : ∀ k, k ≤ cut → symbolLen codes bs start k ≠ 31)
      (fits : symbolPos codes bs start cut ≤ 8 * bs.length)
      (past : 8 * bs.length < symbolPos codes bs start (cut + 1))
      (plain : ∀ k, k ≤ cut → off + k < d.w.toNat * d.h.toNat → plat.kindAt (d.base.toNat + (off + k)) = .plain) :
      SymbolsEnd plat d codes bs off n start m (some ⟨.eofInSeq, 0, symbolPos codes bs start cut⟩)
        (symbolPos codes bs start cut) (putAll d off (symbolKey codes bs start) m (cut + 1)) 0
  /-- The byte of symbol `stop` does not respond. -/
  | noResponse (stop : Nat) (inside : stop < n) (known : ∀ k, k ≤ stop → symbolLen codes bs start k ≠ 31)
      (fits : symbolPos codes bs start stop ≤ 8 * bs.length) (inPlane : off + stop < d.w.toNat * d.h.toNat)
      (absent : plat.kindAt (d.base.toNat + (off + stop)) = .absent)
      (plain : ∀ k, k < stop → off + k < d.w.toNat * d.h.toNat → plat.kindAt (d.base.toNat + (off + k)) = .plain) :
      SymbolsEnd plat d codes bs off n start m (some ⟨.busError, 1, d.base.toNat + (off + stop)⟩)
        (symbolPos codes bs start stop) (putAll d off (symbolKey codes bs start) m stop) 0
  /-- Symbol `bad` is unknown, and the byte of a zero from it on does not respond. -/
  | noResponseInRecovery (bad stop : Nat) (after : bad ≤ stop) (inside : stop < n)
      (known : ∀ k, k < bad → symbolLen codes bs start k ≠ 31) (fits : symbolPos codes bs start bad ≤ 8 * bs.length)
      (unknown : symbolLen codes bs start bad = 31) (inPlane : off + stop < d.w.toNat * d.h.toNat)
      (absent : plat.kindAt (d.base.toNat + (off + stop)) = .absent)
      (plain : ∀ k, k < stop → off + k < d.w.toNat * d.h.toNat → plat.kindAt (d.base.toNat + (off + k)) = .plain) :
      SymbolsEnd plat d codes bs off n start m (some ⟨.busError, 1, d.base.toNat + (off + stop)⟩)
        (symbolPos codes bs start bad) (putAll d off (recoveredValue codes bs start bad) m stop) 0

/-- A sequence of a plane is skipped (R186): the plane is not enabled, or the row lies outside it. -/
def isSkipped (env : Env) (h : Header) (o : DecodeOps) (pl : Plane) (f : HeaderFields) : Prop :=
  o.enabled pl = false ∨ (env.params.slot (o.slotOf pl)).h.toNat ≤ h.rowIndex pl f.row

/-- How a sequence ends whose marker is at the reader's position (R181 to R192, in the order of R198). -/
inductive SequenceEnds (env : Env) (ts : Tables) (h : Header) (o : DecodeOps) (bs : List Byte) :
    Progress → Option Failure → Progress → Prop where
  /-- The stream ends within the first 16 bits. -/
  | cutMarker (g : Progress) (past : 8 * bs.length < g.pos + 16) :
      SequenceEnds env ts h o bs g (some ⟨.eofInSeq, 0, g.pos⟩) g
  /-- The stream ends within the header skip. -/
  | cutHeader (g : Progress) (fits : g.pos + 16 ≤ 8 * bs.length)
      (past : 8 * bs.length < payloadAt env.params h g.pos) :
      SequenceEnds env ts h o bs g (some ⟨.eofInSeq, 0, g.pos + 16⟩) { g with pos := g.pos + 16 }
  /-- The plane code is invalid (R183). -/
  | badPlane (g : Progress) (fits : payloadAt env.params h g.pos ≤ 8 * bs.length)
      (invalid : planeOfCode (headerAt h bs g.pos).pc = none) :
      SequenceEnds env ts h o bs g (some ⟨.badPlane, (headerAt h bs g.pos).pc, g.pos⟩)
        { g with pos := payloadAt env.params h g.pos, headers := g.headers + 1 }
  /-- The sequence is skipped (R186). -/
  | skipped (g : Progress) (pl : Plane) (fits : payloadAt env.params h g.pos ≤ 8 * bs.length)
      (plane : planeOfCode (headerAt h bs g.pos).pc = some pl) (out : isSkipped env h o pl (headerAt h bs g.pos)) :
      SequenceEnds env ts h o bs g none
        { g with pos := payloadAt env.params h g.pos, headers := g.headers + 1, skips := g.skips + 1 }
  /-- The sequence's symbols are decoded. -/
  | symbols (g : Progress) (pl : Plane) (out : Option Failure) (pos : Nat) (m : Memory) (errors : Nat)
      (fits : payloadAt env.params h g.pos ≤ 8 * bs.length)
      (plane : planeOfCode (headerAt h bs g.pos).pc = some pl) (used : ¬isSkipped env h o pl (headerAt h bs g.pos))
      (ends : SymbolsEnd env.plat (env.params.slot (o.slotOf pl)) (ts.get pl.index).codes bs
        (firstOffset env.params h pl (env.params.slot (o.slotOf pl)) (headerAt h bs g.pos))
        (symbolCount env.params (env.params.slot (o.slotOf pl))) (payloadAt env.params h g.pos) g.mem out pos m errors) :
      SequenceEnds env ts h o bs g out
        { g with pos := pos, mem := m, headers := g.headers + 1, errors := g.errors + errors }

/-- How the sequence loop ends with `n` sequences left of the budget (R171, R193): a fault or none, and whether the stream ended in
a sync search (R178). -/
inductive DecodeEnds (env : Env) (ts : Tables) (h : Header) (o : DecodeOps) (bs : List Byte) :
    Nat → Progress → Option Failure → (eosSync : Bool) → Progress → Prop where
  /-- The budget is reached: no further search. -/
  | budget (g : Progress) : DecodeEnds env ts h o bs 0 g none false g
  /-- The stream ends in the search. -/
  | endOfStream (n : Nat) (g : Progress) (p : Nat) (ends : searchEnds env.params bs g.pos p) :
      DecodeEnds env ts h o bs (n + 1) g none true { g with pos := p }
  /-- A sequence that ends in a fault. -/
  | failed (n : Nat) (g g' : Progress) (p : Nat) (f : Failure) (found : markerFrom env.params bs g.pos p)
      (ends : SequenceEnds env ts h o bs { g with pos := p } (some f) g') :
      DecodeEnds env ts h o bs (n + 1) g (some f) false g'
  /-- A sequence, then the rest. -/
  | next (n : Nat) (g g' g'' : Progress) (p : Nat) (out : Option Failure) (eos : Bool)
      (found : markerFrom env.params bs g.pos p)
      (ends : SequenceEnds env ts h o bs { g with pos := p } none g')
      (rest : DecodeEnds env ts h o bs n g' out eos g'') :
      DecodeEnds env ts h o bs (n + 1) g out eos g''

/-- The engine's data of a DECODE whose stream was bs and that has got as far as g (R38, R39, R178, R192). -/
def progressed (e : Engine) (bs : List Byte) (g : Progress) (eos : Bool) : Engine :=
  { launched e with
    mem := g.mem
    pos := g.pos
    bytesIn := bytesAt bs g.pos
    seqDone := BitVec.ofNat 32 g.headers
    seqSkip := BitVec.ofNat 32 g.skips
    symErrs := BitVec.ofNat 32 g.errors
    symErr := decide (0 < g.errors)
    eosSync := eos }

/-- The state after a command has ended, by a fault or normally. -/
def ended (i : Instr) (s : State) (out : Option Failure) (e : Engine) : State :=
  match out with
  | none => endedNormally i s e
  | some f => endedByFault (encode i) f.name f.info f.addr s e

/-! ## Accesses in order (20_memory.md R86, R94) -/

/-- An access to one byte of data memory; a write with its byte. -/
inductive Access where
  | read (a : Nat)
  | write (a : Nat) (b : Byte)
  deriving DecidableEq, Repr

/-- The byte accessed. -/
def Access.addr : Access → Nat
  | .read a => a
  | .write a _ => a

/-- FAULT_INFO of a BUS_ERROR at the access (R86): 0 for a read, 1 for a write. -/
def Access.info : Access → Nat
  | .read _ => 0
  | .write _ _ => 1

/-- Memory after one access. -/
def Access.perform (m : Memory) : Access → Memory
  | .read _ => m
  | .write a b => m.write a b

/-- Memory after several accesses. -/
def performed (m : Memory) (accesses : List Access) : Memory := accesses.foldl Access.perform m

/-- Every access is to plain memory (R86, R88). -/
def Platform.allPlain (p : Platform) (accesses : List Access) : Prop := ∀ x ∈ accesses, p.kindAt x.addr = .plain

/-- Command i, whose accesses are these in this order, ends at the first of them whose byte does not respond: a BUS_ERROR that says
whether it was a read or a write and names the byte, with exactly the accesses before it performed (R86, R282). -/
def endsAtAbsentByte (i : Instr) (s : State) (accesses : List Access) : Prop :=
  ∀ before x after, accesses = before ++ x :: after → s.plat.allPlain before → s.plat.kindAt x.addr = .absent →
    exec i s = .next (endedByFault (encode i) .busError x.info x.addr s
      { launched s.eng with mem := performed s.eng.mem before })

/-- The address of pixel (x, y) of a plane (00_scope.md R12). -/
def byteOf (d : Desc) (x y : Nat) : Nat := d.base.toNat + y * d.w.toNat + x

/-- Accesses made for every pixel (c, r) of a plane, row by row (43_upsampler.md R226; 44_color_converter.md R244). -/
def inRows (d : Desc) (pixel : Nat → Nat → List Access) : List Access :=
  (List.range d.h.toNat).flatMap fun r => (List.range d.w.toNat).flatMap fun c => pixel c r

/-- Writes of several bytes at ascending addresses from a. -/
def writesFrom (a : Nat) : List Byte → List Access
  | [] => []
  | b :: rest => .write a b :: writesFrom (a + 1) rest

/-! ## UPRES (43_upsampler.md R220 to R229) -/

/-- S[x, y] in memory m (R223). -/
def pixelOf (m : Memory) (d : Desc) (x y : Nat) : Nat := (m.read (d.base.toNat + y * d.w.toNat + x)).toNat

/-- The bilinear value of destination pixel (x, y) (R222's table, R228), with c = x / 2 and r = y / 2. -/
def bilinearAt (m : Memory) (s : Desc) (x y : Nat) : Nat :=
  let c := x / 2
  let r := y / 2
  let c1 := min (c + 1) (s.w.toNat - 1)
  let r1 := min (r + 1) (s.h.toNat - 1)
  let a := pixelOf m s c r
  let b := pixelOf m s c1 r
  let d := pixelOf m s c r1
  let e := pixelOf m s c1 r1
  if x % 2 = 0 then (if y % 2 = 0 then a else (a + d + 1) / 2)
  else (if y % 2 = 0 then (a + b + 1) / 2 else (a + b + d + e + 2) / 4)

/-- What UPRES.ADD leaves at destination pixel (x, y) (R224): the bilinear value plus the signed delta, clamped to 0..255. -/
def addedAt (m : Memory) (s dlt : Desc) (x y : Nat) : Int :=
  let delta := pixelOf m dlt x y
  let t : Int := if delta < 128 then delta else (delta : Int) - 256
  max 0 (min 255 ((bilinearAt m s x y : Int) + t))

/-- The reads of a, b, d and e for source pixel (c, r), each made also where its address repeats (R222, R226). -/
def tapReads (s : Desc) (c r : Nat) : List Access :=
  let c1 := min (c + 1) (s.w.toNat - 1)
  let r1 := min (r + 1) (s.h.toNat - 1)
  [.read (byteOf s c r), .read (byteOf s c1 r), .read (byteOf s c r1), .read (byteOf s c1 r1)]

/-- The four destination pixels of source pixel (c, r), in order (R226). -/
def fourPixels (c r : Nat) : List (Nat × Nat) :=
  [(2 * c, 2 * r), (2 * c + 1, 2 * r), (2 * c, 2 * r + 1), (2 * c + 1, 2 * r + 1)]

/-- The accesses of UPRES.BL from source s to destination d in memory m, in order (R223, R226). -/
def upresBlAccesses (m : Memory) (s d : Desc) : List Access :=
  inRows s fun c r => tapReads s c r ++
    (fourPixels c r).map fun q => .write (byteOf d q.1 q.2) (BitVec.ofNat 8 (bilinearAt m s q.1 q.2))

/-- The accesses of UPRES.ADD, each delta byte being read just before its destination byte is written (R224, R226). -/
def upresAddAccesses (m : Memory) (s d dlt : Desc) : List Access :=
  inRows s fun c r => tapReads s c r ++
    (fourPixels c r).flatMap fun q =>
      [.read (byteOf dlt q.1 q.2), .write (byteOf d q.1 q.2) (BitVec.ofInt 8 (addedAt m s dlt q.1 q.2))]

/-- The accesses of UPRES.NN, which reads a alone (R225, R226). -/
def upresNnAccesses (m : Memory) (s d : Desc) : List Access :=
  inRows s fun c r => .read (byteOf s c r) ::
    (fourPixels c r).map fun q => .write (byteOf d q.1 q.2) (m.read (byteOf s c r))

/-! ## CONVERT (44_color_converter.md R240, R244, R257) -/

/-- Bytes written at ascending addresses from a. -/
def writeAll (m : Memory) (a : Nat) : List Byte → Memory
  | [] => m
  | b :: rest => writeAll (m.write a b) (a + 1) rest

/-- The samples of luma pixel (r, c) in memory m (R245). -/
def samplesOf (env : Env) (m : Memory) (ys c1s c2s : SlotIx) (r c : Nat) : Nat × Option (Nat × Nat) :=
  let p := env.params
  (pixelOf m (p.slot ys) c r,
    if p.mono then none
    else some (pixelOf m (p.slot c1s) (c >>> p.cshift) (r >>> p.cshift),
      pixelOf m (p.slot c2s) (c >>> p.cshift) (r >>> p.cshift)))

/-- The index of luma pixel (r, c), its samples read from memory m (R253). -/
def indexOf (env : Env) (m : Memory) (ys c1s c2s : SlotIx) (r c : Nat) : Rgb Colour :=
  pixelIndex env (samplesOf env m ys c1s c2s r c).1 (samplesOf env m ys c1s c2s r c).2

/-- The byte address of channel ch's element for luma pixel (r, c) (R256, R257). -/
def elementAddress (p : Params) (ys : SlotIx) (ch : Channel) (r c : Nat) : Nat :=
  p.outBase ch +
    p.elemSize * (rotIndex p.rot r c (p.slot ys).w.toNat (p.slot ys).h.toNat * p.outStride.toNat)

/-- The reads of luma pixel (r, c)'s samples: L, then c1 and c2 unless MONO (R244, R245). -/
def sampleReads (p : Params) (ys c1s c2s : SlotIx) (r c : Nat) : List Access :=
  .read (byteOf (p.slot ys) c r) ::
    if p.mono then []
    else [.read (byteOf (p.slot c1s) (c >>> p.cshift) (r >>> p.cshift)),
      .read (byteOf (p.slot c2s) (c >>> p.cshift) (r >>> p.cshift))]

/-- The accesses of a CONVERT in memory m, in order: each luma pixel's reads, then the bytes of its elements of R, G, B and A (R244,
R257). -/
def convertAccesses (env : Env) (ys c1s c2s : SlotIx) (m : Memory) : List Access :=
  inRows (env.params.slot ys) fun c r => sampleReads env.params ys c1s c2s r c ++
    env.params.channels.flatMap fun ch => writesFrom (elementAddress env.params ys ch r c)
      (channelElement env (indexOf env m ys c1s c2s r c) ch)

/-- Every byte a CONVERT accesses is plain memory (R86, R88): the samples it reads (R245) and the elements it writes (R257). -/
def convertPlain (env : Env) (ys c1s c2s : SlotIx) : Prop :=
  let p := env.params
  ∀ r c, r < (p.slot ys).h.toNat → c < (p.slot ys).w.toNat →
    (∀ x ∈ p.sources ys c1s c2s, env.plat.kindAt
      (if x.1 = 0 then (p.slot ys).base.toNat + r * (p.slot ys).w.toNat + c
        else (p.slot x.2).base.toNat + (r >>> p.cshift) * (p.slot x.2).w.toNat + (c >>> p.cshift)) = .plain) ∧
    ∀ ch ∈ p.channels, ∀ j, j < p.elemSize → env.plat.kindAt (elementAddress p ys ch r c + j) = .plain

/-- A pixel's element of one channel. -/
structure Element where
  ch : Channel
  r : Nat
  c : Nat
  deriving DecidableEq, Repr

/-- An element a CONVERT writes: a channel it writes, a luma pixel. -/
def isElement (p : Params) (ys : SlotIx) (x : Element) : Prop :=
  x.ch ∈ p.channels ∧ x.r < (p.slot ys).h.toNat ∧ x.c < (p.slot ys).w.toNat

/-- The output channels do not overlap each other: no two of the elements share a byte (R257). -/
def elementsApart (p : Params) (ys : SlotIx) : Prop :=
  ∀ x y, isElement p ys x → isElement p ys y → x ≠ y →
    elementAddress p ys x.ch x.r x.c + p.elemSize ≤ elementAddress p ys y.ch y.r y.c ∨
      elementAddress p ys y.ch y.r y.c + p.elemSize ≤ elementAddress p ys x.ch x.r x.c

/-- Memory after a CONVERT (R244, R257): luma pixels row by row, each writing its element of R, G, B and A in that order, every
sample taken from the memory m0 before the command (R260, R306). -/
def convertedMemory (env : Env) (ys c1s c2s : SlotIx) (m0 : Memory) : Memory :=
  let y := env.params.slot ys
  (List.range y.h.toNat).foldl (fun m r =>
    (List.range y.w.toNat).foldl (fun m c =>
      env.params.channels.foldl (fun m ch =>
        writeAll m (elementAddress env.params ys ch r c)
          (channelElement env (indexOf env m0 ys c1s c2s r c) ch)) m) m) m0

/-! ## The host's side -/

/-- An outcome with the schedule's pace replaced. -/
def withPace (pace : Option Nat) : Host.Outcome State Fault Refusal → Host.Outcome State Fault Refusal
  | .next t => .next { t with pace := pace }
  | o => o

/-- The slots a command reads planes of (R87, R342): for CONVERT the chroma planes only without MONO (R245). -/
def readSlots (p : Params) : Instr → List SlotIx
  | .upresBl src _ => [src]
  | .upresAdd src _ dlt => [src, dlt]
  | .upresNn src _ => [src]
  | .convert ys c1s c2s => if p.mono then [ys] else [ys, c1s, c2s]
  | .nop => []
  | .loadht _ _ _ => []
  | .clear _ => []
  | .decodeH24 _ _ _ _ => []
  | .decodeH32 _ _ _ _ => []

/-- The byte ranges of a command's buffers (R342; assumption log 18): the planes it reads, and what it can write. -/
def bufferRanges (p : Params) (i : Instr) : List ByteRange :=
  (readSlots p i).map (fun k => (p.slot k).range) ++ writtenRanges p i

/-- No command runs that has address a in its buffers (R342). -/
def outsideBuffers (s : State) (a : Nat) : Prop :=
  ∀ c i, s.running = some c → c.work = .command i → ∀ ρ ∈ bufferRanges s.params i, ρ.holds a = false

/-- Memory m' is m with byte a holding b. -/
def storesByte (a : Nat) (b : Byte) (m m' : Memory) : Prop := ∀ x, m'.read x = if x = a then b else m.read x

/-- The host delivers several items on the stream port, one after the other (R90). -/
def deliverAll (items : List PortItem) (s : State) : State := items.foldl (fun s x => deliver x s) s

end Sys2Proof.Machine
end

