-- ==== Sys2Proof/Certificates/Slice0/Obligations.lean ====
section
/-! DEFINITION. The statements about the model, for the provers. Each docstring names the rules of the spec it formalises. -/

open Sys2Proof Sys2Proof.Machine

/-! ## Reset and registers -/

/-- R32, R48: right after reset every register of the map reads its reset value. -/
def Obligations.ResetRegisters : Prop := ∀ x ∈ resetMap, readOffset State.reset x.1 = x.2

/-- R55, R320, R321: after a hardware or a soft reset every register reads its reset value, STATUS and TBL_VALID among them, the interrupt
output is deasserted, no command runs, the stream port is empty, and the ROMs and data memory are unchanged. R320: from the time the
reset input is asserted until it is released no action of the host changes that, so that the block is in this state when it is. -/
def Obligations.ResetRestoresTheBlock : Prop :=
  (∀ (s : State) (ev : HostEvent),
    (ev = .assertReset ∨
      s.resetLine = false ∧ ∃ v : Word, v.getLsbD 31 = true ∧ ev = .write 0x004 .word v) →
    ∃ t, hostAct ev s = .next t ∧ (∀ x ∈ resetMap, readOffset t x.1 = x.2) ∧ t.irq = false ∧
      t.busy = false ∧ t.running = none ∧ t.eng.port = [] ∧ t.eng.toDiscard = 0 ∧
      t.roms = s.roms ∧ t.eng.mem = s.eng.mem ∧ (t.resetLine = true ↔ ev = .assertReset)) ∧
  (∀ s : State, hostAct .releaseReset s = .next { s with resetLine := false }) ∧
  ∀ (s t : State) (ev : HostEvent), s.wf → s.resetLine = true → (∀ x ∈ resetMap, readOffset s x.1 = x.2) →
    s.eng.port = [] → s.eng.toDiscard = 0 → hostAct ev s = .next t →
    (∀ x ∈ resetMap, readOffset t x.1 = x.2) ∧ t.irq = false ∧ t.busy = false ∧ t.running = none ∧ t.eng.port = [] ∧
      t.eng.toDiscard = 0 ∧ (t.resetLine = false ↔ ev = .releaseReset)

/-- R40 to R46, R48, R49: a write of a parameter register while idle changes the parameter registers alone; the fields that commands
use take their bits of the word (`Params.took`), the register then reads the implemented bits of the word, and every other offset
reads as before. -/
def Obligations.ParameterWriteReadsBack : Prop :=
  ∀ (s : State) (off : BitVec 12) (r : Reg) (v : Word),
    s.resetLine = false → s.busy = false → regAt off = some r → r.isParam = true →
    ∃ p, hostAct (.write off .word v) s = .next { s with params := p } ∧ p.took v r ∧
      readOffset { s with params := p } off = r.kept v ∧
      ∀ off', off' ≠ off → readOffset { s with params := p } off' = readOffset s off'

/-- R49: reserved bits of every register read 0 and do not matter in a write; a read-only register ignores writes. CMD stores
nothing, so the second clause leaves it out. -/
def Obligations.ReservedBitsAndReadOnlyRegisters : Prop :=
  ∀ (s : State) (off : BitVec 12) (r : Reg), regAt off = some r →
    (readOffset s off &&& ~~~r.implemented = 0) ∧
    (r ≠ .cmd → ∀ v v' : Word, v &&& r.implemented = v' &&& r.implemented →
      hostAct (.write off .word v) s = hostAct (.write off .word v') s) ∧
    (r.isReadOnly = true → s.resetLine = false → s.busy = false → ∀ v : Word, hostAct (.write off .word v) s = .next s)

/-- R32: a reserved offset reads 0 and ignores writes. That a write to one leaves OVR while BUSY is the model's reading (assumption
log 10). -/
def Obligations.ReservedOffsets : Prop :=
  ∀ (s : State) (off : BitVec 12), s.resetLine = false → regAt off = none → off.toNat % 4 = 0 →
    (∀ v : Word, hostAct (.write off .word v) s = .next s) ∧
    hostAct (.read off .word) s = .next { s with busRead := 0 }

/-- R50: while BUSY, a write to any register but CTRL and STATUS changes nothing but OVR; and no action of the host changes the
parameter registers while the command still runs. -/
def Obligations.BusyWritesAreIgnored : Prop :=
  (∀ (s : State) (off : BitVec 12) (r : Reg) (v : Word),
    s.resetLine = false → s.busy = true → regAt off = some r → r ≠ .ctrl → r ≠ .status →
    hostAct (.write off .word v) s = .next { s with ovr := true }) ∧
  ∀ (s t : State) (ev : HostEvent), s.busy = true → hostAct ev s = .next t → t.busy = true → t.params = s.params

/-- R140, first case: a CMD write while BUSY or FAULT is 1 changes nothing but OVR. -/
def Obligations.CommandIgnoredWhileBusyOrFaulted : Prop :=
  ∀ (s : State) (w : Word), s.resetLine = false → (s.busy = true ∨ s.fault = true) →
    hostAct (.write 0x00C .word w) s = .next { s with ovr := true }

/-- R35, R37: a STATUS write clears DONE, FAULT and OVR where the word has a 1 in bits 1, 2 and 4; clearing FAULT zeroes
FAULT_CODE, FAULT_INFO and FAULT_ADDR; nothing else changes, BUSY or not. -/
def Obligations.StatusWriteClears : Prop :=
  ∀ (s : State) (v : Word), s.resetLine = false →
    hostAct (.write 0x008 .word v) s = .next
      { s with
        done := s.done && !v.getLsbD 1
        fault := s.fault && !v.getLsbD 2
        ovr := s.ovr && !v.getLsbD 4
        faultCode := if v.getLsbD 2 then 0 else s.faultCode
        faultInfo := if v.getLsbD 2 then 0 else s.faultInfo
        faultAddr := if v.getLsbD 2 then 0 else s.faultAddr }

/-- R34: a CTRL write without SOFT_RESET sets IRQ_EN to bit 0 and changes nothing else, BUSY or not. -/
def Obligations.CtrlWriteSetsIrqEn : Prop :=
  ∀ (s : State) (v : Word), s.resetLine = false → v.getLsbD 31 = false →
    hostAct (.write 0x004 .word v) s = .next { s with irqEn := v.getLsbD 0 }

/-- R32, R143: a register read returns the register's word and changes nothing of the block, BUSY or not. R33 to R39, R45, R47, R48: the
word of each register in terms of the state, STATUS and CTRL bit by bit. -/
def Obligations.RegisterReadHasNoEffect : Prop :=
  (∀ (s : State) (off : BitVec 12), s.resetLine = false → off.toNat % 4 = 0 →
    hostAct (.read off .word) s = .next { s with busRead := readOffset s off }) ∧
  ∀ s : State,
    let status := readOffset s 0x008
    let p := s.params
    readOffset s 0x000 = 0x50434401 ∧
    readOffset s 0x004 = (if s.irqEn then 1 else 0) ∧
    (status.getLsbD 0 = s.busy ∧ status.getLsbD 1 = s.done ∧ status.getLsbD 2 = s.fault ∧ status.getLsbD 3 = s.eng.eosSync ∧
      status.getLsbD 4 = s.ovr ∧ status.getLsbD 5 = s.eng.symErr ∧ status.extractLsb' 6 2 = 0 ∧
      status.extractLsb' 8 8 = s.faultCode ∧ status.extractLsb' 16 16 = 0) ∧
    readOffset s 0x00C = 0 ∧
    (readOffset s 0x010 = s.faultInfo ∧ readOffset s 0x014 = s.faultAddr ∧ readOffset s 0x018 = s.eng.bytesIn ∧
      readOffset s 0x01C = s.eng.seqDone ∧ readOffset s 0x020 = s.eng.seqSkip ∧ readOffset s 0x024 = s.eng.symErrs) ∧
    (readOffset s 0x028 = p.seqCount ∧ (readOffset s 0x02C).toNat = p.seqSize.toNat ∧
      (readOffset s 0x030).toNat = p.colOffset.toNat ∧ (readOffset s 0x034).toNat = p.skip24.toNat + 2 ^ 8 * p.skip32.toNat ∧
      readOffset s 0x038 = p.syncPat ∧ readOffset s 0x03C = p.syncMask ∧ (readOffset s 0x040).toNat = p.convCfg.toNat) ∧
    (readOffset s 0x044 = p.outR ∧ readOffset s 0x048 = p.outG ∧ readOffset s 0x04C = p.outB ∧ readOffset s 0x050 = p.outA ∧
      readOffset s 0x054 = p.outStride) ∧
    (readOffset s 0x058).toNat =
      s.eng.tables.y.valid.toNat + 2 * s.eng.tables.c1.valid.toNat + 4 * s.eng.tables.c2.valid.toNat ∧
    (∀ t, t < 3 → (readOffset s 0x058).getLsbD t = (s.eng.tables.get t).valid) ∧
    (∀ i : Fin 9, (readOffset s (BitVec.ofNat 12 (0x060 + 4 * i.val))).toInt = p.wb[i].toInt) ∧
    ∀ k : SlotIx, readOffset s (BitVec.ofNat 12 (0x100 + 8 * k.toNat)) = (p.slot k).base ∧
      (readOffset s (BitVec.ofNat 12 (0x104 + 8 * k.toNat))).toNat = (p.slot k).w.toNat + 2 ^ 16 * (p.slot k).h.toNat

/-- R81: an access to register space of another width or alignment is refused. R320: while the reset input is asserted, every access to
it is; that the step stops there, by name, is the model's reading (assumption log 16). -/
def Obligations.OtherRegisterAccessesRefused : Prop :=
  (∀ (s : State) (off : BitVec 12) (width : Width), s.resetLine = false → (width ≠ .word ∨ off.toNat % 4 ≠ 0) →
    hostAct (.read off width) s = .refused .registerAccess ∧
      ∀ v : Word, hostAct (.write off width v) s = .refused .registerAccess) ∧
  ∀ (s : State) (off : BitVec 12) (width : Width), s.resetLine = true →
    hostAct (.read off width) s = .refused .heldInReset ∧
      ∀ v : Word, hostAct (.write off width v) s = .refused .heldInReset

/-- R298: IRQ is IRQ_EN and (DONE or FAULT); clearing both DONE and FAULT, clearing IRQ_EN or a reset deasserts it, and OVR does not
matter. -/
def Obligations.InterruptOutput : Prop :=
  (∀ s : State, s.irq = true ↔ s.irqEn = true ∧ (s.done = true ∨ s.fault = true)) ∧
  (∀ (s t : State) (v : Word), v.getLsbD 1 = true → v.getLsbD 2 = true →
    hostAct (.write 0x008 .word v) s = .next t → t.irq = false) ∧
  (∀ (s t : State) (v : Word), v.getLsbD 0 = false → hostAct (.write 0x004 .word v) s = .next t → t.irq = false) ∧
  (∀ s t : State, hostAct .assertReset s = .next t → t.irq = false) ∧
  ∀ (s : State) (b : Bool), { s with ovr := b }.irq = s.irq

/-- R141, R282, R299: a CMD write that launches leaves either a running command, BUSY 1 and neither DONE nor FAULT, or an ended
one, BUSY 0 and exactly one of DONE and FAULT, the interrupt output being IRQ_EN. -/
def Obligations.LaunchedCommandRunsOrEnds : Prop :=
  ∀ (s t : State) (w : Word), s.busy = false → s.fault = false → commandWrite w s = .next t →
    (t.busy = true ∧ t.done = false ∧ t.fault = false ∧ t.running.isSome = true ∧ t.irq = false) ∨
    (t.busy = false ∧ (t.done = !t.fault) ∧ t.running = none ∧ t.irq = s.irqEn)

/-! ## Command words -/

/-- R100 to R107: decoding the word of any command gives that command, whatever its operands. -/
def Obligations.DecodeEncode : Prop := ∀ i : Instr, decode (encode i) = .ok i

/-- R100 to R107: a word that decodes is the word of its command: no two words are one command. -/
def Obligations.EncodeDecode : Prop := ∀ (w : Word) (i : Instr), decode w = .ok i → encode i = w

/-- R108, with the FAULT_INFO of R283's steps 2 to 4: a reserved OP, a nonzero reserved bit (DLT among them for UPRES.BL and
UPRES.NN), and an illegal NT, FIRST or MODE fault ILLEGAL_CMD; none of them executes. Of the engine's data nothing changes but the
launch effects and, for a word with OP 1 or 3, the port. -/
def Obligations.IllegalWordsFault : Prop :=
  ∀ (s : State) (w : Word) (n : Nat), Ready s → illegalWord w = some n →
    ∃ port outstanding,
      commandWrite w s = .next (endedByFault w .illegalCmd n 0 s
        { launched s.eng with port := port, toDiscard := outstanding }) ∧
      (takesStream w = false → port = s.eng.port ∧ outstanding = s.eng.toDiscard)

/-- R101 to R108: every other word is the word of a well-formed command. -/
def Obligations.LegalWordsDecode : Prop :=
  ∀ w : Word, illegalWord w = none → ∃ i : Instr, decode w = .ok i ∧ i.wellFormed = true

/-- Words of 95_test_vectors.md, written out from R101 to R106, decode to the commands the vectors name. -/
def Obligations.SampleWordsDecode : Prop :=
  decode 0x00000000 = .ok .nop ∧
  decode 0x00000111 = .ok (.loadht 1 0 true) ∧
  decode 0x00000042 = .ok (.clear 4) ∧
  decode 0x0001D103 = .ok (.decodeH24 0 1 2 7) ∧
  decode 0x00004013 = .ok (.decodeH32 0 0 0 1) ∧
  decode 0x00000084 = .ok (.upresBl 0 1) ∧
  decode 0x00003484 = .ok (.upresAdd 0 1 5) ∧
  decode 0x00004084 = .ok (.upresNn 0 1) ∧
  decode 0x00000885 = .ok (.convert 0 1 2) ∧
  decode 0x00000006 = .error .reservedOp ∧
  decode 0x00000080 = .error .reservedBit ∧
  decode 0x00000484 = .error .reservedBit ∧
  decode 0x00006084 = .error .illegalField

/-- R31, R36, R140: when the host's next action writes a word to CMD, the step runs the instruction it decodes to, with that action
taken off the host's list, or rejects the word. -/
def Obligations.StepRunsTheDecodedCommand : Prop :=
  ∀ (s : State) (w : Word) (rest : List HostEvent),
    s.inbox = .write 0x00C .word w :: rest → s.resetLine = false →
    (∀ i, decode w = .ok i → step s = exec i { s with inbox := rest }) ∧
    ∀ why, decode w = .error why → step s = rejectWord w why { s with inbox := rest }

/-! ## NOP and CLEAR -/

/-- R145: NOP has the launch effects and DONE, and takes no stream; its only word is 0, and every other word with OP = 0 faults
ILLEGAL_CMD(1). -/
def Obligations.NopCompletes : Prop :=
  (∀ s : State, Ready s → exec .nop s = .next (endedNormally .nop s (launched s.eng))) ∧
  decode 0 = .ok .nop ∧
  ∀ (s : State) (w : Word), Ready s → w &&& 0xF = 0 → w ≠ 0 →
    commandWrite w s = .next (endedByFault w .illegalCmd 1 0 s (launched s.eng))

/-- R170: CLEAR writes 0 to every byte of the plane and to no other; it faults GEOM on an unfit slot; at the first byte that does
not respond it faults BUS_ERROR, the bytes below it being 0 already. -/
def Obligations.ClearZeroesThePlane : Prop :=
  ∀ (s : State) (k : SlotIx), Ready s → s.eng.mem.wf →
    let d := s.params.slot k
    let size := d.w.toNat * d.h.toNat
    (d.unfit = true →
      exec (.clear k) s = .next (endedByFault (encode (.clear k)) .geom k.toNat 0 s (launched s.eng))) ∧
    (d.unfit = false → (∀ j, j < size → s.plat.kindAt (d.base.toNat + j) = .plain) →
      ∃ m, exec (.clear k) s = .next (endedNormally (.clear k) s { launched s.eng with mem := m }) ∧
        ∀ a, m.read a = if d.base.toNat ≤ a ∧ a < d.base.toNat + size then 0 else s.eng.mem.read a) ∧
    ∀ i, d.unfit = false → i < size → (∀ j, j < i → s.plat.kindAt (d.base.toNat + j) = .plain) →
      s.plat.kindAt (d.base.toNat + i) = .absent →
      ∃ m, exec (.clear k) s = .next (endedByFault (encode (.clear k)) .busError 1 (d.base.toNat + i) s
          { launched s.eng with mem := m }) ∧
        ∀ a, m.read a = if d.base.toNat ≤ a ∧ a < d.base.toNat + i then 0 else s.eng.mem.read a

/-! ## Launch checks -/

/-- R282 to R284, with R170, R172, R173, R221, R241, R242 and R243: the first launch check that fails raises its fault, and the command
then has read, written and taken nothing. Two clauses are the model's reading: that a LOADHT or DECODE ends before its EOS has been
delivered, the rest of its stream being discarded as it comes (assumption log 8), and that a LOADHT with an illegal NT or FIRST
discards its stream (assumption log 9). -/
def Obligations.LaunchChecksFault : Prop :=
  ∀ (s : State) (i : Instr) (f : FaultName) (info : Nat), Ready s →
    launchVerdict s.params s.eng.tables i = some (f, info) →
    exec i s = .next (endedByFault (encode i) f info 0 s (drainedFor (encode i) (launched s.eng)))

/-! ## LOADHT -/

/-- R150 to R153, R156 to R158, R160: LOADHT builds its tables from the stream into the slots FIRST, FIRST + 1, ..., takes the EPT
byte if EPT = 1, and counts the bytes taken. `loadTables` is the slots' contents by R151, R152 and R156. That it ends before its EOS
has been delivered, the rest of its stream being discarded as it comes, is the model's reading (assumption log 8). -/
def Obligations.LoadhtBuildsItsTables : Prop :=
  ∀ (s : State) (nt first : BitVec 2) (ept : Bool) (tables : List (List RawEntry)) (last rest : List Byte),
    Ready s → (Instr.loadht nt first ept).wellFormed = true → tables.length = nt.toNat → allBuildable 0 tables →
    last.length = (if ept then 1 else 0) →
    streamBytes s.eng.port = tables.flatMap tableBytes ++ last ++ rest →
    exec (.loadht nt first ept) s = .next (endedNormally (.loadht nt first ept) s
      (loadedTables s.eng (loadTables first.toNat 0 tables s.eng.tables)
        (tables.flatMap tableBytes ++ last).length).drain)

/-- R151 to R153, R155: a table without entries holds KEY 0x7F and LEN 31 everywhere; an entry applied to a table writes its symbol
and length to the indices cw | i, i in 0..2^(16-len)-1, and to no other. -/
def Obligations.TableEntryWritesItsIndices : Prop :=
  ∀ (c : Code) (codes : List Code) (idx : BitVec 16), 1 ≤ c.len.toNat → c.len.toNat ≤ 16 →
    (keyAt [] idx = 0x7F ∧ lenAt [] idx = 31) ∧
    ((∃ i : BitVec 16, i.toNat ≤ 2 ^ (16 - c.len.toNat) - 1 ∧ idx = c.cw ||| i) →
      keyAt (c :: codes) idx = c.sym ∧ lenAt (c :: codes) idx = c.len.toNat) ∧
    ((¬∃ i : BitVec 16, i.toNat ≤ 2 ^ (16 - c.len.toNat) - 1 ∧ idx = c.cw ||| i) →
      keyAt (c :: codes) idx = keyAt codes idx ∧ lenAt (c :: codes) idx = lenAt codes idx)

/-- R150, R154, R157, R158: a stream that ends inside table j, after the tables before it, faults EOF_IN_TABLE with the slot and the
position of the missing byte; the slot is invalid, the tables before it are loaded and the other slots are as they were. A stream
that ends at the EPT byte faults with the last slot, every table being loaded. -/
def Obligations.StreamEndsInTable : Prop :=
  ∀ (s : State) (nt first : BitVec 2) (ept : Bool) (tables : List (List RawEntry)) (part : List Byte),
    Ready s → (Instr.loadht nt first ept).wellFormed = true → allBuildable 0 tables → streamEnded s.eng.port = true →
    streamBytes s.eng.port = tables.flatMap tableBytes ++ part →
    let size := (tables.flatMap tableBytes ++ part).length
    let before := loadTables first.toNat 0 tables s.eng.tables
    (tables.length < nt.toNat → cutTable tables.length part →
      ∃ ts, exec (.loadht nt first ept) s = .next (endedByFault (encode (.loadht nt first ept)) .eofInTable
          (first.toNat + tables.length) size s (loadedTables s.eng ts size).drain) ∧
        (ts.get (first.toNat + tables.length)).valid = false ∧
        ∀ u, u < 3 → u ≠ first.toNat + tables.length → ts.get u = before.get u) ∧
    (tables.length = nt.toNat → ept = true → part = [] →
      exec (.loadht nt first ept) s = .next (endedByFault (encode (.loadht nt first ept)) .eofInTable
        (first.toNat + nt.toNat - 1) size s (loadedTables s.eng before size).drain))

/-- R154, R157: an entry of a table that is not a copy, its four bytes taken, with len above 16 faults HUFF_LEN with the slot, the
entry's index and the position of its first byte; the slot is invalid, the tables before it are loaded and the other slots are as
they were. That it ends before its EOS has been delivered, the rest of its stream being discarded as it comes, is the model's reading
(assumption log 8). -/
def Obligations.LongCodeFaults : Prop :=
  ∀ (s : State) (nt first : BitVec 2) (ept : Bool) (tables : List (List RawEntry)) (count : Byte) (es : List RawEntry)
    (bad : RawEntry) (rest : List Byte),
    Ready s → (Instr.loadht nt first ept).wellFormed = true → allBuildable 0 tables → tables.length < nt.toNat →
    es.length ≤ count.toNat → ¬(1 ≤ tables.length ∧ count.toNat + 1 < 4) → (∀ r ∈ es, r.b0.toNat + 1 ≤ 16) →
    16 < bad.b0.toNat + 1 →
    streamBytes s.eng.port =
      tables.flatMap tableBytes ++ (count :: (es.flatMap RawEntry.bytes ++ (bad.bytes ++ rest))) →
    let slot := first.toNat + tables.length
    let place := (tables.flatMap tableBytes).length + 1 + 4 * es.length
    ∃ ts, exec (.loadht nt first ept) s = .next (endedByFault (encode (.loadht nt first ept)) .huffLen
        (slot * 256 + es.length) place s (loadedTables s.eng ts (place + 4)).drain) ∧
      (ts.get slot).valid = false ∧
      ∀ u, u < 3 → u ≠ slot → ts.get u = (loadTables first.toNat 0 tables s.eng.tables).get u

/-- R153: in a legal state every index of every table slot has a length of 1..16 or the sentinel 31. -/
def Obligations.TableLengthsAreLegal : Prop :=
  ∀ (s : State) (t : Nat) (idx : BitVec 16), s.wf →
    lenAt (s.eng.tables.get t).codes idx = 31 ∨
      1 ≤ lenAt (s.eng.tables.get t).codes idx ∧ lenAt (s.eng.tables.get t).codes idx ≤ 16

/-! ## DECODE -/

/-- R114: the fields of an H24 header at a marker at bit p are the stream bits p+23, p+24 and p+26..p+38, most significant first. R42,
R181: the payload starts at bit p + 16 + SKIP24, which is p+44 at reset. R184, R185, R188: the row index and the first offset of a sequence so named. R104, R171,
R183, R187, for either header form: the plane of each plane code, each plane's enable, slot and table, and the symbol count. -/
def Obligations.HeaderFieldsH24 : Prop :=
  (∀ (bs : List Byte) (p : Nat),
    let b (k : Nat) : Nat := (streamBit bs (p + 20 + k)).toNat
    headerAt .h24 bs p =
        ⟨4 * b 3 + 2 * b 4, (List.range 13).foldl (fun n k => 2 * n + b (6 + k)) 0, 0⟩ ∧
      ∀ par : Params, payloadAt par .h24 p = p + 16 + par.skip24.toNat ∧ (par.skip24 = 28 → payloadAt par .h24 p = p + 44)) ∧
  (∀ (par : Params) (d : Desc) (f : HeaderFields),
    let w := d.w.toNat
    let size := par.seqSize.toNat
    let col := par.colOffset.toNat
    Header.rowIndex .h24 .y f.row = f.row ∧ firstOffset par .h24 .y d f = f.row * w + f.seq * size + col ∧
      ∀ pl, pl = .c1 ∨ pl = .c2 →
        Header.rowIndex .h24 pl f.row = f.row / 2 ∧ firstOffset par .h24 pl d f = f.row / 2 * w + f.seq * size + col / 2) ∧
  (∀ (pc : Nat) (pl : Plane),
    planeOfCode pc = some pl ↔ (pc = 0 ∧ pl = .y) ∨ (pc = 2 ∧ pl = .c1) ∨ ((pc = 3 ∨ pc = 4) ∧ pl = .c2)) ∧
  (∀ o : DecodeOps,
    (o.enabled .y = o.pen.getLsbD 0 ∧ o.slotOf .y = o.ys ∧ Plane.y.index = 0) ∧
    (o.enabled .c1 = o.pen.getLsbD 1 ∧ o.slotOf .c1 = o.c1s ∧ Plane.c1.index = 1) ∧
    (o.enabled .c2 = o.pen.getLsbD 2 ∧ o.slotOf .c2 = o.c2s ∧ Plane.c2.index = 2)) ∧
  ∀ (par : Params) (d : Desc), symbolCount par d = if par.seqSize.toNat = 0 then d.w.toNat else par.seqSize.toNat

/-- R115: the fields of an H32 header at a marker at bit p are the stream bits p+26, p+27, p+28..p+41 and p+43..p+46, most significant
first. R42, R181: the payload starts at bit p + 16 + SKIP32, which is p+52 at reset. R184, R185, R188: the row index, doubled for Y, and
the first offset of a sequence so named. -/
def Obligations.HeaderFieldsH32 : Prop :=
  (∀ (bs : List Byte) (p : Nat),
    let b (k : Nat) : Nat := (streamBit bs (p + 20 + k)).toNat
    headerAt .h32 bs p =
        ⟨4 * b 6 + 2 * b 7, (List.range 14).foldl (fun n k => 2 * n + b (8 + k)) 0,
          (List.range 4).foldl (fun n k => 2 * n + b (23 + k)) 0⟩ ∧
      ∀ par : Params, payloadAt par .h32 p = p + 16 + par.skip32.toNat ∧ (par.skip32 = 36 → payloadAt par .h32 p = p + 52)) ∧
  ∀ (par : Params) (d : Desc) (f : HeaderFields),
    let w := d.w.toNat
    let size := par.seqSize.toNat
    let col := par.colOffset.toNat
    Header.rowIndex .h32 .y f.row = 2 * f.row ∧ firstOffset par .h32 .y d f = 2 * f.row * w + f.seq * size + col ∧
      ∀ pl, pl = .c1 ∨ pl = .c2 →
        Header.rowIndex .h32 pl f.row = f.row ∧ firstOffset par .h32 pl d f = f.row * w + f.seq * size + col / 2

/-- R171 to R193, R196 to R198, and R199 but for its last sentence: on a stream that has ended, a DECODE that passes its launch checks
ends as the sequence loop of R171 says (`DecodeEnds`), for either header form. Two points are the model's reading: that FAULT_ADDR and
BYTES_IN keep the low 32 bits (assumption log 12), and that the sync search after an unknown symbol in the padding is R175's, which
with SYNC_LEN of 15 or less can still match where R199 says EOS_SYNC (assumption log 27). -/
def Obligations.DecodeRunsTheSequenceLoop : Prop :=
  ∀ (s : State) (h : Header) (o : DecodeOps), Ready s → s.eng.mem.wf → s.plat.noDevice →
    decodeVerdict s.params s.eng.tables o = none → streamEnded s.eng.port = true →
    ∃ out eos g,
      DecodeEnds s.env s.eng.tables h o (streamBytes s.eng.port) s.params.seqCount.toNat ⟨0, s.eng.mem, 0, 0, 0⟩ out eos g ∧
      exec (decodeInstr h o) s =
        .next (ended (decodeInstr h o) s out (progressed s.eng (streamBytes s.eng.port) g eos).drain)

/-- R171 to R193: the sequence loop has at most one outcome, so that `DecodeEnds` says how a DECODE ends and not only how it may. That
it has one where no byte is a device's is `DecodeRunsTheSequenceLoop`'s. -/
def Obligations.SequenceLoopHasOneOutcome : Prop :=
  ∀ (env : Env) (ts : Tables) (h : Header) (o : DecodeOps) (bs : List Byte) (n : Nat) (g g1 g2 : Progress)
    (out1 out2 : Option Failure) (eos1 eos2 : Bool),
    DecodeEnds env ts h o bs n g out1 eos1 g1 → DecodeEnds env ts h o bs n g out2 eos2 g2 →
    out1 = out2 ∧ eos1 = eos2 ∧ g1 = g2

/-- R193: with SEQ_COUNT = 0 a DECODE that passes its launch checks completes at once, with POS and BYTES_IN 0. That BUSY falls although
its EOS has not been delivered, the stream being discarded as it comes, is the model's reading (assumption log 8). -/
def Obligations.DecodeWithoutBudget : Prop :=
  ∀ (s : State) (h : Header) (o : DecodeOps), Ready s → decodeVerdict s.params s.eng.tables o = none →
    s.params.seqCount = 0 →
    exec (decodeInstr h o) s = .next (endedNormally (decodeInstr h o) s (launched s.eng).drain)

/-- R178: a DECODE whose stream holds no marker sets EOS_SYNC and completes, having searched until fewer than SYNC_LEN bits are left.
R43, R175: SYNC_LEN is 32 minus the number of SYNC_MASK's trailing zero bits, whatever its other bits. -/
def Obligations.DecodeWithoutMarker : Prop :=
  (∀ (s : State) (h : Header) (o : DecodeOps) (p : Nat), Ready s → decodeVerdict s.params s.eng.tables o = none →
    s.params.seqCount ≠ 0 → streamEnded s.eng.port = true → searchEnds s.params (streamBytes s.eng.port) 0 p →
    exec (decodeInstr h o) s = .next (endedNormally (decodeInstr h o) s
      (progressed s.eng (streamBytes s.eng.port) ⟨p, s.eng.mem, 0, 0, 0⟩ true).drain)) ∧
  ∀ (mask : Word) (zeros : Nat), mask.getLsbD zeros = true → (∀ k, k < zeros → mask.getLsbD k = false) →
    syncLen mask = 32 - zeros

/-- R182, R198: a stream that ends within the first 16 bits of a sequence or within the header skip faults EOF_IN_SEQ at the bit where
the consume that fails began, with SEQ_DONE 0. -/
def Obligations.HeaderCutFaults : Prop :=
  ∀ (s : State) (h : Header) (o : DecodeOps) (p : Nat), Ready s → decodeVerdict s.params s.eng.tables o = none →
    s.params.seqCount ≠ 0 → streamEnded s.eng.port = true →
    let bs := streamBytes s.eng.port
    markerFrom s.params bs 0 p → 8 * bs.length < payloadAt s.params h p →
    let at_ := if 8 * bs.length < p + 16 then p else p + 16
    exec (decodeInstr h o) s = .next (endedByFault (encode (decodeInstr h o)) .eofInSeq 0 at_ s
      (progressed s.eng bs ⟨at_, s.eng.mem, 0, 0, 0⟩ false).drain)

/-- R183: a header whose plane code is none of 0, 2, 3 and 4 faults BAD_PLANE with the code and the bit of its marker, the header
being consumed and counted. -/
def Obligations.InvalidPlaneFaults : Prop :=
  ∀ (s : State) (h : Header) (o : DecodeOps) (p : Nat), Ready s → decodeVerdict s.params s.eng.tables o = none →
    s.params.seqCount ≠ 0 → streamEnded s.eng.port = true →
    let bs := streamBytes s.eng.port
    markerFrom s.params bs 0 p → payloadAt s.params h p ≤ 8 * bs.length →
    let pc := (headerAt h bs p).pc
    pc ≠ 0 → pc ≠ 2 → pc ≠ 3 → pc ≠ 4 →
    exec (decodeInstr h o) s = .next (endedByFault (encode (decodeInstr h o)) .badPlane pc p s
      (progressed s.eng bs ⟨payloadAt s.params h p, s.eng.mem, 1, 0, 0⟩ false).drain)

/-- R186: a sequence of a plane that is not enabled, or of a row outside its plane, adds 1 to SEQ_SKIP, consumes none of its symbols
and writes nothing. -/
def Obligations.SequenceIsSkipped : Prop :=
  ∀ (s : State) (h : Header) (o : DecodeOps) (p : Nat) (pl : Plane), Ready s →
    decodeVerdict s.params s.eng.tables o = none → s.params.seqCount = 1 → streamEnded s.eng.port = true →
    let bs := streamBytes s.eng.port
    markerFrom s.params bs 0 p → payloadAt s.params h p ≤ 8 * bs.length →
    planeOfCode (headerAt h bs p).pc = some pl → isSkipped s.env h o pl (headerAt h bs p) →
    exec (decodeInstr h o) s = .next (endedNormally (decodeInstr h o) s
      (progressed s.eng bs ⟨payloadAt s.params h p, s.eng.mem, 1, 1, 0⟩ false).drain)

/-- R184 to R190: with a budget of one, the n symbols of a sequence whose codes are known and lie within the stream go to the offsets
o, o + 1, ... of its plane, those past its end being dropped; no other byte changes. -/
def Obligations.SequenceIsDecoded : Prop :=
  ∀ (s : State) (h : Header) (o : DecodeOps) (p : Nat) (pl : Plane), Ready s → s.eng.mem.wf →
    decodeVerdict s.params s.eng.tables o = none → s.params.seqCount = 1 → streamEnded s.eng.port = true →
    let bs := streamBytes s.eng.port
    markerFrom s.params bs 0 p → payloadAt s.params h p ≤ 8 * bs.length →
    planeOfCode (headerAt h bs p).pc = some pl → ¬isSkipped s.env h o pl (headerAt h bs p) →
    let d := s.params.slot (o.slotOf pl)
    let codes := (s.eng.tables.get pl.index).codes
    let start := payloadAt s.params h p
    let n := symbolCount s.params d
    let off := firstOffset s.params h pl d (headerAt h bs p)
    (∀ k, k < n → symbolLen codes bs start k ≠ 31) → symbolPos codes bs start n ≤ 8 * bs.length →
    (∀ k, k < n → off + k < d.w.toNat * d.h.toNat → s.plat.kindAt (d.base.toNat + (off + k)) = .plain) →
    ∃ m, exec (decodeInstr h o) s = .next (endedNormally (decodeInstr h o) s
        (progressed s.eng bs ⟨symbolPos codes bs start n, m, 1, 0, 0⟩ false).drain) ∧
      (∀ k, k < n → off + k < d.w.toNat * d.h.toNat →
        m.read (d.base.toNat + (off + k)) = symbolKey codes bs start k) ∧
      ∀ a, (∀ k, k < n → off + k < d.w.toNat * d.h.toNat → a ≠ d.base.toNat + (off + k)) →
        m.read a = s.eng.mem.read a

/-- R191, R192: at an unknown symbol `bad` the rest of the sequence becomes zeros, the symbols before it keep their values,
SYM_ERRS is 1 and SYMERR set, no bit of the unknown code is consumed, and the command completes. -/
def Obligations.UnknownSymbolRecovers : Prop :=
  ∀ (s : State) (h : Header) (o : DecodeOps) (p : Nat) (pl : Plane) (bad : Nat), Ready s → s.eng.mem.wf →
    decodeVerdict s.params s.eng.tables o = none → s.params.seqCount = 1 → streamEnded s.eng.port = true →
    let bs := streamBytes s.eng.port
    markerFrom s.params bs 0 p → payloadAt s.params h p ≤ 8 * bs.length →
    planeOfCode (headerAt h bs p).pc = some pl → ¬isSkipped s.env h o pl (headerAt h bs p) →
    let d := s.params.slot (o.slotOf pl)
    let codes := (s.eng.tables.get pl.index).codes
    let start := payloadAt s.params h p
    let n := symbolCount s.params d
    let off := firstOffset s.params h pl d (headerAt h bs p)
    bad < n → (∀ k, k < bad → symbolLen codes bs start k ≠ 31) → symbolLen codes bs start bad = 31 →
    symbolPos codes bs start bad ≤ 8 * bs.length →
    (∀ k, k < n → off + k < d.w.toNat * d.h.toNat → s.plat.kindAt (d.base.toNat + (off + k)) = .plain) →
    ∃ m, exec (decodeInstr h o) s = .next (endedNormally (decodeInstr h o) s
        (progressed s.eng bs ⟨symbolPos codes bs start bad, m, 1, 0, 1⟩ false).drain) ∧
      (∀ k, k < n → off + k < d.w.toNat * d.h.toNat →
        m.read (d.base.toNat + (off + k)) = if k < bad then symbolKey codes bs start k else 0) ∧
      ∀ a, (∀ k, k < n → off + k < d.w.toNat * d.h.toNat → a ≠ d.base.toNat + (off + k)) →
        m.read a = s.eng.mem.read a

/-- R182, R189: a symbol whose code extends past the end of the stream faults EOF_IN_SEQ at its first bit, its value having been
written; nothing after it is. -/
def Obligations.SymbolCutFaults : Prop :=
  ∀ (s : State) (h : Header) (o : DecodeOps) (p : Nat) (pl : Plane) (cut : Nat), Ready s → s.eng.mem.wf →
    decodeVerdict s.params s.eng.tables o = none → s.params.seqCount ≠ 0 → streamEnded s.eng.port = true →
    let bs := streamBytes s.eng.port
    markerFrom s.params bs 0 p → payloadAt s.params h p ≤ 8 * bs.length →
    planeOfCode (headerAt h bs p).pc = some pl → ¬isSkipped s.env h o pl (headerAt h bs p) →
    let d := s.params.slot (o.slotOf pl)
    let codes := (s.eng.tables.get pl.index).codes
    let start := payloadAt s.params h p
    let off := firstOffset s.params h pl d (headerAt h bs p)
    cut < symbolCount s.params d → (∀ k, k ≤ cut → symbolLen codes bs start k ≠ 31) →
    symbolPos codes bs start cut ≤ 8 * bs.length → 8 * bs.length < symbolPos codes bs start (cut + 1) →
    (∀ k, k ≤ cut → off + k < d.w.toNat * d.h.toNat → s.plat.kindAt (d.base.toNat + (off + k)) = .plain) →
    ∃ m, exec (decodeInstr h o) s = .next (endedByFault (encode (decodeInstr h o)) .eofInSeq 0
        (symbolPos codes bs start cut) s
        (progressed s.eng bs ⟨symbolPos codes bs start cut, m, 1, 0, 0⟩ false).drain) ∧
      (∀ k, k ≤ cut → off + k < d.w.toNat * d.h.toNat →
        m.read (d.base.toNat + (off + k)) = symbolKey codes bs start k) ∧
      ∀ a, (∀ k, k ≤ cut → off + k < d.w.toNat * d.h.toNat → a ≠ d.base.toNat + (off + k)) →
        m.read a = s.eng.mem.read a

/-- R38, R39, R192, R193: however far a DECODE has got, POS lies within the bytes delivered and BYTES_IN is ceil(POS / 8); SEQ_DONE
is at most SEQ_COUNT, SEQ_SKIP and SYM_ERRS together at most SEQ_DONE, and SYMERR says whether SYM_ERRS is above 0. -/
def Obligations.DecodeCounters : Prop :=
  ∀ (s t : State) (h : Header) (o : DecodeOps), s.busy = false → s.fault = false →
    exec (decodeInstr h o) s = .next t →
    t.eng.pos ≤ 8 * (streamBytes s.eng.port).length ∧
    t.eng.bytesIn = BitVec.ofNat 32 ((t.eng.pos + 7) / 8) ∧
    t.eng.seqDone.toNat ≤ s.params.seqCount.toNat ∧
    t.eng.seqSkip.toNat + t.eng.symErrs.toNat ≤ t.eng.seqDone.toNat ∧
    (t.eng.symErr = true ↔ t.eng.symErrs ≠ 0)

/-! ## UPRES -/

/-- R222, R223, R226, R228: over plain memory UPRES.BL leaves the bilinear value of the source, as it was, at every pixel of the
destination, and changes no other byte. R86, R226, R282: at the first byte accessed that does not respond it faults BUS_ERROR, with
exactly the accesses before that one performed. -/
def Obligations.UpresBlInterpolates : Prop :=
  ∀ (s : State) (src dst : SlotIx), Ready s → s.eng.mem.wf → upresVerdict s.params src dst = none →
    let a := s.params.slot src
    let d := s.params.slot dst
    (s.plat.plainOn a.range → s.plat.plainOn d.range →
      ∃ m, exec (.upresBl src dst) s = .next (endedNormally (.upresBl src dst) s { launched s.eng with mem := m }) ∧
        (∀ x y, x < 2 * a.w.toNat → y < 2 * a.h.toNat →
          (m.read (d.base.toNat + y * (2 * a.w.toNat) + x)).toNat = bilinearAt s.eng.mem a x y) ∧
        ∀ z, d.range.holds z = false → m.read z = s.eng.mem.read z) ∧
    endsAtAbsentByte (.upresBl src dst) s (upresBlAccesses s.eng.mem a d)

/-- R224, R226, R230: over plain memory UPRES.ADD leaves the bilinear value plus the signed delta, clamped to 0..255, at every pixel of
the destination, the delta plane being taken as it was also where it is the destination; no other byte changes. R86, R226, R282: at
the first byte accessed that does not respond it faults BUS_ERROR, with exactly the accesses before that one performed. -/
def Obligations.UpresAddSaturates : Prop :=
  ∀ (s : State) (src dst dlt : SlotIx), Ready s → s.eng.mem.wf → upresAddVerdict s.params src dst dlt = none →
    let a := s.params.slot src
    let d := s.params.slot dst
    let x := s.params.slot dlt
    (s.plat.plainOn a.range → s.plat.plainOn d.range → s.plat.plainOn x.range →
      ∃ m, exec (.upresAdd src dst dlt) s =
          .next (endedNormally (.upresAdd src dst dlt) s { launched s.eng with mem := m }) ∧
        (∀ c r, c < 2 * a.w.toNat → r < 2 * a.h.toNat →
          ((m.read (d.base.toNat + r * (2 * a.w.toNat) + c)).toNat : Int) = addedAt s.eng.mem a x c r) ∧
        ∀ z, d.range.holds z = false → m.read z = s.eng.mem.read z) ∧
    endsAtAbsentByte (.upresAdd src dst dlt) s (upresAddAccesses s.eng.mem a d x)

/-- R225, R226: over plain memory UPRES.NN leaves source pixel (x/2, y/2) at every pixel (x, y) of the destination, and changes no other
byte. R86, R226, R282: at the first byte accessed that does not respond it faults BUS_ERROR, with exactly the accesses before that one
performed. -/
def Obligations.UpresNnReplicates : Prop :=
  ∀ (s : State) (src dst : SlotIx), Ready s → s.eng.mem.wf → upresVerdict s.params src dst = none →
    let a := s.params.slot src
    let d := s.params.slot dst
    (s.plat.plainOn a.range → s.plat.plainOn d.range →
      ∃ m, exec (.upresNn src dst) s = .next (endedNormally (.upresNn src dst) s { launched s.eng with mem := m }) ∧
        (∀ x y, x < 2 * a.w.toNat → y < 2 * a.h.toNat →
          (m.read (d.base.toNat + y * (2 * a.w.toNat) + x)).toNat = pixelOf s.eng.mem a (x / 2) (y / 2)) ∧
        ∀ z, d.range.holds z = false → m.read z = s.eng.mem.read z) ∧
    endsAtAbsentByte (.upresNn src dst) s (upresNnAccesses s.eng.mem a d)

/-! ## CONVERT -/

/-- R240, R244, R245, R257, R260: over plain memory CONVERT leaves the memory that writing each luma pixel's elements gives, pixel by
pixel and channel by channel, every sample being taken from the memory before the command. R86, R244, R282: at the first byte accessed
that does not respond it faults BUS_ERROR, with exactly the accesses before that one performed. R44, R245, R259: with MONO (CONV_CFG
bit 3) it has the luma plane alone as a source and reads one byte for each pixel. -/
def Obligations.ConvertWritesEveryElement : Prop :=
  (∀ (s : State) (ys c1s c2s : SlotIx), Ready s → s.eng.mem.wf → convertVerdict s.params ys c1s c2s = none →
    (convertPlain s.env ys c1s c2s →
      exec (.convert ys c1s c2s) s = .next (endedNormally (.convert ys c1s c2s) s
        { launched s.eng with mem := convertedMemory s.env ys c1s c2s s.eng.mem })) ∧
    endsAtAbsentByte (.convert ys c1s c2s) s (convertAccesses s.env ys c1s c2s s.eng.mem)) ∧
  ∀ (p : Params) (ys c1s c2s : SlotIx) (r c : Nat),
    (p.convCfg.getLsbD 3 = true → p.sources ys c1s c2s = [(0, ys)] ∧
      sampleReads p ys c1s c2s r c = [.read (byteOf (p.slot ys) c r)]) ∧
    (p.convCfg.getLsbD 3 = false → p.sources ys c1s c2s = [(0, ys), (1, c1s), (2, c2s)] ∧
      (sampleReads p ys c1s c2s r c).length = 3)

/-- R254 to R257: after a CONVERT whose channels do not overlap each other, byte j of every element is byte j of its channel's
value for its pixel; bytes of no element are as they were, overlap or not. R46, R240, R255: the channels are R, G and B at OUT_R, OUT_G
and OUT_B, and alpha at OUT_A unless OUT_A is 0; an element has 1, 2 or 4 bytes by FMT (CONV_CFG bits 5:4). -/
def Obligations.ConvertedElements : Prop :=
  (∀ (env : Env) (m0 : Memory) (ys c1s c2s : SlotIx), m0.wf →
    (elementsApart env.params ys → ∀ x, isElement env.params ys x → ∀ (j : Nat) (b : Byte),
      (channelElement env (indexOf env m0 ys c1s c2s x.r x.c) x.ch)[j]? = some b →
      (convertedMemory env ys c1s c2s m0).read (elementAddress env.params ys x.ch x.r x.c + j) = b) ∧
    ∀ a, (∀ x, isElement env.params ys x → ∀ j, j < env.params.elemSize →
        a ≠ elementAddress env.params ys x.ch x.r x.c + j) →
      (convertedMemory env ys c1s c2s m0).read a = m0.read a) ∧
  ∀ p : Params,
    (p.outA = 0 → p.channels = [.r, .g, .b]) ∧ (p.outA ≠ 0 → p.channels = [.r, .g, .b, .a]) ∧
    (p.outBase .r = p.outR.toNat ∧ p.outBase .g = p.outG.toNat ∧ p.outBase .b = p.outB.toNat ∧ p.outBase .a = p.outA.toNat) ∧
    let fmt := p.convCfg.toNat / 2 ^ 4 % 4
    (fmt = 0 → p.elemSize = 1) ∧ (fmt = 1 → p.elemSize = 2) ∧ (fmt = 2 → p.elemSize = 4)

/-- R256: for each ROT the index of R256's table maps the W*H source pixels one to one onto 0..W*H-1, and the element index is it times
OUT_STRIDE. -/
def Obligations.RotationIsABijection : Prop :=
  (∀ r c w h : Nat, rotIndex 0 r c w h = c + r * w ∧ rotIndex 1 r c w h = r + (w - 1 - c) * h ∧
    rotIndex 2 r c w h = (w - 1 - c) + (h - 1 - r) * w ∧ rotIndex 3 r c w h = (h - 1 - r) + c * h) ∧
  (∀ rot w h : Nat, rot < 4 →
    (∀ r c, r < h → c < w → rotIndex rot r c w h < w * h) ∧
    (∀ r c r' c', r < h → c < w → r' < h → c' < w →
      rotIndex rot r c w h = rotIndex rot r' c' w h → r = r' ∧ c = c') ∧
    ∀ n, n < w * h → ∃ r c, r < h ∧ c < w ∧ rotIndex rot r c w h = n) ∧
  ∀ (p : Params) (ys : SlotIx) (ch : Channel) (r c : Nat),
    elementAddress p ys ch r c = p.outBase ch +
      p.elemSize * (rotIndex p.rot r c (p.slot ys).w.toNat (p.slot ys).h.toNat * p.outStride.toNat)

/-- R247 to R249, R259: the matrix, written with floor and truncated division, and what MONO makes of it. -/
def Obligations.MatrixIndices : Prop :=
  ∀ l c1 c2 : Nat,
    let clamp (v : Int) : Int := if v < 0 then 0 else if 1388 < v then 1388 else v
    let li : Int := (l : Int) * 5573
    let c1i : Int := ((c1 : Int) - 156) * 9085
    let c2i : Int := ((c2 : Int) - 137) * 7461
    let v := matrixIndex l (some (c1, c2))
    let mono := matrixIndex l none
    ((v.r.val : Int) = clamp ((li + c2i).fdiv 1024) ∧
      (v.g.val : Int) = clamp (li.fdiv 1024 - c1i.tdiv 5278 - c2i.tdiv 2012) ∧
      (v.b.val : Int) = clamp ((li + c1i).fdiv 1024)) ∧
    ((mono.r.val : Int) = clamp (li.fdiv 1024) ∧ mono.g = mono.r ∧ mono.b = mono.r)

/-- R246, R250 to R253: the pipeline of each colour space over the matrix indices m: white balance floors the products' sum by 2^13 and
clamps; LIN comes before it and SRGB after it; YCC takes neither tables nor white balance. -/
def Obligations.ColourPipelines : Prop :=
  ∀ (env : Env) (l : Nat) (chroma : Option (Nat × Nat)),
    let p := env.params
    let clamp (v : Int) : Int := if v < 0 then 0 else if 1388 < v then 1388 else v
    let m := matrixIndex l chroma
    let coeff (i : Fin 9) : Int := p.wb[i].toInt
    let row (i j k : Fin 9) (v : Rgb Colour) : Int :=
      clamp ((coeff i * v.r.val + coeff j * v.g.val + coeff k * v.b.val).fdiv 8192)
    let balanced (u v : Rgb Colour) : Prop :=
      if p.wbD50 then (u.r.val : Int) = row 0 1 2 v ∧ (u.g.val : Int) = row 3 4 5 v ∧ (u.b.val : Int) = row 6 7 8 v
      else u = v
    let linear : Rgb Colour := ⟨env.roms.lin[m.r], env.roms.lin[m.g], env.roms.lin[m.b]⟩
    let yidx (v : Nat) : Nat := min 1388 (v * 1024 / 188)
    let out := pixelIndex env l chroma
    (p.cspace = .raw709 → balanced out m) ∧
    (p.cspace = .lin709 → balanced out linear) ∧
    (p.cspace = .srgb → ∃ u, balanced u linear ∧
      out = ⟨env.roms.srgb[u.r], env.roms.srgb[u.g], env.roms.srgb[u.b]⟩) ∧
    (p.cspace = .ycc → out.r.val = yidx l ∧
      out.g.val = (match chroma with | some (c1, _) => yidx c1 | none => yidx l) ∧
      out.b.val = (match chroma with | some (_, c2) => yidx c2 | none => yidx l))

/-- R84, R254, R255: byte j of an element at its address is bits 8j+7..8j of OUT8, OUT16 or OUTF of the index, and of 0xFF, 0xFFFF or
0x3F800000 for alpha, with OUT_BIG_ENDIAN false. -/
def Obligations.ElementBytes : Prop :=
  ∀ (env : Env) (v : Rgb Colour) (ch : Channel) (j : Nat), env.plat.outBigEndian = false → env.params.fmt ≤ 2 →
    let index : Option Colour := match ch with | .r => some v.r | .g => some v.g | .b => some v.b | .a => none
    let whole : Nat := match env.params.fmt, index with
      | 0, some k => env.roms.out8[k].toNat
      | 0, none => 0xFF
      | 1, some k => env.roms.out16[k].toNat
      | 1, none => 0xFFFF
      | _, some k => (match env.roms.outf[k] with | .nonneg pattern => pattern.val | .negZero => 0x80000000)
      | _, none => 0x3F800000
    (channelElement env v ch).length = env.params.elemSize ∧
      (j < env.params.elemSize → (channelElement env v ch)[j]? = some (BitVec.ofNat 8 (whole / 2 ^ (8 * j))))

/-! ## Every command -/

/-- R37, R50, R56, R140, R142: what no command changes: the parameter registers, IRQ_EN, the ROMs, the platform and the host's side;
OVR only where the write is ignored; FAULT_CODE, FAULT_INFO and FAULT_ADDR only by a fault. -/
def Obligations.CommandFrame : Prop :=
  ∀ (s t : State) (i : Instr), exec i s = .next t →
    t.params = s.params ∧ t.irqEn = s.irqEn ∧ t.roms = s.roms ∧ t.plat = s.plat ∧ t.resetLine = s.resetLine ∧
    t.busRead = s.busRead ∧ t.resets = s.resets ∧ t.pace = s.pace ∧ t.inbox = s.inbox ∧
    t.ovr = (s.ovr || s.busy || s.fault) ∧ t.cur = (if s.busy || s.fault then s.cur else encode i) ∧
    ((s.fault = true ∨ t.fault = false) →
      t.faultCode = s.faultCode ∧ t.faultInfo = s.faultInfo ∧ t.faultAddr = s.faultAddr)

/-- R51, R56, R87, R157, R344: of the engine's data, a launched NOP, CLEAR, UPRES or CONVERT changes memory alone beside the launch
effects; LOADHT leaves memory, DECODE's counts and the slots it does not name; DECODE leaves the tables. -/
def Obligations.EngineFrame : Prop :=
  ∀ (s t : State) (i : Instr), s.busy = false → s.fault = false → exec i s = .next t →
    (takesStream (encode i) = false → t.eng = { launched s.eng with mem := t.eng.mem }) ∧
    (∀ nt first ept, i = .loadht nt first ept →
      t.eng = { launched s.eng with
        tables := t.eng.tables
        bytesIn := t.eng.bytesIn
        nb := t.eng.nb
        port := t.eng.port
        toDiscard := t.eng.toDiscard } ∧
      ∀ u, u < 3 → (u < first.toNat ∨ first.toNat + nt.toNat ≤ u) → t.eng.tables.get u = s.eng.tables.get u) ∧
    ∀ h o, i = decodeInstr h o → t.eng.tables = s.eng.tables ∧ t.eng.nb = 0

/-- R87, R186, R190, R201, R242: a command writes no byte outside the planes or channel spans it has as destinations, however it ends
and wherever it is paused. -/
def Obligations.CommandsWriteOnlyTheirRanges : Prop :=
  ∀ (s t : State) (i : Instr) (a : Nat), s.eng.mem.wf → exec i s = .next t →
    (∀ ρ ∈ writtenRanges s.params i, ρ.holds a = false) → t.eng.mem.read a = s.eng.mem.read a

/-- The stream port. R90, R144, R282: a LOADHT or DECODE that has ended has discarded its stream up to and including EOS, and nothing
after it; that a LOADHT with an illegal NT or FIRST has too is the model's reading (assumption log 9). R90, R344: what the host delivers
joins the end of what the port holds, for the command that runs or for the next LOADHT or DECODE, whose stream is then those bytes.
R320: during reset it is discarded. While the EOS of an ended command's stream is outstanding, deliveries are discarded up to and
including that EOS, which is the model's reading (assumption log 8). -/
def Obligations.EndedCommandDiscardsItsStream : Prop :=
  (∀ (s t : State) (i : Instr), s.busy = false → s.fault = false → takesStream (encode i) = true →
    streamEnded s.eng.port = true → exec i s = .next t → t.busy = false →
    t.eng.port = afterStream s.eng.port ∧ t.eng.toDiscard = s.eng.toDiscard) ∧
  (∀ (s : State) (b : Byte), hostAct (.streamByte b) s = .next (deliverAll [.byte b] s) ∧
    hostAct .streamEnd s = .next (deliverAll [.eos] s)) ∧
  (∀ (s : State) (items : List PortItem), s.resetLine = true → deliverAll items s = s) ∧
  (∀ (s : State) (items : List PortItem), s.resetLine = false → s.eng.toDiscard = 0 →
    let t := deliverAll items s
    t = { s with eng := { s.eng with port := s.eng.port ++ items }, running := t.running } ∧
    (s.running = none → t.running = none) ∧
    ∀ c, s.running = some c → c.base.toDiscard = 0 →
      t.running = some { c with base := { c.base with port := c.base.port ++ items } }) ∧
  (∀ (s : State) (bytes : List Byte) (rest : List PortItem), s.resetLine = false → s.eng.toDiscard = 0 →
    streamEnded s.eng.port = false →
    let port := (deliverAll (bytes.map .byte ++ .eos :: rest) s).eng.port
    streamBytes port = streamBytes s.eng.port ++ bytes ∧ streamEnded port = true ∧ afterStream port = rest) ∧
  ∀ (s : State) (bytes : List Byte) (n : Nat), s.resetLine = false → s.eng.toDiscard = n + 1 →
    (deliverAll (bytes.map .byte ++ [.eos]) s).eng = { s.eng with toDiscard := n }

/-- R147, R201: every command ends: on a stream that has ended, for the two that take one, and with no device in data memory. R90: a
LOADHT or DECODE whose stream does not end and that has not ended waits; with no host action left the step stops in `streamStarved`, and
in no other case does a step fault. That stop is the model's reading of 93 S11's 'stuck' (assumption log 19). -/
def Obligations.EveryCommandEnds : Prop :=
  (∀ (s : State) (i : Instr), Ready s → s.plat.noDevice → (takesStream (encode i) = true → streamEnded s.eng.port = true) →
    ∃ t, exec i s = .next t ∧ t.busy = false) ∧
  (∀ (s t : State) (i : Instr), Ready s → s.inbox = [] → exec i s = .next t → t.busy = true → step t = .fault .streamStarved) ∧
  ∀ (s : State) (f : Machine.Fault), s.wf → step s = .fault f →
    f = .streamStarved ∧ s.inbox = [] ∧ s.busy = true ∧
      ∃ c i, s.running = some c ∧ c.work = .command i ∧ takesStream (encode i) = true ∧ streamEnded c.base.port = false

/-- R86, R281: a BUS_ERROR names a byte of data memory that does not respond, with FAULT_INFO 0 or 1; FAULT_CODE is always 1..9, each
fault's code being the one of R281's table. -/
def Obligations.BusErrorNamesAnAbsentByte : Prop :=
  (FaultName.illegalCmd.code = 0x01 ∧ FaultName.geom.code = 0x02 ∧ FaultName.overlap.code = 0x03 ∧ FaultName.noTable.code = 0x04 ∧
    FaultName.eofInTable.code = 0x05 ∧ FaultName.huffLen.code = 0x06 ∧ FaultName.eofInSeq.code = 0x07 ∧
    FaultName.badPlane.code = 0x08 ∧ FaultName.busError.code = 0x09) ∧
  ∀ (s t : State) (i : Instr), s.busy = false → s.fault = false → exec i s = .next t → t.fault = true →
    (1 ≤ t.faultCode.toNat ∧ t.faultCode.toNat ≤ 9) ∧
    (t.faultCode = FaultName.busError.code →
      (t.faultInfo = 0 ∨ t.faultInfo = 1) ∧ s.plat.kindAt t.faultAddr.toNat = .absent)

/-- R90, R94, R142 (assumption log 7): a command that was paused, or that waited for stream bytes, ends as one that is launched with
everything delivered before: the schedule and the time of delivery do not matter. -/
def Obligations.LateDeliveryDoesNotMatter : Prop :=
  ∀ (s t : State) (i : Instr) (items : List PortItem), s.busy = false → s.fault = false → s.resetLine = false →
    s.eng.toDiscard = 0 → exec i s = .next t → t.busy = true →
    proceed none (deliverAll items t) = withPace s.pace (exec i (deliverAll items { s with pace := none }))

/-! ## Every step -/

/-- R52: no step changes the ROMs. That no step changes MEM_OK's regions or OUT_BIG_ENDIAN either is the model's choice (assumption logs
2 and 14): R7 and R84 make them the platform's. -/
def Obligations.StepKeepsRomsAndPlatform : Prop :=
  ∀ s t : State, step s = .next t → t.roms = s.roms ∧ t.plat = s.plat

/-- R140, R141, R35, R37, R80, R153, R281: every step keeps a state legal (`State.wf`): the phases and fault registers agree, memory is in
canonical form, and tables hold legal lengths. R55: the state after reset is legal. -/
def Obligations.StepKeepsLegalStates : Prop := (∀ s t : State, s.wf → step s = .next t → t.wf) ∧ State.reset.wf

/-- The host's own accesses to data memory. R88: a read returns the last value written. R95: a host write before a CMD write is in the
memory that the command is run on, and once a command has ended a read returns what it left. R342: an access to a running command's
buffers has no defined result; that it is refused by name is the model's reading (assumption log 18). That the host reads and writes a
byte that does not respond to the block, or a device's, as plain memory is the model's choice (assumption log 26). -/
def Obligations.HostMemoryAccesses : Prop :=
  (∀ (s : State) (c : Running) (i : Instr) (a : Word) (b : Byte), s.running = some c → c.work = .command i →
    (∃ ρ ∈ bufferRanges s.params i, ρ.holds a.toNat = true) →
    hostAct (.memRead a) s = .refused .hostBufferAccess ∧ hostAct (.memWrite a b) s = .refused .hostBufferAccess) ∧
  (∀ (s : State) (a : Word), outsideBuffers s a.toNat →
    hostAct (.memRead a) s = .next { s with busRead := (s.eng.mem.read a.toNat).setWidth 32 }) ∧
  (∀ (s : State) (a : Word) (b : Byte), s.wf → outsideBuffers s a.toNat →
    ∃ t, hostAct (.memWrite a b) s = .next t ∧ storesByte a.toNat b s.eng.mem t.eng.mem ∧
      t = { s with eng := { s.eng with mem := t.eng.mem }, running := t.running } ∧ (s.running = none → t.running = none) ∧
      ∀ c, s.running = some c → ∃ m, t.running = some { c with base := { c.base with mem := m } } ∧
        storesByte a.toNat b c.base.mem m) ∧
  (∀ (s : State) (a : Word) (b : Byte) (w : Word) (i : Instr) (rest : List HostEvent), s.wf → s.busy = false →
    s.resetLine = false → s.inbox = .memWrite a b :: .write 0x00C .word w :: rest → decode w = .ok i →
    ∃ m, storesByte a.toNat b s.eng.mem m ∧
      step s = .next { s with eng := { s.eng with mem := m }, inbox := .write 0x00C .word w :: rest } ∧
      step { s with eng := { s.eng with mem := m }, inbox := .write 0x00C .word w :: rest } =
        exec i { s with eng := { s.eng with mem := m }, inbox := rest }) ∧
  ∀ (s t : State) (i : Instr) (a : Word), s.busy = false → s.fault = false → exec i s = .next t → t.busy = false →
    hostAct (.memRead a) t = .next { t with busRead := (t.eng.mem.read a.toNat).setWidth 32 }

/-- R286, R348: FAULT, FAULT_CODE, FAULT_INFO and FAULT_ADDR stay as they are until the host clears FAULT or resets the block. -/
def Obligations.FaultIsSticky : Prop :=
  ∀ s t : State, s.wf → s.fault = true → step s = .next t →
    (t.fault = true ∧ t.faultCode = s.faultCode ∧ t.faultInfo = s.faultInfo ∧ t.faultAddr = s.faultAddr) ∨
    (∃ v rest, s.inbox = .write 0x008 .word v :: rest ∧ v.getLsbD 2 = true) ∨
    (∃ v rest, s.inbox = .write 0x004 .word v :: rest ∧ v.getLsbD 31 = true) ∨
    ∃ rest, s.inbox = .assertReset :: rest
end

