-- ==== Sys2Proof/Laws/Cmd.lean ====
section
/-! SUPPORT. How command rules compose: what an unpaced run gives (`Gives`, `Faults`), with one
lemma of each kind per operation of Machine/Ops.lean. -/

namespace Sys2Proof.Machine

variable {α β : Type}

/-! ## One step of composition -/

theorem Cmd.bind_apply (c : Cmd α) (f : α → Cmd β) (r : Run) :
    (c >>= f) r = match c r with
      | .ok a r' => f a r'
      | .error e r' => .error e r' := by
  show EStateM.bind c f r = _
  rw [EStateM.bind]
  cases c r <;> rfl

@[simp] theorem Cmd.pure_apply (a : α) (r : Run) : (pure a : Cmd α) r = .ok a r := rfl
@[simp] theorem Cmd.throw_apply (e : Stop) (r : Run) : (throw e : Cmd α) r = .error e r := rfl
@[simp] theorem engine_apply (r : Run) : engine r = .ok r.eng r := rfl
@[simp] theorem updateEngine_apply (f : Engine → Engine) (r : Run) :
    updateEngine f r = .ok () { r with eng := f r.eng } := rfl
@[simp] theorem raise_apply (f : FaultName) (info addr : Nat) (r : Run) :
    (raise f info addr : Cmd α) r = .error (.fault f info addr) r := rfl
@[simp] theorem pause_apply (r : Run) : (pause : Cmd α) r = .error .pause r := rfl

theorem Cmd.bind_of_ok {c : Cmd α} {f : α → Cmd β} {r r' : Run} {a : α} (h : c r = .ok a r') :
    (c >>= f) r = f a r' := by
  rw [Cmd.bind_apply, h]

theorem Cmd.bind_of_error {c : Cmd α} {f : α → Cmd β} {r r' : Run} {e : Stop} (h : c r = .error e r') :
    (c >>= f) r = .error e r' := by
  rw [Cmd.bind_apply, h]

/-! ## What an unpaced run gives -/

/-- An unpaced run of c on the engine's data e ends normally with a value, leaving e'. -/
def Gives (c : Cmd α) (e : Engine) (a : α) (e' : Engine) : Prop :=
  ∀ n, ∃ m, c ⟨e, n, none⟩ = .ok a ⟨e', m, none⟩

/-- An unpaced run of c on the engine's data e raises a fault, leaving e'. -/
def Faults (c : Cmd α) (e : Engine) (f : FaultName) (info addr : Nat) (e' : Engine) : Prop :=
  ∀ n, ∃ m, c ⟨e, n, none⟩ = .error (.fault f info addr) ⟨e', m, none⟩

theorem Gives.pure (a : α) (e : Engine) : Gives (pure a) e a e := fun n => ⟨n, rfl⟩

theorem Gives.bind {c : Cmd α} {g : α → Cmd β} {e e' e'' : Engine} {a : α} {b : β} (h : Gives c e a e')
    (hg : Gives (g a) e' b e'') : Gives (c >>= g) e b e'' := fun n => by
  obtain ⟨m, hm⟩ := h n
  obtain ⟨k, hk⟩ := hg m
  exact ⟨k, by rw [Cmd.bind_of_ok hm, hk]⟩

theorem Gives.bind_faults {c : Cmd α} {g : α → Cmd β} {e e' e'' : Engine} {a : α} {f : FaultName} {info addr : Nat}
    (h : Gives c e a e') (hg : Faults (g a) e' f info addr e'') : Faults (c >>= g) e f info addr e'' := fun n => by
  obtain ⟨m, hm⟩ := h n
  obtain ⟨k, hk⟩ := hg m
  exact ⟨k, by rw [Cmd.bind_of_ok hm, hk]⟩

theorem Faults.bind {c : Cmd α} {g : α → Cmd β} {e e' : Engine} {f : FaultName} {info addr : Nat}
    (h : Faults c e f info addr e') : Faults (c >>= g) e f info addr e' := fun n => by
  obtain ⟨m, hm⟩ := h n
  exact ⟨m, by rw [Cmd.bind_of_error hm]⟩

theorem Gives.engine (e : Engine) : Gives engine e e e := fun n => ⟨n, rfl⟩

theorem Gives.updateEngine (g : Engine → Engine) (e : Engine) : Gives (updateEngine g) e () (g e) := fun n => ⟨n, rfl⟩

theorem Faults.raise (f : FaultName) (info addr : Nat) (e : Engine) :
    Faults (raise f info addr : Cmd α) e f info addr e := fun n => ⟨n, rfl⟩

theorem Gives.tick (e : Engine) : Gives tick e () e := fun n => ⟨n + 1, rfl⟩

theorem Gives.check {ok : Bool} (h : ok = true) (f : FaultName) (info addr : Nat) (e : Engine) :
    Gives (check ok f info addr) e () e := by
  rw [Machine.check, if_pos h]; exact .pure () e

theorem Faults.check {ok : Bool} (h : ok = false) (f : FaultName) (info addr : Nat) (e : Engine) :
    Faults (check ok f info addr) e f info addr e := by
  rw [Machine.check, if_neg (by simp [h])]; exact .raise f info addr e

/-- A loop whose body takes state `I i` to `I (i + 1)` takes `I i` to `I (i + n)`. -/
theorem Gives.forFrom {body : Nat → Cmd Unit} (I : Nat → Engine) :
    ∀ (n i : Nat), (∀ k, i ≤ k → k < i + n → Gives (body k) (I k) () (I (k + 1))) →
      Gives (forFrom body i n) (I i) () (I (i + n))
  | 0, i, _ => .pure () (I i)
  | n + 1, i, h => by
    have hrest := Gives.forFrom I n (i + 1) fun k h1 h2 => h k (by omega) (by omega)
    rw [show i + 1 + n = i + (n + 1) by omega] at hrest
    exact (h i (le_refl i) (by omega)).bind hrest

/-- A loop whose body keeps going through `I` until pass `k` faults. -/
theorem Faults.forFrom {body : Nat → Cmd Unit} (I : Nat → Engine) {f : FaultName} {info addr : Nat} {e' : Engine} :
    ∀ (n i k : Nat), k < n → (∀ j, i ≤ j → j < i + k → Gives (body j) (I j) () (I (j + 1))) →
      Faults (body (i + k)) (I (i + k)) f info addr e' → Faults (forFrom body i n) (I i) f info addr e'
  | 0, _, _, hk, _, _ => by omega
  | n + 1, i, 0, _, _, h => h.bind
  | n + 1, i, k + 1, hk, hpre, h => by
    refine (hpre i (le_refl i) (by omega)).bind_faults (Faults.forFrom I n (i + 1) k (by omega)
      (fun j h1 h2 => hpre j (by omega) (by omega)) ?_)
    rwa [show i + 1 + k = i + (k + 1) by omega]

theorem Gives.forUpTo {body : Nat → Cmd Unit} (I : Nat → Engine) (n : Nat)
    (h : ∀ k, k < n → Gives (body k) (I k) () (I (k + 1))) : Gives (forUpTo n body) (I 0) () (I n) := by
  have := Gives.forFrom I n 0 fun k _ h2 => h k (by omega)
  rwa [Nat.zero_add] at this

theorem Faults.forUpTo {body : Nat → Cmd Unit} (I : Nat → Engine) {n k : Nat} {f : FaultName} {info addr : Nat}
    {e' : Engine} (hk : k < n) (hpre : ∀ j, j < k → Gives (body j) (I j) () (I (j + 1)))
    (h : Faults (body k) (I k) f info addr e') : Faults (forUpTo n body) (I 0) f info addr e' :=
  Faults.forFrom I n 0 k hk (fun j _ h2 => hpre j (by omega)) (by rwa [Nat.zero_add])

/-! ## Byte accesses -/

theorem readByte_gives {env : Env} {a : Nat} (h : env.plat.kindAt a = .plain) (e : Engine) :
    Gives (readByte env a) e (e.mem.read a) e := fun n => ⟨n + 1, by
  rw [readByte, Cmd.bind_of_ok (show Machine.tick ⟨e, n, none⟩ = .ok () ⟨e, n + 1, none⟩ from rfl), h]; rfl⟩

theorem readByte_faults {env : Env} {a : Nat} (h : env.plat.kindAt a = .absent) (e : Engine) :
    Faults (readByte env a) e .busError 0 a e := fun n => ⟨n + 1, by
  rw [readByte, Cmd.bind_of_ok (show Machine.tick ⟨e, n, none⟩ = .ok () ⟨e, n + 1, none⟩ from rfl), h]; rfl⟩

theorem writeByte_gives {env : Env} {a : Nat} (h : env.plat.kindAt a = .plain) (b : Byte) (e : Engine) :
    Gives (writeByte env a b) e () { e with mem := e.mem.write a b } := fun n => ⟨n + 1, by
  rw [writeByte, Cmd.bind_of_ok (show Machine.tick ⟨e, n, none⟩ = .ok () ⟨e, n + 1, none⟩ from rfl), h]; rfl⟩

theorem writeByte_faults {env : Env} {a : Nat} (h : env.plat.kindAt a = .absent) (b : Byte) (e : Engine) :
    Faults (writeByte env a b) e .busError 1 a e := fun n => ⟨n + 1, by
  rw [writeByte, Cmd.bind_of_ok (show Machine.tick ⟨e, n, none⟩ = .ok () ⟨e, n + 1, none⟩ from rfl), h]; rfl⟩

/-! ## Launch, completion and fault entry -/

theorem settle_ok (work : Work) (base : Engine) (s : State) (r : Run) :
    settle work base s (.ok () r) = .next (completeState { s with eng := r.eng }) := rfl

theorem settle_fault (work : Work) (base : Engine) (s : State) (f : FaultName) (info addr : Nat) (r : Run) :
    settle work base s (.error (.fault f info addr) r) = .next (faultEntry f info addr { s with eng := r.eng }) := rfl

theorem settle_pause (work : Work) (base : Engine) (s : State) (r : Run) :
    settle work base s (.error .pause r) = .next { s with eng := r.eng, running := some ⟨work, base, r.spent⟩ } := rfl

/-- Every next state of `settle` is one of three: a completion, a fault entry, or a command that still runs. -/
theorem settle_next {work : Work} {base : Engine} {s t : State} {o : EStateM.Result Stop Run Unit}
    (h : settle work base s o = .next t) :
    (∃ r, o = .ok () r ∧ t = completeState { s with eng := r.eng }) ∨
    (∃ f info addr r, o = .error (.fault f info addr) r ∧ t = faultEntry f info addr { s with eng := r.eng }) ∨
    (∃ r, o = .error .pause r ∧ t = { s with eng := r.eng, running := some ⟨work, base, r.spent⟩ }) := by
  match o, h with
  | .ok _ r, h => exact .inl ⟨r, rfl, by simpa [settle] using h.symm⟩
  | .error (.fault f info addr) r, h => exact .inr (.inl ⟨f, info, addr, r, rfl, by simpa [settle] using h.symm⟩)
  | .error .pause r, h => exact .inr (.inr ⟨r, rfl, by simpa [settle] using h.symm⟩)

theorem launch_ignored {s : State} (h : s.busy = true ∨ s.fault = true) (w : Word) (work : Work) (rule : Env → Cmd Unit) :
    launch w work rule s = .next (ignoreWrite s) := by
  rw [launch, if_pos (by rcases h with h | h <;> simp [h])]

theorem launch_taken {s : State} (hb : s.busy = false) (hf : s.fault = false) (w : Word) (work : Work)
    (rule : Env → Cmd Unit) :
    launch w work rule s = settle work (launchState w s).eng (launchState w s)
      (whileBusy (rule s.env) ⟨(launchState w s).eng, 0, s.pace⟩) := by
  rw [launch, if_neg (by simp [hb, hf])]; rfl

theorem whileBusy_gives {rule : Cmd Unit} {e e' : Engine} (h : Gives rule e () e') : Gives (whileBusy rule) e () e' :=
  (Gives.tick e).bind (h.bind (Gives.tick e'))

theorem whileBusy_faults {rule : Cmd Unit} {e e' : Engine} {f : FaultName} {info addr : Nat}
    (h : Faults rule e f info addr e') : Faults (whileBusy rule) e f info addr e' :=
  (Gives.tick e).bind_faults h.bind

/-- An unpaced launch of a rule that ends normally. -/
theorem launch_completes {s : State} {w : Word} {work : Work} {rule : Env → Cmd Unit} {e' : Engine} (hb : s.busy = false)
    (hf : s.fault = false) (hp : s.pace = none) (h : Gives (rule s.env) (launchState w s).eng () e') :
    launch w work rule s = .next (completeState { launchState w s with eng := e' }) := by
  obtain ⟨m, hm⟩ := whileBusy_gives h 0
  rw [launch_taken hb hf, hp, hm, settle_ok]

/-- An unpaced launch of a rule that raises a fault. -/
theorem launch_faults {s : State} {w : Word} {work : Work} {rule : Env → Cmd Unit} {e' : Engine} {f : FaultName}
    {info addr : Nat} (hb : s.busy = false) (hf : s.fault = false) (hp : s.pace = none)
    (h : Faults (rule s.env) (launchState w s).eng f info addr e') :
    launch w work rule s = .next (faultEntry f info addr { launchState w s with eng := e' }) := by
  obtain ⟨m, hm⟩ := whileBusy_faults h 0
  rw [launch_taken hb hf, hp, hm, settle_fault]

theorem withStream_gives {body : Cmd Unit} {e e' : Engine} (h : Gives body e () e') :
    Gives (withStream body) e () e'.drain := fun n => by
  obtain ⟨m, hm⟩ := h n
  exact ⟨m, by rw [withStream, hm]⟩

theorem withStream_faults {body : Cmd Unit} {e e' : Engine} {f : FaultName} {info addr : Nat}
    (h : Faults body e f info addr e') : Faults (withStream body) e f info addr e'.drain := fun n => by
  obtain ⟨m, hm⟩ := h n
  exact ⟨m, by rw [withStream, hm]⟩

end Sys2Proof.Machine
end

