-- ==== Sys2Proof/Laws/Checks.lean ====
section
/-! SUPPORT. Launch checks (60_exceptions.md R283): each command's checks in the machine say what its list of checks in Safety.lean says. -/

namespace Sys2Proof.Machine

/-- On engine data that satisfies P, a run of the checks c raises the first failure of the list, or ends normally where there is none,
and changes nothing. -/
def Verdict (P : Engine → Prop) (c : Cmd Unit) (cs : List (Bool × FaultName × Nat)) : Prop :=
  ∀ e, P e → match firstFailure cs with
    | some (f, info) => Faults c e f info 0 e
    | none => Gives c e () e

theorem Verdict.faults {P : Engine → Prop} {c : Cmd Unit} {cs : List (Bool × FaultName × Nat)} (h : Verdict P c cs) {e : Engine}
    (he : P e) {f : FaultName} {info : Nat} (hf : firstFailure cs = some (f, info)) : Faults c e f info 0 e := by
  have := h e he
  rwa [hf] at this

theorem Verdict.gives {P : Engine → Prop} {c : Cmd Unit} {cs : List (Bool × FaultName × Nat)} (h : Verdict P c cs) {e : Engine}
    (he : P e) (hf : firstFailure cs = none) : Gives c e () e := by
  have := h e he
  rwa [hf] at this

theorem firstFailure_append (cs ds : List (Bool × FaultName × Nat)) :
    firstFailure (cs ++ ds) = (firstFailure cs).or (firstFailure ds) := by
  induction cs with
  | nil => rfl
  | cons x rest ih =>
    obtain ⟨fails, f, info⟩ := x
    rw [List.cons_append, firstFailure, firstFailure]
    split
    · rfl
    · exact ih

theorem Verdict.pure (P : Engine → Prop) : Verdict P (Pure.pure ()) [] := fun e _ => Gives.pure () e

theorem Verdict.check {P : Engine → Prop} {ok fails : Bool} (h : ok = !fails) (f : FaultName) (info : Nat) :
    Verdict P (check ok f info 0) [(fails, f, info)] := by
  intro e _
  subst h
  cases fails
  · exact Gives.check rfl f info 0 e
  · exact Faults.check rfl f info 0 e

theorem Verdict.append {P : Engine → Prop} {c : Cmd Unit} {d : Unit → Cmd Unit} {cs ds : List (Bool × FaultName × Nat)}
    (hc : Verdict P c cs) (hd : Verdict P (d ()) ds) : Verdict P (c >>= d) (cs ++ ds) := by
  intro e he
  rw [firstFailure_append]
  cases h : firstFailure cs with
  | some x => exact (hc.faults he h).bind
  | none =>
    have := hd e he
    rw [Option.none_or]
    split at this
    · exact (hc.gives he h).bind_faults this
    · exact (hc.gives he h).bind this

/-- A check, then the rest. -/
theorem Verdict.cons {P : Engine → Prop} {ok fails : Bool} {f : FaultName} {info : Nat} {d : Unit → Cmd Unit}
    {ds : List (Bool × FaultName × Nat)} (h : ok = !fails) (hd : Verdict P (d ()) ds) :
    Verdict P (Machine.check ok f info 0 >>= d) ((fails, f, info) :: ds) :=
  Verdict.append (.check h f info) hd

/-! ## The checks themselves -/

/-- The slot geometry check passes exactly where R284's three conditions hold. -/
theorem geometryOk_eq (d : Desc) : d.geometryOk = !d.unfit := by
  rw [Bool.eq_iff_iff]
  simp only [Desc.geometryOk, Desc.unfit, Bool.and_eq_true, decide_eq_true_eq, Bool.not_eq_true',
    Bool.or_eq_false_iff, beq_eq_false_iff_ne, ne_eq, decide_eq_false_iff_not]
  rw [show d.bytes = d.w.toNat * d.h.toNat from rfl, show Config.memSize = 2 ^ 32 from rfl]
  omega

theorem range_meets_eq (a b : Desc) : a.range.meets b.range = a.meets b := rfl

theorem checkSlot_verdict (P : Engine → Prop) (env : Env) (k : SlotIx) :
    Verdict P (checkSlot env k) [((env.params.slot k).unfit, .geom, k.toNat)] := .check (geometryOk_eq _) _ _

theorem checkPlaneSlots_verdict (P : Engine → Prop) (env : Env) (o : DecodeOps) (planes : List Plane) :
    Verdict P (checkPlaneSlots env o planes)
      ((planes.filter (o.enabled ·)).map fun pl => ((env.params.slot (o.slotOf pl)).unfit, .geom, (o.slotOf pl).toNat)) := by
  induction planes with
  | nil => exact .pure P
  | cons pl rest ih =>
    rw [checkPlaneSlots, List.filter_cons]
    cases h : o.enabled pl
    · exact Verdict.append (cs := []) (d := fun _ => checkPlaneSlots env o rest) (.pure P) ih
    · exact Verdict.append (checkSlot_verdict P env _) ih

theorem checkPlaneTables_verdict (ts : Tables) (o : DecodeOps) (planes : List Plane) :
    Verdict (·.tables = ts) (checkPlaneTables o planes)
      ((planes.filter (o.enabled ·)).map fun pl => (!(ts.get pl.index).valid, .noTable, pl.index)) := by
  induction planes with
  | nil => exact .pure _
  | cons pl rest ih =>
    intro e he
    rw [List.filter_cons]
    have key : Verdict (·.tables = ts) (check (!o.enabled pl || (e.tables.get pl.index).valid) .noTable pl.index 0 >>= fun _ =>
        checkPlaneTables o rest)
        ((if o.enabled pl then pl :: rest.filter (o.enabled ·) else rest.filter (o.enabled ·)).map
          fun pl => (!(ts.get pl.index).valid, .noTable, pl.index)) := by
      cases h : o.enabled pl
      · intro e' he'
        have := ih e' he'
        simp only [Bool.false_eq_true, if_false]
        split at this
        · exact (Gives.check rfl _ _ _ e').bind_faults this
        · exact (Gives.check rfl _ _ _ e').bind this
      · exact Verdict.cons (by rw [he]; simp) ih
    have := key e he
    revert this
    generalize firstFailure _ = v
    intro this
    cases v
    · exact (Gives.engine e).bind this
    · exact (Gives.engine e).bind_faults this

theorem decodeChecks_verdict (env : Env) (ts : Tables) (o : DecodeOps) :
    Verdict (·.tables = ts) (decodeChecks env o)
      ((env.params.syncMask == 0, .illegalCmd, 4) ::
        decodePlaneChecks env.params ts o (allPlanes.filter (o.enabled ·))) :=
  Verdict.cons (by simp [bne]) (Verdict.append (checkPlaneSlots_verdict _ env o _) (checkPlaneTables_verdict ts o _))

theorem checkUpresSlots_verdict (P : Engine → Prop) (env : Env) (src dst : SlotIx) :
    Verdict P (checkUpresSlots env src dst) (upresGeometry env.params src dst) :=
  Verdict.append (checkSlot_verdict P env src) (.check (by
    rw [geometryOk_eq]
    cases (env.params.slot dst).unfit <;> simp [bne, Bool.not_or]) _ _)

theorem checkUpresOverlap_verdict (P : Engine → Prop) (env : Env) (src dst : SlotIx) :
    Verdict P (checkUpresOverlap env src dst) [((env.params.slot dst).meets (env.params.slot src), .overlap, 1)] :=
  .check rfl _ _

theorem range_beq_eq (a b : Desc) :
    (a.range == b.range) = !(a.base != b.base || a.w.toNat * a.h.toNat != b.w.toNat * b.h.toNat) := by
  rw [Bool.eq_iff_iff]
  simp only [Desc.range, Desc.bytes, beq_iff_eq, ByteRange.mk.injEq, Bool.not_eq_true', Bool.or_eq_false_iff, bne_eq_false_iff_eq,
    ← BitVec.toNat_inj]
  omega

theorem checkDelta_verdict (P : Engine → Prop) (env : Env) (src dst dlt : SlotIx) :
    Verdict P (do checkDeltaSlot env dst dlt; checkUpresOverlap env src dst; checkDeltaOverlap env dst dlt)
      (upresDelta env.params src dst dlt) :=
  Verdict.append (cs := [_]) (.check (by
      rw [geometryOk_eq]
      cases (env.params.slot dlt).unfit <;> simp [bne, Bool.not_or]) _ _)
    (Verdict.append (cs := [_]) (checkUpresOverlap_verdict P env src dst) (.check (by
      rw [range_beq_eq, range_meets_eq]
      cases (env.params.slot dlt).meets (env.params.slot dst) <;> simp) _ _))

theorem chromaCovers_eq (env : Env) (ys k : SlotIx) :
    (env.params.mono || chromaCovers env ys k) = !chromaFails env.params ys k := by
  rw [chromaCovers, chromaFails, geometryOk_eq, Bool.eq_iff_iff]
  cases env.params.mono <;> cases (env.params.slot k).unfit <;> simp

theorem channelRange_hi_eq (p : Params) (ys : SlotIx) (ch : Channel) :
    (p.channelRange (p.slot ys).bytes ch).hi = spanEnd p ys ch := rfl

theorem checkChannels_verdict (P : Engine → Prop) (env : Env) (ys : SlotIx) (chs : List Channel) :
    Verdict P (checkChannels env (lumaPixels env ys) chs)
      (chs.map fun ch => (decide (2 ^ 32 < spanEnd env.params ys ch), .geom, 8 + ch.index)) := by
  induction chs with
  | nil => exact .pure P
  | cons ch rest ih =>
    refine Verdict.cons ?_ ih
    rw [lumaPixels, channelRange_hi_eq, Config.memSize, Bool.eq_iff_iff]
    simp

theorem overlapInfo_eq (ch : Channel) {pl : Nat} (h : pl < 16) : ch.index <<< 4 ||| pl = 16 * ch.index + pl := by
  have h1 : ch.index <<< 4 = 2 ^ 4 * ch.index := by rw [Nat.shiftLeft_eq, Nat.mul_comm]
  rw [h1, ← Nat.two_pow_add_eq_or_of_lt (i := 4) (by simpa using h)]

theorem checkChannelSources_verdict (P : Engine → Prop) (env : Env) (ys : SlotIx) (ch : Channel)
    (sources : List (Nat × SlotIx)) (h : ∀ x ∈ sources, x.1 < 16) :
    Verdict P (checkChannelSources env (lumaPixels env ys) ch sources)
      (sources.map fun x => (spanMeets env.params ys ch x.2, .overlap, 16 * ch.index + x.1)) := by
  induction sources with
  | nil => exact .pure P
  | cons x rest ih =>
    obtain ⟨pl, k⟩ := x
    rw [checkChannelSources, overlapInfo_eq ch (h (pl, k) (by simp))]
    exact Verdict.cons rfl (ih fun y hy => h y (by simp [hy]))

theorem checkOutputs_verdict (P : Engine → Prop) (env : Env) (ys : SlotIx) (sources : List (Nat × SlotIx))
    (h : ∀ x ∈ sources, x.1 < 16) (chs : List Channel) :
    Verdict P (checkOutputs env (lumaPixels env ys) sources chs)
      (chs.flatMap fun ch => sources.map fun x => (spanMeets env.params ys ch x.2, .overlap, 16 * ch.index + x.1)) := by
  induction chs with
  | nil => exact .pure P
  | cons ch rest ih => exact Verdict.append (checkChannelSources_verdict P env ys ch sources h) ih

theorem sources_lt (p : Params) (ys c1s c2s : SlotIx) : ∀ x ∈ p.sources ys c1s c2s, x.1 < 16 := by
  rw [Params.sources]
  cases p.mono <;> simp

theorem convertChecks_verdict (P : Engine → Prop) (env : Env) (ys c1s c2s : SlotIx) :
    Verdict P (convertChecks env ys c1s c2s)
      (convertGeometry env.params ys c1s c2s ++ convertSpans env.params ys ++ convertOverlaps env.params ys c1s c2s) := by
  rw [List.append_assoc]
  refine Verdict.cons (by simp [bne, Bool.not_or]) ?_
  refine Verdict.append (cs := [_]) (checkSlot_verdict P env ys) ?_
  refine Verdict.cons (chromaCovers_eq env ys c1s) ?_
  refine Verdict.cons (chromaCovers_eq env ys c2s) ?_
  refine Verdict.cons (by simp [bne]) ?_
  exact Verdict.append (cs := convertSpans env.params ys) (checkChannels_verdict P env ys _)
    (checkOutputs_verdict P env ys _ (sources_lt env.params ys c1s c2s) _)

theorem loadhtCheck_eq (nt first : BitVec 2) (ept : Bool) :
    (Instr.loadht nt first ept).wellFormed = !(nt == 0 || first == 3 || decide (3 < first.toNat + nt.toNat)) := by
  rw [Bool.eq_iff_iff]
  simp [Instr.wellFormed, Instr.loadsATable, Instr.firstSlotExists, Instr.lastSlotExists, bne, and_assoc]

end Sys2Proof.Machine
end

