-- ==== Sys2Proof/Laws/Stream.lean ====
section
/-! SUPPORT. The stream: what a window holds (00_scope.md R9, R11), and what NextByte, Consume and the window read give. -/

namespace Sys2Proof.Machine

/-! ## Windows -/

theorem testBit_mul_256_add (a b j : Nat) (hb : b < 256) :
    (a * 256 + b).testBit j = if j < 8 then b.testBit j else a.testBit (j - 8) := by
  have := Nat.testBit_two_pow_mul_add a (i := 8) (b := b) (by simpa using hb) j
  rwa [show 2 ^ 8 * a + b = a * 256 + b by omega] at this

theorem fiveBytes_eq (bs : List Byte) (k : Nat) :
    fiveBytes bs k = ((((bs[k]?.getD 0).toNat * 256 + (bs[k + 1]?.getD 0).toNat) * 256 + (bs[k + 2]?.getD 0).toNat) * 256 +
      (bs[k + 3]?.getD 0).toNat) * 256 + (bs[k + 4]?.getD 0).toNat := by
  simp [fiveBytes, List.range_succ]

/-- Bit q of five bytes, the first bit of the first byte being bit 0. -/
theorem fiveBytes_testBit (bs : List Byte) (k q : Nat) (hq : q < 40) :
    (fiveBytes bs k).testBit (39 - q) = (bs[k + q / 8]?.getD 0).getMsbD (q % 8) := by
  have hbit (n : Nat) : (bs[n]?.getD 0).getMsbD (q % 8) = (bs[n]?.getD 0).toNat.testBit (7 - q % 8) := by
    rw [BitVec.getMsbD]
    have : q % 8 < 8 := Nat.mod_lt _ (by decide)
    simp [this, BitVec.getLsbD]
  have hlt (n : Nat) : (bs[n]?.getD 0).toNat < 256 := (bs[n]?.getD 0).isLt
  rw [hbit, fiveBytes_eq, testBit_mul_256_add _ _ _ (hlt _), testBit_mul_256_add _ _ _ (hlt _),
    testBit_mul_256_add _ _ _ (hlt _), testBit_mul_256_add _ _ _ (hlt _)]
  have h5 : q / 8 = 0 ∨ q / 8 = 1 ∨ q / 8 = 2 ∨ q / 8 = 3 ∨ q / 8 = 4 := by omega
  rcases h5 with h | h | h | h | h <;> rw [h]
  · rw [if_neg (by omega), if_neg (by omega), if_neg (by omega), if_neg (by omega)]
    congr 1; omega
  · rw [if_neg (by omega), if_neg (by omega), if_neg (by omega), if_pos (by omega)]
    congr 1; omega
  · rw [if_neg (by omega), if_neg (by omega), if_pos (by omega)]
    congr 1; omega
  · rw [if_neg (by omega), if_pos (by omega)]
    congr 1; omega
  · rw [if_pos (by omega)]
    congr 1; omega

/-- Window(p): bit 31 - k is stream bit p + k (R11). -/
theorem window_getMsbD (bs : List Byte) (p k : Nat) (hk : k < 32) : (window bs p).getMsbD k = streamBit bs (p + k) := by
  have hp : p % 8 < 8 := Nat.mod_lt _ (by decide)
  have h : (window bs p).getMsbD k = (fiveBytes bs (p / 8)).testBit (39 - (p % 8 + k)) := by
    rw [window, BitVec.getMsbD, BitVec.getLsbD_ofNat, Nat.testBit_shiftRight]
    simp only [hk, decide_true, Bool.true_and]
    rw [show decide (32 - 1 - k < 32) = true by simp; omega, Bool.true_and]
    congr 1; omega
  rw [h, fiveBytes_testBit bs _ _ (by omega), streamBit, show (p + k) / 8 = p / 8 + (p % 8 + k) / 8 by omega,
    show (p + k) % 8 = (p % 8 + k) % 8 by omega]

/-! ## The port -/

@[simp] theorem streamBytes_nil : streamBytes [] = [] := rfl
@[simp] theorem streamBytes_byte (b : Byte) (rest : List PortItem) :
    streamBytes (.byte b :: rest) = b :: streamBytes rest := rfl
@[simp] theorem streamBytes_eos (rest : List PortItem) : streamBytes (.eos :: rest) = [] := rfl
@[simp] theorem streamEnded_nil : streamEnded [] = false := rfl
@[simp] theorem streamEnded_byte (b : Byte) (rest : List PortItem) :
    streamEnded (.byte b :: rest) = streamEnded rest := rfl
@[simp] theorem streamEnded_eos (rest : List PortItem) : streamEnded (.eos :: rest) = true := rfl

/-- A delivery after the end of the current stream leaves the current stream as it is. -/
theorem streamBytes_append_of_ended {port : List PortItem} (h : streamEnded port = true) (more : List PortItem) :
    streamBytes (port ++ more) = streamBytes port := by
  induction port with
  | nil => cases h
  | cons x rest ih => cases x <;> simp_all

/-- A byte delivered before EOS joins the current stream. -/
theorem streamBytes_append_byte {port : List PortItem} (h : streamEnded port = false) (b : Byte) :
    streamBytes (port ++ [.byte b]) = streamBytes port ++ [b] := by
  induction port with
  | nil => rfl
  | cons x rest ih => cases x <;> simp_all

/-! ## The stream primitives -/

theorem needBits_gives {e : Engine} {n : Nat} (h : streamEnded e.port = true ∨ n ≤ 8 * (streamBytes e.port).length) :
    Gives (needBits n) e () e := fun m => ⟨m, by
  rw [needBits, Cmd.bind_of_ok (engine_apply _)]
  rcases h with h | h
  · simp [h]
  · simp [Nat.not_lt.2 h]⟩

/-- The window at POS, when every byte it needs is delivered or the stream has ended. -/
theorem windowHere_gives {e : Engine} (h : streamEnded e.port = true ∨ e.pos + 32 ≤ 8 * (streamBytes e.port).length) :
    Gives windowHere e (window (streamBytes e.port) e.pos) e :=
  (Gives.engine e).bind ((needBits_gives h).bind ((Gives.engine e).bind (.pure _ e)))

/-- The engine's data with the reader at bit position p (R38). -/
def Engine.atPos (e : Engine) (p : Nat) : Engine :=
  { e with pos := p, bytesIn := BitVec.ofNat 32 (min (streamBytes e.port).length ((p + 7) / 8)) }

theorem setPos_gives (p : Nat) (e : Engine) : Gives (setPos p) e () (e.atPos p) := .updateEngine _ e

/-- Consume(n) within the stream (42_delta_decoder.md R182). -/
theorem consume_gives {e : Engine} {n : Nat} (h : e.pos + n ≤ 8 * (streamBytes e.port).length) :
    Gives (consume n) e () (e.atPos (e.pos + n)) := by
  refine (Gives.engine e).bind ((needBits_gives (.inr h)).bind ((Gives.tick e).bind ((Gives.engine e).bind ?_)))
  rw [if_neg (by omega)]
  exact setPos_gives _ e

/-- Consume(n) past the end of the stream (42_delta_decoder.md R182). -/
theorem consume_faults {e : Engine} {n : Nat} (he : streamEnded e.port = true)
    (h : 8 * (streamBytes e.port).length < e.pos + n) : Faults (consume n) e .eofInSeq 0 e.pos e := by
  refine (Gives.engine e).bind_faults ((needBits_gives (.inl he)).bind_faults
    ((Gives.tick e).bind_faults ((Gives.engine e).bind_faults ?_)))
  rw [if_pos h]
  exact .raise _ _ _ e

/-- The engine's data after NextByte (41_huffman_tables.md R150). -/
def Engine.tookByte (e : Engine) : Engine := { e with nb := e.nb + 1, bytesIn := BitVec.ofNat 32 (e.nb + 1) }

theorem nextByte_gives {e : Engine} {b : Byte} (h : (streamBytes e.port)[e.nb]? = some b) (t : Nat) :
    Gives (nextByte t) e b e.tookByte := fun n => ⟨n + 1, by
  rw [nextByte, Cmd.bind_of_ok (engine_apply _)]
  simp only [h]
  rfl⟩

theorem nextByte_faults {e : Engine} (he : streamEnded e.port = true) (h : (streamBytes e.port).length ≤ e.nb) (t : Nat) :
    Faults (nextByte t) e .eofInTable t e.nb e := fun n => ⟨n, by
  rw [nextByte, Cmd.bind_of_ok (engine_apply _)]
  simp only [List.getElem?_eq_none h, he]
  rfl⟩

end Sys2Proof.Machine
end

