-- ==== Sys2Proof/Laws/Delta.lean ====
section
/-! SUPPORT. DECODE: what the sync search, the symbol loop and one sequence come to on a stream that has ended
(42_delta_decoder.md R175 to R192, R198). -/

namespace Sys2Proof.Machine

/-- An unpaced run of c on the engine's data e ends as `out` says, leaving e'. -/
def Runs (c : Cmd Unit) (e : Engine) (out : Option Failure) (e' : Engine) : Prop :=
  match out with
  | none => Gives c e () e'
  | some f => Faults c e f.name f.info f.addr e'

theorem Gives.bind_runs {α : Type} {c : Cmd α} {g : α → Cmd Unit} {e e' e'' : Engine} {a : α} {out : Option Failure}
    (h : Gives c e a e') (hg : Runs (g a) e' out e'') : Runs (c >>= g) e out e'' := by
  cases out with
  | none => exact Gives.bind h hg
  | some f => exact Gives.bind_faults h hg

/-! ## Puts -/

@[simp] theorem putAll_zero (d : Desc) (off : Nat) (v : Nat → Byte) (m : Memory) : putAll d off v m 0 = m := rfl

theorem putAll_succ (d : Desc) (off : Nat) (v : Nat → Byte) (m : Memory) (n : Nat) :
    putAll d off v m (n + 1) = putIn d (putAll d off v m n) (off + n) (v n) := by
  rw [putAll, putAll, List.range_succ, List.foldl_append]; rfl

theorem putAll_cons (d : Desc) (off : Nat) (v : Nat → Byte) (m : Memory) (n : Nat) :
    putAll d off v m (n + 1) = putAll d (off + 1) (fun k => v (k + 1)) (putIn d m off (v 0)) n := by
  induction n with
  | zero => rfl
  | succ n ih => rw [putAll_succ, ih, putAll_succ]; congr 1; omega

theorem putAll_congr {d : Desc} {off : Nat} {v w : Nat → Byte} {m : Memory} {n : Nat} (h : ∀ k, k < n → v k = w k) :
    putAll d off v m n = putAll d off w m n := by
  induction n with
  | zero => rfl
  | succ n ih => rw [putAll_succ, putAll_succ, ih fun k hk => h k (by omega), h n (by omega)]

theorem putByte_gives {env : Env} {d : Desc} {i : Nat}
    (h : i < d.w.toNat * d.h.toNat → env.plat.kindAt (d.base.toNat + i) = .plain) (v : Byte) (e : Engine) :
    Gives (putByte env d i v) e () { e with mem := putIn d e.mem i v } := by
  rw [putByte, putIn]
  by_cases hi : i < d.w.toNat * d.h.toNat
  · rw [if_pos (show i < d.bytes from hi), if_pos hi]; exact writeByte_gives (h hi) v e
  · rw [if_neg (show ¬i < d.bytes from hi), if_neg hi]; exact .pure () e

theorem putByte_faults {env : Env} {d : Desc} {i : Nat} (hi : i < d.w.toNat * d.h.toNat)
    (h : env.plat.kindAt (d.base.toNat + i) = .absent) (v : Byte) (e : Engine) :
    Faults (putByte env d i v) e .busError 1 (d.base.toNat + i) e := by
  rw [putByte, if_pos (show i < d.bytes from hi)]
  exact writeByte_faults h v e

/-! ## Progress -/

theorem progressed_atPos (e : Engine) (bs : List Byte) (hbs : bs = streamBytes e.port) (g : Progress) (p : Nat) :
    (progressed e bs g false).atPos p = progressed e bs { g with pos := p } false := by
  subst hbs; rfl

/-! ## Symbol positions -/

theorem symbolPos_shift (codes : List Code) (bs : List Byte) (start k : Nat) :
    symbolPos codes bs start (k + 1) = symbolPos codes bs (start + lenAt codes ((window bs start).extractLsb' 16 16)) k := by
  induction k with
  | zero => rfl
  | succ k ih => rw [symbolPos, ih]; rfl

theorem symbolLen_shift (codes : List Code) (bs : List Byte) (start k : Nat) :
    symbolLen codes bs start (k + 1) = symbolLen codes bs (start + symbolLen codes bs start 0) k := by
  rw [symbolLen, symbolPos_shift]; rfl

theorem symbolKey_shift (codes : List Code) (bs : List Byte) (start k : Nat) :
    symbolKey codes bs start (k + 1) = symbolKey codes bs (start + symbolLen codes bs start 0) k := by
  rw [symbolKey, symbolPos_shift]; rfl

theorem symbolPos_shift' (codes : List Code) (bs : List Byte) (start k : Nat) :
    symbolPos codes bs start (k + 1) = symbolPos codes bs (start + symbolLen codes bs start 0) k :=
  symbolPos_shift codes bs start k

/-! ## The recovery -/

/-- How a byte at offset i of a plane answers: it is not put, it is plain, or nothing is there. -/
theorem put_cases {plat : Platform} (hdev : plat.noDevice) (d : Desc) (i : Nat) :
    (i < d.w.toNat * d.h.toNat → plat.kindAt (d.base.toNat + i) = .plain) ∨
    (i < d.w.toNat * d.h.toNat ∧ plat.kindAt (d.base.toNat + i) = .absent) := by
  by_cases hi : i < d.w.toNat * d.h.toNat
  · cases hk : plat.kindAt (d.base.toNat + i) with
    | plain => exact .inl fun _ => rfl
    | absent => exact .inr ⟨hi, rfl⟩
    | device => exact absurd hk (hdev _)
  · exact .inl fun h => absurd h hi

/-- The zeros of a recovery: all of them, or those before the first byte that does not respond. -/
theorem zeros_runs {env : Env} (hdev : env.plat.noDevice) (d : Desc) : ∀ (n off : Nat) (e : Engine),
    (Gives (forFrom (fun m => putByte env d m 0) off n) e () { e with mem := putAll d off (fun _ => 0) e.mem n } ∧
      ∀ k, k < n → off + k < d.w.toNat * d.h.toNat → env.plat.kindAt (d.base.toNat + (off + k)) = .plain) ∨
    ∃ stop, stop < n ∧ off + stop < d.w.toNat * d.h.toNat ∧ env.plat.kindAt (d.base.toNat + (off + stop)) = .absent ∧
      (∀ k, k < stop → off + k < d.w.toNat * d.h.toNat → env.plat.kindAt (d.base.toNat + (off + k)) = .plain) ∧
      Faults (forFrom (fun m => putByte env d m 0) off n) e .busError 1 (d.base.toNat + (off + stop))
        { e with mem := putAll d off (fun _ => 0) e.mem stop }
  | 0, off, e => .inl ⟨.pure () e, fun k hk => absurd hk (by omega)⟩
  | n + 1, off, e => by
    rcases put_cases hdev d off with h0 | ⟨hin, habs⟩
    · have hput := putByte_gives h0 0 e
      rcases zeros_runs hdev d n (off + 1) { e with mem := putIn d e.mem off 0 } with ⟨hg, hp⟩ | ⟨stop, hs, hi, ha, hp, hf⟩
      · refine .inl ⟨?_, ?_⟩
        · rw [putAll_cons]; exact hput.bind hg
        · rintro (_ | k) hk
          · exact h0
          · have := hp k (by omega)
            rwa [show off + 1 + k = off + (k + 1) by omega] at this
      · refine .inr ⟨stop + 1, by omega, by omega, ?_, ?_, ?_⟩
        · rwa [show off + (stop + 1) = off + 1 + stop by omega]
        · rintro (_ | k) hk
          · exact h0
          · have := hp k (by omega)
            rwa [show off + 1 + k = off + (k + 1) by omega] at this
        · rw [putAll_cons, show off + (stop + 1) = off + 1 + stop by omega]; exact hput.bind_faults hf
    · exact .inr ⟨0, by omega, hin, habs, fun k hk => absurd hk (by omega), (putByte_faults hin habs 0 e).bind⟩

/-! ## The symbol loop -/

/-- The values of symbols from the second on are those of a sequence that starts one symbol later. -/
theorem putAll_symbols (d : Desc) (codes : List Code) (bs : List Byte) (start off : Nat) (m : Memory) (n : Nat) :
    putAll d off (symbolKey codes bs start) m (n + 1) =
      putAll d (off + 1) (symbolKey codes bs (start + symbolLen codes bs start 0))
        (putIn d m off (symbolKey codes bs start 0)) n := by
  rw [putAll_cons]
  exact putAll_congr fun k _ => symbolKey_shift codes bs start k

theorem putAll_recovered (d : Desc) (codes : List Code) (bs : List Byte) (start off bad : Nat) (m : Memory) (n : Nat) :
    putAll d off (recoveredValue codes bs start (bad + 1)) m (n + 1) =
      putAll d (off + 1) (recoveredValue codes bs (start + symbolLen codes bs start 0) bad)
        (putIn d m off (symbolKey codes bs start 0)) n := by
  rw [putAll_cons, recoveredValue, if_pos (by omega)]
  refine putAll_congr fun k _ => ?_
  rw [recoveredValue, recoveredValue, symbolKey_shift]
  simp only [Nat.add_lt_add_iff_right]

/-- A known first symbol, put and consumed, then the rest. -/
theorem SymbolsEnd.step {plat : Platform} {d : Desc} {codes : List Code} {bs : List Byte} {off n start : Nat} {m : Memory}
    {out : Option Failure} {pos : Nat} {m' : Memory} {errors : Nat} (known0 : symbolLen codes bs start 0 ≠ 31)
    (plain0 : off < d.w.toNat * d.h.toNat → plat.kindAt (d.base.toNat + off) = .plain)
    (h : SymbolsEnd plat d codes bs (off + 1) n (start + symbolLen codes bs start 0)
      (putIn d m off (symbolKey codes bs start 0)) out pos m' errors) :
    SymbolsEnd plat d codes bs off (n + 1) start m out pos m' errors := by
  have all {P : Nat → Prop} {a : Nat} (h0 : P 0) (h : ∀ k, k < a → P (k + 1)) : ∀ k, k < a + 1 → P k
    | 0, _ => h0
    | k + 1, hk => h k (by omega)
  have allLe {P : Nat → Prop} {a : Nat} (h0 : P 0) (h : ∀ k, k ≤ a → P (k + 1)) : ∀ k, k ≤ a + 1 → P k
    | 0, _ => h0
    | k + 1, hk => h k (by omega)
  have hadd (k : Nat) : off + (k + 1) = off + 1 + k := by omega
  cases h with
  | decoded known fits plain =>
    have := SymbolsEnd.decoded (plat := plat) (d := d) (codes := codes) (bs := bs) (off := off) (n := n + 1) (start := start) (m := m)
      (all known0 fun k hk => by rw [symbolLen_shift]; exact known k hk) (by rw [symbolPos_shift']; exact fits)
      (all plain0 fun k hk => by rw [hadd]; exact plain k hk)
    rwa [symbolPos_shift', putAll_symbols] at this
  | recovered bad inside known fits unknown plain =>
    have := SymbolsEnd.recovered (plat := plat) (d := d) (codes := codes) (bs := bs) (off := off) (n := n + 1) (start := start) (m := m)
      (bad + 1) (by omega) (all known0 fun k hk => by rw [symbolLen_shift]; exact known k hk)
      (by rw [symbolPos_shift']; exact fits) (by rw [symbolLen_shift]; exact unknown)
      (all plain0 fun k hk => by rw [hadd]; exact plain k hk)
    rwa [symbolPos_shift', putAll_recovered] at this
  | truncated cut inside known fits past plain =>
    have := SymbolsEnd.truncated (plat := plat) (d := d) (codes := codes) (bs := bs) (off := off) (n := n + 1) (start := start) (m := m)
      (cut + 1) (by omega) (allLe known0 fun k hk => by rw [symbolLen_shift]; exact known k hk)
      (by rw [symbolPos_shift']; exact fits) (by rw [symbolPos_shift']; exact past)
      (allLe plain0 fun k hk => by rw [hadd]; exact plain k hk)
    rwa [symbolPos_shift', putAll_symbols] at this
  | noResponse stop inside known fits inPlane absent plain =>
    have := SymbolsEnd.noResponse (plat := plat) (d := d) (codes := codes) (bs := bs) (off := off) (n := n + 1) (start := start) (m := m)
      (stop + 1) (by omega) (allLe known0 fun k hk => by rw [symbolLen_shift]; exact known k hk)
      (by rw [symbolPos_shift']; exact fits) (by rw [hadd]; exact inPlane) (by rw [hadd]; exact absent)
      (all plain0 fun k hk => by rw [hadd]; exact plain k hk)
    rwa [symbolPos_shift', putAll_symbols, hadd] at this
  | noResponseInRecovery bad stop after inside known fits unknown inPlane absent plain =>
    have := SymbolsEnd.noResponseInRecovery (plat := plat) (d := d) (codes := codes) (bs := bs) (off := off) (n := n + 1)
      (start := start) (m := m) (bad + 1) (stop + 1) (by omega) (by omega)
      (all known0 fun k hk => by rw [symbolLen_shift]; exact known k hk)
      (by rw [symbolPos_shift']; exact fits) (by rw [symbolLen_shift]; exact unknown) (by rw [hadd]; exact inPlane)
      (by rw [hadd]; exact absent) (all plain0 fun k hk => by rw [hadd]; exact plain k hk)
    rwa [symbolPos_shift', putAll_recovered, hadd] at this

/-- The symbol loop on a stream that has ended ends as `SymbolsEnd` says. -/
theorem symbolsFrom_runs {env : Env} (hdev : env.plat.noDevice) (d : Desc) (t : Nat) {e : Engine}
    (hend : streamEnded e.port = true) : ∀ (n off : Nat) (g : Progress), g.pos ≤ 8 * (streamBytes e.port).length →
    ∃ out pos m errors,
      SymbolsEnd env.plat d (e.tables.get t).codes (streamBytes e.port) off n g.pos g.mem out pos m errors ∧
      pos ≤ 8 * (streamBytes e.port).length ∧
      Runs (symbolsFrom env d t off n) (progressed e (streamBytes e.port) g false) out
        (progressed e (streamBytes e.port) { g with pos := pos, mem := m, errors := g.errors + errors } false)
  | 0, off, g, hg => ⟨none, g.pos, g.mem, 0, .decoded (fun k hk => absurd hk (by omega)) hg (fun k hk => absurd hk (by omega)), hg,
      .pure () _⟩
  | n + 1, off, g, hg => by
    set bs := streamBytes e.port with hbs
    set codes := (e.tables.get t).codes with hcodes
    have hw : Gives windowHere (progressed e bs g false) (window bs g.pos) (progressed e bs g false) :=
      windowHere_gives (.inl hend)
    rw [symbolsFrom]
    by_cases h31 : symbolLen codes bs g.pos 0 = 31
    · have hbody : ∀ c : Cmd Unit, (if lenAt codes ((window bs g.pos).extractLsb' 16 16) = 31 then recoverSymbol env d off (n + 1)
          else c) = recoverSymbol env d off (n + 1) := fun c => if_pos h31
      have hrec : ∀ k, recoveredValue codes bs g.pos 0 k = 0 := fun k => by rw [recoveredValue, if_neg (by omega)]
      rcases zeros_runs hdev d (n + 1) off (progressed e bs g false) with ⟨hz, hp⟩ | ⟨stop, hs, hi, ha, hp, hz⟩
      · refine ⟨none, g.pos, putAll d off (recoveredValue codes bs g.pos 0) g.mem (n + 1), 1,
          .recovered 0 (by omega) (fun k hk => absurd hk (by omega)) hg h31 hp, hg, ?_⟩
        refine hw.bind_runs ((Gives.engine _).bind_runs ?_)
        rw [show ((progressed e bs g false).tables.get t).codes = codes from rfl, hbody]
        rw [putAll_congr fun k _ => hrec k]
        have := Gives.bind (g := fun _ => updateEngine fun e => { e with symErrs := e.symErrs + 1, symErr := true }) hz
          (Gives.updateEngine _ _)
        have heq : ∀ m : Memory, ({ (progressed e bs { g with mem := m } false) with
            symErrs := (progressed e bs { g with mem := m } false).symErrs + 1, symErr := true } : Engine) =
            progressed e bs { g with mem := m, errors := g.errors + 1 } false := fun m => by
          simp [progressed, BitVec.ofNat_add]
        rw [← heq]
        exact this
      · refine ⟨some ⟨.busError, 1, d.base.toNat + (off + stop)⟩, g.pos, putAll d off (recoveredValue codes bs g.pos 0) g.mem stop, 0,
          .noResponseInRecovery 0 stop (by omega) hs (fun k hk => absurd hk (by omega)) hg h31 hi ha hp, hg, ?_⟩
        refine hw.bind_runs ((Gives.engine _).bind_runs ?_)
        rw [show ((progressed e bs g false).tables.get t).codes = codes from rfl, hbody]
        rw [putAll_congr fun k _ => hrec k]
        exact hz.bind
    · have hbody : ∀ c c' : Cmd Unit, (if lenAt codes ((window bs g.pos).extractLsb' 16 16) = 31 then c else c') = c' :=
        fun c c' => if_neg h31
      rcases put_cases hdev d off with h0 | ⟨hin, habs⟩
      · have hput := putByte_gives h0 (symbolKey codes bs g.pos 0) (progressed e bs g false)
        set m1 := putIn d g.mem off (symbolKey codes bs g.pos 0) with hm1
        by_cases hfit : g.pos + symbolLen codes bs g.pos 0 ≤ 8 * bs.length
        · have hcon : Gives (consume (symbolLen codes bs g.pos 0)) (progressed e bs { g with mem := m1 } false) ()
              (progressed e bs { g with mem := m1, pos := g.pos + symbolLen codes bs g.pos 0 } false) := by
            have := consume_gives (e := progressed e bs { g with mem := m1 } false) (n := symbolLen codes bs g.pos 0) hfit
            rwa [progressed_atPos e bs rfl] at this
          obtain ⟨out, pos, m, errors, hends, hle, hruns⟩ := symbolsFrom_runs hdev d t hend n (off + 1)
            { g with mem := m1, pos := g.pos + symbolLen codes bs g.pos 0 } hfit
          refine ⟨out, pos, m, errors, hends.step h31 h0, hle, ?_⟩
          refine hw.bind_runs ((Gives.engine _).bind_runs ?_)
          rw [show ((progressed e bs g false).tables.get t).codes = codes from rfl, hbody]
          exact hput.bind_runs (hcon.bind_runs hruns)
        · refine ⟨some ⟨.eofInSeq, 0, g.pos⟩, g.pos, m1, 0, ?_, hg, ?_⟩
          · exact SymbolsEnd.truncated (plat := env.plat) (d := d) (codes := codes) (bs := bs) (off := off) (n := n + 1)
              (start := g.pos) (m := g.mem) 0 (by omega) (fun k hk => by rw [show k = 0 by omega]; exact h31) hg
              (by rw [symbolPos_shift']; exact Nat.lt_of_not_le hfit) (fun k hk => by rw [show k = 0 by omega]; exact h0)
          · refine hw.bind_runs ((Gives.engine _).bind_runs ?_)
            rw [show ((progressed e bs g false).tables.get t).codes = codes from rfl, hbody]
            refine hput.bind_runs (Faults.bind ?_)
            exact consume_faults (e := progressed e bs { g with mem := m1 } false) hend (Nat.lt_of_not_le hfit)
      · refine ⟨some ⟨.busError, 1, d.base.toNat + off⟩, g.pos, g.mem, 0, ?_, hg, ?_⟩
        · exact SymbolsEnd.noResponse (plat := env.plat) (d := d) (codes := codes) (bs := bs) (off := off) (n := n + 1)
              (start := g.pos) (m := g.mem) 0 (by omega) (fun k hk => by rw [show k = 0 by omega]; exact h31) hg hin habs
              (fun k hk => absurd hk (by omega))
        · refine hw.bind_runs ((Gives.engine _).bind_runs ?_)
          rw [show ((progressed e bs g false).tables.get t).codes = codes from rfl, hbody]
          exact (putByte_faults hin habs _ _).bind

/-! ## The sync search -/

theorem syncMatches_iff (p : Params) (bs : List Byte) (q : Nat) : syncMatches p (window bs q) = true ↔ isMarker p bs q := by
  rw [syncMatches, beq_iff_eq]; rfl

/-- The sync search on a stream that has ended, with n bit positions to try and no fewer left to pass. -/
theorem syncFrom_gives {par : Params} {e : Engine} (hend : streamEnded e.port = true) (hlen : 1 ≤ syncLen par.syncMask) (start : Nat) :
    ∀ (n : Nat) (g : Progress), start ≤ g.pos → g.pos ≤ 8 * (streamBytes e.port).length →
      8 * (streamBytes e.port).length < g.pos + n →
      (∀ q, start ≤ q → q < g.pos → q + syncLen par.syncMask ≤ 8 * (streamBytes e.port).length ∧ ¬isMarker par (streamBytes e.port) q) →
      ∃ p, p ≤ 8 * (streamBytes e.port).length ∧
        ((markerFrom par (streamBytes e.port) start p ∧
          Gives (syncFrom par n) (progressed e (streamBytes e.port) g false) true
            (progressed e (streamBytes e.port) { g with pos := p } false)) ∨
        (searchEnds par (streamBytes e.port) start p ∧
          Gives (syncFrom par n) (progressed e (streamBytes e.port) g false) false
            (progressed e (streamBytes e.port) { g with pos := p } false)))
  | 0, g, h1, h2, h3, h4 => by omega
  | n + 1, g, h1, h2, h3, h4 => by
    set bs := streamBytes e.port with hbs
    have hb : (streamBytes e.port).length = bs.length := rfl
    by_cases hshort : 8 * bs.length < g.pos + syncLen par.syncMask
    · refine ⟨g.pos, h2, .inr ⟨⟨h1, hshort, h4⟩, ?_⟩⟩
      refine (Gives.engine _).bind ((needBits_gives (e := progressed e bs g false) (.inl hend)).bind ((Gives.tick _).bind ((Gives.engine _).bind ?_)))
      rw [if_pos (show 8 * (streamBytes (progressed e bs g false).port).length < (progressed e bs g false).pos + _ from hshort)]
      exact .pure false _
    · by_cases hm : isMarker par bs g.pos
      · refine ⟨g.pos, h2, .inl ⟨⟨h1, by omega, hm, fun q a b => (h4 q a b).2⟩, ?_⟩⟩
        refine (Gives.engine _).bind ((needBits_gives (e := progressed e bs g false) (.inl hend)).bind ((Gives.tick _).bind ((Gives.engine _).bind ?_)))
        rw [if_neg (show ¬8 * (streamBytes (progressed e bs g false).port).length < (progressed e bs g false).pos + _ from hshort),
          if_pos (show syncMatches par (window (streamBytes (progressed e bs g false).port) (progressed e bs g false).pos) = true from
            (syncMatches_iff par bs g.pos).2 hm)]
        exact .pure true _
      · have hstep : Gives (setPos (g.pos + 1)) (progressed e bs g false) () (progressed e bs { g with pos := g.pos + 1 } false) := by
          have := setPos_gives (g.pos + 1) (progressed e bs g false)
          rwa [progressed_atPos e bs rfl] at this
        obtain ⟨p, hp, h⟩ := syncFrom_gives hend hlen start n { g with pos := g.pos + 1 } (by show start ≤ g.pos + 1; omega)
          (by show g.pos + 1 ≤ 8 * bs.length; omega) (by show 8 * bs.length < g.pos + 1 + n; omega) (fun q a b => by
            rcases Nat.lt_or_ge q g.pos with hlt | hge
            · exact h4 q a hlt
            · have : q = g.pos := by have : q < g.pos + 1 := b; omega
              subst this; exact ⟨Nat.le_of_not_lt hshort, hm⟩)
        refine ⟨p, hp, h.imp (fun ⟨a, b⟩ => ⟨a, ?_⟩) (fun ⟨a, b⟩ => ⟨a, ?_⟩)⟩ <;>
        · refine (Gives.engine _).bind ((needBits_gives (e := progressed e bs g false) (.inl hend)).bind ((Gives.tick _).bind ((Gives.engine _).bind ?_)))
          rw [if_neg (show ¬8 * (streamBytes (progressed e bs g false).port).length < (progressed e bs g false).pos + _ from hshort),
            if_neg (show ¬syncMatches par (window (streamBytes (progressed e bs g false).port) (progressed e bs g false).pos) = true from
            fun h => hm ((syncMatches_iff par bs g.pos).1 h))]
          exact hstep.bind b

/-- A mask with a 1 bit makes a marker of at least one bit (R43). -/
theorem syncLen_pos {mask : Word} (h : mask ≠ 0) : 1 ≤ syncLen mask := by
  rw [syncLen]
  cases hf : (List.range 32).find? (mask.getLsbD ·) with
  | none =>
    exact absurd (BitVec.eq_of_getLsbD_eq fun i hi => by
      have := List.find?_eq_none.1 hf i (by simpa using hi)
      simpa using this) h
  | some k =>
    have := List.mem_of_find?_eq_some hf
    simp only [List.mem_range] at this
    simp only [Option.getD_some]; omega

/-- The sync search on a stream that has ended: the first marker from here on, or the end (R175, R176, R178). -/
theorem sync_gives {par : Params} {e : Engine} (hend : streamEnded e.port = true) (hmask : par.syncMask ≠ 0) (g : Progress)
    (hg : g.pos ≤ 8 * (streamBytes e.port).length) :
    ∃ p, p ≤ 8 * (streamBytes e.port).length ∧
        ((markerFrom par (streamBytes e.port) g.pos p ∧
          Gives (sync par) (progressed e (streamBytes e.port) g false) true
            (progressed e (streamBytes e.port) { g with pos := p } false)) ∨
        (searchEnds par (streamBytes e.port) g.pos p ∧
          Gives (sync par) (progressed e (streamBytes e.port) g false) false
            (progressed e (streamBytes e.port) { g with pos := p } false))) := by
  obtain ⟨p, hp, h⟩ := syncFrom_gives hend (syncLen_pos hmask) g.pos (8 * (streamBytes e.port).length + 1) g (le_refl _) hg (by omega)
    (fun q a b => by omega)
  exact ⟨p, hp, h.imp (fun ⟨a, b⟩ => ⟨a, (Gives.engine _).bind b⟩) (fun ⟨a, b⟩ => ⟨a, (Gives.engine _).bind b⟩)⟩

/-! ## One sequence -/

theorem skip_iff (env : Env) (h : Header) (o : DecodeOps) (pl : Plane) (f : HeaderFields) :
    (!o.enabled pl || decide ((env.params.slot (o.slotOf pl)).h.toNat ≤ h.rowIndex pl f.row)) = true ↔ isSkipped env h o pl f := by
  simp [isSkipped]

/-- One sequence on a stream that has ended ends as `SequenceEnds` says (R198). -/
theorem decodeSequence_runs {env : Env} (hdev : env.plat.noDevice) (h : Header) (o : DecodeOps) {e : Engine}
    (hend : streamEnded e.port = true) (g : Progress) (hg : g.pos ≤ 8 * (streamBytes e.port).length) :
    ∃ out g', SequenceEnds env e.tables h o (streamBytes e.port) g out g' ∧ g'.pos ≤ 8 * (streamBytes e.port).length ∧
      g.pos ≤ g'.pos ∧
      Runs (decodeSequence env h o) (progressed e (streamBytes e.port) g false) out (progressed e (streamBytes e.port) g' false) := by
  set bs := streamBytes e.port with hbs
  by_cases h16 : g.pos + 16 ≤ 8 * bs.length
  swap
  · refine ⟨_, _, .cutMarker g (by omega), hg, le_refl _, ?_⟩
    exact (Gives.engine _).bind_runs (consume_faults (e := progressed e bs g false) hend (Nat.lt_of_not_le h16)).bind
  have hc1 : Gives (consume 16) (progressed e bs g false) () (progressed e bs { g with pos := g.pos + 16 } false) := by
    have := consume_gives (e := progressed e bs g false) (n := 16) h16
    rwa [progressed_atPos e bs rfl] at this
  have hw : Gives windowHere (progressed e bs { g with pos := g.pos + 16 } false) (window bs (g.pos + 16))
      (progressed e bs { g with pos := g.pos + 16 } false) := windowHere_gives (.inl hend)
  by_cases hskip : payloadAt env.params h g.pos ≤ 8 * bs.length
  swap
  · refine ⟨_, _, .cutHeader g h16 (by omega), h16, Nat.le_add_right _ _, ?_⟩
    refine (Gives.engine _).bind_runs (hc1.bind_runs (hw.bind_runs (Faults.bind ?_)))
    exact consume_faults (e := progressed e bs { g with pos := g.pos + 16 } false) hend (Nat.lt_of_not_le hskip)
  have hpay : g.pos ≤ payloadAt env.params h g.pos := by rw [payloadAt]; omega
  have hc2 : Gives (consume (h.skip env.params)) (progressed e bs { g with pos := g.pos + 16 } false) ()
      (progressed e bs { g with pos := payloadAt env.params h g.pos } false) := by
    have := consume_gives (e := progressed e bs { g with pos := g.pos + 16 } false) (n := h.skip env.params) hskip
    rwa [progressed_atPos e bs rfl] at this
  have hdone : Gives (updateEngine fun e => { e with seqDone := e.seqDone + 1 })
      (progressed e bs { g with pos := payloadAt env.params h g.pos } false) ()
      (progressed e bs { g with pos := payloadAt env.params h g.pos, headers := g.headers + 1 } false) := by
    have := Gives.updateEngine (fun e => { e with seqDone := e.seqDone + 1 })
      (progressed e bs { g with pos := payloadAt env.params h g.pos } false)
    simpa [progressed, BitVec.ofNat_add] using this
  have hall {out : Option Failure} {e' : Engine} (hrest : Runs (match planeOfCode (headerAt h bs g.pos).pc with
        | none => raise .badPlane (headerAt h bs g.pos).pc g.pos
        | some pl => planeSequence env h o pl (headerAt h bs g.pos))
      (progressed e bs { g with pos := payloadAt env.params h g.pos, headers := g.headers + 1 } false) out e') :
      Runs (decodeSequence env h o) (progressed e bs g false) out e' :=
    (Gives.engine _).bind_runs (hc1.bind_runs (hw.bind_runs (hc2.bind_runs (hdone.bind_runs hrest))))
  cases hpl : planeOfCode (headerAt h bs g.pos).pc with
  | none =>
    refine ⟨_, _, .badPlane g hskip hpl, hskip, hpay, hall ?_⟩
    rw [hpl]; exact Faults.raise _ _ _ _
  | some pl =>
    by_cases hsk : isSkipped env h o pl (headerAt h bs g.pos)
    · refine ⟨_, _, .skipped g pl hskip hpl hsk, hskip, hpay, hall ?_⟩
      rw [hpl]
      show Runs (planeSequence env h o pl _) _ _ _
      rw [planeSequence]
      simp only [(skip_iff env h o pl _).2 hsk, if_true]
      have := Gives.updateEngine (fun e => { e with seqSkip := e.seqSkip + 1 })
        (progressed e bs { g with pos := payloadAt env.params h g.pos, headers := g.headers + 1 } false)
      show Gives skipSequence _ _ _
      unfold skipSequence
      simpa [progressed, BitVec.ofNat_add] using this
    · obtain ⟨out, pos, m, errors, hends, hle, hruns⟩ := symbolsFrom_runs hdev (env.params.slot (o.slotOf pl)) pl.index hend
        (symbolCount env.params (env.params.slot (o.slotOf pl)))
        (firstOffset env.params h pl (env.params.slot (o.slotOf pl)) (headerAt h bs g.pos))
        { g with pos := payloadAt env.params h g.pos, headers := g.headers + 1 } hskip
      refine ⟨_, _, .symbols g pl out pos m errors hskip hpl hsk hends, hle, ?_, hall ?_⟩
      · have hmono : ∀ (codes : List Code) (start n : Nat), start ≤ symbolPos codes bs start n := fun codes start n => by
          induction n with
          | zero => exact le_refl _
          | succ n ih => rw [symbolPos]; exact Nat.le_trans ih (Nat.le_add_right _ _)
        have : payloadAt env.params h g.pos ≤ pos := by
          cases hends <;> exact hmono _ _ _
        show g.pos ≤ pos
        omega
      · rw [hpl]
        show Runs (planeSequence env h o pl _) _ _ _
        rw [planeSequence]
        rw [if_neg (fun hh => hsk ((skip_iff env h o pl _).1 hh))]
        exact hruns

end Sys2Proof.Machine
end

