-- ==== Sys2Proof/Laws/Tables.lean ====
section
/-! SUPPORT. Huffman tables: which indices an entry writes (41_huffman_tables.md R151, R155), lookups, and reads after writes of the
table slots. -/

namespace Sys2Proof.Machine

/-- An entry writes index idx exactly when idx = cw | i for some i below 2^(16 - len) (R155). -/
theorem covers_iff (c : Code) (idx : BitVec 16) :
    c.covers idx = true ↔ ∃ i : BitVec 16, i.toNat < 2 ^ (16 - c.len.toNat) ∧ idx = c.cw ||| i := by
  set n := 16 - c.len.toNat with hn
  have hcov : c.covers idx = true ↔ idx >>> n = c.cw >>> n ∧ idx &&& c.cw = c.cw := by
    rw [Code.covers, Bool.and_eq_true, beq_iff_eq, beq_iff_eq]
  rw [hcov]
  constructor
  · rintro ⟨hhi, hlo⟩
    refine ⟨idx &&& BitVec.ofNat 16 (2 ^ n - 1), ?_, ?_⟩
    · have : (idx &&& BitVec.ofNat 16 (2 ^ n - 1)).toNat ≤ (2 ^ n - 1) % 2 ^ 16 := by
        rw [BitVec.toNat_and, BitVec.toNat_ofNat]; exact Nat.and_le_right
      have h2 : (2 ^ n - 1) % 2 ^ 16 ≤ 2 ^ n - 1 := Nat.mod_le _ _
      have : 0 < 2 ^ n := Nat.two_pow_pos n
      omega
    · ext k hk
      have hl := congrArg (·.getLsbD k) hlo
      simp only [BitVec.getLsbD_and] at hl
      simp only [← BitVec.getLsbD_eq_getElem, BitVec.getLsbD_or, BitVec.getLsbD_and, BitVec.getLsbD_ofNat,
        Nat.testBit_two_pow_sub_one, hk, decide_true, Bool.true_and]
      by_cases hkn : k < n
      · cases h1 : idx.getLsbD k <;> cases h2 : c.cw.getLsbD k <;> simp_all
      · have hh := congrArg (·.getLsbD (k - n)) hhi
        simp only [BitVec.getLsbD_ushiftRight] at hh
        rw [show n + (k - n) = k by omega] at hh
        simp [hkn, hh]
  · rintro ⟨i, hi, rfl⟩
    constructor
    · ext k hk
      simp only [← BitVec.getLsbD_eq_getElem, BitVec.getLsbD_ushiftRight, BitVec.getLsbD_or]
      have : i.getLsbD (n + k) = false := by
        rw [BitVec.getLsbD]
        exact Nat.testBit_lt_two_pow (Nat.lt_of_lt_of_le hi (Nat.pow_le_pow_right (by decide) (by omega)))
      simp [this]
    · ext k hk
      simp only [BitVec.getElem_and, BitVec.getElem_or]
      cases c.cw[k] <;> simp

/-! ## Lookups (R152, R153) -/

@[simp] theorem keyAt_nil (idx : BitVec 16) : keyAt [] idx = 0x7F := rfl
@[simp] theorem lenAt_nil (idx : BitVec 16) : lenAt [] idx = 31 := rfl

/-- A lookup finds the newest entry that writes the index. -/
theorem keyAt_cons (c : Code) (codes : List Code) (idx : BitVec 16) :
    keyAt (c :: codes) idx = if c.covers idx then c.sym else keyAt codes idx := by
  simp only [keyAt, List.find?_cons]; cases c.covers idx <;> rfl

theorem lenAt_cons (c : Code) (codes : List Code) (idx : BitVec 16) :
    lenAt (c :: codes) idx = if c.covers idx then c.len.toNat else lenAt codes idx := by
  simp only [lenAt, List.find?_cons]; cases c.covers idx <;> rfl

/-- A lookup's length is that of some entry, or the sentinel. -/
theorem lenAt_cases (codes : List Code) (idx : BitVec 16) :
    lenAt codes idx = 31 ∨ ∃ c ∈ codes, lenAt codes idx = c.len.toNat := by
  induction codes with
  | nil => exact .inl rfl
  | cons c rest ih =>
    rw [lenAt_cons]
    split
    · exact .inr ⟨c, by simp, rfl⟩
    · rcases ih with h | ⟨d, hd, h⟩
      · exact .inl h
      · exact .inr ⟨d, by simp [hd], h⟩

/-! ## Table slots -/

/-- A table slot after it has been replaced. -/
@[simp] theorem Tables.get_set_self (ts : Tables) (t : Nat) (v : TableSlot) : (ts.set t v).get t = v := by
  rcases t with _ | _ | t <;> rfl

/-- Another table slot after one has been replaced. -/
theorem Tables.get_set_other (ts : Tables) {t u : Nat} (ht : t < 3) (hu : u < 3) (h : u ≠ t) (v : TableSlot) :
    (ts.set t v).get u = ts.get u := by
  rcases t with _ | _ | _ | t <;> rcases u with _ | _ | _ | u <;> first | rfl | omega

/-- Replacing a slot twice is replacing it once. -/
@[simp] theorem Tables.set_set (ts : Tables) (t : Nat) (v w : TableSlot) : (ts.set t v).set t w = ts.set t w := by
  rcases t with _ | _ | t <;> rfl

/-- Replacing a slot by itself changes nothing. -/
@[simp] theorem Tables.set_get (ts : Tables) (t : Nat) : ts.set t (ts.get t) = ts := by
  rcases t with _ | _ | t <;> rfl

end Sys2Proof.Machine
end

