-- ==== Sys2Proof/Laws/Huffman.lean ====
section
/-! SUPPORT. LOADHT: what one entry, one table and a table cut short give (41_huffman_tables.md R150 to R157). -/

namespace Sys2Proof.Machine

/-- A shifted table slot and an entry index below 256 side by side (R154's FAULT_INFO). -/
theorem entryInfo_eq (t : Nat) {k : Nat} (h : k < 256) : t <<< 8 ||| k = t * 256 + k := by
  rw [Nat.shiftLeft_eq, Nat.mul_comm, ← Nat.two_pow_add_eq_or_of_lt (i := 8) (by simpa using h)]

/-! ## Stream bytes -/

theorem getElem?_of_drop {bs rest : List Byte} {n : Nat} {b : Byte} (h : bs.drop n = b :: rest) : bs[n]? = some b := by
  have := congrArg (·[0]?) h
  simpa using this

theorem drop_succ_of_drop {bs rest : List Byte} {n : Nat} {b : Byte} (h : bs.drop n = b :: rest) : bs.drop (n + 1) = rest := by
  rw [← List.drop_drop, h]; rfl

theorem length_le_of_drop {bs : List Byte} {n : Nat} (h : bs.drop n = []) : bs.length ≤ n := by
  simpa using h

/-- The next byte of the stream, n bytes of it having been taken. -/
theorem loaded_nextByte {e : Engine} {ts : Tables} {n : Nat} {b : Byte} {rest : List Byte}
    (h : (streamBytes e.port).drop n = b :: rest) (t : Nat) :
    Gives (nextByte t) (loadedTables e ts n) b (loadedTables e ts (n + 1)) :=
  nextByte_gives (e := loadedTables e ts n) (getElem?_of_drop h) t

theorem loaded_nextByte_end {e : Engine} {ts : Tables} {n : Nat} (he : streamEnded e.port = true)
    (h : (streamBytes e.port).drop n = []) (t : Nat) : Faults (nextByte t) (loadedTables e ts n) .eofInTable t n (loadedTables e ts n) :=
  nextByte_faults (e := loadedTables e ts n) he (length_le_of_drop h) t

theorem updateTable_gives (t : Nat) (f : TableSlot → TableSlot) (e : Engine) (ts : Tables) (n : Nat) :
    Gives (updateTable t f) (loadedTables e ts n) () (loadedTables e (ts.set t (f (ts.get t))) n) :=
  .updateEngine _ _

/-! ## One entry -/

/-- The table slots after an entry: a copy table's entry is taken and dropped (R156). -/
def afterEntry (copy : Bool) (t : Nat) (r : RawEntry) (ts : Tables) : Tables :=
  if copy then ts else ts.set t { ts.get t with codes := r.code :: (ts.get t).codes }

/-- An entry that raises no fault (R151, R155). -/
theorem loadEntry_gives {e : Engine} {ts : Tables} {n : Nat} {r : RawEntry} {rest : List Byte} {copy : Bool}
    (h : (streamBytes e.port).drop n = r.bytes ++ rest) (hlen : copy = false → r.b0.toNat + 1 ≤ 16) (t k : Nat) :
    Gives (loadEntry copy t k) (loadedTables e ts n) () (loadedTables e (afterEntry copy t r ts) (n + 4)) := by
  have h1 := drop_succ_of_drop h
  have h2 := drop_succ_of_drop h1
  have h3 := drop_succ_of_drop h2
  refine (Gives.engine _).bind ((loaded_nextByte h t).bind ((loaded_nextByte h1 t).bind ((loaded_nextByte h2 t).bind
    ((loaded_nextByte h3 t).bind ?_))))
  cases copy with
  | true => exact .pure () _
  | false =>
    refine (Gives.check (by simpa using hlen rfl) _ _ _ _).bind ?_
    exact updateTable_gives t _ e ts (n + 4)

/-- An entry longer than 16 bits in a table that is not a copy (R154). -/
theorem loadEntry_tooLong {e : Engine} {ts : Tables} {n : Nat} {r : RawEntry} {rest : List Byte}
    (h : (streamBytes e.port).drop n = r.bytes ++ rest) (hlen : 16 < r.b0.toNat + 1) (t : Nat) {k : Nat} (hk : k < 256) :
    Faults (loadEntry false t k) (loadedTables e ts n) .huffLen (t * 256 + k) n (loadedTables e ts (n + 4)) := by
  have h1 := drop_succ_of_drop h
  have h2 := drop_succ_of_drop h1
  have h3 := drop_succ_of_drop h2
  refine (Gives.engine _).bind_faults ((loaded_nextByte h t).bind_faults ((loaded_nextByte h1 t).bind_faults
    ((loaded_nextByte h2 t).bind_faults ((loaded_nextByte h3 t).bind_faults ?_))))
  rw [← entryInfo_eq t hk]
  exact (Faults.check (by simpa using hlen) _ _ _ _).bind

/-- An entry the stream ends in (R150). -/
theorem loadEntry_cut {e : Engine} {ts : Tables} {n : Nat} (he : streamEnded e.port = true) {more : List Byte}
    (h : (streamBytes e.port).drop n = more) (hlen : more.length < 4) (copy : Bool) (t k : Nat) :
    Faults (loadEntry copy t k) (loadedTables e ts n) .eofInTable t (n + more.length) (loadedTables e ts (n + more.length)) := by
  refine (Gives.engine _).bind_faults ?_
  match more, h, hlen with
  | [], h, _ => exact (loaded_nextByte_end he h t).bind
  | [_], h, _ => exact (loaded_nextByte h t).bind_faults (loaded_nextByte_end he (drop_succ_of_drop h) t).bind
  | [_, _], h, _ =>
    exact (loaded_nextByte h t).bind_faults ((loaded_nextByte (drop_succ_of_drop h) t).bind_faults
      (loaded_nextByte_end he (drop_succ_of_drop (drop_succ_of_drop h)) t).bind)
  | [_, _, _], h, _ =>
    exact (loaded_nextByte h t).bind_faults ((loaded_nextByte (drop_succ_of_drop h) t).bind_faults
      ((loaded_nextByte (drop_succ_of_drop (drop_succ_of_drop h)) t).bind_faults
        (loaded_nextByte_end he (drop_succ_of_drop (drop_succ_of_drop (drop_succ_of_drop h))) t).bind))
  | _ :: _ :: _ :: _ :: _, _, hlen => simp only [List.length_cons] at hlen; omega

/-! ## Several entries -/

/-- The table slots after several entries, the first of them first. -/
def afterEntries (copy : Bool) (t : Nat) (es : List RawEntry) (ts : Tables) : Tables :=
  es.foldl (fun ts r => afterEntry copy t r ts) ts

theorem afterEntries_eq (t : Nat) : ∀ (es : List RawEntry) (ts : Tables),
    afterEntries false t es ts = ts.set t { ts.get t with codes := (es.map RawEntry.code).reverse ++ (ts.get t).codes }
  | [], ts => (Tables.set_get ts t).symm
  | r :: es, ts => by
    rw [afterEntries, List.foldl_cons]
    have := afterEntries_eq t es (afterEntry false t r ts)
    rw [afterEntries] at this
    rw [this]
    simp [afterEntry]

theorem afterEntries_copy (t : Nat) (es : List RawEntry) (ts : Tables) : afterEntries true t es ts = ts := by
  induction es generalizing ts with
  | nil => rfl
  | cons r es ih => exact ih ts

/-- Entries that raise no fault, then the rest of the loop. -/
theorem loadEntries_then {e : Engine} {copy : Bool} {t : Nat} {f : FaultName} {info addr : Nat} {e' : Engine} :
    ∀ (es : List RawEntry) (ts : Tables) (n k m : Nat) (rest : List Byte),
    (streamBytes e.port).drop n = es.flatMap RawEntry.bytes ++ rest → (copy = false → ∀ r ∈ es, r.b0.toNat + 1 ≤ 16) →
    Faults (forFrom (loadEntry copy t) (k + es.length) m) (loadedTables e (afterEntries copy t es ts) (n + 4 * es.length)) f info addr e' →
    Faults (forFrom (loadEntry copy t) k (es.length + m)) (loadedTables e ts n) f info addr e'
  | [], ts, n, k, m, rest, h, hlen, hf => by simpa [afterEntries] using hf
  | r :: es, ts, n, k, m, rest, h, hlen, hf => by
    rw [List.flatMap_cons, List.append_assoc] at h
    rw [List.length_cons, Nat.add_right_comm]
    refine (loadEntry_gives h (fun hc => hlen hc r (by simp)) t k).bind_faults ?_
    refine loadEntries_then es _ (n + 4) (k + 1) m rest ?_ (fun hc x hx => hlen hc x (by simp [hx])) ?_
    · rw [← List.drop_drop, h]; rfl
    · rw [List.length_cons] at hf
      rw [show k + 1 + es.length = k + (es.length + 1) by omega, show n + 4 + 4 * es.length = n + 4 * (es.length + 1) by omega]
      exact hf

theorem loadEntries_gives {e : Engine} {copy : Bool} {t : Nat} :
    ∀ (es : List RawEntry) (ts : Tables) (n k : Nat) (rest : List Byte),
    (streamBytes e.port).drop n = es.flatMap RawEntry.bytes ++ rest → (copy = false → ∀ r ∈ es, r.b0.toNat + 1 ≤ 16) →
    Gives (forFrom (loadEntry copy t) k es.length) (loadedTables e ts n) ()
      (loadedTables e (afterEntries copy t es ts) (n + 4 * es.length))
  | [], ts, n, k, rest, h, hlen => .pure () _
  | r :: es, ts, n, k, rest, h, hlen => by
    rw [List.flatMap_cons, List.append_assoc] at h
    refine (loadEntry_gives h (fun hc => hlen hc r (by simp)) t k).bind ?_
    have := loadEntries_gives (copy := copy) (t := t) es (afterEntry copy t r ts) (n + 4) (k + 1) rest (by rw [← List.drop_drop, h]; rfl)
      (fun hc x hx => hlen hc x (by simp [hx]))
    rw [List.length_cons, show n + 4 * (es.length + 1) = n + 4 + 4 * es.length by omega]
    exact this

/-! ## One table -/

theorem entries_length (es : List RawEntry) : (es.flatMap RawEntry.bytes).length = 4 * es.length := by
  induction es with
  | nil => rfl
  | cons r es ih => rw [List.flatMap_cons, List.length_append, ih]; simp [RawEntry.bytes]; omega

theorem tableBytes_length (es : List RawEntry) : (tableBytes es).length = 1 + 4 * es.length := by
  rw [tableBytes, List.length_cons, entries_length]; omega

/-- What `loadTables` leaves in the slot of table j. -/
def tableCodes (first j : Nat) (es : List RawEntry) (ts : Tables) : List Code :=
  if isCopy j es then (ts.get (first + j - 1)).codes else (es.map RawEntry.code).reverse

/-- A whole table (R151, R156, R157). -/
theorem buildTable_gives {e : Engine} {ts : Tables} {n first j : Nat} {es : List RawEntry} {rest : List Byte}
    (h : (streamBytes e.port).drop n = tableBytes es ++ rest) (hb : buildable j es) (hslot : first + j < 3) :
    Gives (buildTable j (first + j)) (loadedTables e ts n) ()
      (loadedTables e (ts.set (first + j) ⟨tableCodes first j es ts, true⟩) (n + (tableBytes es).length)) := by
  obtain ⟨h1, h2, hlen⟩ := hb
  have hsize : (BitVec.ofNat 8 (es.length - 1)).toNat + 1 = es.length := by
    rw [BitVec.toNat_ofNat, Nat.mod_eq_of_lt (by omega)]; omega
  have hbytes := tableBytes_length es
  refine (updateTable_gives _ _ e ts n).bind ((loaded_nextByte h _).bind ?_)
  rw [hsize]
  have hrest := drop_succ_of_drop (show (streamBytes e.port).drop n = _ :: (es.flatMap RawEntry.bytes ++ rest) from h)
  cases hc : isCopy j es with
  | true =>
    have hdec : decide (1 ≤ j ∧ es.length < 4) = true := hc
    have hj : 1 ≤ j := (of_decide_eq_true hdec).1
    simp only [hdec, if_true]
    refine (loadEntries_gives (copy := true) es _ (n + 1) 0 rest hrest nofun).bind ?_
    rw [afterEntries_copy]
    refine (Gives.bind (.engine _) (updateTable_gives _ _ e _ _)).bind ?_
    have := updateTable_gives (first + j) (fun x => { x with valid := true }) e
      (((ts.set (first + j) { ts.get (first + j) with valid := false }).set (first + j)
        { (ts.set (first + j) { ts.get (first + j) with valid := false }).get (first + j) with
          codes := ((ts.set (first + j) { ts.get (first + j) with valid := false }).get (first + j - 1)).codes })) (n + 1 + 4 * es.length)
    rw [hbytes, tableCodes, hc, if_pos rfl, ← Nat.add_assoc]
    rw [show ts.set (first + j) ⟨(ts.get (first + j - 1)).codes, true⟩ = _ from ?_]
    · exact this
    · rw [Tables.get_set_other ts hslot (show first + j - 1 < 3 by omega) (by omega)]
      simp
  | false =>
    have hdec : decide (1 ≤ j ∧ es.length < 4) = false := hc
    simp only [hdec, Bool.false_eq_true, if_false]
    refine (updateTable_gives _ _ e _ _).bind ((loadEntries_gives es _ (n + 1) 0 rest hrest (fun _ => hlen hc)).bind ?_)
    have := updateTable_gives (first + j) (fun x => { x with valid := true }) e
      (afterEntries false (first + j) es ((ts.set (first + j) { ts.get (first + j) with valid := false }).set (first + j)
        { (ts.set (first + j) { ts.get (first + j) with valid := false }).get (first + j) with codes := [] })) (n + 1 + 4 * es.length)
    rw [hbytes, tableCodes, hc, if_neg (by simp), ← Nat.add_assoc]
    rw [show ts.set (first + j) ⟨(es.map RawEntry.code).reverse, true⟩ = _ from ?_]
    · exact this
    · rw [afterEntries_eq]; simp

/-- A table the stream ends in (R150, R157): its slot is invalid, the other slots are as they were. -/
theorem buildTable_cut {e : Engine} {ts : Tables} {n first j : Nat} {part : List Byte} (he : streamEnded e.port = true)
    (h : (streamBytes e.port).drop n = part) (hc : cutTable j part) (hslot : first + j < 3) :
    ∃ ts', Faults (buildTable j (first + j)) (loadedTables e ts n) .eofInTable (first + j) (n + part.length)
        (loadedTables e ts' (n + part.length)) ∧
      (ts'.get (first + j)).valid = false ∧ ∀ u, u < 3 → u ≠ first + j → ts'.get u = ts.get u := by
  rcases hc with rfl | ⟨count, es, more, rfl, hes, hmore, hlen⟩
  · refine ⟨_, (updateTable_gives _ _ e ts n).bind_faults (loaded_nextByte_end he h _).bind, ?_, ?_⟩
    · simp
    · exact fun u hu hne => Tables.get_set_other ts hslot hu hne _
  have hrest := drop_succ_of_drop h
  have hbytes := entries_length es
  have hdrop : (streamBytes e.port).drop (n + 1 + 4 * es.length) = more := by
    rw [← List.drop_drop, hrest, ← hbytes]; simp
  have hpos : n + (count :: (es.flatMap RawEntry.bytes ++ more)).length = n + 1 + 4 * es.length + more.length := by
    simp [hbytes]; omega
  have hcount : count.toNat + 1 = es.length + (count.toNat + 1 - es.length) := by omega
  have hcut {copy : Bool} {ts1 : Tables} : Faults (forFrom (loadEntry copy (first + j)) (0 + es.length) (count.toNat + 1 - es.length))
      (loadedTables e ts1 (n + 1 + 4 * es.length)) .eofInTable (first + j) (n + 1 + 4 * es.length + more.length)
      (loadedTables e ts1 (n + 1 + 4 * es.length + more.length)) := by
    obtain ⟨m, hm⟩ : ∃ m, count.toNat + 1 - es.length = m + 1 := ⟨count.toNat - es.length, by omega⟩
    rw [hm]
    exact (loadEntry_cut he hdrop hmore copy (first + j) _).bind
  rw [hpos]
  cases hc : decide (1 ≤ j ∧ count.toNat + 1 < 4) with
  | true =>
    refine ⟨afterEntries true (first + j) es (ts.set (first + j) { ts.get (first + j) with valid := false }), ?_, ?_, ?_⟩
    · refine (updateTable_gives _ _ e ts n).bind_faults ((loaded_nextByte h _).bind_faults ?_)
      simp only [hc, if_true]
      have := fun ts1 => loadEntries_then (copy := true) es ts1 (n + 1) 0 _ more hrest nofun hcut
      rw [← hcount] at this
      exact (this _).bind
    · rw [afterEntries_copy]; simp
    · intro u hu hne
      rw [afterEntries_copy]; exact Tables.get_set_other ts hslot hu hne _
  | false =>
    refine ⟨afterEntries false (first + j) es
      ((ts.set (first + j) { ts.get (first + j) with valid := false }).set (first + j) { (ts.set (first + j) { ts.get (first + j) with valid := false }).get (first + j) with codes := [] }), ?_, ?_, ?_⟩
    · refine (updateTable_gives _ _ e ts n).bind_faults ((loaded_nextByte h _).bind_faults ?_)
      simp only [hc, Bool.false_eq_true, if_false]
      have := fun ts1 => loadEntries_then (copy := false) es ts1 (n + 1) 0 _ more hrest (fun _ => hlen (of_decide_eq_false hc)) hcut
      rw [← hcount] at this
      exact (updateTable_gives _ _ e _ _).bind_faults (this _).bind
    · rw [afterEntries_eq]; simp
    · intro u hu hne
      rw [afterEntries_eq, Tables.get_set_other _ hslot hu hne, Tables.get_set_other _ hslot hu hne,
        Tables.get_set_other _ hslot hu hne]

/-- A table that is not a copy with an entry of more than 16 bits (R154, R157): its slot is invalid, the other slots are as they were. -/
theorem buildTable_tooLong {e : Engine} {ts : Tables} {n first j : Nat} {count : Byte} {es : List RawEntry} {bad : RawEntry}
    {rest : List Byte} (h : (streamBytes e.port).drop n = count :: (es.flatMap RawEntry.bytes ++ (bad.bytes ++ rest)))
    (hes : es.length ≤ count.toNat) (hcopy : ¬(1 ≤ j ∧ count.toNat + 1 < 4)) (hlen : ∀ r ∈ es, r.b0.toNat + 1 ≤ 16)
    (hbad : 16 < bad.b0.toNat + 1) (hslot : first + j < 3) :
    ∃ ts', Faults (buildTable j (first + j)) (loadedTables e ts n) .huffLen ((first + j) * 256 + es.length) (n + 1 + 4 * es.length)
        (loadedTables e ts' (n + 1 + 4 * es.length + 4)) ∧
      (ts'.get (first + j)).valid = false ∧ ∀ u, u < 3 → u ≠ first + j → ts'.get u = ts.get u := by
  have hrest := drop_succ_of_drop h
  have hbytes := entries_length es
  have hdrop : (streamBytes e.port).drop (n + 1 + 4 * es.length) = bad.bytes ++ rest := by
    rw [← List.drop_drop, hrest, ← hbytes]; simp
  have hcount : count.toNat + 1 = es.length + (count.toNat + 1 - es.length) := by omega
  have hc : decide (1 ≤ j ∧ count.toNat + 1 < 4) = false := by simpa using hcopy
  refine ⟨afterEntries false (first + j) es
      ((ts.set (first + j) { ts.get (first + j) with valid := false }).set (first + j) { (ts.set (first + j) { ts.get (first + j) with valid := false }).get (first + j) with codes := [] }), ?_, ?_, ?_⟩
  · refine (updateTable_gives _ _ e ts n).bind_faults ((loaded_nextByte h _).bind_faults ?_)
    simp only [hc, Bool.false_eq_true, if_false]
    have hcut {ts1 : Tables} : Faults (forFrom (loadEntry false (first + j)) (0 + es.length) (count.toNat + 1 - es.length))
        (loadedTables e ts1 (n + 1 + 4 * es.length)) .huffLen ((first + j) * 256 + es.length) (n + 1 + 4 * es.length)
        (loadedTables e ts1 (n + 1 + 4 * es.length + 4)) := by
      obtain ⟨m, hm⟩ : ∃ m, count.toNat + 1 - es.length = m + 1 := ⟨count.toNat - es.length, by omega⟩
      rw [hm, Nat.zero_add]
      have := count.isLt
      exact (loadEntry_tooLong hdrop hbad (first + j) (by omega)).bind
    have := fun ts1 => loadEntries_then (copy := false) es ts1 (n + 1) 0 _ _ hrest (fun _ => hlen) hcut
    rw [← hcount] at this
    exact (updateTable_gives _ _ e _ _).bind_faults (this _).bind
  · rw [afterEntries_eq]; simp
  · intro u hu hne
    rw [afterEntries_eq, Tables.get_set_other _ hslot hu hne, Tables.get_set_other _ hslot hu hne,
      Tables.get_set_other _ hslot hu hne]

/-! ## Several tables -/

/-- Tables j, j + 1, ... built one after the other. -/
theorem buildTables_gives {e : Engine} {first : Nat} : ∀ (tables : List (List RawEntry)) (ts : Tables) (n j : Nat) (rest : List Byte),
    (streamBytes e.port).drop n = tables.flatMap tableBytes ++ rest → allBuildable j tables → first + j + tables.length ≤ 3 →
    Gives (forFrom (fun j => buildTable j (first + j)) j tables.length) (loadedTables e ts n) ()
      (loadedTables e (loadTables first j tables ts) (n + (tables.flatMap tableBytes).length))
  | [], ts, n, j, rest, h, hb, hs => .pure () _
  | es :: tables, ts, n, j, rest, h, hb, hs => by
    rw [List.flatMap_cons, List.append_assoc] at h
    rw [List.length_cons] at hs
    refine (buildTable_gives h hb.1 (by omega)).bind ?_
    have := buildTables_gives (first := first) tables (ts.set (first + j) ⟨tableCodes first j es ts, true⟩) (n + (tableBytes es).length)
      (j + 1) rest (by rw [← List.drop_drop, h]; simp) hb.2 (by omega)
    rw [List.flatMap_cons, List.length_append, ← Nat.add_assoc]
    exact this

/-- Tables built one after the other, then a fault. -/
theorem buildTables_then {e : Engine} {first : Nat} {f : FaultName} {info addr : Nat} {e' : Engine} :
    ∀ (tables : List (List RawEntry)) (ts : Tables) (n j m : Nat) (rest : List Byte),
    (streamBytes e.port).drop n = tables.flatMap tableBytes ++ rest → allBuildable j tables → first + j + tables.length ≤ 3 →
    Faults (forFrom (fun j => buildTable j (first + j)) (j + tables.length) m)
      (loadedTables e (loadTables first j tables ts) (n + (tables.flatMap tableBytes).length)) f info addr e' →
    Faults (forFrom (fun j => buildTable j (first + j)) j (tables.length + m)) (loadedTables e ts n) f info addr e'
  | [], ts, n, j, m, rest, h, hb, hs, hf => by simpa [loadTables] using hf
  | es :: tables, ts, n, j, m, rest, h, hb, hs, hf => by
    rw [List.flatMap_cons, List.append_assoc] at h
    rw [List.length_cons] at hs
    rw [List.length_cons, Nat.add_right_comm]
    refine (buildTable_gives h hb.1 (by omega)).bind_faults ?_
    refine buildTables_then (first := first) tables _ _ (j + 1) m rest (by rw [← List.drop_drop, h]; simp) hb.2 (by omega) ?_
    rw [List.flatMap_cons, List.length_append, ← Nat.add_assoc, List.length_cons, Nat.add_comm tables.length 1, ← Nat.add_assoc] at hf
    exact hf

end Sys2Proof.Machine
end

