-- ==== Sys2Proof/Laws/Launch.lean ====
section
/-! SUPPORT. Launching: every command's meaning is one launch of its rule, and what an unpaced launch answers (40_control.md R140). -/

namespace Sys2Proof.Machine

/-- Every command's meaning launches its word with its rule, the one `proceed` follows. -/
theorem exec_rule (i : Instr) (s : State) : exec i s = launch (encode i) (.command i) (ruleOf (.command i)) s := by
  cases i <;> rfl

/-- An unpaced launch of a command whose rule ends normally (R144). -/
theorem exec_gives {s : State} {i : Instr} {e' : Engine} (h : Ready s)
    (hg : Gives (ruleOf (.command i) s.env) (launched s.eng) () e') : exec i s = .next (endedNormally i s e') := by
  obtain ⟨hb, hf, hp⟩ := h
  rw [exec_rule, launch_completes hb hf hp hg]
  rfl

/-- An unpaced launch of a command whose rule raises a fault (60_exceptions.md R282). -/
theorem exec_faults {s : State} {i : Instr} {f : FaultName} {info addr : Nat} {e' : Engine} (h : Ready s)
    (hg : Faults (ruleOf (.command i) s.env) (launched s.eng) f info addr e') :
    exec i s = .next (endedByFault (encode i) f info addr s e') := by
  obtain ⟨hb, hf, hp⟩ := h
  rw [exec_rule, launch_faults hb hf hp hg]
  rfl

/-- A launched command is settled from the run of its rule, as far as the pace lets it go. -/
theorem exec_launched {s : State} (hb : s.busy = false) (hf : s.fault = false) (i : Instr) :
    exec i s = settle (.command i) (launched s.eng) (launchState (encode i) s)
      (whileBusy (ruleOf (.command i) s.env) ⟨launched s.eng, 0, s.pace⟩) := by
  rw [exec_rule, launch_taken hb hf]
  rfl

/-- A command whose write is ignored (R140). -/
theorem exec_ignored {s : State} (h : s.busy = true ∨ s.fault = true) (i : Instr) : exec i s = .next (ignoreWrite s) := by
  rw [exec_rule, launch_ignored h]

/-- A word's opcode field under its reserved fields: the low four bits are not touched by a field placed at bit 4 or above. -/
theorem opcode_or_field {len : Nat} (w : Word) (v : BitVec len) {lo : Nat} (h : 4 ≤ lo) :
    wordField (w ||| placeField v lo) 0 4 = wordField w 0 4 := by
  apply BitVec.eq_of_getLsbD_eq
  intro k hk
  simp only [wordField, placeField, BitVec.getLsbD_extractLsb', BitVec.getLsbD_or, BitVec.getLsbD_shiftLeft]
  simp [show k < lo by omega]

/-- The commands that take a byte stream (20_memory.md R87, R90). -/
theorem takesStream_encode (i : Instr) : takesStream (encode i) = match i with
    | .loadht _ _ _ => true
    | .decodeH24 _ _ _ _ => true
    | .decodeH32 _ _ _ _ => true
    | _ => false := by
  cases i <;> simp only [encode, takesStream, opcode_or_field _ _ (show 4 ≤ 4 by decide), opcode_or_field _ _ (show 4 ≤ 5 by decide),
    opcode_or_field _ _ (show 4 ≤ 6 by decide), opcode_or_field _ _ (show 4 ≤ 7 by decide), opcode_or_field _ _ (show 4 ≤ 8 by decide),
    opcode_or_field _ _ (show 4 ≤ 10 by decide), opcode_or_field _ _ (show 4 ≤ 11 by decide),
    opcode_or_field _ _ (show 4 ≤ 14 by decide)] <;> decide

end Sys2Proof.Machine
end

