-- ==== Sys2Proof/Laws/Memory.lean ====
section
/-! SUPPORT. Data memory: a read after a write, the canonical form, and that memories in it are equal when every byte is. -/

namespace Sys2Proof.Machine

@[simp] theorem Memory.read_nil (a : Nat) : Memory.read [] a = unwrittenByte := rfl

theorem Memory.read_cellFor (a b : Nat) (v : Byte) :
    (cellFor a v).read b = if a = b then v else unwrittenByte := by
  unfold cellFor
  split <;> simp_all [Memory.read]

/-- Below every listed address, a memory reads as unwritten. -/
theorem Memory.read_below {m : Memory} {a : Nat} (h : ∀ c ∈ m, a < c.1) : m.read a = unwrittenByte := by
  induction m with
  | nil => rfl
  | cons c rest ih =>
    have hc := h c (by simp)
    rw [Memory.read, if_neg (by omega), ih fun d hd => h d (by simp [hd])]

theorem Memory.read_cellFor_append (a b : Nat) (v : Byte) (m : Memory) (h : ∀ c ∈ m, a < c.1) :
    Memory.read (cellFor a v ++ m) b = if a = b then v else m.read b := by
  unfold cellFor
  split
  · subst v
    split
    · subst b; simpa using Memory.read_below h
    · rfl
  · simp [Memory.read]

/-- A read after a write to the same or another address. -/
theorem Memory.read_write {m : Memory} (h : m.Pairwise (fun c d => c.1 < d.1)) (a b : Nat) (v : Byte) :
    (m.write a v).read b = if a = b then v else m.read b := by
  induction m with
  | nil => simp [Memory.write, Memory.read_cellFor]
  | cons c rest ih =>
    obtain ⟨k, w⟩ := c
    rw [List.pairwise_cons] at h
    rw [Memory.write]
    split
    · rename_i hk
      refine Memory.read_cellFor_append a b v _ fun c hc => ?_
      rcases List.mem_cons.1 hc with rfl | hc
      · exact hk
      · exact Nat.lt_trans hk (h.1 c hc)
    · split
      · rename_i hk
        subst hk
        rw [Memory.read_cellFor_append a b v rest h.1, Memory.read]
        split <;> simp_all
      · rw [Memory.read, ih h.2, Memory.read]
        split
        · rw [if_neg (by omega)]
        · rfl

/-- Every address a write lists is the written one or was listed before. -/
theorem Memory.mem_write {m : Memory} {a : Nat} {v : Byte} {c : Host.Cell} (h : c ∈ m.write a v) :
    (c = (a, v) ∧ v ≠ unwrittenByte) ∨ c ∈ m := by
  induction m with
  | nil =>
    simp only [Memory.write, cellFor] at h
    split at h <;> simp_all
  | cons d rest ih =>
    obtain ⟨k, w⟩ := d
    rw [Memory.write, cellFor] at h
    split at h
    · split at h <;> simp_all
    · split at h
      · split at h
        · simp_all
        · simp_all; tauto
      · rcases List.mem_cons.1 h with rfl | h
        · simp
        · rcases ih h with h | h
          · exact Or.inl h
          · exact Or.inr (by simp [h])

/-- A write keeps the canonical form. -/
theorem Memory.write_wf {m : Memory} (h : m.wf) {a : Nat} (ha : a < Config.memSize) (v : Byte) : (m.write a v).wf := by
  refine ⟨?_, fun c hc => ?_⟩
  · obtain ⟨h, -⟩ := h
    induction m with
    | nil => simp only [Memory.write, cellFor]; split <;> simp
    | cons d rest ih =>
      obtain ⟨k, w⟩ := d
      rw [List.pairwise_cons] at h
      rw [Memory.write, cellFor]
      split
      · rename_i hk
        split
        · simpa using h
        · simp only [List.cons_append, List.nil_append, List.pairwise_cons]
          refine ⟨fun c hc => ?_, h⟩
          rcases List.mem_cons.1 hc with rfl | hc
          · exact hk
          · exact Nat.lt_trans hk (h.1 c hc)
      · split
        · rename_i hk
          subst hk
          split
          · exact h.2
          · exact List.pairwise_cons.2 ⟨fun c hc => h.1 c hc, h.2⟩
        · rename_i hk hne
          refine List.pairwise_cons.2 ⟨fun c hc => ?_, ih h.2⟩
          rcases Memory.mem_write hc with ⟨rfl, -⟩ | hc
          · show k < a
            omega
          · exact h.1 c hc
  · rcases Memory.mem_write hc with ⟨rfl, hv⟩ | hc
    · exact ⟨ha, hv⟩
    · exact h.2 c hc

/-- The canonical form is one: memories in it that read alike everywhere are equal. -/
theorem Memory.ext_of_wf {m n : Memory} (hm : m.wf) (hn : n.wf) (h : ∀ a, m.read a = n.read a) : m = n := by
  induction m generalizing n with
  | nil =>
    cases n with
    | nil => rfl
    | cons d n' =>
      have := h d.1
      rw [Memory.read_nil, Memory.read, if_pos rfl] at this
      exact absurd this.symm (hn.2 d (by simp)).2
  | cons c m' ih =>
    cases n with
    | nil =>
      have := h c.1
      rw [Memory.read_nil, Memory.read, if_pos rfl] at this
      exact absurd this (hm.2 c (by simp)).2
    | cons d n' =>
      obtain ⟨⟨hmc, hm'⟩, hm2⟩ := (⟨List.pairwise_cons.1 hm.1, hm.2⟩ : _ ∧ _)
      obtain ⟨⟨hnc, hn'⟩, hn2⟩ := (⟨List.pairwise_cons.1 hn.1, hn.2⟩ : _ ∧ _)
      have hcd : c.1 = d.1 := by
        rcases Nat.lt_trichotomy c.1 d.1 with hlt | heq | hgt
        · have := h c.1
          rw [Memory.read, if_pos rfl,
            Memory.read_below (m := d :: n') (by simpa using ⟨hlt, fun a b hc => Nat.lt_trans hlt (hnc (a, b) hc)⟩)] at this
          exact absurd this (hm2 c (by simp)).2
        · exact heq
        · have := h d.1
          rw [Memory.read_below (m := c :: m') (by simpa using ⟨hgt, fun a b hc => Nat.lt_trans hgt (hmc (a, b) hc)⟩),
            Memory.read, if_pos rfl] at this
          exact absurd this.symm (hn2 d (by simp)).2
      have hv : c.2 = d.2 := by
        have := h c.1
        rwa [Memory.read, if_pos rfl, Memory.read, if_pos hcd.symm] at this
      have hrest : m' = n' := by
        refine ih ⟨hm', fun x hx => hm2 x (by simp [hx])⟩ ⟨hn', fun x hx => hn2 x (by simp [hx])⟩ fun a => ?_
        by_cases ha : a = c.1
        · subst ha
          rw [Memory.read_below hmc, Memory.read_below (by rw [hcd]; exact hnc)]
        · have := h a
          rwa [Memory.read, if_neg (by omega), Memory.read, if_neg (by omega)] at this
      rw [hrest, Prod.ext hcd hv]

/-- The memory after reset is in canonical form. -/
theorem Memory.reset_wf : Memory.wf State.reset.eng.mem := ⟨List.Pairwise.nil, fun c hc => by cases hc⟩

end Sys2Proof.Machine
end

