-- ==== Sys2Proof/Laws/Triple.lean ====
section
/-! SUPPORT. What every run of a command's rule respects, paused or not: a precondition on the run, a postcondition where it ends
normally, and one where it stops; with one lemma per operation of Machine/Ops.lean. -/

namespace Sys2Proof.Machine

variable {α β : Type}

/-- A result ends normally in J or stops in S. -/
def Meets (J : α → Run → Prop) (S : Stop → Run → Prop) : EStateM.Result Stop Run α → Prop
  | .ok a r => J a r
  | .error e r => S e r

/-- From every run that satisfies I, c ends normally in J or stops in S. -/
def Triple (I : Run → Prop) (c : Cmd α) (J : α → Run → Prop) (S : Stop → Run → Prop) : Prop :=
  ∀ r, I r → Meets J S (c r)

variable {I : Run → Prop} {J : α → Run → Prop} {S : Stop → Run → Prop}

theorem Triple.ok {c : Cmd α} (h : Triple I c J S) {r r' : Run} {a : α} (hr : I r) (hc : c r = .ok a r') : J a r' := by
  have := h r hr
  rwa [hc] at this

theorem Triple.error {c : Cmd α} (h : Triple I c J S) {r r' : Run} {e : Stop} (hr : I r) (hc : c r = .error e r') : S e r' := by
  have := h r hr
  rwa [hc] at this

theorem Triple.pre {c : Cmd α} {I' : Run → Prop} (h : Triple I c J S) (hI : ∀ r, I' r → I r) : Triple I' c J S :=
  fun r hr => h r (hI r hr)

theorem Triple.post {c : Cmd α} {J' : α → Run → Prop} (h : Triple I c J S) (hJ : ∀ a r, J a r → J' a r) : Triple I c J' S := by
  intro r hr
  have := h r hr
  cases hc : c r with
  | ok a r' => rw [hc] at this; exact hJ a r' this
  | error e r' => rw [hc] at this; exact this

theorem Triple.pure {a : α} (h : ∀ r, I r → J a r) : Triple I (Pure.pure a : Cmd α) J S := fun r hr => h r hr

theorem Triple.bind {c : Cmd α} {g : α → Cmd β} {K : β → Run → Prop} (hc : Triple I c J S) (hg : ∀ a, Triple (J a) (g a) K S) :
    Triple I (c >>= g) K S := by
  intro r hr
  rw [Cmd.bind_apply]
  have := hc r hr
  cases hcr : c r with
  | ok a r' => rw [hcr] at this; exact hg a r' this
  | error e r' => rw [hcr] at this; exact this

/-- A part whose value does not matter and that keeps I. -/
theorem Triple.seq {c : Cmd α} {g : α → Cmd β} {K : β → Run → Prop} (hc : Triple I c (fun _ => I) S) (hg : ∀ a, Triple I (g a) K S) :
    Triple I (c >>= g) K S := hc.bind hg

theorem Triple.engine : Triple I engine (fun e r => I r ∧ r.eng = e) S := fun _ hr => ⟨hr, rfl⟩

theorem Triple.updateEngine {f : Engine → Engine} {J : Run → Prop} (h : ∀ r, I r → J { r with eng := f r.eng }) :
    Triple I (updateEngine f) (fun _ => J) S := fun r hr => h r hr

theorem Triple.raise {f : FaultName} {info addr : Nat} (h : ∀ r, I r → S (.fault f info addr) r) :
    Triple I (raise f info addr : Cmd α) J S := fun r hr => h r hr

theorem Triple.pause (h : ∀ r, I r → S .pause r) : Triple I (pause : Cmd α) J S := fun r hr => h r hr

theorem Triple.throw {e : Stop} (h : ∀ r, I r → S e r) : Triple I (throw e : Cmd α) J S := fun r hr => h r hr

/-- A check, then a part that may use that the check passed. -/
theorem Triple.check_bind {ok : Bool} {f : FaultName} {info addr : Nat} {g : Unit → Cmd β} {K : β → Run → Prop}
    (hf : ∀ r, I r → S (.fault f info addr) r) (hg : ok = true → Triple I (g ()) K S) :
    Triple I (check ok f info addr >>= g) K S := by
  cases ok with
  | true => exact fun r hr => hg rfl r hr
  | false => exact fun r hr => hf r hr

theorem Triple.check {ok : Bool} {f : FaultName} {info addr : Nat} (hf : ∀ r, I r → S (.fault f info addr) r) :
    Triple I (check ok f info addr) (fun _ r => I r ∧ ok = true) S := by
  cases ok with
  | true => exact fun r hr => ⟨hr, rfl⟩
  | false => exact fun r hr => hf r hr

theorem Triple.tick (hI : ∀ r, I r → I { r with spent := r.spent + 1 }) (hS : ∀ r, I r → r.limit = some r.spent → S .pause r) :
    Triple I tick (fun _ => I) S := by
  intro r hr
  rw [Machine.tick]
  by_cases hl : r.limit = some r.spent
  · rw [if_pos hl]; exact hS r hr hl
  · rw [if_neg hl]; exact hI r hr

/-- A loop whose pass k takes I k to I (k + 1). -/
theorem Triple.forFrom {body : Nat → Cmd Unit} (I : Nat → Run → Prop) : ∀ n i,
    (∀ k, i ≤ k → k < i + n → Triple (I k) (body k) (fun _ => I (k + 1)) S) →
    Triple (I i) (forFrom body i n) (fun _ => I (i + n)) S
  | 0, _, _ => Triple.pure fun _ hr => hr
  | n + 1, i, h => by
    have := Triple.forFrom I n (i + 1) fun k h1 h2 => h k (by omega) (by omega)
    rw [show i + 1 + n = i + (n + 1) by omega] at this
    exact (h i (le_refl i) (by omega)).bind fun _ => this

theorem Triple.forUpTo {body : Nat → Cmd Unit} (I : Nat → Run → Prop) (n : Nat)
    (h : ∀ k, k < n → Triple (I k) (body k) (fun _ => I (k + 1)) S) : Triple (I 0) (forUpTo n body) (fun _ => I n) S := by
  have := Triple.forFrom (S := S) I n 0 fun k _ h2 => h k (by omega)
  rwa [Nat.zero_add] at this

/-! ## Accesses -/

/-- I does not see the count of accesses, and S takes a pause where the pace asks for one. -/
structure Ticks (I : Run → Prop) (S : Stop → Run → Prop) : Prop where
  more : ∀ r, I r → I { r with spent := r.spent + 1 }
  stop : ∀ r, I r → r.limit = some r.spent → S .pause r

theorem Triple.tick' (h : Ticks I S) : Triple I Machine.tick (fun _ => I) S := .tick h.more h.stop

theorem Triple.readByte {env : Env} {a : Nat} (h : Ticks I S)
    (habs : env.plat.kindAt a = .absent → ∀ r, I r → S (.fault .busError 0 a) r)
    (hdev : env.plat.kindAt a = .device → ∀ r, I r → S (.refuse .sideEffectRegion) r) :
    Triple I (readByte env a) (fun b r => I r ∧ b = r.eng.mem.read a ∧ env.plat.kindAt a = .plain) S := by
  refine (Triple.tick' h).bind fun _ => ?_
  cases hk : env.plat.kindAt a with
  | plain => exact fun r hr => ⟨hr, rfl, rfl⟩
  | absent => exact fun r hr => habs hk r hr
  | device => exact fun r hr => hdev hk r hr

theorem Triple.writeByte {env : Env} {a : Nat} {b : Byte} {J : Run → Prop} (h : Ticks I S)
    (hput : env.plat.kindAt a = .plain → ∀ r, I r → J { r with eng := { r.eng with mem := r.eng.mem.write a b } })
    (habs : env.plat.kindAt a = .absent → ∀ r, I r → S (.fault .busError 1 a) r)
    (hdev : env.plat.kindAt a = .device → ∀ r, I r → S (.refuse .sideEffectRegion) r) :
    Triple I (writeByte env a b) (fun _ => J) S := by
  refine (Triple.tick' h).bind fun _ => ?_
  cases hk : env.plat.kindAt a with
  | plain => exact fun r hr => hput hk r hr
  | absent => exact fun r hr => habs hk r hr
  | device => exact fun r hr => hdev hk r hr

/-! ## The stream -/

theorem Triple.needBits {n : Nat} (hS : ∀ r, I r → streamEnded r.eng.port = false → S .pause r) :
    Triple I (needBits n) (fun _ r => I r ∧ (streamEnded r.eng.port = true ∨ n ≤ 8 * (streamBytes r.eng.port).length)) S := by
  refine Triple.engine.bind fun e => ?_
  rintro r ⟨hr, rfl⟩
  cases he : streamEnded r.eng.port with
  | true => simpa [he, Meets] using hr
  | false =>
    by_cases hn : n ≤ 8 * (streamBytes r.eng.port).length
    · simpa [he, Nat.not_lt.2 hn, hn, Meets] using hr
    · simpa [he, Nat.lt_of_not_le hn, Meets] using hS r hr he

theorem Triple.windowHere (hS : ∀ r, I r → streamEnded r.eng.port = false → S .pause r) :
    Triple I windowHere (fun w r => I r ∧ w = window (streamBytes r.eng.port) r.eng.pos) S := by
  refine Triple.engine.bind fun e => ?_
  refine ((Triple.needBits (I := fun r => I r ∧ r.eng = e) fun r hr he => hS r hr.1 he).post (J' := fun _ r => I r) fun _ _ h => h.1.1).bind
    fun _ => ?_
  refine Triple.engine.bind fun e' => Triple.pure ?_
  rintro r ⟨hr, rfl⟩
  exact ⟨hr, rfl⟩

theorem Triple.consume {n : Nat} {J : Run → Prop} (h : Ticks I S)
    (hS : ∀ r, I r → streamEnded r.eng.port = false → S .pause r)
    (hend : ∀ r, I r → 8 * (streamBytes r.eng.port).length < r.eng.pos + n → S (.fault .eofInSeq 0 r.eng.pos) r)
    (hgo : ∀ r, I r → r.eng.pos + n ≤ 8 * (streamBytes r.eng.port).length → J { r with eng := r.eng.atPos (r.eng.pos + n) }) :
    Triple I (consume n) (fun _ => J) S := by
  refine Triple.engine.bind fun e => ?_
  refine ((Triple.needBits (I := fun r => I r ∧ r.eng = e) fun r hr he => hS r hr.1 he).post (J' := fun _ r => I r) fun _ _ h => h.1.1).bind
    fun _ => ?_
  refine (Triple.tick' h).bind fun _ => Triple.engine.bind fun e' => ?_
  rintro r ⟨hr, rfl⟩
  by_cases hl : 8 * (streamBytes r.eng.port).length < r.eng.pos + n
  · rw [if_pos hl]; exact hend r hr hl
  · rw [if_neg hl]; exact hgo r hr (Nat.le_of_not_lt hl)

theorem Triple.nextByte {t : Nat} {J : Byte → Run → Prop} (h : Ticks I S)
    (hend : ∀ r, I r → (streamBytes r.eng.port).length ≤ r.eng.nb →
      if streamEnded r.eng.port then S (.fault .eofInTable t r.eng.nb) r else S .pause r)
    (hgo : ∀ r b, I r → (streamBytes r.eng.port)[r.eng.nb]? = some b → J b { r with eng := r.eng.tookByte }) :
    Triple I (nextByte t) J S := by
  refine Triple.engine.bind fun e => ?_
  cases hb : (streamBytes e.port)[e.nb]? with
  | some b =>
    refine ((Triple.tick (I := fun r => I r ∧ r.eng = e) (fun r hr => ⟨h.more r hr.1, hr.2⟩) fun r hr => h.stop r hr.1)).bind fun _ => ?_
    rintro r ⟨hr, rfl⟩
    exact hgo r b hr hb
  | none =>
    rintro r ⟨hr, rfl⟩
    have := hend r hr (List.getElem?_eq_none_iff.1 hb)
    cases he : streamEnded r.eng.port <;> rw [he] at this <;> simpa [Meets] using this

/-- Discarding the stream where the command's rule has ended, normally or by a fault. -/
theorem Triple.withStream {body : Cmd Unit} {J' : Run → Prop} {S' : Stop → Run → Prop} {J : Unit → Run → Prop}
    (h : Triple I body J S) (hJ : ∀ r, J () r → J' { r with eng := r.eng.drain })
    (hf : ∀ f info addr r, S (.fault f info addr) r → S' (.fault f info addr) { r with eng := r.eng.drain })
    (hp : ∀ r, S .pause r → S' .pause r) (hr : ∀ w r, S (.refuse w) r → S' (.refuse w) r) :
    Triple I (withStream body) (fun _ => J') S' := by
  intro r hI
  rw [Machine.withStream]
  have := h r hI
  cases hc : body r with
  | ok a r' => rw [hc] at this; exact hJ _ this
  | error e r' =>
    rw [hc] at this
    cases e with
    | fault f info addr => exact hf _ _ _ _ this
    | pause => exact hp _ this
    | refuse w => exact hr _ _ this

theorem Triple.whileBusy {rule : Cmd Unit} {J : Run → Prop} (hI : Ticks I S) (hJ : Ticks J S) (h : Triple I rule (fun _ => J) S) :
    Triple I (whileBusy rule) (fun _ => J) S :=
  (Triple.tick' hI).bind fun _ => h.bind fun _ => Triple.tick' hJ

end Sys2Proof.Machine
end

