-- ==== Sys2Proof/Laws/Frame.lean ====
section
/-! SUPPORT. Frames of the commands' rules: what every run of a rule respects, wherever it is paused and however it ends: memory
outside the command's ranges, the canonical form, tables, counters, reader and port; and why it can stop. -/

namespace Sys2Proof.Machine

variable {α : Type} {plat : Platform} {L : Option Nat} {w : Bool} {E Z : Engine → Prop}

/-- The engine's data satisfies E; the pace is L. -/
def Held (L : Option Nat) (E : Engine → Prop) (r : Run) : Prop := E r.eng ∧ r.limit = L

/-- Why a rule can stop, the engine's data satisfying Z: a fault, a BUS_ERROR naming a byte of data memory that does not respond (20_memory.md R86);
a pause, which takes a pace or, where the rule waits for a stream, one that has not ended (R90); or an access to a device (R88). -/
def Stops (plat : Platform) (L : Option Nat) (waits : Bool) (Z : Engine → Prop) : Stop → Run → Prop
  | .fault f info addr, r => Z r.eng ∧ (f = .busError → info ≤ 1 ∧ addr < Config.memSize ∧ plat.kindAt addr = .absent)
  | .pause, r => Z r.eng ∧ (L = none → waits = true ∧ streamEnded r.eng.port = false)
  | .refuse w, _ => w = .sideEffectRegion ∧ ∃ a, plat.kindAt a = .device

theorem Held.ticks (hZ : ∀ e, E e → Z e) : Ticks (Held L E) (Stops plat L w Z) where
  more _ hr := hr
  stop r hr hl := ⟨hZ _ hr.1, fun hn => by rw [hr.2, hn] at hl; cases hl⟩

theorem Held.fault (hZ : ∀ e, E e → Z e) {f : FaultName} (hf : f ≠ .busError) {info addr : Nat} :
    ∀ r, Held L E r → Stops plat L w Z (.fault f info addr) r := fun _ hr => ⟨hZ _ hr.1, fun h => absurd h hf⟩

theorem Held.waits (hZ : ∀ e, E e → Z e) : ∀ r, Held L E r → streamEnded r.eng.port = false → Stops plat L true Z .pause r :=
  fun _ hr he => ⟨hZ _ hr.1, fun _ => ⟨rfl, he⟩⟩

theorem Held.mono {F : Engine → Prop} (h : ∀ e, E e → F e) : ∀ r, Held L E r → Held L F r := fun _ hr => ⟨h _ hr.1, hr.2⟩

/-- A rule c, run with pace L from data that satisfies E, leaves data that satisfies F; where it stops they satisfy Z.
w says whether it may wait for its stream. -/
abbrev Respects (plat : Platform) (L : Option Nat) (w : Bool) (Z E : Engine → Prop) (c : Cmd α) (F : α → Engine → Prop) : Prop :=
  Triple (Held L E) c (fun a => Held L (F a)) (Stops plat L w Z)

theorem Respects.skip : Respects plat L w Z E (Pure.pure () : Cmd Unit) fun _ => E := Triple.pure fun _ hr => hr

theorem Respects.check (hZ : ∀ e, E e → Z e) {ok : Bool} {f : FaultName} (hf : f ≠ .busError) {info addr : Nat} :
    Respects plat L w Z E (check ok f info addr) fun _ => E :=
  (Triple.check (Held.fault hZ hf)).post fun _ _ h => h.1

/-- A check, then a part that may use that it passed. -/
theorem Respects.check_bind (hZ : ∀ e, E e → Z e) {ok : Bool} {f : FaultName} (hf : f ≠ .busError) {info addr : Nat} {g : Unit → Cmd Unit}
    {F : Unit → Engine → Prop} (hg : ok = true → Respects plat L w Z E (g ()) F) :
    Respects plat L w Z E (Machine.check ok f info addr >>= g) F :=
  Triple.check_bind (Held.fault hZ hf) hg

theorem Respects.update {F : Engine → Prop} {f : Engine → Engine} (h : ∀ e, E e → F (f e)) :
    Respects plat L w Z E (updateEngine f) fun _ => F := Triple.updateEngine fun _ hr => ⟨h _ hr.1, hr.2⟩

theorem Respects.readByte {env : Env} (hZ : ∀ e, E e → Z e) {a : Nat} (ha : a < Config.memSize) :
    Respects env.plat L w Z E (readByte env a) fun _ => E :=
  (Triple.readByte (Held.ticks hZ) (fun h _ hr => ⟨hZ _ hr.1, fun _ => ⟨by omega, ha, h⟩⟩) fun h _ _ => ⟨rfl, a, h⟩).post
    fun _ _ h => h.1

theorem Respects.writeByte {env : Env} {F : Engine → Prop} (hZ : ∀ e, E e → Z e) {a : Nat} (ha : a < Config.memSize) {b : Byte}
    (hw : env.plat.kindAt a = .plain → ∀ e, E e → F { e with mem := e.mem.write a b }) :
    Respects env.plat L w Z E (writeByte env a b) fun _ => F :=
  Triple.writeByte (Held.ticks hZ) (fun h _ hr => ⟨hw h _ hr.1, hr.2⟩)
    (fun h _ hr => ⟨hZ _ hr.1, fun _ => ⟨Nat.le_refl 1, ha, h⟩⟩) fun h _ _ => ⟨rfl, a, h⟩

/-! ## Launch checks -/

/-- The enabled planes' slots, then a part that may use that they fit. -/
theorem checkPlaneSlots_bind (hZ : ∀ e, E e → Z e) {env : Env} {o : DecodeOps} {g : Unit → Cmd Unit} {F : Unit → Engine → Prop} :
    ∀ ps, ((∀ p ∈ ps, o.enabled p = true → (env.params.slot (o.slotOf p)).geometryOk = true) → Respects plat L w Z E (g ()) F) →
      Respects plat L w Z E (checkPlaneSlots env o ps >>= g) F
  | [], hg => hg nofun
  | p :: rest, hg => by
    rw [checkPlaneSlots]
    cases hp : o.enabled p with
    | false =>
      exact checkPlaneSlots_bind hZ rest fun h => hg (List.forall_mem_cons.2 ⟨fun h' => absurd (hp.symm.trans h') (by decide), h⟩)
    | true =>
      simp only [if_true, checkSlot, bind_assoc]
      exact Respects.check_bind hZ (by decide) fun hok => checkPlaneSlots_bind hZ rest fun h =>
        hg (List.forall_mem_cons.2 ⟨fun _ => hok, h⟩)

theorem checkPlaneTables_respects (hZ : ∀ e, E e → Z e) (o : DecodeOps) :
    ∀ ps, Respects plat L w Z E (checkPlaneTables o ps) fun _ => E
  | [] => Respects.skip
  | p :: rest => by
    refine Triple.bind (J := fun _ => Held L E) (Triple.engine.post fun _ _ h => h.1) fun e => ?_
    exact Triple.seq (Respects.check hZ (by decide)) fun _ => checkPlaneTables_respects hZ o rest

/-- The spans' ends, then a part that may use that they lie in data memory. -/
theorem checkChannels_bind (hZ : ∀ e, E e → Z e) {env : Env} {n : Nat} {g : Unit → Cmd Unit} {F : Unit → Engine → Prop} :
    ∀ chs, ((∀ ch ∈ chs, (env.params.channelRange n ch).hi ≤ Config.memSize) → Respects plat L w Z E (g ()) F) →
      Respects plat L w Z E (checkChannels env n chs >>= g) F
  | [], hg => hg nofun
  | _ :: rest, hg => by
    rw [checkChannels, bind_assoc]
    exact Respects.check_bind hZ (by decide) fun hok => checkChannels_bind hZ rest fun h =>
      hg (List.forall_mem_cons.2 ⟨of_decide_eq_true hok, h⟩)

theorem checkChannelSources_respects (hZ : ∀ e, E e → Z e) (env : Env) (n : Nat) (ch : Channel) :
    ∀ xs, Respects plat L w Z E (checkChannelSources env n ch xs) fun _ => E
  | [] => Respects.skip
  | (_, _) :: rest => Triple.seq (Respects.check hZ (by decide)) fun _ => checkChannelSources_respects hZ env n ch rest

theorem checkOutputs_respects (hZ : ∀ e, E e → Z e) (env : Env) (n : Nat) (xs : List (Nat × SlotIx)) :
    ∀ chs, Respects plat L w Z E (checkOutputs env n xs chs) fun _ => E
  | [] => Respects.skip
  | ch :: rest => Triple.seq (checkChannelSources_respects hZ env n ch xs) fun _ => checkOutputs_respects hZ env n xs rest

/-- CONVERT's checks, then a part that may use what keeps its addresses in data memory. -/
theorem convertChecks_bind (hZ : ∀ e, E e → Z e) {env : Env} {ys c1s c2s : SlotIx} {g : Unit → Cmd Unit} {F : Unit → Engine → Prop}
    (hg : (env.params.slot ys).geometryOk = true → (env.params.mono || chromaCovers env ys c1s) = true →
      (env.params.mono || chromaCovers env ys c2s) = true →
      (∀ ch ∈ env.params.channels, (env.params.channelRange (env.params.slot ys).bytes ch).hi ≤ Config.memSize) →
      Respects plat L w Z E (g ()) F) : Respects plat L w Z E (convertChecks env ys c1s c2s >>= g) F := by
  simp only [convertChecks, checkSlot, bind_assoc]
  exact Respects.check_bind hZ (by decide) fun _ => Respects.check_bind hZ (by decide) fun hy =>
    Respects.check_bind hZ (by decide) fun h1 => Respects.check_bind hZ (by decide) fun h2 =>
      Respects.check_bind hZ (by decide) fun _ => checkChannels_bind hZ _ fun hc =>
        Triple.seq (checkOutputs_respects hZ env _ _ _) fun _ => hg hy h1 h2 hc

/-! ## Commands that write memory alone: NOP, CLEAR, UPRES, CONVERT -/

/-- Memory m after writes within the ranges rs alone, from m0. -/
def WrittenIn (rs : List ByteRange) (m0 m : Memory) : Prop :=
  m0.wf → m.wf ∧ ∀ a, (∀ ρ ∈ rs, ρ.holds a = false) → m.read a = m0.read a

theorem WrittenIn.refl (rs : List ByteRange) (m : Memory) : WrittenIn rs m m := fun h => ⟨h, fun _ _ => rfl⟩

theorem Platform.plain_lt {plat : Platform} {a : Nat} (h : plat.kindAt a = .plain) : a < Config.memSize := by
  by_contra hn
  rw [Platform.kindAt, if_pos (Nat.le_of_not_lt hn)] at h
  cases h

theorem WrittenIn.write {rs : List ByteRange} {m0 m : Memory} (h : WrittenIn rs m0 m) {ρ : ByteRange} (hρ : ρ ∈ rs) {a : Nat}
    (ha : ρ.holds a = true) (hp : plat.kindAt a = .plain) (b : Byte) : WrittenIn rs m0 (m.write a b) := fun hm => by
  obtain ⟨hw, hr⟩ := h hm
  refine ⟨Memory.write_wf hw (Platform.plain_lt hp) b, fun z hz => ?_⟩
  rw [Memory.read_write hw.1, if_neg fun he => by rw [he, hz ρ hρ] at ha; cases ha]
  exact hr z hz

theorem WrittenIn.tear {rs : List ByteRange} {m0 : Memory} {ρ : ByteRange} (hρ : ρ ∈ rs) (env : Env) :
    ∀ (bytes : List Byte) (a : Nat) (m : Memory), WrittenIn rs m0 m → (∀ j, j < bytes.length → ρ.holds (a + j) = true) →
      WrittenIn rs m0 (tearElement env a bytes m)
  | [], _, _, h, _ => h
  | b :: rest, a, m, h, ha => by
    rw [tearElement]
    by_cases hp : env.plat.kindAt a = .plain
    · rw [if_pos hp]
      refine WrittenIn.tear hρ env rest (a + 1) _ ?_ fun j hj => by
        rw [show a + 1 + j = a + (j + 1) by omega]; exact ha (j + 1) (by simpa using hj)
      split
      · exact h.write hρ (ha 0 (by simp)) hp b
      · exact h
    · rw [if_neg hp]; exact h

/-- Only memory has changed since e0, and only within rs. -/
def MemOnly (rs : List ByteRange) (e0 e : Engine) : Prop := e = { e0 with mem := e.mem } ∧ WrittenIn rs e0.mem e.mem

theorem MemOnly.refl (rs : List ByteRange) (e : Engine) : MemOnly rs e e := ⟨rfl, .refl rs e.mem⟩

theorem MemOnly.set {rs : List ByteRange} {e0 e : Engine} (h : MemOnly rs e0 e) {m : Memory} (hm : WrittenIn rs e0.mem m) :
    MemOnly rs e0 { e with mem := m } := ⟨by rw [h.1], hm⟩

section MemOnly

variable {rs : List ByteRange} {e0 : Engine} {env : Env}

/-- A rule that writes memory alone, and only within rs. -/
abbrev Writes (plat : Platform) (L : Option Nat) (rs : List ByteRange) (e0 : Engine) (c : Cmd α) : Prop :=
  Respects plat L false (MemOnly rs e0) (MemOnly rs e0) c fun _ => MemOnly rs e0

theorem ByteRange.holds_lt {ρ : ByteRange} (hm : ρ.hi ≤ Config.memSize) {a : Nat} (ha : ρ.holds a = true) : a < Config.memSize := by
  simp only [ByteRange.holds, Bool.and_eq_true, decide_eq_true_eq] at ha
  omega

theorem Writes.byte {ρ : ByteRange} (hρ : ρ ∈ rs) (hm : ρ.hi ≤ Config.memSize) {a : Nat} (ha : ρ.holds a = true) (b : Byte) :
    Writes env.plat L rs e0 (writeByte env a b) :=
  Respects.writeByte (fun _ h => h) (ByteRange.holds_lt hm ha) fun hp _ h => h.set (h.2.write hρ ha hp b)

theorem Writes.read {a : Nat} (ha : a < Config.memSize) : Writes env.plat L rs e0 (readByte env a) := Respects.readByte (fun _ h => h) ha

theorem Writes.ok (ok : Bool) (f : FaultName) (hf : f ≠ .busError) (info addr : Nat) :
    Writes plat L rs e0 (check ok f info addr) := Respects.check (fun _ h => h) hf

theorem Writes.loop {body : Nat → Cmd Unit} (n : Nat) (h : ∀ k, k < n → Writes plat L rs e0 (body k)) :
    Writes plat L rs e0 (forUpTo n body) := Triple.forUpTo (fun _ => Held L (MemOnly rs e0)) n h

theorem Writes.bytes {ρ : ByteRange} (hρ : ρ ∈ rs) (hm : ρ.hi ≤ Config.memSize) : ∀ (bytes : List Byte) (a : Nat),
    (∀ j, j < bytes.length → ρ.holds (a + j) = true) → Writes env.plat L rs e0 (writeBytes env a bytes)
  | [], _, _ => Respects.skip
  | b :: rest, a, h => Triple.seq (Writes.byte hρ hm (h 0 (by simp)) b) fun _ => Writes.bytes hρ hm rest (a + 1) fun j hj => by
      rw [show a + 1 + j = a + (j + 1) by omega]; exact h (j + 1) (by simpa using hj)

theorem Writes.element {ρ : ByteRange} (hρ : ρ ∈ rs) (hm : ρ.hi ≤ Config.memSize) {bytes : List Byte} {a : Nat}
    (ha : ∀ j, j < bytes.length → ρ.holds (a + j) = true) : Writes env.plat L rs e0 (writeElement env a bytes) := by
  intro r hr
  have := Writes.bytes (env := env) (L := L) (e0 := e0) hρ hm bytes a ha r hr
  rw [writeElement]
  cases hc : writeBytes env a bytes r with
  | ok u r' => rw [hc] at this; exact this
  | error e r' =>
    rw [hc] at this
    cases e with
    | fault f info addr => exact this
    | refuse w => exact this
    | pause =>
      change Meets _ _ (if r'.spent = r.spent then _ else _)
      split
      · exact this
      · exact ⟨MemOnly.set this.1 (WrittenIn.tear hρ env bytes a _ hr.1.2 ha), this.2⟩

end MemOnly

/-- The slot geometry check keeps a plane in data memory (60_exceptions.md R284). -/
theorem Desc.range_hi_le {d : Desc} (h : d.geometryOk = true) : d.range.hi ≤ Config.memSize := by
  simp only [Desc.geometryOk, Bool.and_eq_true, decide_eq_true_eq] at h
  exact h.2

theorem Desc.range_holds_pixel (d : Desc) {x y : Nat} (hx : x < d.w.toNat) (hy : y < d.h.toNat) : d.range.holds (d.pixel x y) = true := by
  have h1 : (y + 1) * d.w.toNat ≤ d.h.toNat * d.w.toNat := Nat.mul_le_mul_right _ hy
  rw [Nat.add_mul] at h1
  simp only [ByteRange.holds, Bool.and_eq_true, decide_eq_true_eq]
  simp only [Desc.range, Desc.pixel, Desc.bytes]
  have h2 := Nat.mul_comm d.w.toNat d.h.toNat
  omega

theorem Desc.pixel_lt {d : Desc} (h : d.geometryOk = true) {x y : Nat} (hx : x < d.w.toNat) (hy : y < d.h.toNat) :
    d.pixel x y < Config.memSize := ByteRange.holds_lt (Desc.range_hi_le h) (d.range_holds_pixel hx hy)

theorem clearRule_writes (env : Env) (k : SlotIx) (e0 : Engine) :
    Writes env.plat L [(env.params.slot k).range] e0 (clearRule k env) :=
  Respects.check_bind (fun _ h => h) (by decide) fun hok => Writes.loop _ fun i hi =>
    Writes.byte (List.mem_singleton.2 rfl) (Desc.range_hi_le hok) (by simpa [ByteRange.holds, Desc.range] using hi) 0

/-! ### UPRES -/

theorem readTaps_writes {rs : List ByteRange} (env : Env) (e0 : Engine) {src : SlotIx} (hs : (env.params.slot src).geometryOk = true)
    {c r : Nat} (hc : c < (env.params.slot src).w.toNat) (hr : r < (env.params.slot src).h.toNat) :
    Writes env.plat L rs e0 (readTaps env src c r) := by
  have hc1 : nextClamped c (env.params.slot src).w.toNat < (env.params.slot src).w.toNat := by unfold nextClamped; omega
  have hr1 : nextClamped r (env.params.slot src).h.toNat < (env.params.slot src).h.toNat := by unfold nextClamped; omega
  exact Triple.seq (Writes.read (Desc.pixel_lt hs hc hr)) fun _ => Triple.seq (Writes.read (Desc.pixel_lt hs hc1 hr)) fun _ =>
    Triple.seq (Writes.read (Desc.pixel_lt hs hc hr1)) fun _ => Triple.seq (Writes.read (Desc.pixel_lt hs hc1 hr1)) fun _ =>
      Triple.pure fun _ hr => hr

theorem forQuarters_writes {rs : List ByteRange} {e0 : Engine} {f : Quarter → Nat → Nat → Cmd Unit} {c r : Nat} : ∀ qs : List Quarter,
    (∀ q ∈ qs, Writes plat L rs e0 (f q (2 * c + q.dx) (2 * r + q.dy))) → Writes plat L rs e0 (forQuarters f c r qs)
  | [], _ => Respects.skip
  | q :: rest, h => Triple.seq (h q (by simp)) fun _ => forQuarters_writes rest fun x hx => h x (by simp [hx])

theorem forPixels_writes {rs : List ByteRange} {e0 : Engine} {f : Nat → Nat → Cmd Unit} {w h : Nat}
    (hf : ∀ c r, c < w → r < h → Writes plat L rs e0 (f c r)) : Writes plat L rs e0 (forPixels w h f) :=
  Writes.loop _ fun r hr => Writes.loop _ fun c hc => hf c r hc hr

theorem quarters_le : ∀ q ∈ quarters, q.dx ≤ 1 ∧ q.dy ≤ 1 := by decide

/-- The source's and the destination's slots, then a part that may use that they fit each other and data memory. -/
theorem checkUpres_writes {rs : List ByteRange} {e0 : Engine} {env : Env} {src dst : SlotIx} {g : Unit → Cmd Unit}
    (hg : (env.params.slot src).geometryOk = true → (env.params.slot dst).geometryOk = true →
      (env.params.slot dst).w.toNat = 2 * (env.params.slot src).w.toNat →
      (env.params.slot dst).h.toNat = 2 * (env.params.slot src).h.toNat → Writes env.plat L rs e0 (g ())) :
    Writes env.plat L rs e0 (checkUpresSlots env src dst >>= g) := by
  rw [checkUpresSlots, bind_assoc]
  refine Respects.check_bind (fun _ h => h) (by decide) fun hs => Respects.check_bind (fun _ h => h) (by decide) fun hok => ?_
  simp only [Bool.and_eq_true, beq_iff_eq] at hok
  exact hg hs hok.1.1 hok.1.2 hok.2

/-- A destination pixel of a source pixel's quarter lies in the destination plane. -/
theorem writeQuarter_writes {e0 : Engine} {env : Env} {src dst : SlotIx} (hd : (env.params.slot dst).geometryOk = true)
    (hw : (env.params.slot dst).w.toNat = 2 * (env.params.slot src).w.toNat)
    (hh : (env.params.slot dst).h.toNat = 2 * (env.params.slot src).h.toNat) {c r : Nat} (hc : c < (env.params.slot src).w.toNat)
    (hr : r < (env.params.slot src).h.toNat) {q : Quarter} (hq : q ∈ quarters) (v : Byte) :
    Writes env.plat L [(env.params.slot dst).range] e0 (writePixel env dst (2 * c + q.dx) (2 * r + q.dy) v) := by
  have := quarters_le q hq
  exact Writes.byte (List.mem_singleton.2 rfl) (Desc.range_hi_le hd) (Desc.range_holds_pixel _ (by omega) (by omega)) v

theorem upresBlRule_writes (env : Env) (src dst : SlotIx) (e0 : Engine) :
    Writes env.plat L [(env.params.slot dst).range] e0 (upresBlRule src dst env) :=
  checkUpres_writes fun hs hd hw hh => Triple.seq (Writes.ok _ _ (by decide) _ _) fun _ => forPixels_writes fun _ _ hc hr =>
    Triple.seq (readTaps_writes env e0 hs hc hr) fun _ => forQuarters_writes _ fun _ hq => writeQuarter_writes hd hw hh hc hr hq _

theorem upresAddRule_writes (env : Env) (src dst dlt : SlotIx) (e0 : Engine) :
    Writes env.plat L [(env.params.slot dst).range] e0 (upresAddRule src dst dlt env) :=
  checkUpres_writes fun hs hd hw hh => Respects.check_bind (fun _ h => h) (by decide) fun hx => by
    simp only [Bool.and_eq_true, beq_iff_eq] at hx
    obtain ⟨⟨hx, hxw⟩, hxh⟩ := hx
    refine Triple.seq (Writes.ok _ _ (by decide) _ _) fun _ => Triple.seq (Writes.ok _ _ (by decide) _ _) fun _ =>
      forPixels_writes fun _ _ hc hr => Triple.seq (readTaps_writes env e0 hs hc hr) fun _ => forQuarters_writes _ fun q hq => ?_
    have hle := quarters_le q hq
    exact Triple.seq (Writes.read (Desc.pixel_lt hx (by rw [hxw]; omega) (by rw [hxh]; omega))) fun _ =>
      writeQuarter_writes hd hw hh hc hr hq _

theorem upresNnRule_writes (env : Env) (src dst : SlotIx) (e0 : Engine) :
    Writes env.plat L [(env.params.slot dst).range] e0 (upresNnRule src dst env) :=
  checkUpres_writes fun hs hd hw hh => Triple.seq (Writes.ok _ _ (by decide) _ _) fun _ => forPixels_writes fun _ _ hc hr =>
    Triple.seq (Writes.read (Desc.pixel_lt hs hc hr)) fun _ => forQuarters_writes _ fun _ hq => writeQuarter_writes hd hw hh hc hr hq _

/-! ### CONVERT -/

theorem rotIndex_lt {rot r c w h : Nat} (hr : r < h) (hc : c < w) : rotIndex rot r c w h < w * h := by
  have key : ∀ a b n m : Nat, a < n → b < m → a + b * n < n * m := fun a b n m ha hb => by
    have : (b + 1) * n ≤ m * n := Nat.mul_le_mul_right _ hb
    rw [Nat.add_mul, Nat.mul_comm m n] at this
    omega
  unfold rotIndex
  split
  · exact key _ _ _ _ hc hr
  · rw [Nat.mul_comm w h]; exact key _ _ _ _ hr (by omega)
  · exact key _ _ _ _ (by omega) (by omega)
  · rw [Nat.mul_comm w h]; exact key _ _ _ _ (by omega) hc

theorem elements_length (env : Env) (v : Rgb Colour) (ch : Channel) : (channelElement env v ch).length = env.params.elemSize := by
  have hm : ∀ l : List Byte, (memoryOrder env.plat l).length = l.length := fun l => by
    rw [memoryOrder]; split <;> simp
  have hout : ∀ v : Colour, (outElement env v).length = env.params.elemSize := fun v => by
    rw [outElement, hm, Params.elemSize]
    generalize env.params.fmt = n
    rcases n with _ | _ | n <;> rfl
  cases ch with
  | a =>
    rw [channelElement, opaqueElement, hm, Params.elemSize]
    generalize env.params.fmt = n
    rcases n with _ | _ | n <;> rfl
  | r => exact hout v.r
  | g => exact hout v.g
  | b => exact hout v.b

/-- An element's bytes lie in its channel's span. -/
theorem channelRange_holds (p : Params) {n d j : Nat} (ch : Channel) (hd : d < n) (hj : j < p.elemSize) :
    (p.channelRange n ch).holds (p.outBase ch + p.elemSize * (d * p.outStride.toNat) + j) = true := by
  have h1 : d * p.outStride.toNat ≤ (n - 1) * p.outStride.toNat := Nat.mul_le_mul_right _ (by omega)
  have h2 : p.elemSize * (d * p.outStride.toNat) ≤ p.elemSize * ((n - 1) * p.outStride.toNat) := Nat.mul_le_mul_left _ h1
  simp only [ByteRange.holds, Params.channelRange, Bool.and_eq_true, decide_eq_true_eq, Nat.mul_add, Nat.mul_one]
  omega

/-- A chroma sample lies in its plane (R241, check 2). -/
theorem chromaCovers_pixel_lt {env : Env} {ys k : SlotIx} (h : chromaCovers env ys k = true) {r c : Nat}
    (hr : r < (env.params.slot ys).h.toNat) (hc : c < (env.params.slot ys).w.toNat) :
    (env.params.slot k).pixel (c >>> env.params.cshift) (r >>> env.params.cshift) < Config.memSize := by
  have le {a b : Nat} (hab : a < b) : a >>> env.params.cshift ≤ (b - 1) >>> env.params.cshift := by
    rw [Nat.shiftRight_eq_div_pow, Nat.shiftRight_eq_div_pow]; exact Nat.div_le_div_right (by omega)
  simp only [chromaCovers, Bool.and_eq_true, decide_eq_true_eq] at h
  exact Desc.pixel_lt h.1.1 (Nat.lt_of_le_of_lt (le hc) h.1.2) (Nat.lt_of_le_of_lt (le hr) h.2)

theorem readChroma_writes {rs : List ByteRange} (env : Env) (e0 : Engine) {ys c1s c2s : SlotIx}
    (h1 : (env.params.mono || chromaCovers env ys c1s) = true) (h2 : (env.params.mono || chromaCovers env ys c2s) = true) {r c : Nat}
    (hr : r < (env.params.slot ys).h.toNat) (hc : c < (env.params.slot ys).w.toNat) :
    Writes env.plat L rs e0 (readChroma env c1s c2s r c) := by
  rw [readChroma]
  cases hm : env.params.mono with
  | true => exact Triple.pure fun _ hr => hr
  | false =>
    rw [hm, Bool.false_or] at h1 h2
    exact Triple.seq (Writes.read (chromaCovers_pixel_lt h1 hr hc)) fun _ =>
      Triple.seq (Writes.read (chromaCovers_pixel_lt h2 hr hc)) fun _ => Triple.pure fun _ hr => hr

theorem writeChannels_writes (env : Env) (e0 : Engine) (v : Rgb Colour) {n d : Nat}
    (hm : ∀ ch ∈ env.params.channels, (env.params.channelRange n ch).hi ≤ Config.memSize) (hd : d < n) : ∀ chs : List Channel,
    (∀ ch ∈ chs, ch ∈ env.params.channels) →
    Writes env.plat L (env.params.channels.map (env.params.channelRange n)) e0 (writeChannels env v (d * env.params.outStride.toNat) chs)
  | [], _ => Respects.skip
  | ch :: rest, h => Triple.seq
      (Writes.element (List.mem_map_of_mem (h ch (by simp))) (hm ch (h ch (by simp)))
        fun _ hj => channelRange_holds _ ch hd (by rwa [elements_length] at hj))
      fun _ => writeChannels_writes env e0 v hm hd rest fun x hx => h x (by simp [hx])

theorem convertRule_writes (env : Env) (ys c1s c2s : SlotIx) (e0 : Engine) :
    Writes env.plat L (env.params.channels.map (env.params.channelRange (env.params.slot ys).bytes)) e0 (convertRule ys c1s c2s env) :=
  convertChecks_bind (fun _ h => h) fun hy h1 h2 hm => Writes.loop _ fun _ hr => Writes.loop _ fun _ hc =>
    Triple.seq (Writes.read (Desc.pixel_lt hy hc hr)) fun _ => Triple.seq (readChroma_writes env e0 h1 h2 hr hc) fun _ =>
      writeChannels_writes env e0 _ hm (rotIndex_lt hr hc) _ fun _ h => h

/-! ## LOADHT -/

/-- Legal lengths in every table slot. -/
def Tables.wf (ts : Tables) : Prop := ∀ t, (ts.get t).wf

/-- Data a LOADHT of slots first, ..., first + nt - 1 has left: tables and the reader alone have changed, and no other slot. -/
def TablesOnly (first nt : Nat) (e0 e : Engine) : Prop :=
  e = { e0 with tables := e.tables, bytesIn := e.bytesIn, nb := e.nb } ∧
    (∀ u, u < 3 → (u < first ∨ first + nt ≤ u) → e.tables.get u = e0.tables.get u) ∧ (e0.tables.wf → e.tables.wf)

theorem TablesOnly.refl (first nt : Nat) (e : Engine) : TablesOnly first nt e e := ⟨rfl, fun _ _ _ => rfl, fun h => h⟩

section TablesOnly

variable {first nt : Nat} {e0 : Engine}

/-- A rule that changes tables first, ..., first + nt - 1 and the byte reader alone. -/
abbrev Loads (plat : Platform) (L : Option Nat) (first nt : Nat) (e0 : Engine) (c : Cmd α) : Prop :=
  Respects plat L true (TablesOnly first nt e0) (TablesOnly first nt e0) c fun _ => TablesOnly first nt e0

theorem Loads.nextByte (t : Nat) : Loads plat L first nt e0 (nextByte t) := by
  refine Triple.nextByte (Held.ticks fun _ h => h) (fun r hr _ => ?_) fun r b hr _ => ?_
  · split
    · exact Held.fault (fun _ h => h) (by decide) r hr
    · next h => exact Held.waits (fun _ h => h) r hr (by simpa using h)
  · obtain ⟨⟨h1, h2, h3⟩, hl⟩ := hr
    exact ⟨⟨by rw [Engine.tookByte, h1], h2, h3⟩, hl⟩

theorem Tables.wf.set {ts : Tables} (h : ts.wf) (t : Nat) {v : TableSlot} (hv : v.wf) : (ts.set t v).wf := by
  intro u
  rcases t with _ | _ | t <;> rcases u with _ | _ | u <;> first | exact hv | exact h 0 | exact h 1 | exact h 2

/-- A change of one of the loaded slots that keeps its lengths legal. -/
theorem Loads.updateTable {t : Nat} (h1 : first ≤ t) (h2 : t < first + nt) (h3 : first + nt ≤ 3) {f : TableSlot → TableSlot}
    (hf : ∀ x, x.wf → (f x).wf) : Loads plat L first nt e0 (updateTable t f) :=
  Respects.update fun e ⟨he, hu, hw⟩ => ⟨by rw [he], fun u hu3 hou => by
    change (e.tables.set t _).get u = _
    rw [Tables.get_set_other _ (by omega) hu3 (by omega)]
    exact hu u hu3 hou, fun h => (hw h).set t (hf _ (hw h t))⟩

theorem loadEntry_loads {t : Nat} (h1 : first ≤ t) (h2 : t < first + nt) (h3 : first + nt ≤ 3) (copy : Bool) (i : Nat) :
    Loads plat L first nt e0 (loadEntry copy t i) := by
  refine Triple.bind (J := fun _ => Held L (TablesOnly first nt e0)) (Triple.engine.post fun _ _ h => h.1) fun e => ?_
  refine Triple.seq (Loads.nextByte t) fun b0 => Triple.seq (Loads.nextByte t) fun hi => Triple.seq (Loads.nextByte t) fun lo =>
    Triple.seq (Loads.nextByte t) fun sym => ?_
  cases copy
  · refine Respects.check_bind (fun _ h => h) (by decide) fun hok => Loads.updateTable h1 h2 h3 fun x hx c hc => ?_
    rcases List.mem_cons.1 hc with rfl | hc
    · have : b0.toNat + 1 ≤ 16 := by simpa using hok
      simp only [BitVec.toNat_ofNat]
      omega
    · exact hx c hc
  · exact Respects.skip

theorem buildTable_loads {j t : Nat} (h1 : first ≤ t) (h2 : t < first + nt) (h3 : first + nt ≤ 3) :
    Loads plat L first nt e0 (buildTable j t) := by
  refine Triple.seq (Loads.updateTable h1 h2 h3 fun x hx => hx) fun _ => Triple.seq (Loads.nextByte t) fun n => ?_
  have key : ∀ copy : Bool, Loads plat L first nt e0 (do
      if copy then pure () else emptyTable t
      forUpTo (n.toNat + 1) (loadEntry copy t)
      if copy then copyTable t else pure ()
      setValid t true) := by
    intro copy
    have hloop : Loads plat L first nt e0 (forUpTo (n.toNat + 1) (loadEntry copy t)) :=
      Triple.forUpTo (fun _ => Held L (TablesOnly first nt e0)) _ fun i _ => loadEntry_loads h1 h2 h3 copy i
    have hvalid : Loads plat L first nt e0 (setValid t true) := Loads.updateTable h1 h2 h3 fun x hx => hx
    cases copy
    · exact Triple.seq (Loads.updateTable h1 h2 h3 fun x _ c hc => by cases hc) fun _ => Triple.seq hloop fun _ => hvalid
    · refine Triple.seq hloop fun _ => ?_
      rw [if_pos rfl]
      refine Triple.seq ?_ fun _ => hvalid
      refine Triple.engine.bind fun e => ?_
      rintro r ⟨⟨⟨he, hu, hw⟩, hl⟩, rfl⟩
      refine ⟨⟨by rw [he], fun u hu3 hou => ?_, fun h => (hw h).set t (hw h (t - 1))⟩, hl⟩
      change (r.eng.tables.set t _).get u = _
      rw [Tables.get_set_other _ (by omega) hu3 (by omega)]
      exact hu u hu3 hou
  exact key _

theorem loadhtBody_loads (nt first : BitVec 2) (ept : Bool) (e0 : Engine) :
    Loads plat L first.toNat nt.toNat e0 (loadhtBody nt first ept) := by
  refine Respects.check_bind (fun _ h => h) (by decide) fun hok => ?_
  have h3 : first.toNat + nt.toNat ≤ 3 := by
    rw [loadhtCheck_eq] at hok
    simp at hok
    exact hok.2
  refine Triple.seq (Triple.forUpTo (fun _ => Held L (TablesOnly first.toNat nt.toNat e0)) _ fun j hj =>
    buildTable_loads (by omega) (by omega) h3) fun _ => ?_
  cases ept
  · exact Respects.skip
  · exact Triple.seq (Loads.nextByte _) fun _ => Respects.skip

end TablesOnly

/-! ## DECODE -/

/-- Data a DECODE has left that has taken k headers, and whose skipped sequences and errors are at most m: memory within rs, the bit
reader, its counters and its two flags alone have changed; the reader lies within the stream, and the counters agree. -/
def Decoding (rs : List ByteRange) (e0 : Engine) (k m : Nat) (e : Engine) : Prop :=
  e = { e0 with
    mem := e.mem
    bytesIn := e.bytesIn
    seqDone := e.seqDone
    seqSkip := e.seqSkip
    symErrs := e.symErrs
    eosSync := e.eosSync
    symErr := e.symErr
    pos := e.pos } ∧
  WrittenIn rs e0.mem e.mem ∧ e.pos ≤ 8 * (streamBytes e0.port).length ∧ e.bytesIn = BitVec.ofNat 32 ((e.pos + 7) / 8) ∧
  e.seqDone = BitVec.ofNat 32 k ∧ ∃ skips errors, skips + errors ≤ m ∧ e.seqSkip = BitVec.ofNat 32 skips ∧
    e.symErrs = BitVec.ofNat 32 errors ∧ (e.symErr = true ↔ 0 < errors)

/-- Data a DECODE with a budget of n sequences has left at any point. -/
def DecodingTo (rs : List ByteRange) (e0 : Engine) (n : Nat) (e : Engine) : Prop := ∃ k m, m ≤ k ∧ k ≤ n ∧ Decoding rs e0 k m e

section Decoding

variable {rs : List ByteRange} {e0 : Engine} {n k m : Nat}

/-- A rule of a DECODE with a budget of n sequences, from k headers and at most m skipped or failed to k' and m'. -/
abbrev Decodes (plat : Platform) (L : Option Nat) (rs : List ByteRange) (e0 : Engine) (n k m : Nat) (c : Cmd α) (k' m' : Nat) : Prop :=
  Respects plat L true (DecodingTo rs e0 n) (Decoding rs e0 k m) c fun _ => Decoding rs e0 k' m'

theorem Decoding.to (h1 : m ≤ k) (h2 : k ≤ n) : ∀ e, Decoding rs e0 k m e → DecodingTo rs e0 n e := fun _ h => ⟨k, m, h1, h2, h⟩

theorem Decoding.more {m' : Nat} (h : m ≤ m') : ∀ e, Decoding rs e0 k m e → Decoding rs e0 k m' e :=
  fun _ ⟨h1, h2, h3, h4, h5, s, r, h6, h7⟩ => ⟨h1, h2, h3, h4, h5, s, r, by omega, h7⟩

theorem Decoding.port {e : Engine} (h : Decoding rs e0 k m e) : e.port = e0.port := by rw [h.1]

theorem Decoding.atPos {e : Engine} (h : Decoding rs e0 k m e) {p : Nat} (hp : p ≤ 8 * (streamBytes e.port).length) :
    Decoding rs e0 k m (e.atPos p) := by
  have hport := h.port
  obtain ⟨h1, h2, -, -, h5⟩ := h
  refine ⟨by rw [Engine.atPos, h1], h2, by rw [← hport]; exact hp, ?_, h5⟩
  change BitVec.ofNat 32 (min _ _) = _
  rw [Nat.min_eq_right (by omega)]
  rfl

theorem Decodes.consume (h1 : m ≤ k) (h2 : k ≤ n) (b : Nat) : Decodes plat L rs e0 n k m (consume b) k m :=
  Triple.consume (Held.ticks (Decoding.to h1 h2)) (Held.waits (Decoding.to h1 h2))
    (fun r hr _ => Held.fault (Decoding.to h1 h2) (by decide) r hr) fun _ hr hp => ⟨hr.1.atPos hp, hr.2⟩

theorem Decodes.windowHere (h1 : m ≤ k) (h2 : k ≤ n) : Decodes plat L rs e0 n k m windowHere k m :=
  (Triple.windowHere (Held.waits (Decoding.to h1 h2))).post fun _ _ h => h.1

theorem Decodes.engine : Decodes plat L rs e0 n k m engine k m := Triple.engine.post fun _ _ h => h.1

theorem Decodes.putByte {env : Env} (h1 : m ≤ k) (h2 : k ≤ n) {d : Desc} (hd : d.range ∈ rs ∧ d.geometryOk = true) (i : Nat) (v : Byte) :
    Decodes env.plat L rs e0 n k m (putByte env d i v) k m := by
  rw [Machine.putByte]
  split
  · next hi =>
    have hin : d.range.holds (d.base.toNat + i) = true := by simpa [ByteRange.holds, Desc.range] using hi
    exact Respects.writeByte (Decoding.to h1 h2) (ByteRange.holds_lt (Desc.range_hi_le hd.2) hin)
      fun hp e h => ⟨by rw [h.1], h.2.1.write hd.1 hin hp v, h.2.2⟩
  · exact Respects.skip

theorem recoverSymbol_decodes {env : Env} (h1 : m < k) (h2 : k ≤ n) {d : Desc} (hd : d.range ∈ rs ∧ d.geometryOk = true) (i c : Nat) :
    Decodes env.plat L rs e0 n k m (recoverSymbol env d i c) k (m + 1) := by
  refine Triple.bind (J := fun _ => Held L (Decoding rs e0 k m))
    (Triple.forFrom (fun _ => Held L (Decoding rs e0 k m)) c i fun x _ _ => Decodes.putByte (by omega) h2 hd x 0) fun _ => ?_
  refine Respects.update fun e ⟨g1, g2, g3, g4, g5, s, r, g6, g7, g8, g9⟩ =>
    ⟨by rw [g1], g2, g3, g4, g5, s, r + 1, by omega, g7, ?_, by simp⟩
  change e.symErrs + 1 = _
  rw [g8, ← BitVec.ofNat_add_ofNat]
  rfl

theorem symbolsFrom_decodes {env : Env} (h1 : m < k) (h2 : k ≤ n) {d : Desc} (hd : d.range ∈ rs ∧ d.geometryOk = true) (t : Nat) : ∀ c i,
    Decodes env.plat L rs e0 n k m (symbolsFrom env d t i c) k (m + 1)
  | 0, _ => Triple.pure fun _ hr => ⟨Decoding.more (Nat.le_succ m) _ hr.1, hr.2⟩
  | c + 1, i => by
    refine Triple.bind (Decodes.windowHere (by omega) h2) fun w => Triple.bind Decodes.engine fun e => ?_
    dsimp only
    split
    · exact recoverSymbol_decodes h1 h2 hd i (c + 1)
    · exact Triple.bind (Decodes.putByte (by omega) h2 hd i _) fun _ => Triple.bind (Decodes.consume (by omega) h2 _) fun _ =>
        symbolsFrom_decodes h1 h2 hd t c (i + 1)

theorem decodeSequence_decodes {env : Env} {h : Header} {o : DecodeOps}
    (hrs : ∀ pl, o.enabled pl = true →
      (env.params.slot (o.slotOf pl)).range ∈ rs ∧ (env.params.slot (o.slotOf pl)).geometryOk = true) (h1 : m ≤ k) (h2 : k < n) :
    Decodes env.plat L rs e0 n k m (decodeSequence env h o) (k + 1) (m + 1) := by
  refine Triple.bind Decodes.engine fun e => Triple.bind (Decodes.consume h1 (by omega) 16) fun _ =>
    Triple.bind (Decodes.windowHere h1 (by omega)) fun w => Triple.bind (Decodes.consume h1 (by omega) _) fun _ => ?_
  refine Triple.bind (J := fun _ => Held L (Decoding rs e0 (k + 1) m))
    (Respects.update fun e ⟨g1, g2, g3, g4, g5, g6⟩ => ⟨by rw [g1], g2, g3, g4, ?_, g6⟩) fun _ => ?_
  · change e.seqDone + 1 = _
    rw [g5, ← BitVec.ofNat_add_ofNat]
    rfl
  · split
    · exact Triple.raise (Held.fault (Decoding.to (by omega) h2) (by decide))
    · next pl _ =>
      rw [planeSequence]
      dsimp only
      split
      · refine Respects.update fun e ⟨g1, g2, g3, g4, g5, s, r, g6, g7, g8, g9⟩ =>
          ⟨by rw [g1], g2, g3, g4, g5, s + 1, r, by omega, ?_, g8, g9⟩
        change e.seqSkip + 1 = _
        rw [g7, ← BitVec.ofNat_add_ofNat]
        rfl
      · next hu =>
        simp only [Bool.or_eq_true, Bool.not_eq_true', not_or, Bool.not_eq_false] at hu
        exact symbolsFrom_decodes (by omega) h2 (hrs pl hu.1) _ _ _

theorem syncFrom_decodes {p : Params} (hp : p.syncMask ≠ 0) (h1 : m ≤ k) (h2 : k ≤ n) : ∀ c,
    Decodes plat L rs e0 n k m (syncFrom p c) k m
  | 0 => Triple.pure fun _ hr => hr
  | c + 1 => by
    refine Triple.bind Decodes.engine fun e => ?_
    refine Triple.bind (J := fun _ => Held L (Decoding rs e0 k m))
      ((Triple.needBits (Held.waits (Decoding.to h1 h2))).post fun _ _ h => h.1) fun _ => ?_
    refine Triple.bind (Triple.tick' (Held.ticks (Decoding.to h1 h2))) fun _ => Triple.engine.bind fun e' => ?_
    dsimp only
    by_cases hlen : 8 * (streamBytes e'.port).length < e'.pos + syncLen p.syncMask
    · rw [if_pos hlen]; exact Triple.pure fun _ hr => hr.1
    · rw [if_neg hlen]
      split
      · exact Triple.pure fun _ hr => hr.1
      · refine Triple.bind (J := fun _ => Held L (Decoding rs e0 k m)) ?_ fun _ => syncFrom_decodes hp h1 h2 c
        rintro r ⟨hr, rfl⟩
        have := syncLen_pos hp
        exact ⟨hr.1.atPos (by omega), hr.2⟩

theorem sequencesFrom_decodes {env : Env} (hp : env.params.syncMask ≠ 0) {h : Header} {o : DecodeOps}
    (hrs : ∀ pl, o.enabled pl = true →
      (env.params.slot (o.slotOf pl)).range ∈ rs ∧ (env.params.slot (o.slotOf pl)).geometryOk = true) : ∀ c k m, m ≤ k → k + c = n →
    Respects env.plat L true (DecodingTo rs e0 n) (Decoding rs e0 k m) (sequencesFrom env h o c) fun _ => DecodingTo rs e0 n
  | 0, k, m, h1, h2 => Triple.pure fun _ hr => ⟨⟨k, m, h1, by omega, hr.1⟩, hr.2⟩
  | c + 1, k, m, h1, h2 => by
    refine Triple.bind (J := fun _ => Held L (Decoding rs e0 k m)) (Triple.bind Decodes.engine fun e =>
      syncFrom_decodes hp h1 (by omega) _) fun found => ?_
    cases found
    · rw [if_neg Bool.false_ne_true]
      exact Respects.update fun e ⟨g1, g2⟩ => ⟨k, m, h1, by omega, by rw [g1], g2⟩
    · exact Triple.bind (decodeSequence_decodes hrs h1 (by omega)) fun _ =>
        sequencesFrom_decodes hp hrs c (k + 1) (m + 1) (by omega) (by omega)

/-- The byte ranges of a DECODE's enabled planes (R186, R190). -/
def DecodeOps.ranges (o : DecodeOps) (p : Params) : List ByteRange :=
  (allPlanes.filter (o.enabled ·)).map fun pl => (p.slot (o.slotOf pl)).range

theorem Decoding.launched (rs : List ByteRange) (e : Engine) : Decoding rs (launched e) 0 0 (launched e) :=
  ⟨rfl, .refl _ _, Nat.zero_le _, by simp [Machine.launched], rfl, 0, 0, Nat.le_refl 0, rfl, rfl, by simp [Machine.launched]⟩

theorem decodeBody_decodes (env : Env) (h : Header) (o : DecodeOps) (e0 : Engine) :
    Respects env.plat L true (DecodingTo (o.ranges env.params) (launched e0) env.params.seqCount.toNat) (· = launched e0) (decodeBody h o env)
      fun _ => DecodingTo (o.ranges env.params) (launched e0) env.params.seqCount.toNat := by
  refine Triple.pre (I := Held L (Decoding (o.ranges env.params) (launched e0) 0 0)) ?_ fun r hr => ⟨?_, hr.2⟩
  · have hZ := Decoding.to (rs := o.ranges env.params) (e0 := launched e0) (Nat.le_refl 0) (Nat.zero_le env.params.seqCount.toNat)
    rw [decodeBody, decodeChecks, bind_assoc]
    refine Respects.check_bind hZ (by decide) fun hok => ?_
    rw [bind_assoc]
    refine checkPlaneSlots_bind hZ _ fun hgeo => Triple.seq (checkPlaneTables_respects hZ o _) fun _ => ?_
    have hall : ∀ pl : Plane, pl ∈ allPlanes := by intro pl; cases pl <;> decide
    have hrs : ∀ pl, o.enabled pl = true → (env.params.slot (o.slotOf pl)).range ∈ o.ranges env.params ∧
        (env.params.slot (o.slotOf pl)).geometryOk = true := fun pl hpl =>
      ⟨List.mem_map.2 ⟨pl, List.mem_filter.2 ⟨hall pl, hpl⟩, rfl⟩, hgeo pl (hall pl) hpl⟩
    exact sequencesFrom_decodes (n := env.params.seqCount.toNat) (by simpa using hok) hrs _ 0 0 (Nat.le_refl 0) (Nat.zero_add _)
  · rw [show r.eng = launched e0 from hr.1]
    exact .launched _ e0

end Decoding

/-! ## Whole commands -/

theorem Respects.whileBusy {rule : Cmd Unit} (hE : ∀ e, E e → Z e) (h : Respects plat L w Z E rule fun _ => Z) :
    Respects plat L w Z E (whileBusy rule) fun _ => Z :=
  Triple.whileBusy (Held.ticks hE) (Held.ticks fun _ h => h) h

/-- A command that takes no stream, from its launch to its end: memory alone changes, and only within its ranges (20_memory.md R87). -/
theorem commandRule_writes (env : Env) {i : Instr} (hi : takesStream (encode i) = false) (e0 : Engine) :
    Writes env.plat L (writtenRanges env.params i) e0 (whileBusy (ruleOf (.command i) env)) := by
  rw [takesStream_encode] at hi
  refine Respects.whileBusy (fun _ h => h) ?_
  cases i with
  | nop => exact Respects.skip
  | loadht => cases hi
  | decodeH24 => cases hi
  | decodeH32 => cases hi
  | clear k => exact clearRule_writes env k _
  | upresBl src dst => exact upresBlRule_writes env src dst _
  | upresAdd src dst dlt => exact upresAddRule_writes env src dst dlt _
  | upresNn src dst => exact upresNnRule_writes env src dst _
  | convert ys c1s c2s => exact convertRule_writes env ys c1s c2s _

/-- Z held, and then the rest of the stream was discarded (R144, R282). -/
def Drained (Z : Engine → Prop) (e : Engine) : Prop := ∃ e', Z e' ∧ e = e'.drain

/-- Why a command with a stream can stop: a fault, its stream discarded; a pause, before that or after it, which takes a pace or a
stream that has not ended; or an access to a device. -/
def StopsDrained (plat : Platform) (L : Option Nat) (Z : Engine → Prop) : Stop → Run → Prop
  | .fault f info addr, r => Drained Z r.eng ∧ (f = .busError → info ≤ 1 ∧ addr < Config.memSize ∧ plat.kindAt addr = .absent)
  | .pause, r => (Z r.eng ∨ Drained Z r.eng) ∧ (L = none → Z r.eng ∧ streamEnded r.eng.port = false)
  | .refuse w, _ => w = .sideEffectRegion ∧ ∃ a, plat.kindAt a = .device

/-- A command with a stream, from its launch to its end. -/
theorem withStream_drains {body : Cmd Unit} (hE : ∀ e, E e → Z e) (h : Respects plat L true Z E body fun _ => Z) :
    Triple (Held L E) (whileBusy (withStream body)) (fun _ => Held L (Drained Z)) (StopsDrained plat L Z) := by
  have ticks {F : Engine → Prop} (hF : ∀ e, F e → Z e ∨ Drained Z e) : Ticks (Held L F) (StopsDrained plat L Z) :=
    ⟨fun _ hr => hr, fun r hr hl => ⟨hF _ hr.1, fun hn => by rw [hr.2, hn] at hl; cases hl⟩⟩
  refine Triple.whileBusy (ticks fun e he => .inl (hE e he)) (ticks fun e he => .inr he) (Triple.withStream h ?_ ?_ ?_ ?_)
  · exact fun r hr => ⟨⟨r.eng, hr.1, rfl⟩, hr.2⟩
  · exact fun f info addr r hr => ⟨⟨r.eng, hr.1, rfl⟩, hr.2⟩
  · exact fun r hr => ⟨.inl hr.1, fun hn => ⟨hr.1, (hr.2 hn).2⟩⟩
  · exact fun _ _ hr => hr

theorem loadhtRule_drains (env : Env) (nt first : BitVec 2) (ept : Bool) (e0 : Engine) :
    Triple (Held L (· = e0)) (whileBusy (loadhtRule nt first ept env))
      (fun _ => Held L (Drained (TablesOnly first.toNat nt.toNat e0))) (StopsDrained env.plat L (TablesOnly first.toNat nt.toNat e0)) := by
  have h : ∀ e, e = e0 → TablesOnly first.toNat nt.toNat e0 e := fun e he => he ▸ .refl _ _ e
  exact withStream_drains h ((loadhtBody_loads nt first ept e0).pre fun r hr => ⟨h _ hr.1, hr.2⟩)

theorem decodeRule_drains (env : Env) (h : Header) (o : DecodeOps) (e0 : Engine) :
    Triple (Held L (· = launched e0)) (whileBusy (decodeRule h o env))
      (fun _ => Held L (Drained (DecodingTo (o.ranges env.params) (launched e0) env.params.seqCount.toNat)))
      (StopsDrained env.plat L (DecodingTo (o.ranges env.params) (launched e0) env.params.seqCount.toNat)) :=
  withStream_drains (fun _ he => ⟨0, 0, Nat.le_refl 0, Nat.zero_le _, by subst he; exact .launched _ e0⟩) (decodeBody_decodes env h o e0)

/-- Without a pace only a LOADHT or DECODE pauses, and only on a stream that has not ended (20_memory.md R90). -/
theorem unpaced_pause (env : Env) (i : Instr) (e : Engine) {r : Run}
    (h : whileBusy (ruleOf (.command i) env) ⟨launched e, 0, none⟩ = .error .pause r) :
    takesStream (encode i) = true ∧ streamEnded r.eng.port = false ∧ r.eng.port = e.port := by
  have stops {P : Run → Prop} {K : Unit → Run → Prop} {S : Stop → Run → Prop} (ht : Triple P (whileBusy (ruleOf (.command i) env)) K S)
      (hp : P ⟨launched e, 0, none⟩) : S .pause r := by
    have := ht _ hp
    rw [h] at this
    exact this
  cases hi : takesStream (encode i) with
  | false => exact absurd ((stops (commandRule_writes env hi (launched e)) ⟨MemOnly.refl _ _, rfl⟩).2 rfl).1 (by decide)
  | true =>
    refine ⟨rfl, ?_⟩
    rw [takesStream_encode] at hi
    cases i with
    | loadht nt first ept =>
      obtain ⟨h1, h2⟩ := (stops (loadhtRule_drains env nt first ept (launched e)) ⟨rfl, rfl⟩).2 rfl
      exact ⟨h2, by rw [h1.1]; rfl⟩
    | decodeH24 ys c1s c2s pen =>
      obtain ⟨⟨k, m, -, -, h1⟩, h2⟩ := (stops (decodeRule_drains env .h24 ⟨ys, c1s, c2s, pen⟩ e) ⟨rfl, rfl⟩).2 rfl
      exact ⟨h2, h1.port⟩
    | decodeH32 ys c1s c2s pen =>
      obtain ⟨⟨k, m, -, -, h1⟩, h2⟩ := (stops (decodeRule_drains env .h32 ⟨ys, c1s, c2s, pen⟩ e) ⟨rfl, rfl⟩).2 rfl
      exact ⟨h2, h1.port⟩
    | nop => cases hi
    | clear => cases hi
    | upresBl => cases hi
    | upresAdd => cases hi
    | upresNn => cases hi
    | convert => cases hi

end Sys2Proof.Machine
end

