-- ==== Sys2Proof/Laws/Traces.lean ====
section
/-! SUPPORT. The accesses that a command without a pace makes, in order: over plain memory it makes them all, and at the first byte that
does not respond it faults with exactly those before it made (20_memory.md R86, R94). -/

namespace Sys2Proof.Machine

variable {env : Env} {P Q R : Engine → Prop}

/-! ## Lists of accesses -/

/-- The engine's data after these accesses. -/
def Engine.after (e : Engine) (l : List Access) : Engine := { e with mem := performed e.mem l }

@[simp] theorem performed_nil (m : Memory) : performed m [] = m := rfl

@[simp] theorem performed_cons (m : Memory) (x : Access) (l : List Access) : performed m (x :: l) = performed (x.perform m) l := rfl

theorem performed_append (m : Memory) (k l : List Access) : performed m (k ++ l) = performed (performed m k) l := List.foldl_append

@[simp] theorem Engine.after_nil (e : Engine) : e.after [] = e := rfl

@[simp] theorem Engine.after_read (e : Engine) (a : Nat) (l : List Access) : e.after (.read a :: l) = e.after l := rfl

theorem Engine.after_append (e : Engine) (k l : List Access) : e.after (k ++ l) = (e.after k).after l := by
  simp only [Engine.after, performed_append]

theorem Platform.allPlain_nil (p : Platform) : p.allPlain [] := nofun

theorem Platform.allPlain_append {p : Platform} {k l : List Access} : p.allPlain (k ++ l) ↔ p.allPlain k ∧ p.allPlain l :=
  List.forall_mem_append

theorem Platform.allPlain_cons {p : Platform} {x : Access} {l : List Access} :
    p.allPlain (x :: l) ↔ p.kindAt x.addr = .plain ∧ p.allPlain l := List.forall_mem_cons

theorem Platform.allPlain_inRows {p : Platform} {d : Desc} {pixel : Nat → Nat → List Access}
    (h : ∀ c r, c < d.w.toNat → r < d.h.toNat → p.allPlain (pixel c r)) : p.allPlain (inRows d pixel) := by
  intro x hx
  simp only [inRows, List.mem_flatMap, List.mem_range] at hx
  obtain ⟨r, hr, c, hc, hx⟩ := hx
  exact h c r hc hr x hx

/-! ## Rules -/

/-- From data that satisfies P, c makes the accesses l in order: over plain memory it makes them all and ends normally in Q, and at the
first byte that does not respond it raises BUS_ERROR. -/
def Traces (env : Env) (P : Engine → Prop) (c : Cmd Unit) (l : List Access) (Q : Engine → Prop) : Prop :=
  ∀ e, P e →
    (env.plat.allPlain l → Gives c e () (e.after l) ∧ Q (e.after l)) ∧
    ∀ before x after, l = before ++ x :: after → env.plat.allPlain before → env.plat.kindAt x.addr = .absent →
      Faults c e .busError x.info x.addr (e.after before)

theorem Traces.imp {P' : Engine → Prop} {c : Cmd Unit} {l : List Access} (h : Traces env P c l Q) (hP : ∀ e, P' e → P e) :
    Traces env P' c l Q := fun e he => h e (hP e he)

theorem Traces.skip : Traces env P (pure ()) [] P := fun e he =>
  ⟨fun _ => ⟨Gives.pure () e, he⟩, fun before x after h => by cases before <;> cases h⟩

theorem Traces.bind {c : Cmd Unit} {g : Unit → Cmd Unit} {k l : List Access} (hc : Traces env P c k Q)
    (hg : Traces env Q (g ()) l R) : Traces env P (c >>= g) (k ++ l) R := by
  intro e he
  obtain ⟨hgo, hstop⟩ := hc e he
  refine ⟨fun hp => ?_, fun before x after heq hp hx => ?_⟩
  · obtain ⟨hpk, hpl⟩ := Platform.allPlain_append.1 hp
    obtain ⟨h1, hq⟩ := hgo hpk
    obtain ⟨h2, hr⟩ := (hg _ hq).1 hpl
    rw [Engine.after_append]
    exact ⟨h1.bind h2, hr⟩
  · rcases List.append_eq_append_iff.1 heq with ⟨m, rfl, hl⟩ | ⟨m, rfl, hl⟩
    · obtain ⟨hpk, hpm⟩ := Platform.allPlain_append.1 hp
      obtain ⟨h1, hq⟩ := hgo hpk
      rw [Engine.after_append]
      exact h1.bind_faults ((hg _ hq).2 m x after hl hpm hx)
    · cases m with
      | nil =>
        rw [List.append_nil] at hgo
        obtain ⟨h1, hq⟩ := hgo hp
        exact h1.bind_faults ((hg _ hq).2 [] x after hl.symm (Platform.allPlain_nil _) hx)
      | cons y m =>
        obtain ⟨rfl, -⟩ := List.cons.inj hl
        exact (hstop before x m rfl hp hx).bind

/-- A part that makes no access and changes nothing, such as checks that pass, then the rest. -/
theorem Traces.after_checks {c : Cmd Unit} {g : Unit → Cmd Unit} {l : List Access} (hc : ∀ e, P e → Gives c e () e)
    (hg : Traces env P (g ()) l Q) : Traces env P (c >>= g) l Q := fun e he =>
  ⟨fun hp => ⟨(hc e he).bind ((hg e he).1 hp).1, ((hg e he).1 hp).2⟩,
    fun before x after heq hp hx => (hc e he).bind_faults ((hg e he).2 before x after heq hp hx)⟩

/-- A read of a byte whose value is known, then a part that uses it. -/
theorem Traces.read {a : Nat} {v : Byte} {g : Byte → Cmd Unit} {l : List Access} (hv : ∀ e, P e → e.mem.read a = v)
    (hg : Traces env P (g v) l Q) : Traces env P (readByte env a >>= g) (.read a :: l) Q := by
  intro e he
  have hread (hp : env.plat.kindAt a = .plain) : Gives (readByte env a) e v e := hv e he ▸ readByte_gives hp e
  refine ⟨fun hp => ?_, fun before x after heq hp hx => ?_⟩
  · obtain ⟨ha, hp⟩ := Platform.allPlain_cons.1 hp
    obtain ⟨h1, hq⟩ := (hg e he).1 hp
    exact ⟨(hread ha).bind h1, hq⟩
  · cases before with
    | nil =>
      obtain ⟨rfl, rfl⟩ := List.cons.inj heq
      exact (readByte_faults hx e).bind
    | cons y before =>
      obtain ⟨rfl, rfl⟩ := List.cons.inj heq
      obtain ⟨ha, hp⟩ := Platform.allPlain_cons.1 hp
      exact (hread ha).bind_faults ((hg e he).2 before x after rfl hp hx)

theorem Traces.write {a : Nat} {b : Byte}
    (h : env.plat.kindAt a = .plain → ∀ e, P e → Q { e with mem := e.mem.write a b }) :
    Traces env P (writeByte env a b) [.write a b] Q := by
  intro e he
  refine ⟨fun hp => ?_, fun before x after heq hp hx => ?_⟩
  · have ha := (Platform.allPlain_cons.1 hp).1
    exact ⟨writeByte_gives ha b e, h ha e he⟩
  · cases before with
    | nil =>
      obtain ⟨rfl, -⟩ := List.cons.inj heq
      exact writeByte_faults hx b e
    | cons y before => cases before <;> cases (List.cons.inj heq).2

/-- A loop whose pass k makes the accesses l k and takes I k to I (k + 1). -/
theorem Traces.forFrom {body : Nat → Cmd Unit} {l : Nat → List Access} (I : Nat → Engine → Prop) : ∀ n i,
    (∀ k, i ≤ k → k < i + n → Traces env (I k) (body k) (l k) (I (k + 1))) →
    Traces env (I i) (forFrom body i n) ((List.range' i n).flatMap l) (I (i + n))
  | 0, _, _ => Traces.skip
  | n + 1, i, h => by
    have hrest := Traces.forFrom I n (i + 1) fun k h1 h2 => h k (by omega) (by omega)
    rw [show i + 1 + n = i + (n + 1) by omega] at hrest
    exact (h i (le_refl i) (by omega)).bind hrest

theorem Traces.forUpTo {body : Nat → Cmd Unit} {l : Nat → List Access} (I : Nat → Engine → Prop) (n : Nat)
    (h : ∀ k, k < n → Traces env (I k) (body k) (l k) (I (k + 1))) :
    Traces env (I 0) (forUpTo n body) ((List.range n).flatMap l) (I n) := by
  have := Traces.forFrom I n 0 fun k _ h2 => h k (by omega)
  rwa [Nat.zero_add, ← List.range_eq_range'] at this

/-- Without a pace an element is written as its bytes are. -/
theorem Traces.element {a : Nat} {bytes : List Byte} {l : List Access} (h : Traces env P (writeBytes env a bytes) l Q) :
    Traces env P (writeElement env a bytes) l Q := by
  intro e he
  obtain ⟨hgo, hstop⟩ := h e he
  refine ⟨fun hp => ⟨fun n => ?_, (hgo hp).2⟩, fun before x after heq hp hx n => ?_⟩
  · obtain ⟨m, hm⟩ := (hgo hp).1 n
    exact ⟨m, by rw [writeElement, hm]⟩
  · obtain ⟨m, hm⟩ := hstop before x after heq hp hx n
    exact ⟨m, by rw [writeElement, hm]⟩

/-- How a ready block runs a command whose accesses are known: to its end over plain memory (40_control.md R144), and to a BUS_ERROR
at the first byte that does not respond (60_exceptions.md R282). -/
theorem exec_traces (i : Instr) {s : State} {l : List Access} (h : Ready s)
    (ht : Traces s.env (· = launched s.eng) (ruleOf (.command i) s.env) l Q) :
    (s.plat.allPlain l → exec i s = .next (endedNormally i s ((launched s.eng).after l)) ∧ Q ((launched s.eng).after l)) ∧
      endsAtAbsentByte i s l := by
  obtain ⟨hgo, hstop⟩ := ht _ rfl
  exact ⟨fun hp => ⟨exec_gives h (hgo hp).1, (hgo hp).2⟩,
    fun before x after heq hp hx => exec_faults h (hstop before x after heq hp hx)⟩

end Sys2Proof.Machine
end

