-- ==== Sys2Proof/Laws/Convert.lean ====
section
/-! SUPPORT. CONVERT without a pace: its accesses in order, and the memory it leaves over plain memory (44_color_converter.md R240 to R257). -/

namespace Sys2Proof.Machine

theorem firstFailure_none {cs : List (Bool × FaultName × Nat)} : firstFailure cs = none ↔ ∀ x ∈ cs, x.1 = false := by
  induction cs with
  | nil => simp [firstFailure]
  | cons x rest ih =>
    obtain ⟨b, f, info⟩ := x
    cases b <;> simp [firstFailure, ih]

variable {env : Env} {e0 : Engine} {rs : List ByteRange} {m : Memory}

/-- Data whose memory is m, written within rs alone since e0; nothing else has changed. -/
def MemIs (e0 : Engine) (rs : List ByteRange) (m : Memory) (e : Engine) : Prop := e = { e0 with mem := m } ∧ WrittenIn rs e0.mem m

theorem MemIs.mem {e : Engine} (h : MemIs e0 rs m e) : e.mem = m := by rw [h.1]

theorem writeBytes_traces {ρ : ByteRange} (hρ : ρ ∈ rs) : ∀ (bytes : List Byte) (a : Nat) (m : Memory),
    (∀ j, j < bytes.length → ρ.holds (a + j) = true) →
    Traces env (MemIs e0 rs m) (writeBytes env a bytes) (writesFrom a bytes) (MemIs e0 rs (writeAll m a bytes))
  | [], _, _, _ => Traces.skip
  | b :: rest, a, m, h =>
    Traces.bind (Traces.write (Q := MemIs e0 rs (m.write a b)) fun hp e he => ⟨by rw [he.1], he.2.write hρ (h 0 (by simp)) hp b⟩)
      (writeBytes_traces hρ rest (a + 1) _ fun j hj => by
        rw [show a + 1 + j = a + (j + 1) by omega]; exact h (j + 1) (by simpa using hj))

/-- Memory after a pixel's elements have been written (R257). -/
def pixelWritten (env : Env) (ys : SlotIx) (v : Rgb Colour) (r c : Nat) (chs : List Channel) (m : Memory) : Memory :=
  chs.foldl (fun m ch => writeAll m (elementAddress env.params ys ch r c) (channelElement env v ch)) m

theorem writeChannels_traces {ys : SlotIx} {v : Rgb Colour} {r c : Nat} (hr : r < (env.params.slot ys).h.toNat)
    (hc : c < (env.params.slot ys).w.toNat) : ∀ (chs : List Channel) (m : Memory), (∀ ch ∈ chs, ch ∈ env.params.channels) →
    Traces env (MemIs e0 (env.params.channels.map (env.params.channelRange (env.params.slot ys).bytes)) m)
      (writeChannels env v (rotIndex env.params.rot r c (env.params.slot ys).w.toNat (env.params.slot ys).h.toNat *
        env.params.outStride.toNat) chs)
      (chs.flatMap fun ch => writesFrom (elementAddress env.params ys ch r c) (channelElement env v ch))
      (MemIs e0 (env.params.channels.map (env.params.channelRange (env.params.slot ys).bytes)) (pixelWritten env ys v r c chs m))
  | [], _, _ => Traces.skip
  | ch :: rest, m, h => by
    have hch := h ch (by simp)
    refine Traces.bind (Traces.element (writeBytes_traces (List.mem_map_of_mem hch) _ _ m fun j hj => ?_))
      (writeChannels_traces hr hc rest _ fun x hx => h x (by simp [hx]))
    rw [elements_length] at hj
    exact channelRange_holds _ ch (rotIndex_lt hr hc) hj

/-- The checks passed keep the outputs off the sources (R242). -/
theorem MemIs.source {ys c1s c2s : SlotIx} (hv : convertVerdict env.params ys c1s c2s = none) {x : Nat × SlotIx}
    (hx : x ∈ env.params.sources ys c1s c2s) {e : Engine}
    (he : MemIs e0 (env.params.channels.map (env.params.channelRange (env.params.slot ys).bytes)) m e) (hw : e0.mem.wf) {a b : Nat}
    (ha : a < (env.params.slot x.2).w.toNat) (hb : b < (env.params.slot x.2).h.toNat) :
    e.mem.read ((env.params.slot x.2).pixel a b) = e0.mem.read ((env.params.slot x.2).pixel a b) := by
  rw [he.mem]
  refine (he.2 hw).2 _ fun ρ hρ => ?_
  obtain ⟨ch, hch, rfl⟩ := List.mem_map.1 hρ
  rw [convertVerdict, firstFailure_append, Option.or_eq_none_iff] at hv
  have hs : spanMeets env.params ys ch x.2 = false := firstFailure_none.1 hv.2 (spanMeets env.params ys ch x.2, .overlap, 16 * ch.index + x.1)
    (List.mem_flatMap.2 ⟨ch, hch, List.mem_map.2 ⟨x, hx, rfl⟩⟩)
  have hpx := (env.params.slot x.2).range_holds_pixel ha hb
  simp only [spanMeets, Bool.and_eq_false_iff, decide_eq_false_iff_not] at hs
  rw [← channelRange_hi_eq] at hs
  simp only [ByteRange.holds, Bool.and_eq_true, Bool.and_eq_false_iff, decide_eq_true_eq, decide_eq_false_iff_not] at hpx ⊢
  simp only [Desc.range, Desc.bytes] at hpx
  have hlo : (env.params.channelRange (env.params.slot ys).bytes ch).lo = env.params.outBase ch := rfl
  rw [hlo]
  omega

/-- Without MONO every chroma sample lies in its plane (R241). -/
theorem chroma_inside {ys c1s c2s k : SlotIx} (hv : convertVerdict env.params ys c1s c2s = none) (hm : env.params.mono = false)
    (hk : k = c1s ∨ k = c2s) {r c : Nat} (hr : r < (env.params.slot ys).h.toNat) (hc : c < (env.params.slot ys).w.toNat) :
    c >>> env.params.cshift < (env.params.slot k).w.toNat ∧ r >>> env.params.cshift < (env.params.slot k).h.toNat := by
  rw [convertVerdict, firstFailure_append, Option.or_eq_none_iff, firstFailure_append, Option.or_eq_none_iff] at hv
  have hf : chromaFails env.params ys k = false := by
    rcases hk with rfl | rfl
    · exact firstFailure_none.1 hv.1.1 (chromaFails env.params ys k, .geom, k.toNat) (by simp [convertGeometry])
    · exact firstFailure_none.1 hv.1.1 (chromaFails env.params ys k, .geom, k.toNat) (by simp [convertGeometry])
  simp only [chromaFails, hm, Bool.not_false, Bool.true_and, Bool.or_eq_false_iff, decide_eq_false_iff_not] at hf
  have h1 : c >>> env.params.cshift ≤ ((env.params.slot ys).w.toNat - 1) >>> env.params.cshift := by
    rw [Nat.shiftRight_eq_div_pow, Nat.shiftRight_eq_div_pow]; exact Nat.div_le_div_right (by omega)
  have h2 : r >>> env.params.cshift ≤ ((env.params.slot ys).h.toNat - 1) >>> env.params.cshift := by
    rw [Nat.shiftRight_eq_div_pow, Nat.shiftRight_eq_div_pow]; exact Nat.div_le_div_right (by omega)
  omega

/-- One luma pixel: its samples are those of the memory before the command (R245, R260). -/
theorem convertPixel_traces {ys c1s c2s : SlotIx} (hw : e0.mem.wf) (hv : convertVerdict env.params ys c1s c2s = none) {r c : Nat}
    (hr : r < (env.params.slot ys).h.toNat) (hc : c < (env.params.slot ys).w.toNat) (m : Memory) :
    Traces env (MemIs e0 (env.params.channels.map (env.params.channelRange (env.params.slot ys).bytes)) m) (convertPixel env ys c1s c2s r c)
      (sampleReads env.params ys c1s c2s r c ++ env.params.channels.flatMap fun ch =>
        writesFrom (elementAddress env.params ys ch r c) (channelElement env (indexOf env e0.mem ys c1s c2s r c) ch))
      (MemIs e0 (env.params.channels.map (env.params.channelRange (env.params.slot ys).bytes))
        (pixelWritten env ys (indexOf env e0.mem ys c1s c2s r c) r c env.params.channels m)) := by
  have hy : ((0, ys) : Nat × SlotIx) ∈ env.params.sources ys c1s c2s := by unfold Params.sources; split <;> simp
  refine Traces.read (v := e0.mem.read ((env.params.slot ys).pixel c r)) (fun e he => he.source hv hy hw hc hr) ?_
  cases hm : env.params.mono with
  | true =>
    have hidx : indexOf env e0.mem ys c1s c2s r c = pixelIndex env (e0.mem.read ((env.params.slot ys).pixel c r)).toNat none := by
      simp only [indexOf, samplesOf, hm, if_true]; rfl
    rw [readChroma, if_pos hm, pure_bind, hidx]
    exact writeChannels_traces hr hc _ _ fun _ h => h
  | false =>
    have h1 : ((1, c1s) : Nat × SlotIx) ∈ env.params.sources ys c1s c2s := by simp [Params.sources, hm]
    have h2 : ((2, c2s) : Nat × SlotIx) ∈ env.params.sources ys c1s c2s := by simp [Params.sources, hm]
    have i1 := chroma_inside hv hm (.inl rfl) hr hc
    have i2 := chroma_inside hv hm (.inr rfl) hr hc
    have hidx : indexOf env e0.mem ys c1s c2s r c = pixelIndex env (e0.mem.read ((env.params.slot ys).pixel c r)).toNat
        (some ((e0.mem.read ((env.params.slot c1s).pixel (c >>> env.params.cshift) (r >>> env.params.cshift))).toNat,
          (e0.mem.read ((env.params.slot c2s).pixel (c >>> env.params.cshift) (r >>> env.params.cshift))).toNat)) := by
      simp only [indexOf, samplesOf, hm]; rfl
    rw [readChroma, if_neg (by simp [hm]), hidx]
    simp only [bind_assoc, pure_bind]
    exact Traces.read (fun e he => he.source hv h1 hw i1.1 i1.2) <| Traces.read (fun e he => he.source hv h2 hw i2.1 i2.2) <|
      writeChannels_traces hr hc _ _ fun _ h => h

/-- A loop whose pass k makes the accesses l k and turns memory m into f m k. -/
theorem forUpTo_memIs {body : Nat → Cmd Unit} {l : Nat → List Access} {f : Memory → Nat → Memory} (n : Nat) (m : Memory)
    (h : ∀ k, k < n → ∀ m, Traces env (MemIs e0 rs m) (body k) (l k) (MemIs e0 rs (f m k))) :
    Traces env (MemIs e0 rs m) (forUpTo n body) ((List.range n).flatMap l) (MemIs e0 rs ((List.range n).foldl f m)) :=
  Traces.forUpTo (fun k => MemIs e0 rs ((List.range k).foldl f m)) n fun k hk => by
    rw [List.range_succ, List.foldl_append]
    exact h k hk _

/-- A CONVERT makes the accesses of R244 and R257, with every sample taken from the memory before it. -/
theorem convert_traces {ys c1s c2s : SlotIx} (hw : e0.mem.wf) (hv : convertVerdict env.params ys c1s c2s = none) :
    Traces env (· = e0) (convertRule ys c1s c2s env) (convertAccesses env ys c1s c2s e0.mem)
      (MemIs e0 (env.params.channels.map (env.params.channelRange (env.params.slot ys).bytes))
        (convertedMemory env ys c1s c2s e0.mem)) := by
  refine Traces.after_checks (fun _ _ => (convertChecks_verdict (fun _ => True) env ys c1s c2s).gives trivial hv) ?_
  exact Traces.imp (forUpTo_memIs _ e0.mem fun r hr m => forUpTo_memIs _ m fun c hc m => convertPixel_traces hw hv hr hc m)
    fun e he => by subst he; exact ⟨rfl, .refl _ _⟩

theorem writesFrom_plain {plat : Platform} : ∀ (bytes : List Byte) (a : Nat),
    (∀ j, j < bytes.length → plat.kindAt (a + j) = .plain) → plat.allPlain (writesFrom a bytes)
  | [], _, _ => plat.allPlain_nil
  | b :: rest, a, h => Platform.allPlain_cons.2 ⟨h 0 (by simp), writesFrom_plain rest (a + 1) fun j hj => by
      rw [show a + 1 + j = a + (j + 1) by omega]; exact h (j + 1) (by simpa using hj)⟩

/-- Where every byte accessed is plain memory, every access is. -/
theorem convert_plain {ys c1s c2s : SlotIx} (m : Memory) (h : convertPlain env ys c1s c2s) :
    env.plat.allPlain (convertAccesses env ys c1s c2s m) := by
  refine Platform.allPlain_inRows fun c r hc hr => Platform.allPlain_append.2 ⟨?_, fun x hx => ?_⟩
  · obtain ⟨hreads, -⟩ := h r c hr hc
    have hy : ((0, ys) : Nat × SlotIx) ∈ env.params.sources ys c1s c2s := by unfold Params.sources; split <;> simp
    refine Platform.allPlain_cons.2 ⟨by simpa [Access.addr, byteOf] using hreads _ hy, ?_⟩
    cases hm : env.params.mono with
    | true => exact Platform.allPlain_nil _
    | false =>
      have h1 := hreads (1, c1s) (by simp [Params.sources, hm])
      have h2 := hreads (2, c2s) (by simp [Params.sources, hm])
      exact Platform.allPlain_cons.2 ⟨by simpa [Access.addr, byteOf] using h1,
        Platform.allPlain_cons.2 ⟨by simpa [Access.addr, byteOf] using h2, Platform.allPlain_nil _⟩⟩
  · obtain ⟨ch, hch, hx⟩ := List.mem_flatMap.1 hx
    refine writesFrom_plain _ _ (fun j hj => ?_) x hx
    rw [elements_length] at hj
    exact (h r c hr hc).2 ch hch j hj

end Sys2Proof.Machine
end

