-- ==== Sys2Proof/Laws/State.lean ====
section
/-! SUPPORT. What each update of the state leaves in each field, one lemma per field per update, so that no later proof unfolds a
record update. -/

namespace Sys2Proof.Machine

variable (s : State)

/-! ## `launchState` -/

@[simp] theorem launchState_params (w : Word) : (launchState w s).params = s.params := rfl
@[simp] theorem launchState_irqEn (w : Word) : (launchState w s).irqEn = s.irqEn := rfl
@[simp] theorem launchState_busy (w : Word) : (launchState w s).busy = true := rfl
@[simp] theorem launchState_done (w : Word) : (launchState w s).done = false := rfl
@[simp] theorem launchState_fault (w : Word) : (launchState w s).fault = s.fault := rfl
@[simp] theorem launchState_ovr (w : Word) : (launchState w s).ovr = s.ovr := rfl
@[simp] theorem launchState_faultCode (w : Word) : (launchState w s).faultCode = s.faultCode := rfl
@[simp] theorem launchState_faultInfo (w : Word) : (launchState w s).faultInfo = s.faultInfo := rfl
@[simp] theorem launchState_faultAddr (w : Word) : (launchState w s).faultAddr = s.faultAddr := rfl
@[simp] theorem launchState_cur (w : Word) : (launchState w s).cur = w := rfl
@[simp] theorem launchState_eng (w : Word) :
    (launchState w s).eng = { s.eng with
      eosSync := false, symErr := false, bytesIn := 0, seqDone := 0, seqSkip := 0, symErrs := 0, pos := 0, nb := 0 } := rfl
@[simp] theorem launchState_running (w : Word) : (launchState w s).running = s.running := rfl
@[simp] theorem launchState_roms (w : Word) : (launchState w s).roms = s.roms := rfl
@[simp] theorem launchState_plat (w : Word) : (launchState w s).plat = s.plat := rfl
@[simp] theorem launchState_resetLine (w : Word) : (launchState w s).resetLine = s.resetLine := rfl
@[simp] theorem launchState_busRead (w : Word) : (launchState w s).busRead = s.busRead := rfl
@[simp] theorem launchState_resets (w : Word) : (launchState w s).resets = s.resets := rfl
@[simp] theorem launchState_pace (w : Word) : (launchState w s).pace = s.pace := rfl
@[simp] theorem launchState_inbox (w : Word) : (launchState w s).inbox = s.inbox := rfl

/-! ## `completeState` -/

@[simp] theorem completeState_params : (completeState s).params = s.params := rfl
@[simp] theorem completeState_irqEn : (completeState s).irqEn = s.irqEn := rfl
@[simp] theorem completeState_busy : (completeState s).busy = false := rfl
@[simp] theorem completeState_done : (completeState s).done = true := rfl
@[simp] theorem completeState_fault : (completeState s).fault = s.fault := rfl
@[simp] theorem completeState_ovr : (completeState s).ovr = s.ovr := rfl
@[simp] theorem completeState_faultCode : (completeState s).faultCode = s.faultCode := rfl
@[simp] theorem completeState_faultInfo : (completeState s).faultInfo = s.faultInfo := rfl
@[simp] theorem completeState_faultAddr : (completeState s).faultAddr = s.faultAddr := rfl
@[simp] theorem completeState_cur : (completeState s).cur = s.cur := rfl
@[simp] theorem completeState_eng : (completeState s).eng = s.eng := rfl
@[simp] theorem completeState_running : (completeState s).running = none := rfl
@[simp] theorem completeState_roms : (completeState s).roms = s.roms := rfl
@[simp] theorem completeState_plat : (completeState s).plat = s.plat := rfl
@[simp] theorem completeState_resetLine : (completeState s).resetLine = s.resetLine := rfl
@[simp] theorem completeState_busRead : (completeState s).busRead = s.busRead := rfl
@[simp] theorem completeState_resets : (completeState s).resets = s.resets := rfl
@[simp] theorem completeState_pace : (completeState s).pace = s.pace := rfl
@[simp] theorem completeState_inbox : (completeState s).inbox = s.inbox := rfl

/-! ## `ignoreWrite` -/

@[simp] theorem ignoreWrite_params : (ignoreWrite s).params = s.params := rfl
@[simp] theorem ignoreWrite_irqEn : (ignoreWrite s).irqEn = s.irqEn := rfl
@[simp] theorem ignoreWrite_busy : (ignoreWrite s).busy = s.busy := rfl
@[simp] theorem ignoreWrite_done : (ignoreWrite s).done = s.done := rfl
@[simp] theorem ignoreWrite_fault : (ignoreWrite s).fault = s.fault := rfl
@[simp] theorem ignoreWrite_ovr : (ignoreWrite s).ovr = true := rfl
@[simp] theorem ignoreWrite_faultCode : (ignoreWrite s).faultCode = s.faultCode := rfl
@[simp] theorem ignoreWrite_faultInfo : (ignoreWrite s).faultInfo = s.faultInfo := rfl
@[simp] theorem ignoreWrite_faultAddr : (ignoreWrite s).faultAddr = s.faultAddr := rfl
@[simp] theorem ignoreWrite_cur : (ignoreWrite s).cur = s.cur := rfl
@[simp] theorem ignoreWrite_eng : (ignoreWrite s).eng = s.eng := rfl
@[simp] theorem ignoreWrite_running : (ignoreWrite s).running = s.running := rfl
@[simp] theorem ignoreWrite_roms : (ignoreWrite s).roms = s.roms := rfl
@[simp] theorem ignoreWrite_plat : (ignoreWrite s).plat = s.plat := rfl
@[simp] theorem ignoreWrite_resetLine : (ignoreWrite s).resetLine = s.resetLine := rfl
@[simp] theorem ignoreWrite_busRead : (ignoreWrite s).busRead = s.busRead := rfl
@[simp] theorem ignoreWrite_resets : (ignoreWrite s).resets = s.resets := rfl
@[simp] theorem ignoreWrite_pace : (ignoreWrite s).pace = s.pace := rfl
@[simp] theorem ignoreWrite_inbox : (ignoreWrite s).inbox = s.inbox := rfl

/-! ## `faultEntry` -/

@[simp] theorem faultEntry_params (f : FaultName) (info addr : Nat) :
    (faultEntry f info addr s).params = s.params := rfl
@[simp] theorem faultEntry_irqEn (f : FaultName) (info addr : Nat) : (faultEntry f info addr s).irqEn = s.irqEn := rfl
@[simp] theorem faultEntry_busy (f : FaultName) (info addr : Nat) : (faultEntry f info addr s).busy = false := rfl
@[simp] theorem faultEntry_done (f : FaultName) (info addr : Nat) : (faultEntry f info addr s).done = s.done := rfl
@[simp] theorem faultEntry_fault (f : FaultName) (info addr : Nat) : (faultEntry f info addr s).fault = true := rfl
@[simp] theorem faultEntry_ovr (f : FaultName) (info addr : Nat) : (faultEntry f info addr s).ovr = s.ovr := rfl
@[simp] theorem faultEntry_faultCode (f : FaultName) (info addr : Nat) :
    (faultEntry f info addr s).faultCode = f.code := rfl
@[simp] theorem faultEntry_faultInfo (f : FaultName) (info addr : Nat) :
    (faultEntry f info addr s).faultInfo = BitVec.ofNat 32 info := rfl
@[simp] theorem faultEntry_faultAddr (f : FaultName) (info addr : Nat) :
    (faultEntry f info addr s).faultAddr = BitVec.ofNat 32 addr := rfl
@[simp] theorem faultEntry_cur (f : FaultName) (info addr : Nat) : (faultEntry f info addr s).cur = s.cur := rfl
@[simp] theorem faultEntry_eng (f : FaultName) (info addr : Nat) : (faultEntry f info addr s).eng = s.eng := rfl
@[simp] theorem faultEntry_running (f : FaultName) (info addr : Nat) : (faultEntry f info addr s).running = none := rfl
@[simp] theorem faultEntry_roms (f : FaultName) (info addr : Nat) : (faultEntry f info addr s).roms = s.roms := rfl
@[simp] theorem faultEntry_plat (f : FaultName) (info addr : Nat) : (faultEntry f info addr s).plat = s.plat := rfl
@[simp] theorem faultEntry_resetLine (f : FaultName) (info addr : Nat) :
    (faultEntry f info addr s).resetLine = s.resetLine := rfl
@[simp] theorem faultEntry_busRead (f : FaultName) (info addr : Nat) :
    (faultEntry f info addr s).busRead = s.busRead := rfl
@[simp] theorem faultEntry_resets (f : FaultName) (info addr : Nat) :
    (faultEntry f info addr s).resets = s.resets := rfl
@[simp] theorem faultEntry_pace (f : FaultName) (info addr : Nat) : (faultEntry f info addr s).pace = s.pace := rfl
@[simp] theorem faultEntry_inbox (f : FaultName) (info addr : Nat) : (faultEntry f info addr s).inbox = s.inbox := rfl

/-! ## `clearFault` -/

@[simp] theorem clearFault_params : (clearFault s).params = s.params := rfl
@[simp] theorem clearFault_irqEn : (clearFault s).irqEn = s.irqEn := rfl
@[simp] theorem clearFault_busy : (clearFault s).busy = s.busy := rfl
@[simp] theorem clearFault_done : (clearFault s).done = s.done := rfl
@[simp] theorem clearFault_fault : (clearFault s).fault = false := rfl
@[simp] theorem clearFault_ovr : (clearFault s).ovr = s.ovr := rfl
@[simp] theorem clearFault_faultCode : (clearFault s).faultCode = 0 := rfl
@[simp] theorem clearFault_faultInfo : (clearFault s).faultInfo = 0 := rfl
@[simp] theorem clearFault_faultAddr : (clearFault s).faultAddr = 0 := rfl
@[simp] theorem clearFault_cur : (clearFault s).cur = s.cur := rfl
@[simp] theorem clearFault_eng : (clearFault s).eng = s.eng := rfl
@[simp] theorem clearFault_running : (clearFault s).running = s.running := rfl
@[simp] theorem clearFault_roms : (clearFault s).roms = s.roms := rfl
@[simp] theorem clearFault_plat : (clearFault s).plat = s.plat := rfl
@[simp] theorem clearFault_resetLine : (clearFault s).resetLine = s.resetLine := rfl
@[simp] theorem clearFault_busRead : (clearFault s).busRead = s.busRead := rfl
@[simp] theorem clearFault_resets : (clearFault s).resets = s.resets := rfl
@[simp] theorem clearFault_pace : (clearFault s).pace = s.pace := rfl
@[simp] theorem clearFault_inbox : (clearFault s).inbox = s.inbox := rfl

/-! ## `updateBoth` -/

@[simp] theorem updateBoth_params (f : Engine → Engine) : (updateBoth f s).params = s.params := rfl
@[simp] theorem updateBoth_irqEn (f : Engine → Engine) : (updateBoth f s).irqEn = s.irqEn := rfl
@[simp] theorem updateBoth_busy (f : Engine → Engine) : (updateBoth f s).busy = s.busy := rfl
@[simp] theorem updateBoth_done (f : Engine → Engine) : (updateBoth f s).done = s.done := rfl
@[simp] theorem updateBoth_fault (f : Engine → Engine) : (updateBoth f s).fault = s.fault := rfl
@[simp] theorem updateBoth_ovr (f : Engine → Engine) : (updateBoth f s).ovr = s.ovr := rfl
@[simp] theorem updateBoth_faultCode (f : Engine → Engine) : (updateBoth f s).faultCode = s.faultCode := rfl
@[simp] theorem updateBoth_faultInfo (f : Engine → Engine) : (updateBoth f s).faultInfo = s.faultInfo := rfl
@[simp] theorem updateBoth_faultAddr (f : Engine → Engine) : (updateBoth f s).faultAddr = s.faultAddr := rfl
@[simp] theorem updateBoth_cur (f : Engine → Engine) : (updateBoth f s).cur = s.cur := rfl
@[simp] theorem updateBoth_eng (f : Engine → Engine) : (updateBoth f s).eng = f s.eng := rfl
@[simp] theorem updateBoth_running (f : Engine → Engine) :
    (updateBoth f s).running = s.running.map fun c => { c with base := f c.base } := rfl
@[simp] theorem updateBoth_roms (f : Engine → Engine) : (updateBoth f s).roms = s.roms := rfl
@[simp] theorem updateBoth_plat (f : Engine → Engine) : (updateBoth f s).plat = s.plat := rfl
@[simp] theorem updateBoth_resetLine (f : Engine → Engine) : (updateBoth f s).resetLine = s.resetLine := rfl
@[simp] theorem updateBoth_busRead (f : Engine → Engine) : (updateBoth f s).busRead = s.busRead := rfl
@[simp] theorem updateBoth_resets (f : Engine → Engine) : (updateBoth f s).resets = s.resets := rfl
@[simp] theorem updateBoth_pace (f : Engine → Engine) : (updateBoth f s).pace = s.pace := rfl
@[simp] theorem updateBoth_inbox (f : Engine → Engine) : (updateBoth f s).inbox = s.inbox := rfl

/-! ## `resetBlock` -/

@[simp] theorem resetBlock_params : (resetBlock s).params = .reset := rfl
@[simp] theorem resetBlock_irqEn : (resetBlock s).irqEn = false := rfl
@[simp] theorem resetBlock_busy : (resetBlock s).busy = false := rfl
@[simp] theorem resetBlock_done : (resetBlock s).done = false := rfl
@[simp] theorem resetBlock_fault : (resetBlock s).fault = false := rfl
@[simp] theorem resetBlock_ovr : (resetBlock s).ovr = false := rfl
@[simp] theorem resetBlock_faultCode : (resetBlock s).faultCode = 0 := rfl
@[simp] theorem resetBlock_faultInfo : (resetBlock s).faultInfo = 0 := rfl
@[simp] theorem resetBlock_faultAddr : (resetBlock s).faultAddr = 0 := rfl
@[simp] theorem resetBlock_cur : (resetBlock s).cur = 0 := rfl
@[simp] theorem resetBlock_eng :
    (resetBlock s).eng = { Engine.reset with
      mem := s.eng.mem
      tables := ⟨{ s.eng.tables.y with valid := false }, { s.eng.tables.c1 with valid := false },
        { s.eng.tables.c2 with valid := false }⟩ } := rfl
@[simp] theorem resetBlock_running : (resetBlock s).running = none := rfl
@[simp] theorem resetBlock_roms : (resetBlock s).roms = s.roms := rfl
@[simp] theorem resetBlock_plat : (resetBlock s).plat = s.plat := rfl
@[simp] theorem resetBlock_resetLine : (resetBlock s).resetLine = s.resetLine := rfl
@[simp] theorem resetBlock_busRead : (resetBlock s).busRead = s.busRead := rfl
@[simp] theorem resetBlock_resets : (resetBlock s).resets = s.resets + 1 := rfl
@[simp] theorem resetBlock_pace : (resetBlock s).pace = s.pace := rfl
@[simp] theorem resetBlock_inbox : (resetBlock s).inbox = s.inbox := rfl

/-! ## Updates of the engine's data -/

@[simp] theorem updateBoth_idle (f : Engine → Engine) (h : s.running = none) :
    updateBoth f s = { s with eng := f s.eng } := by simp [updateBoth, h]

/-! ## `deliver` -/

theorem deliver_in_reset {s : State} (h : s.resetLine = true) (x : PortItem) : deliver x s = s := by rw [deliver, if_pos h]

theorem deliver_to_block {s : State} (h : s.resetLine = false) (x : PortItem) : deliver x s = updateBoth (Engine.deliver x) s := by
  rw [deliver, if_neg (by simp [h])]

/-- With no EOS outstanding a delivery joins the end of what the port holds (20_memory.md R90). -/
theorem Engine.deliver_joins {e : Engine} (h : e.toDiscard = 0) (x : PortItem) : e.deliver x = { e with port := e.port ++ [x] } := by
  simp [Engine.deliver, h]

/-- While an EOS is outstanding a byte is discarded (assumption log 8). -/
theorem Engine.deliver_byte_discarded {e : Engine} {n : Nat} (h : e.toDiscard = n + 1) (b : Byte) : e.deliver (.byte b) = e := by
  simp [Engine.deliver, h]

/-- The outstanding EOS is discarded too, and no byte after it. -/
theorem Engine.deliver_eos_discarded {e : Engine} {n : Nat} (h : e.toDiscard = n + 1) : e.deliver .eos = { e with toDiscard := n } := by
  simp [Engine.deliver, h]

end Sys2Proof.Machine
end

