-- ==== Sys2Proof/Laws/HostPort.lean ====
section
/-! SUPPORT. The host's actions: none of them faults; which of them a running command's buffers refuse; and what a parameter register
takes of a written word. -/

namespace Sys2Proof.Machine

/-! ## No action of the host is a fault of the machine -/

theorem settle_ne_fault (work : Work) (base : Engine) (s : State) (o : EStateM.Result Stop Run Unit) (f : Fault) :
    settle work base s o ≠ .fault f := by
  rcases o with ⟨u, r⟩ | ⟨e, r⟩
  · nofun
  · cases e <;> nofun

theorem launch_ne_fault (w : Word) (work : Work) (rule : Env → Cmd Unit) (s : State) (f : Fault) : launch w work rule s ≠ .fault f := by
  unfold launch
  split
  · nofun
  · exact settle_ne_fault _ _ _ _ f

theorem commandWrite_ne_fault (w : Word) (s : State) (f : Fault) : commandWrite w s ≠ .fault f := by
  unfold commandWrite
  split
  · rw [exec_rule]; exact launch_ne_fault _ _ _ _ f
  · exact launch_ne_fault _ _ _ _ f

theorem hostWrite_ne_fault (off : BitVec 12) (v : Word) (s : State) (f : Fault) : hostWrite off v s ≠ .fault f := by
  unfold hostWrite
  split
  · nofun
  · exact commandWrite_ne_fault v s f
  · nofun

theorem whenAnswered_ne_fault {off : BitVec 12} {width : Width} {s : State} {answer : Host.Outcome State Fault Refusal} {f : Fault}
    (h : answer ≠ .fault f) : whenAnswered off width s answer ≠ .fault f := by
  unfold whenAnswered
  split
  · nofun
  · split
    · exact h
    · nofun

theorem hostAct_ne_fault (ev : HostEvent) (s : State) (f : Fault) : hostAct ev s ≠ .fault f := by
  cases ev with
  | write off width v => exact whenAnswered_ne_fault (hostWrite_ne_fault off v s f)
  | read off width => exact whenAnswered_ne_fault nofun
  | memWrite a b => rw [hostAct, hostMemWrite]; split <;> nofun
  | memRead a => rw [hostAct, hostMemRead]; split <;> nofun
  | letRun n =>
    rw [hostAct, proceed]
    split
    · nofun
    · exact settle_ne_fault _ _ _ _ f
  | streamByte b => nofun
  | streamEnd => nofun
  | setPace n => nofun
  | assertReset => nofun
  | releaseReset => nofun

/-! ## Buffers (70_reset_and_hazards.md R342) -/

/-- The ranges a host access is held against are the buffers of Safety.lean. -/
theorem commandRanges_any (p : Params) (i : Instr) (a : Nat) :
    (commandRanges p (.command i)).any (·.holds a) = (bufferRanges p i).any (·.holds a) := by
  cases i <;> simp [commandRanges, bufferRanges, readSlots, writtenRanges, Params.sources, Bool.or_comm]
  case convert ys c1s c2s => split <;> simp

theorem inUse_of_outside {s : State} {a : Nat} (h : outsideBuffers s a) : inUse s a = false := by
  unfold inUse
  split
  · next c hc =>
    obtain ⟨work, base, used⟩ := c
    cases work with
    | reject why stream => rfl
    | command i =>
      dsimp only
      rw [commandRanges_any, List.any_eq_false]
      exact fun ρ hρ => by rw [h _ i hc rfl ρ hρ]; decide
  · rfl

theorem inUse_of_inside {s : State} {c : Running} {i : Instr} {a : Nat} {ρ : ByteRange} (hc : s.running = some c) (hi : c.work = .command i)
    (hρ : ρ ∈ bufferRanges s.params i) (h : ρ.holds a = true) : inUse s a = true := by
  rw [inUse, hc]
  dsimp only
  rw [hi, commandRanges_any, List.any_eq_true]
  exact ⟨ρ, hρ, h⟩

/-! ## Parameter registers -/

/-- A field of the ten bits that CONV_CFG keeps is the word's own. -/
theorem field_of_ten_bits (v : Word) (lo n : Nat) (h : lo + n ≤ 10) :
    ((v.extractLsb' 0 10).extractLsb' lo n).toNat = v.toNat / 2 ^ lo % 2 ^ n := by
  rw [show (v.extractLsb' 0 10).extractLsb' lo n = v.extractLsb' lo n from
    BitVec.eq_of_getLsbD_eq fun i hi => by simp [hi]; intro; omega]
  simp [Nat.shiftRight_eq_div_pow]

/-- A write of a parameter register puts the word's bits where the commands read them (10_state.md R40 to R48). -/
theorem writeParam_took (r : Reg) (v : Word) (p : Params) : (writeParam r v p).took v r := by
  cases r <;> simp only [writeParam, Params.took, Params.slot]
  case seqSize => simp
  case colOffset => simp
  case hdrCfg => constructor <;> simp [Nat.shiftRight_eq_div_pow]
  case convCfg =>
    simp only [Params.cspace, Params.fmt, Params.rot, Params.cshift, Params.wbD50, Params.mono, field_of_ten_bits v 0 2 (by decide),
      field_of_ten_bits v 4 2 (by decide), field_of_ten_bits v 6 2 (by decide), field_of_ten_bits v 8 2 (by decide)]
    rw [show v.toNat / 2 ^ 0 % 2 ^ 2 = v.toNat % 4 by omega]
    have hlt : v.toNat % 4 < 4 := Nat.mod_lt _ (by decide)
    generalize v.toNat % 4 = n at *
    refine ⟨?_, ?_, ?_, ?_, by simp, by simp, rfl, rfl, rfl⟩ <;> interval_cases n <;> simp
  case wb i => simp; exact BitVec.eq_of_getLsbD_eq fun i hi => by simp [hi]
  case descBase => simp
  case descSize => simp [Nat.shiftRight_eq_div_pow]; omega

end Sys2Proof.Machine
end

