-- ==== Sys2Proof/Laws/PerInstr.lean ====
section
/-! SUPPORT. What is said of each command on its own: its word is in its row of spec/opcode_table.json. -/

namespace Sys2Proof.Laws

/-- A row of spec/opcode_table.json: the mask of its fixed bits and their values. -/
structure OpcodeRow where
  mask : Word
  fixed : Word

/-- The row of each command, the numbers of the table. -/
def opcodeRow : Instr → OpcodeRow
  | .nop => ⟨0xFFFFFFFF, 0x00000000⟩
  | .loadht _ _ _ => ⟨0xFFFFFE0F, 0x00000001⟩
  | .clear _ => ⟨0xFFFFFF8F, 0x00000002⟩
  | .decodeH24 _ _ _ _ => ⟨0xFFFE001F, 0x00000003⟩
  | .decodeH32 _ _ _ _ => ⟨0xFFFE001F, 0x00000013⟩
  | .upresBl _ _ => ⟨0xFFFFFC0F, 0x00000004⟩
  | .upresAdd _ _ _ => ⟨0xFFFFE00F, 0x00002004⟩
  | .upresNn _ _ => ⟨0xFFFFFC0F, 0x00004004⟩
  | .convert _ _ _ => ⟨0xFFFFE00F, 0x00000005⟩

/-- The fixed bits of a command's word are those of its row. -/
def MatchesTable.Statement (i : Instr) : Prop := encode i &&& (opcodeRow i).mask = (opcodeRow i).fixed

namespace MatchesTable

/-- A field lies outside a mask that has no bit in common with the field's place. -/
theorem placeField_and {len : Nat} (v : BitVec len) (lo : Nat) (mask : Word)
    (h : ∀ i, i < len → mask.getLsbD (lo + i) = false) : placeField v lo &&& mask = 0#32 := by
  apply BitVec.eq_of_getLsbD_eq
  intro k hk
  rw [placeField, BitVec.getLsbD_and, BitVec.getLsbD_shiftLeft, BitVec.getLsbD_setWidth]
  by_cases hlo : k < lo
  · simp [hlo]
  · by_cases hw : k - lo < len
    · have := h (k - lo) hw
      rw [show lo + (k - lo) = k by omega] at this
      simp [this]
    · simp [BitVec.getLsbD_of_ge v (k - lo) (by omega)]

/-- A fixed part and one more field under a mask that leaves the field out. -/
theorem or_field {len : Nat} (w : Word) (v : BitVec len) (lo : Nat) (mask : Word)
    (h : ∀ i, i < len → mask.getLsbD (lo + i) = false) : (w ||| placeField v lo) &&& mask = w &&& mask := by
  have := placeField_and v lo mask h
  apply BitVec.eq_of_getLsbD_eq
  intro k hk
  have hk' := congrArg (·.getLsbD k) this
  simp only [BitVec.getLsbD_and, BitVec.getLsbD_zero] at hk'
  rw [BitVec.getLsbD_and, BitVec.getLsbD_or, BitVec.getLsbD_and, Bool.and_or_distrib_right, hk', Bool.or_false]

theorem nop : Statement .nop := by
  rw [Statement, encode, opcodeRow]
  decide

theorem loadht (nt first : BitVec 2) (ept : Bool) : Statement (.loadht nt first ept) := by
  rw [Statement, encode, opcodeRow, or_field _ _ _ _ (by decide), or_field _ _ _ _ (by decide), or_field _ _ _ _ (by decide)]
  decide

theorem clear (slot : SlotIx) : Statement (.clear slot) := by
  rw [Statement, encode, opcodeRow, or_field _ _ _ _ (by decide)]
  decide

theorem decodeH24 (ys c1s c2s : SlotIx) (pen : BitVec 3) : Statement (.decodeH24 ys c1s c2s pen) := by
  rw [Statement, encode, opcodeRow, or_field _ _ _ _ (by decide), or_field _ _ _ _ (by decide), or_field _ _ _ _ (by decide),
    or_field _ _ _ _ (by decide)]
  decide

theorem decodeH32 (ys c1s c2s : SlotIx) (pen : BitVec 3) : Statement (.decodeH32 ys c1s c2s pen) := by
  rw [Statement, encode, opcodeRow, or_field _ _ _ _ (by decide), or_field _ _ _ _ (by decide), or_field _ _ _ _ (by decide),
    or_field _ _ _ _ (by decide)]
  decide

theorem upresBl (src dst : SlotIx) : Statement (.upresBl src dst) := by
  rw [Statement, encode, opcodeRow, or_field _ _ _ _ (by decide), or_field _ _ _ _ (by decide)]
  decide

theorem upresAdd (src dst dlt : SlotIx) : Statement (.upresAdd src dst dlt) := by
  rw [Statement, encode, opcodeRow, or_field _ _ _ _ (by decide), or_field _ _ _ _ (by decide), or_field _ _ _ _ (by decide)]
  decide

theorem upresNn (src dst : SlotIx) : Statement (.upresNn src dst) := by
  rw [Statement, encode, opcodeRow, or_field _ _ _ _ (by decide), or_field _ _ _ _ (by decide)]
  decide

theorem convert (ys c1s c2s : SlotIx) : Statement (.convert ys c1s c2s) := by
  rw [Statement, encode, opcodeRow, or_field _ _ _ _ (by decide), or_field _ _ _ _ (by decide), or_field _ _ _ _ (by decide)]
  decide

end MatchesTable

end Sys2Proof.Laws
end

