-- ==== Sys2Proof/Laws/Upsample.lean ====
section
/-! SUPPORT. UPRES without a pace: its accesses in order, and what it leaves at each destination pixel over plain memory (43_upsampler.md
R222 to R228). -/

namespace Sys2Proof.Machine

variable {env : Env} {P Q : Engine → Prop}

/-! ## Painting the destination -/

/-- The place of destination pixel (x, y) in the order of writes, for a source of width w (R226). -/
def paintRank (w x y : Nat) : Nat := ((y / 2) * w + x / 2) * 4 + (y % 2 * 2 + x % 2)

/-- The first n destination pixels in that order hold their values, the others and every byte outside what they held in m0. -/
def Painted (d : Desc) (w h : Nat) (val : Nat → Nat → Byte) (m0 : Memory) (n : Nat) (m : Memory) : Prop :=
  m.wf ∧ (∀ x y, x < 2 * w → y < 2 * h → m.read (d.pixel x y) = if paintRank w x y < n then val x y else m0.read (d.pixel x y)) ∧
    ∀ z, d.range.holds z = false → m.read z = m0.read z

theorem paintRank_quarter {w c r : Nat} {q : Quarter} (hq : q ∈ quarters) :
    paintRank w (2 * c + q.dx) (2 * r + q.dy) = (r * w + c) * 4 + (q.dy * 2 + q.dx) := by
  have := quarters_le q hq
  rw [paintRank, show (2 * c + q.dx) / 2 = c by omega, show (2 * r + q.dy) / 2 = r by omega]
  omega

/-- A row and a column are found again in their offset. -/
theorem flat_inj {n a b a' b' : Nat} (ha : a < n) (ha' : a' < n) (h : a + b * n = a' + b' * n) : a = a' ∧ b = b' := by
  have hb : b = b' := by
    have := congrArg (· / n) h
    simpa [Nat.add_mul_div_right _ _ (show 0 < n by omega), Nat.div_eq_of_lt ha, Nat.div_eq_of_lt ha'] using this
  subst hb
  exact ⟨by omega, rfl⟩

theorem paintRank_inj {w x y x' y' : Nat} (hx : x < 2 * w) (hx' : x' < 2 * w) (h : paintRank w x y = paintRank w x' y') :
    x = x' ∧ y = y' := by
  unfold paintRank at h
  have := flat_inj (n := w) (a := x / 2) (b := y / 2) (a' := x' / 2) (b' := y' / 2) (by omega) (by omega) (by omega)
  omega

theorem Painted.start (d : Desc) (w h : Nat) (val : Nat → Nat → Byte) {m0 : Memory} (hw : m0.wf) : Painted d w h val m0 0 m0 :=
  ⟨hw, fun _ _ _ _ => by rw [if_neg (Nat.not_lt_zero _)], fun _ _ => rfl⟩

/-- Writing the next pixel's value. -/
theorem Painted.next {d : Desc} {w h : Nat} {val : Nat → Nat → Byte} {m0 m : Memory} {x y : Nat} (hd : d.w.toNat = 2 * w)
    (hh : d.h.toNat = 2 * h) (hm : Painted d w h val m0 (paintRank w x y) m) (hx : x < 2 * w) (hy : y < 2 * h)
    (ha : d.pixel x y < Config.memSize) : Painted d w h val m0 (paintRank w x y + 1) (m.write (d.pixel x y) (val x y)) := by
  obtain ⟨h1, h2, h3⟩ := hm
  refine ⟨Memory.write_wf h1 ha _, fun x' y' hx' hy' => ?_, fun z hz => ?_⟩
  · rw [Memory.read_write h1.1]
    by_cases he : x = x' ∧ y = y'
    · obtain ⟨rfl, rfl⟩ := he
      rw [if_pos rfl, if_pos (Nat.lt_succ_self _)]
    · have hne : d.pixel x y ≠ d.pixel x' y' := fun hp => by
        simp only [Desc.pixel, hd] at hp
        exact he (flat_inj hx hx' (by omega))
      rw [if_neg hne, h2 x' y' hx' hy']
      have hr : paintRank w x y ≠ paintRank w x' y' := fun hr => he (paintRank_inj hx hx' hr)
      by_cases hlt : paintRank w x' y' < paintRank w x y
      · rw [if_pos hlt, if_pos (by omega)]
      · rw [if_neg hlt, if_neg (by omega)]
  · rw [Memory.read_write h1.1, if_neg fun he => ?_]
    · exact h3 z hz
    · rw [← he, Desc.range_holds_pixel d (by omega) (by omega)] at hz
      cases hz

/-- Once every pixel is painted, each holds its value. -/
theorem Painted.read {d : Desc} {w h : Nat} {val : Nat → Nat → Byte} {m0 m : Memory} (hm : Painted d w h val m0 (h * w * 4) m) {x y : Nat}
    (hx : x < 2 * w) (hy : y < 2 * h) : m.read (d.pixel x y) = val x y := by
  have hle : (y / 2 + 1) * w ≤ h * w := Nat.mul_le_mul_right w (by omega)
  rw [Nat.add_mul] at hle
  rw [hm.2.1 x y hx hy, if_pos (by unfold paintRank; omega)]

/-- Data that an UPRES has left after painting n pixels. -/
def Paints (e0 : Engine) (d : Desc) (w h : Nat) (val : Nat → Nat → Byte) (n : Nat) (e : Engine) : Prop :=
  e = { e0 with mem := e.mem } ∧ Painted d w h val e0.mem n e.mem

/-- Painting a whole source, pixel by pixel, when each pixel paints its four. -/
theorem forPixels_paints {e0 : Engine} {d : Desc} {w h : Nat} {val : Nat → Nat → Byte} {f : Nat → Nat → Cmd Unit}
    {pixel : Nat → Nat → List Access}
    (hf : ∀ c r, c < w → r < h →
      Traces env (Paints e0 d w h val ((r * w + c) * 4)) (f c r) (pixel c r) (Paints e0 d w h val ((r * w + (c + 1)) * 4))) :
    Traces env (Paints e0 d w h val 0) (forPixels w h f)
      ((List.range h).flatMap fun r => (List.range w).flatMap fun c => pixel c r) (Paints e0 d w h val (h * w * 4)) := by
  have hrow : ∀ r, r < h → Traces env (Paints e0 d w h val (r * w * 4)) (forUpTo w fun c => f c r)
      ((List.range w).flatMap fun c => pixel c r) (Paints e0 d w h val ((r + 1) * w * 4)) := fun r hr => by
    have := Traces.forUpTo (fun c => Paints e0 d w h val ((r * w + c) * 4)) w fun c hc => hf c r hc hr
    rw [Nat.add_zero] at this
    rwa [show (r + 1) * w = r * w + w by rw [Nat.add_mul]; omega]
  have := Traces.forUpTo (fun r => Paints e0 d w h val (r * w * 4)) h hrow
  rwa [show 0 * w * 4 = 0 by omega] at this

/-- The four destination pixels of a source pixel, each painted by g with its own accesses. -/
theorem forQuarters_paints {e0 : Engine} {d : Desc} {w h c r : Nat} {val : Nat → Nat → Byte} {g : Quarter → Nat → Nat → Cmd Unit}
    {acc : Nat × Nat → List Access}
    (hg : ∀ q ∈ quarters, Traces env (Paints e0 d w h val (paintRank w (2 * c + q.dx) (2 * r + q.dy)))
      (g q (2 * c + q.dx) (2 * r + q.dy)) (acc (2 * c + q.dx, 2 * r + q.dy))
      (Paints e0 d w h val (paintRank w (2 * c + q.dx) (2 * r + q.dy) + 1))) :
    Traces env (Paints e0 d w h val ((r * w + c) * 4)) (forQuarters g c r quarters) ((fourPixels c r).flatMap acc)
      (Paints e0 d w h val ((r * w + (c + 1)) * 4)) := by
  have h0 := hg ⟨0, 0⟩ (by simp [quarters])
  have h1 := hg ⟨1, 0⟩ (by simp [quarters])
  have h2 := hg ⟨0, 1⟩ (by simp [quarters])
  have h3 := hg ⟨1, 1⟩ (by simp [quarters])
  rw [paintRank_quarter (by simp [quarters])] at h0 h1 h2 h3
  rw [show (r * w + (c + 1)) * 4 = (r * w + c) * 4 + (1 * 2 + 1) + 1 by omega]
  exact h0.bind (h1.bind (h2.bind (h3.bind Traces.skip)))

/-! ## Pixels -/

section Pixels

variable {e0 : Engine} {src dst : SlotIx} {w h n : Nat} {val : Nat → Nat → Byte}

/-- Plain memory at every pixel of a plane. -/
theorem Platform.plainOn.pixel {plat : Platform} {d : Desc} (h : plat.plainOn d.range) {x y : Nat} (hx : x < d.w.toNat)
    (hy : y < d.h.toNat) : plat.kindAt (d.pixel x y) = .plain := by
  have := d.range_holds_pixel hx hy
  simp only [ByteRange.holds, Bool.and_eq_true, decide_eq_true_eq] at this
  exact h _ this.1 this.2

/-- A pixel of a plane that does not meet the destination is not painted over. -/
theorem Paints.source {d s : Desc} (hds : d.range.meets s.range = false) {e : Engine} (he : Paints e0 d w h val n e) {x y : Nat}
    (hx : x < s.w.toNat) (hy : y < s.h.toNat) : e.mem.read (s.pixel x y) = e0.mem.read (s.pixel x y) := by
  refine he.2.2.2 _ ?_
  have := s.range_holds_pixel hx hy
  simp only [ByteRange.holds, ByteRange.meets, Bool.and_eq_true, Bool.and_eq_false_iff, decide_eq_true_eq, decide_eq_false_iff_not] at this hds ⊢
  omega

/-- Painting one destination pixel. -/
theorem writePixel_paints {x y : Nat} {v : Byte} (hw : (env.params.slot dst).w.toNat = 2 * w) (hh : (env.params.slot dst).h.toNat = 2 * h)
    (hx : x < 2 * w) (hy : y < 2 * h) (hv : v = val x y) :
    Traces env (Paints e0 (env.params.slot dst) w h val (paintRank w x y)) (writePixel env dst x y v)
      [.write (byteOf (env.params.slot dst) x y) v] (Paints e0 (env.params.slot dst) w h val (paintRank w x y + 1)) := by
  subst hv
  exact Traces.write fun hk e he => ⟨by rw [he.1], he.2.next hw hh hx hy (Platform.plain_lt hk)⟩

/-- The four taps of source pixel (c, r) in memory m (R222). -/
def tapsOf (m : Memory) (s : Desc) (c r : Nat) : Taps :=
  let c1 := nextClamped c s.w.toNat
  let r1 := nextClamped r s.h.toNat
  ⟨pixelOf m s c r, pixelOf m s c1 r, pixelOf m s c r1, pixelOf m s c1 r1⟩

theorem readTaps_traces {g : Taps → Cmd Unit} {l : List Access} {c r : Nat} {m0 : Memory}
    (hv : ∀ e, P e → ∀ x y, x < (env.params.slot src).w.toNat → y < (env.params.slot src).h.toNat →
      e.mem.read ((env.params.slot src).pixel x y) = m0.read ((env.params.slot src).pixel x y))
    (hc : c < (env.params.slot src).w.toNat) (hr : r < (env.params.slot src).h.toNat)
    (hg : Traces env P (g (tapsOf m0 (env.params.slot src) c r)) l Q) :
    Traces env P (readTaps env src c r >>= g) (tapReads (env.params.slot src) c r ++ l) Q := by
  have hc1 : nextClamped c (env.params.slot src).w.toNat < (env.params.slot src).w.toNat := by unfold nextClamped; omega
  have hr1 : nextClamped r (env.params.slot src).h.toNat < (env.params.slot src).h.toNat := by unfold nextClamped; omega
  rw [readTaps]
  simp only [bind_assoc, pure_bind, readPixel]
  refine Traces.read (fun e he => hv e he _ _ hc hr) ?_
  refine Traces.read (fun e he => hv e he _ _ hc1 hr) ?_
  refine Traces.read (fun e he => hv e he _ _ hc hr1) ?_
  exact Traces.read (fun e he => hv e he _ _ hc1 hr1) hg

/-- R222's table, pixel by pixel. -/
theorem tapsOf_bilinear (m : Memory) (s : Desc) (c r : Nat) {q : Quarter} (hq : q ∈ quarters) :
    (tapsOf m s c r).bilinear q = bilinearAt m s (2 * c + q.dx) (2 * r + q.dy) := by
  have hcr : ∀ a b, b ≤ 1 → (2 * a + b) / 2 = a ∧ (2 * a + b) % 2 = b := fun a b hb => by omega
  have := quarters_le q hq
  simp only [bilinearAt, (hcr c q.dx this.1).1, (hcr c q.dx this.1).2, (hcr r q.dy this.2).1, (hcr r q.dy this.2).2]
  simp only [quarters, List.mem_cons, List.not_mem_nil, or_false] at hq
  rcases hq with rfl | rfl | rfl | rfl <;>
    simp [Taps.bilinear, tapsOf, nextClamped, average2, average4, Nat.shiftRight_eq_div_pow]

/-- The saturating sum as R224 writes it. -/
theorem saturatingAdd_eq (m : Memory) (s dlt : Desc) (x y : Nat) :
    saturatingAdd (bilinearAt m s x y) (m.read (dlt.pixel x y)) = BitVec.ofInt 8 (addedAt m s dlt x y) := by
  have ht : (m.read (dlt.pixel x y)).toInt =
      if pixelOf m dlt x y < 128 then (pixelOf m dlt x y : Int) else (pixelOf m dlt x y : Int) - 256 := by
    rw [BitVec.toInt_eq_toNat_cond]
    change (if 2 * pixelOf m dlt x y < 2 ^ 8 then _ else _) = _
    split <;> split <;> first | rfl | omega
  rw [saturatingAdd, ht]
  rfl

/-- The bilinear value fits a byte (R229). -/
theorem bilinearAt_lt (m : Memory) (s : Desc) (x y : Nat) : bilinearAt m s x y < 256 := by
  have hp (x y : Nat) : pixelOf m s x y < 256 := (m.read _).isLt
  have h1 := hp (x / 2) (y / 2)
  have h2 := hp (min (x / 2 + 1) (s.w.toNat - 1)) (y / 2)
  have h3 := hp (x / 2) (min (y / 2 + 1) (s.h.toNat - 1))
  have h4 := hp (min (x / 2 + 1) (s.w.toNat - 1)) (min (y / 2 + 1) (s.h.toNat - 1))
  simp only [bilinearAt]
  split <;> split <;> omega

/-- The geometry that the checks have found (R220, R221). -/
theorem upres_geometry {p : Params} {src dst : SlotIx} (hv : firstFailure (upresGeometry p src dst) = none) :
    (p.slot dst).w.toNat = 2 * (p.slot src).w.toNat ∧
      (p.slot dst).h.toNat = 2 * (p.slot src).h.toNat := by
  simp only [upresGeometry, firstFailure] at hv
  split at hv
  · cases hv
  · split at hv
    · cases hv
    · next hn =>
      simp only [Bool.or_eq_true, bne_iff_ne, ne_eq, not_or, not_not] at hn
      exact ⟨hn.1.2, hn.2⟩

/-! ## Accesses to plain planes -/

variable {plat : Platform} {s d : Desc} {c r : Nat}

theorem tapReads_plain (h : plat.plainOn s.range) (hc : c < s.w.toNat) (hr : r < s.h.toNat) : plat.allPlain (tapReads s c r) := by
  simp only [tapReads, Platform.allPlain, List.forall_mem_cons]
  exact ⟨h.pixel hc hr, h.pixel (by omega) hr, h.pixel hc (by omega), h.pixel (by omega) (by omega), nofun⟩

/-- The accesses made for the four destination pixels of a source pixel, each pixel's being plain. -/
theorem fourPixels_plain {acc : Nat × Nat → List Access} (hw : d.w.toNat = 2 * s.w.toNat) (hh : d.h.toNat = 2 * s.h.toNat)
    (hc : c < s.w.toNat) (hr : r < s.h.toNat)
    (h : ∀ x y, x < d.w.toNat → y < d.h.toNat → plat.allPlain (acc (x, y))) : plat.allPlain ((fourPixels c r).flatMap acc) := by
  intro x hx
  obtain ⟨q, hq, hx⟩ := List.mem_flatMap.1 hx
  simp only [fourPixels, List.mem_cons, List.not_mem_nil, or_false] at hq
  rcases hq with rfl | rfl | rfl | rfl <;> exact h _ _ (by omega) (by omega) x hx

theorem Platform.plainOn.write (h : plat.plainOn d.range) (v : Nat → Nat → Byte) {x y : Nat} (hx : x < d.w.toNat) (hy : y < d.h.toNat) :
    plat.allPlain [.write (byteOf d x y) (v x y)] := Platform.allPlain_cons.2 ⟨h.pixel hx hy, plat.allPlain_nil⟩

theorem upresBl_plain (m : Memory) (hw : d.w.toNat = 2 * s.w.toNat) (hh : d.h.toNat = 2 * s.h.toNat) (hs : plat.plainOn s.range)
    (hd : plat.plainOn d.range) : plat.allPlain (upresBlAccesses m s d) :=
  Platform.allPlain_inRows fun c r hc hr => Platform.allPlain_append.2 ⟨tapReads_plain hs hc hr, by
    rw [List.map_eq_flatMap]
    exact fourPixels_plain hw hh hc hr fun x y hx hy => hd.write (fun x y => BitVec.ofNat 8 (bilinearAt m s x y)) hx hy⟩

theorem upresAdd_plain (m : Memory) {dlt : Desc} (hw : d.w.toNat = 2 * s.w.toNat) (hh : d.h.toNat = 2 * s.h.toNat)
    (hxw : dlt.w = d.w) (hxh : dlt.h = d.h) (hs : plat.plainOn s.range) (hd : plat.plainOn d.range) (hx : plat.plainOn dlt.range) :
    plat.allPlain (upresAddAccesses m s d dlt) :=
  Platform.allPlain_inRows fun c r hc hr => Platform.allPlain_append.2 ⟨tapReads_plain hs hc hr,
    fourPixels_plain hw hh hc hr fun x y h1 h2 => Platform.allPlain_cons.2 ⟨hx.pixel (by rw [hxw]; exact h1) (by rw [hxh]; exact h2),
      hd.write (fun x y => BitVec.ofInt 8 (addedAt m s dlt x y)) h1 h2⟩⟩

theorem upresNn_plain (m : Memory) (hw : d.w.toNat = 2 * s.w.toNat) (hh : d.h.toNat = 2 * s.h.toNat) (hs : plat.plainOn s.range)
    (hd : plat.plainOn d.range) : plat.allPlain (upresNnAccesses m s d) :=
  Platform.allPlain_inRows fun c r hc hr => Platform.allPlain_cons.2 ⟨hs.pixel hc hr, by
    rw [List.map_eq_flatMap]
    exact fourPixels_plain hw hh hc hr fun x y hx hy => hd.write (fun _ _ => m.read (byteOf s c r)) hx hy⟩

end Pixels

/-! ## The commands -/

/-- UPRES.BL makes the accesses of R223 and R226, and paints the bilinear values of the source as it was. -/
theorem upresBl_traces {env : Env} {src dst : SlotIx} {e0 : Engine} (hw : e0.mem.wf) (hv : upresVerdict env.params src dst = none) :
    Traces env (· = e0) (upresBlRule src dst env)
      (upresBlAccesses e0.mem (env.params.slot src) (env.params.slot dst))
      (Paints e0 (env.params.slot dst) (env.params.slot src).w.toNat
      (env.params.slot src).h.toNat (fun x y => BitVec.ofNat 8 (bilinearAt e0.mem (env.params.slot src) x y))
      ((env.params.slot src).h.toNat * (env.params.slot src).w.toNat * 4)) := by
  rw [upresVerdict, firstFailure_append, Option.or_eq_none_iff] at hv
  obtain ⟨hg, ho⟩ := hv
  obtain ⟨gw, gh⟩ := upres_geometry hg
  refine Traces.after_checks (fun _ _ => (checkUpresSlots_verdict (fun _ => True) env src dst).gives trivial hg) ?_
  refine Traces.after_checks (fun _ _ => (checkUpresOverlap_verdict (fun _ => True) env src dst).gives trivial ho) ?_
  have hdis : (env.params.slot dst).range.meets (env.params.slot src).range = false := by
    rw [range_meets_eq]
    simpa [firstFailure] using ho
  refine Traces.imp (forPixels_paints fun c r hc hr => ?_) (fun e he => by subst he; exact ⟨rfl, .start _ _ _ _ hw⟩)
  refine readTaps_traces (m0 := e0.mem) (fun e he x y hx hy => he.source hdis hx hy) hc hr ?_
  rw [List.map_eq_flatMap]
  refine forQuarters_paints fun q hq => ?_
  have hle := quarters_le q hq
  rw [tapsOf_bilinear _ _ _ _ hq]
  exact writePixel_paints gw gh (by omega) (by omega) rfl

/-- UPRES.NN makes the accesses of R225 and R226, and paints each source pixel four times. -/
theorem upresNn_traces {env : Env} {src dst : SlotIx} {e0 : Engine} (hw : e0.mem.wf) (hv : upresVerdict env.params src dst = none) :
    Traces env (· = e0) (upresNnRule src dst env)
      (upresNnAccesses e0.mem (env.params.slot src) (env.params.slot dst))
      (Paints e0 (env.params.slot dst) (env.params.slot src).w.toNat
      (env.params.slot src).h.toNat (fun x y => e0.mem.read ((env.params.slot src).pixel (x / 2) (y / 2)))
      ((env.params.slot src).h.toNat * (env.params.slot src).w.toNat * 4)) := by
  rw [upresVerdict, firstFailure_append, Option.or_eq_none_iff] at hv
  obtain ⟨hg, ho⟩ := hv
  obtain ⟨gw, gh⟩ := upres_geometry hg
  refine Traces.after_checks (fun _ _ => (checkUpresSlots_verdict (fun _ => True) env src dst).gives trivial hg) ?_
  refine Traces.after_checks (fun _ _ => (checkUpresOverlap_verdict (fun _ => True) env src dst).gives trivial ho) ?_
  have hdis : (env.params.slot dst).range.meets (env.params.slot src).range = false := by
    rw [range_meets_eq]
    simpa [firstFailure] using ho
  refine Traces.imp (forPixels_paints fun c r hc hr => ?_) (fun e he => by subst he; exact ⟨rfl, .start _ _ _ _ hw⟩)
  refine Traces.read (fun e he => he.source hdis hc hr) ?_
  rw [List.map_eq_flatMap]
  refine forQuarters_paints fun q hq => ?_
  have hle := quarters_le q hq
  refine writePixel_paints gw gh (by omega) (by omega) ?_
  rw [show (2 * c + q.dx) / 2 = c by omega, show (2 * r + q.dy) / 2 = r by omega]

/-- A delta byte is read before its destination byte is written, also where the two planes are one (R226, R230). -/
theorem upresAdd_traces {env : Env} {src dst dlt : SlotIx} {e0 : Engine} (hw : e0.mem.wf)
    (hv : upresAddVerdict env.params src dst dlt = none) :
    Traces env (· = e0) (upresAddRule src dst dlt env)
      (upresAddAccesses e0.mem (env.params.slot src) (env.params.slot dst) (env.params.slot dlt))
      (Paints e0 (env.params.slot dst) (env.params.slot src).w.toNat
      (env.params.slot src).h.toNat (fun x y => BitVec.ofInt 8 (addedAt e0.mem (env.params.slot src) (env.params.slot dlt) x y))
      ((env.params.slot src).h.toNat * (env.params.slot src).w.toNat * 4)) := by
  rw [upresAddVerdict, firstFailure_append, Option.or_eq_none_iff] at hv
  obtain ⟨hg, ho⟩ := hv
  obtain ⟨gw, gh⟩ := upres_geometry hg
  have hchecks (e : Engine) := (checkDelta_verdict (fun _ => True) env src dst dlt).gives (e := e) trivial ho
  simp only [upresDelta, firstFailure] at ho
  split at ho
  · cases ho
  next h3 =>
  split at ho
  · cases ho
  next h4 =>
  split at ho
  · cases ho
  next h5 =>
  simp only [Bool.or_eq_true, bne_iff_ne, ne_eq, not_or, not_not] at h3
  obtain ⟨⟨-, hxw⟩, hxh⟩ := h3
  have hdis : (env.params.slot dst).range.meets (env.params.slot src).range = false := by
    rw [range_meets_eq]
    simpa using h4
  have hrule : upresAddRule src dst dlt env = checkUpresSlots env src dst >>= fun _ =>
      (do checkDeltaSlot env dst dlt; checkUpresOverlap env src dst; checkDeltaOverlap env dst dlt) >>= fun _ =>
        forPixels (env.params.slot src).w.toNat (env.params.slot src).h.toNat (addPixel env src dst dlt) := by
    simp only [upresAddRule, bind_assoc]
  rw [hrule]
  refine Traces.after_checks (fun _ _ => (checkUpresSlots_verdict (fun _ => True) env src dst).gives trivial hg) ?_
  refine Traces.after_checks (fun e _ => hchecks e) ?_
  refine Traces.imp (forPixels_paints fun c r hc hr => ?_) (fun e he => by subst he; exact ⟨rfl, .start _ _ _ _ hw⟩)
  refine readTaps_traces (m0 := e0.mem) (fun e he x y hx hy => he.source hdis hx hy) hc hr ?_
  refine forQuarters_paints fun q hq => ?_
  have hle := quarters_le q hq
  have kx : 2 * c + q.dx < (env.params.slot dlt).w.toNat := by rw [hxw]; omega
  have ky : 2 * r + q.dy < (env.params.slot dlt).h.toNat := by rw [hxh]; omega
  refine Traces.read (v := e0.mem.read ((env.params.slot dlt).pixel (2 * c + q.dx) (2 * r + q.dy))) (fun e he => ?_) ?_
  · cases hm : (env.params.slot dlt).meets (env.params.slot dst) with
    | false =>
      refine he.source ?_ kx ky
      rw [range_meets_eq]
      simp only [Desc.meets, Bool.and_eq_false_iff] at hm ⊢
      exact hm.symm
    | true =>
      rw [hm] at h5
      simp only [Bool.true_and, Bool.or_eq_true, bne_iff_ne, ne_eq, not_or, not_not] at h5
      have hpix : (env.params.slot dlt).pixel (2 * c + q.dx) (2 * r + q.dy) = (env.params.slot dst).pixel (2 * c + q.dx) (2 * r + q.dy) := by
        simp only [Desc.pixel, h5.1, hxw]
      rw [hpix, he.2.2.1 _ _ (by omega) (by omega), if_neg (Nat.lt_irrefl _)]
  · rw [tapsOf_bilinear _ _ _ _ hq, saturatingAdd_eq]
    exact writePixel_paints gw gh (by omega) (by omega) rfl

end Sys2Proof.Machine
end

