-- ==== Sys2Proof/Tests/Slice0.lean ====
section
/-! SUPPORT. Tests. Every expected value is the spec's: 95_test_vectors.md where a vector is named (V-..., P...), else worked out by
hand from the rule named. The witnesses show for each statement with hypotheses a state and operands that meet them together. -/

set_option Elab.async false

namespace Sys2Proof.Tests

open Sys2Proof.Machine

/-! ## Helpers -/

/-- The reset state with these plane slots, data memory, and stream. -/
def block (slots : List (SlotIx × Desc)) (mem : Memory) (stream : List Byte) : State :=
  { State.reset with
    params := slots.foldl (fun p x => { p with slots := p.slots.set x.1.toNat x.2 }) Params.reset
    eng := { Engine.reset with mem := mem, port := stream.map .byte ++ [.eos] } }

/-- Numbers read off the next state; none at all for a fault or a refusal. -/
def after (o : Host.Outcome State Machine.Fault Refusal) (f : State → List Nat) : List Nat :=
  match o with
  | .next s => f s
  | _ => []

/-- n bytes of memory from address a. -/
def peek (s : State) (a n : Nat) : List Nat := (List.range n).map fun i => (s.eng.mem.read (a + i)).toNat

/-- STATUS, FAULT_INFO, FAULT_ADDR and BYTES_IN. -/
def report (s : State) : List Nat := [s.statusWord.toNat, s.faultInfo.toNat, s.faultAddr.toNat, s.eng.bytesIn.toNat]

/-- One byte of data memory does not respond. -/
def withHole (a : Nat) (s : State) : State := { s with plat := ⟨[⟨a, 1, .absent⟩], false⟩ }

/-- Table block A's entries (95 section 0), newest first. -/
def codesA : List Code := [⟨0x4000, 2, 0xFF⟩, ⟨0x8000, 1, 0x2A⟩]

/-- Table A in all three slots, and a sequence budget. -/
def withTables (count : Word) (s : State) : State :=
  { s with
    params := { s.params with seqCount := count }
    eng := { s.eng with tables := ⟨⟨codesA, true⟩, ⟨codesA, true⟩, ⟨codesA, true⟩⟩ } }

/-! ## Well-formedness: each check refuses an ill-formed term (R108) -/

theorem test_wellFormed_no_table : (Instr.loadht 0 0 false).loadsATable = false := by decide
theorem test_wellFormed_first_slot : (Instr.loadht 1 3 false).firstSlotExists = false := by decide
theorem test_wellFormed_last_slot : (Instr.loadht 2 2 false).lastSlotExists = false := by decide
theorem test_wellFormed_refuses :
    (Instr.loadht 0 0 false).wellFormed = false ∧ (Instr.loadht 1 3 false).wellFormed = false ∧
      (Instr.loadht 2 2 false).wellFormed = false ∧ (Instr.loadht 3 0 true).wellFormed = true := by decide

/-! ## Decoding: one word of each command, written from the bit tables of R101 to R106 -/

/-- R101: OP = 0, every other bit 0. -/
theorem test_decode_nop : (decode 0b00000000000000000000000000000000).toOption = some .nop := by decide
/-- R102: EPT bit 8 = 1, FIRST bits 7:6 = 1, NT bits 5:4 = 2, OP = 1. -/
theorem test_decode_loadht : (decode 0b00000000000000000000000101100001).toOption = some (.loadht 2 1 true) := by decide
/-- R103: SLOT bits 6:4 = 5, OP = 2. -/
theorem test_decode_clear : (decode 0b00000000000000000000000001010010).toOption = some (.clear 5) := by decide
/-- R104: PEN bits 16:14 = 5, C2S bits 13:11 = 6, C1S bits 10:8 = 3, YS bits 7:5 = 4, HDR = 0, OP = 3. -/
theorem test_decode_decodeH24 :
    (decode 0b00000000000000010111001110000011).toOption = some (.decodeH24 4 3 6 5) := by decide
/-- R104: the same with HDR = 1. -/
theorem test_decode_decodeH32 :
    (decode 0b00000000000000010111001110010011).toOption = some (.decodeH32 4 3 6 5) := by decide
/-- R105: MODE bits 14:13 = 0, DLT bits 12:10 = 0, DST bits 9:7 = 6, SRC bits 6:4 = 3, OP = 4. -/
theorem test_decode_upresBl : (decode 0b00000000000000000000001100110100).toOption = some (.upresBl 3 6) := by decide
/-- R105: MODE = 1, DLT = 5. -/
theorem test_decode_upresAdd : (decode 0b00000000000000000011011100110100).toOption = some (.upresAdd 3 6 5) := by decide
/-- R105: MODE = 2, DLT = 0. -/
theorem test_decode_upresNn : (decode 0b00000000000000000100001100110100).toOption = some (.upresNn 3 6) := by decide
/-- R106: C2S bits 12:10 = 6, C1S bits 9:7 = 4, YS bits 6:4 = 1, OP = 5. -/
theorem test_decode_convert : (decode 0b00000000000000000001101000010101).toOption = some (.convert 1 4 6) := by decide

/-! ## Registers -/

/-- V-RS2. -/
theorem test_wb_reads_sign_extended :
    after (hostAct (.write 0x064 .word 0xFFFF8000) State.reset) (fun s => [(readOffset s 0x064).toNat]) = [0xFFFF8000] := by
  decide +kernel

/-- V-CT5, from the state V-CT3 and V-CT4 leave. -/
theorem test_status_write_clears :
    after (hostAct (.write 0x008 .word 0x14) { State.reset with fault := true, ovr := true, faultCode := 1, faultInfo := 2 })
      report = [0, 0, 0, 0] := by decide +kernel

/-! ## NOP -/

/-- V-CT1. -/
theorem test_nop_completes : after (exec .nop (block [] [] [])) report = [2, 0, 0, 0] := by decide +kernel

/-- V-CT4. -/
theorem test_nop_ignored_after_fault :
    after (exec .nop { State.reset with fault := true, faultCode := 1 }) report = [0x114, 0, 0, 0] := by decide +kernel

/-! ## LOADHT -/

/-- V-LH3: the odd indices 0x4001 to 0x7FFF only. -/
theorem test_loadht_or_rule :
    after (exec (.loadht 1 0 false) (block [] [] [0x00, 0x01, 0x40, 0x01, 0x11]))
      (fun s => [0x4000, 0x4001, 0x4002, 0x7FFF, 0x8001].map fun i => lenAt s.eng.tables.y.codes i) =
      [31, 2, 31, 2, 31] := by decide +kernel

/-- V-LH5. -/
theorem test_loadht_long_code :
    after (exec (.loadht 1 0 false) (block [] [] [0x01, 0x00, 0x80, 0x00, 0x2A, 0x10, 0x40, 0x00, 0xFF])) report =
      [0x604, 1, 5, 9] := by decide +kernel

/-! ## CLEAR -/

/-- V-CL1. -/
theorem test_clear_plane :
    after (exec (.clear 4) (block [(4, ⟨0x1100, 4, 2⟩)] [(0x1100, 0x55), (0x1107, 0x55), (0x1108, 0x55)] []))
      (peek · 0x1100 9) = [0, 0, 0, 0, 0, 0, 0, 0, 0x55] := by decide +kernel

/-- V-CL3, with the plane at 0x55 before. -/
theorem test_clear_bus_error :
    after (exec (.clear 0) (withHole 0x1002 (block [(0, ⟨0x1000, 4, 1⟩)] [(0x1000, 0x55), (0x1001, 0x55), (0x1003, 0x55)] [])))
      (fun s => peek s 0x1000 4 ++ report s) = [0, 0, 0, 0x55, 0x904, 1, 0x1002, 0] := by decide +kernel

/-! ## DECODE -/

/-- V-DC1's block. -/
def vdc1 : State := withTables 1 (block [(0, ⟨0x1000, 4, 2⟩)] [] [0x1F, 0xFF, 0xFC, 0x00, 0x00, 0x41, 0x68])

/-- V-DC1. -/
theorem test_decodeH24_row :
    after (exec (.decodeH24 0 0 0 1) vdc1) (fun s => peek s 0x1000 8 ++ [s.eng.seqDone.toNat, s.eng.bytesIn.toNat, s.eng.pos]) =
      [0, 0, 0, 0, 0x2A, 0xFF, 0x2A, 0xFF, 1, 7, 53] := by decide +kernel

/-- V-DC4. -/
theorem test_decodeH24_recovery :
    after (exec (.decodeH24 0 0 0 1) (withTables 2 (block [(0, ⟨0x1000, 4, 2⟩)] [(0x1000, 0x55), (0x1001, 0x55), (0x1003, 0x55)]
        [0xFF, 0xFF, 0xE0, 0x00, 0x00, 0x08, 0x0F, 0xFF, 0xFE, 0x00, 0x00, 0x20, 0xB4])))
      (fun s => peek s 0x1000 8 ++ [s.statusWord.toNat, s.eng.seqDone.toNat, s.eng.symErrs.toNat, s.eng.bytesIn.toNat]) =
      [0x2A, 0, 0, 0, 0x2A, 0xFF, 0x2A, 0xFF, 0x22, 2, 1, 13] := by decide +kernel

/-- V-DC2. -/
theorem test_decodeH32_offset :
    after (exec (.decodeH32 0 0 0 1)
        (let s := withTables 1 (block [(0, ⟨0x1000, 8, 4⟩)] [] [0xFF, 0xFF, 0xE0, 0x00, 0x00, 0x42, 0x0B, 0x40])
         { s with params := { s.params with seqSize := 4, colOffset := 2 } }))
      (fun s => peek s 0x1015 6 ++ [s.eng.bytesIn.toNat]) = [0, 0x2A, 0xFF, 0x2A, 0xFF, 0, 8] := by decide +kernel

/-- V-DC3. -/
theorem test_decodeH32_chroma :
    after (exec (.decodeH32 0 1 0 2)
        (let s := withTables 1 (block [(1, ⟨0x2000, 4, 4⟩)] [] [0xFF, 0xFF, 0xE0, 0x10, 0x00, 0xC0, 0x0C])
         { s with params := { s.params with seqSize := 2, colOffset := 2 } }))
      (peek · 0x200C 4) = [0, 0x2A, 0x2A, 0] := by decide +kernel

/-! ## UPRES -/

/-- The planes of 95 section 2.6, the destination prefilled with V-UP3's delta rows. -/
def vup : State :=
  block [(0, ⟨0x2000, 2, 2⟩), (1, ⟨0x2100, 4, 4⟩)]
    [(0x2000, 10), (0x2001, 250), (0x2002, 30), (0x2003, 40), (0x2101, 0x05), (0x2102, 0x80), (0x2103, 0x7F), (0x2104, 0x01),
      (0x2105, 0xFF), (0x2108, 0xF6), (0x210A, 0x7F), (0x210B, 0x80), (0x210F, 0xFF)] []

/-- V-UP1. -/
theorem test_upresBl_bilinear :
    after (exec (.upresBl 0 1) vup) (peek · 0x2100 16) =
      [10, 130, 250, 250, 20, 83, 145, 145, 30, 35, 40, 40, 30, 35, 40, 40] := by decide +kernel

/-- V-UP12: the write order and the bus error. -/
theorem test_upresBl_bus_error :
    after (exec (.upresBl 0 1) (withHole 0x2105 (block [(0, ⟨0x2000, 2, 1⟩), (1, ⟨0x2100, 4, 2⟩)] [(0x2000, 5), (0x2001, 9)] [])))
      (fun s => peek s 0x2100 8 ++ report s) = [5, 7, 0, 0, 5, 0, 0, 0, 0x904, 1, 0x2105, 0] := by decide +kernel

/-- V-UP3, in place. -/
theorem test_upresAdd_in_place :
    after (exec (.upresAdd 0 1 1) vup) (peek · 0x2100 16) =
      [10, 135, 122, 255, 21, 82, 145, 145, 20, 35, 167, 0, 30, 35, 40, 39] := by decide +kernel

/-- V-UP9. -/
theorem test_upresAdd_overlap :
    after (exec (.upresAdd 0 1 5) (block [(0, ⟨0x2000, 2, 2⟩), (1, ⟨0x2100, 4, 4⟩), (5, ⟨0x2101, 4, 4⟩)] [] [])) report =
      [0x304, 2, 0, 0] := by decide +kernel

/-- V-UP2. -/
theorem test_upresNn_replicates :
    after (exec (.upresNn 0 1) vup) (peek · 0x2100 16) =
      [10, 10, 250, 250, 10, 10, 250, 250, 30, 30, 40, 40, 30, 30, 40, 40] := by decide +kernel

/-! ## CONVERT -/

/-- Program P3's block, OUT8[k] being its example floor((255k + 694) / 1388), its planes and registers. -/
def vp3 : State :=
  let s := block [(0, ⟨0x4000, 3, 2⟩), (1, ⟨0x4010, 2, 1⟩), (2, ⟨0x4020, 2, 1⟩)]
    [(0x4000, 196), (0x4002, 255), (0x4003, 128), (0x4004, 100), (0x4005, 50), (0x4010, 156), (0x4011, 200), (0x4020, 137),
      (0x4021, 100)] []
  { s with
    params := { s.params with convCfg := 0x140, outR := 0x5000, outG := 0x5001, outB := 0x5002, outA := 0x5003, outStride := 4 }
    roms := { s.roms with out8 := ⟨⟨(List.range 1389).map fun k => BitVec.ofNat 8 ((255 * k + 694) / 1388)⟩, by simp⟩ } }

/-- P3. -/
theorem test_convert_p3 :
    after (exec (.convert 0 1 2) vp3) (peek · 0x5000 24) =
      [0xCD, 0xFF, 0xFF, 0xFF, 0x00, 0x3D, 0x7A, 0xFF, 0x00, 0x00, 0x00, 0xFF, 0x64, 0x64, 0x64, 0xFF, 0xC4, 0xC4, 0xC4, 0xFF,
        0x80, 0x80, 0x80, 0xFF] := by decide +kernel

/-- V-CV5, V-CV8 and V-CV11: division truncated toward zero, and the clamps. -/
theorem test_convert_matrix :
    matrixIndex 0 (some (0, 0)) = ⟨0, 776, 0⟩ ∧ matrixIndex 100 (some (157, 136)) = ⟨536, 546, 553⟩ ∧
      matrixIndex 255 (some (0, 0)) = ⟨389, 1388, 3⟩ := by decide +kernel

/-! ## Witnesses: for each statement with hypotheses, operands and a state that meet them together -/

/-- A state with a command running: a NOP that has made no access yet. -/
def busyState : State :=
  { State.reset with busy := true, running := some ⟨.command .nop, Engine.reset, 0⟩ }

/-- A state with a fault held. -/
def faultState : State := { State.reset with fault := true, faultCode := 1 }

theorem test_witness_ResetRegisters : ((0x054 : BitVec 12), (1 : Word)) ∈ resetMap := by decide +kernel

theorem test_witness_ParameterWriteReadsBack :
    State.reset.resetLine = false ∧ State.reset.busy = false ∧ regAt 0x080 = some (.wb 8) ∧ (Reg.wb 8).isParam = true ∧
      regAt 0x13C = some (.descSize 7) ∧ (Reg.descSize 7).isParam = true := by decide +kernel

theorem test_witness_ReservedBitsAndReadOnlyRegisters :
    regAt 0x034 = some .hdrCfg ∧ Reg.hdrCfg ≠ .cmd ∧
      (0xFFFFFFFF : Word) &&& Reg.hdrCfg.implemented = 0x00003F3F &&& Reg.hdrCfg.implemented ∧
      regAt 0x000 = some .id ∧ Reg.id.isReadOnly = true ∧ State.reset.resetLine = false ∧ State.reset.busy = false := by
  decide +kernel

theorem test_witness_ReservedOffsets :
    State.reset.resetLine = false ∧ regAt 0x05C = none ∧ (0x05C : BitVec 12).toNat % 4 = 0 ∧
      regAt 0x084 = none ∧ regAt 0x140 = none ∧ regAt 0xFFC = none ∧ (0xFFC : BitVec 12).toNat % 4 = 0 := by decide +kernel

theorem test_witness_BusyWritesAreIgnored :
    (busyState.resetLine = false ∧ busyState.busy = true ∧ regAt 0x028 = some .seqCount ∧ Reg.seqCount ≠ .ctrl ∧
      Reg.seqCount ≠ .status) ∧
    after (hostAct (.write 0x028 .word 5) busyState) (fun t => [t.busy.toNat]) = [1] := by decide +kernel

theorem test_witness_CommandIgnoredWhileBusyOrFaulted :
    (busyState.resetLine = false ∧ (busyState.busy = true ∨ busyState.fault = true)) ∧
      faultState.resetLine = false ∧ (faultState.busy = true ∨ faultState.fault = true) := by decide +kernel

theorem test_witness_StatusWriteClears : faultState.resetLine = false := by decide +kernel

theorem test_witness_CtrlWriteSetsIrqEn : busyState.resetLine = false ∧ (0x7FFFFFFF : Word).getLsbD 31 = false := by decide +kernel

theorem test_witness_RegisterReadHasNoEffect : State.reset.resetLine = false ∧ (0xFFC : BitVec 12).toNat % 4 = 0 := by decide +kernel

theorem test_witness_OtherRegisterAccessesRefused :
    State.reset.resetLine = false ∧ (Width.half ≠ .word ∨ (0x008 : BitVec 12).toNat % 4 ≠ 0) ∧
      (Width.word ≠ .word ∨ (0x00A : BitVec 12).toNat % 4 ≠ 0) ∧ { State.reset with resetLine := true }.resetLine = true := by
  decide +kernel

theorem test_witness_InterruptOutput :
    ((0x6 : Word).getLsbD 1 = true ∧ (0x6 : Word).getLsbD 2 = true ∧
      after (hostAct (.write 0x008 .word 0x6) faultState) (fun _ => [1]) = [1]) ∧
    ((0x80000000 : Word).getLsbD 0 = false ∧ after (hostAct (.write 0x004 .word 0x80000000) faultState) (fun _ => [1]) = [1]) ∧
    after (hostAct .assertReset faultState) (fun _ => [1]) = [1] := by decide +kernel

/-- A NOP that ends, and one that is paused before its first access. -/
theorem test_witness_LaunchedCommandRunsOrEnds :
    State.reset.busy = false ∧ State.reset.fault = false ∧
      after (commandWrite 0 State.reset) (fun t => [t.busy.toNat]) = [0] ∧
      after (commandWrite 0 { State.reset with pace := some 0 }) (fun t => [t.busy.toNat]) = [1] := by decide +kernel

theorem test_witness_EncodeDecode : decode 0x1D103 = .ok (.decodeH24 0 1 2 7) := by rfl

theorem reset_ready : Ready State.reset := ⟨rfl, rfl, rfl⟩

/-- One word for each way a word can be illegal, at the ends of the ranges. -/
theorem test_witness_IllegalWordsFault :
    Ready State.reset ∧
      [0x6, 0xF, 0x10, 0x201, 0x82, 0x20003, 0x484, 0x4404, 0x8004, 0x2005, 0x1, 0xD1, 0xA1, 0x6084].map
        (fun w : Nat => illegalWord (BitVec.ofNat 32 w)) =
      [some 0, some 0, some 1, some 1, some 1, some 1, some 1, some 1, some 1, some 1, some 2, some 2, some 2, some 2] :=
  ⟨reset_ready, by decide +kernel⟩

theorem test_witness_LegalWordsDecode :
    [0x0, 0x191, 0x131, 0x72, 0x1FFE3, 0x1FFF3, 0x3F4, 0x3FF4, 0x43F4, 0x1FF5].map (fun w : Nat => illegalWord (BitVec.ofNat 32 w)) =
      [none, none, none, none, none, none, none, none, none, none] := by decide +kernel

theorem test_witness_StepRunsTheDecodedCommand :
    (State.reset.withFetchWord 32 0x84).inbox = .write 0x00C .word 0x84 :: [] ∧ (State.reset.withFetchWord 32 0x84).resetLine = false ∧
      decode 0x84 = .ok (.upresBl 0 1) ∧ decode 0x6 = .error .reservedOp := ⟨rfl, rfl, rfl, rfl⟩

theorem test_witness_NopCompletes :
    Ready State.reset ∧ (0x10 : Word) &&& 0xF = 0 ∧ (0x10 : Word) ≠ 0 := ⟨reset_ready, by decide, by decide⟩

/-- V-CL2's unfit slot, V-CL1's plane, and V-CL3's absent byte, also as the plane's first byte. -/
def vcl : State := block [(3, ⟨0x1000, 0, 2⟩), (4, ⟨0x1100, 4, 2⟩)] [(0x1100, 0x55)] []

theorem test_witness_ClearZeroesThePlane :
    Ready vcl ∧ vcl.eng.mem.wf ∧ (vcl.params.slot 3).unfit = true ∧
      ((vcl.params.slot 4).unfit = false ∧ ∀ j, j < 8 → vcl.plat.kindAt (0x1100 + j) = .plain) ∧
      ((∀ j, j < 7 → (withHole 0x1107 vcl).plat.kindAt (0x1100 + j) = .plain) ∧
        (withHole 0x1107 vcl).plat.kindAt (0x1100 + 7) = .absent) ∧
      (withHole 0x1100 vcl).plat.kindAt 0x1100 = .absent :=
  ⟨⟨rfl, rfl, rfl⟩, by decide +kernel, by decide +kernel, by decide +kernel, by decide +kernel, by decide +kernel⟩

/-- The checks of 95_test_vectors.md: V-LH9, V-CL2, V-DC15, V-DC16, V-DC14, V-UP7, V-UP8, V-UP9, V-CV27, V-CV28, V-CV29 and V-CV30. -/
theorem test_witness_LaunchChecksFault :
    Ready vp3 ∧
    launchVerdict vp3.params vp3.eng.tables (.loadht 0 0 false) = some (.illegalCmd, 2) ∧
    launchVerdict vp3.params vp3.eng.tables (.clear 3) = some (.geom, 3) ∧
    launchVerdict { vp3.params with syncMask := 0 } vp3.eng.tables (.decodeH24 0 0 0 1) = some (.illegalCmd, 4) ∧
    launchVerdict vp3.params vp3.eng.tables (.decodeH24 4 0 0 1) = some (.geom, 4) ∧
    launchVerdict vp3.params vp3.eng.tables (.decodeH32 0 1 0 2) = some (.noTable, 1) ∧
    launchVerdict vp3.params vp3.eng.tables (.upresBl 0 1) = some (.geom, 1) ∧
    launchVerdict (block [(0, ⟨0x2000, 2, 2⟩), (1, ⟨0x2002, 4, 4⟩)] [] []).params vp3.eng.tables (.upresNn 0 1) = some (.overlap, 1) ∧
    launchVerdict (block [(0, ⟨0x2000, 2, 2⟩), (1, ⟨0x2100, 4, 4⟩), (5, ⟨0x2101, 4, 4⟩)] [] []).params vp3.eng.tables
      (.upresAdd 0 1 5) = some (.overlap, 2) ∧
    launchVerdict { vp3.params with convCfg := 0x30 } vp3.eng.tables (.convert 0 1 2) = some (.illegalCmd, 3) ∧
    launchVerdict { vp3.params with outStride := 0 } vp3.eng.tables (.convert 0 1 2) = some (.geom, 12) ∧
    launchVerdict { vp3.params with outR := 0x4000 } vp3.eng.tables (.convert 0 1 2) = some (.overlap, 0) ∧
    launchVerdict { vp3.params with convCfg := 0x040 } vp3.eng.tables (.convert 0 1 2) = some (.geom, 1) :=
  ⟨⟨rfl, rfl, rfl⟩, by decide +kernel⟩

/-- Table block A's entries as they stand in the stream. -/
def rawA : List RawEntry := [⟨0x00, 0x80, 0x00, 0x2A⟩, ⟨0x01, 0x40, 0x00, 0xFF⟩]

/-- V-LH2: table A, a copy table, and an EPT byte; two bytes after it. -/
def vlh2 : State :=
  block [] [] [0x01, 0x00, 0x80, 0x00, 0x2A, 0x01, 0x40, 0x00, 0xFF, 0x00, 0x00, 0x80, 0x00, 0x05, 0xEE, 0x12, 0x34]

theorem test_witness_LoadhtBuildsItsTables :
    Ready vlh2 ∧ (Instr.loadht 2 0 true).wellFormed = true ∧ [rawA, [⟨0x00, 0x80, 0x00, 0x05⟩]].length = (2 : BitVec 2).toNat ∧
      allBuildable 0 [rawA, [⟨0x00, 0x80, 0x00, 0x05⟩]] ∧ ([0xEE] : List Byte).length = (if true then 1 else 0) ∧
      streamBytes vlh2.eng.port = [rawA, [⟨0x00, 0x80, 0x00, 0x05⟩]].flatMap tableBytes ++ [0xEE] ++ [0x12, 0x34] := by
  refine ⟨⟨rfl, rfl, rfl⟩, by decide, by decide, ⟨⟨by decide, by decide, by decide⟩, ⟨by decide, by decide, by decide⟩, trivial⟩,
    by decide, by decide +kernel⟩

/-- The shortest and the longest code. -/
theorem test_witness_TableEntryWritesItsIndices :
    (1 ≤ (⟨0x8000, 1, 0x2A⟩ : Code).len.toNat ∧ (⟨0x8000, 1, 0x2A⟩ : Code).len.toNat ≤ 16 ∧
      ∃ i : BitVec 16, i.toNat ≤ 2 ^ (16 - 1) - 1 ∧ (0xFFFF : BitVec 16) = 0x8000 ||| i) ∧
    (⟨0x1234, 16, 0x99⟩ : Code).len.toNat ≤ 16 ∧
      ¬∃ i : BitVec 16, i.toNat ≤ 2 ^ (16 - 16) - 1 ∧ (0x1235 : BitVec 16) = 0x1234 ||| i := by
  refine ⟨⟨by decide, by decide, 0x7FFF, by decide, by decide⟩, by decide, ?_⟩
  rintro ⟨i, hi, h⟩
  obtain rfl : i = 0 := BitVec.eq_of_toNat_eq (Nat.le_zero.1 (by simpa using hi))
  revert h
  decide

/-- V-LH6's stream cut inside an entry, a stream with no byte, and V-LH7's stream without its EPT byte. -/
theorem test_witness_StreamEndsInTable :
    (Ready (block [] [] [0x01, 0x00, 0x80, 0x00]) ∧ (Instr.loadht 1 0 true).wellFormed = true ∧ allBuildable 0 [] ∧
      streamEnded (block [] [] [0x01, 0x00, 0x80, 0x00]).eng.port = true ∧
      streamBytes (block [] [] [0x01, 0x00, 0x80, 0x00]).eng.port =
        ([] : List (List RawEntry)).flatMap tableBytes ++ [0x01, 0x00, 0x80, 0x00] ∧
      ([] : List (List RawEntry)).length < (1 : BitVec 2).toNat ∧ cutTable 0 [0x01, 0x00, 0x80, 0x00]) ∧
    cutTable 0 [] ∧
    (allBuildable 0 [rawA] ∧ [rawA].length = (1 : BitVec 2).toNat ∧
      streamBytes (block [] [] [0x01, 0x00, 0x80, 0x00, 0x2A, 0x01, 0x40, 0x00, 0xFF]).eng.port =
        [rawA].flatMap tableBytes ++ []) := by
  refine ⟨⟨⟨rfl, rfl, rfl⟩, by decide, trivial, by decide, by decide +kernel, by decide, ?_⟩, .inl rfl,
    ⟨⟨by decide, by decide, by decide⟩, trivial⟩, by decide, by decide +kernel⟩
  exact .inr ⟨0x01, [], [0x00, 0x80, 0x00], by decide, by decide, by decide, by decide⟩

/-- V-LH5's stream. -/
theorem test_witness_LongCodeFaults :
    Ready (block [] [] [0x01, 0x00, 0x80, 0x00, 0x2A, 0x10, 0x40, 0x00, 0xFF]) ∧ (Instr.loadht 1 0 false).wellFormed = true ∧
      allBuildable 0 [] ∧ ([] : List (List RawEntry)).length < (1 : BitVec 2).toNat ∧
      ([⟨0x00, 0x80, 0x00, 0x2A⟩] : List RawEntry).length ≤ (0x01 : Byte).toNat ∧ ¬(1 ≤ 0 ∧ (0x01 : Byte).toNat + 1 < 4) ∧
      (∀ r ∈ ([⟨0x00, 0x80, 0x00, 0x2A⟩] : List RawEntry), r.b0.toNat + 1 ≤ 16) ∧ 16 < (0x10 : Byte).toNat + 1 ∧
      streamBytes (block [] [] [0x01, 0x00, 0x80, 0x00, 0x2A, 0x10, 0x40, 0x00, 0xFF]).eng.port =
        ([] : List (List RawEntry)).flatMap tableBytes ++ ((0x01 : Byte) ::
          (([⟨0x00, 0x80, 0x00, 0x2A⟩] : List RawEntry).flatMap RawEntry.bytes ++
            ((⟨0x10, 0x40, 0x00, 0xFF⟩ : RawEntry).bytes ++ []))) :=
  ⟨⟨rfl, rfl, rfl⟩, by decide, trivial, by decide, by decide, by decide, by decide, by decide, by decide +kernel⟩

/-! ### Legal states, and memory with no region that is not plain -/

theorem reset_engine_wf : Engine.reset.wf :=
  ⟨by decide, nofun, nofun, nofun, fun h => absurd h (by decide)⟩

/-- The block held in reset. -/
def heldInReset : State := { State.reset with resetLine := true }

theorem heldInReset_wf : heldInReset.wf :=
  ⟨⟨rfl, nofun, by decide, fun _ => ⟨rfl, rfl, rfl⟩, nofun, fun _ => rfl⟩, reset_engine_wf, nofun⟩

theorem heldInReset_map : ∀ x ∈ resetMap, readOffset heldInReset x.1 = x.2 := by
  intro x hx
  fin_cases hx <;> rfl

/-- Both kinds of reset of a block with a command running, and a delivery to one held in reset. -/
theorem test_witness_ResetRestoresTheBlock :
    (HostEvent.assertReset = .assertReset) ∧
      (busyState.resetLine = false ∧ ∃ v : Word, v.getLsbD 31 = true ∧ HostEvent.write 0x004 .word 0x80000000 = .write 0x004 .word v) ∧
      heldInReset.wf ∧ heldInReset.resetLine = true ∧ (∀ x ∈ resetMap, readOffset heldInReset x.1 = x.2) ∧ heldInReset.eng.port = [] ∧
      heldInReset.eng.toDiscard = 0 ∧ after (hostAct (.streamByte 0x55) heldInReset) (fun _ => [1]) = [1] :=
  ⟨rfl, ⟨rfl, 0x80000000, by decide, rfl⟩, heldInReset_wf, rfl, heldInReset_map, rfl, rfl, by decide +kernel⟩

theorem faultState_wf : faultState.wf :=
  ⟨⟨rfl, nofun, by decide, nofun, fun _ => by decide, nofun⟩, reset_engine_wf, nofun⟩

theorem busyState_wf : busyState.wf :=
  ⟨⟨rfl, fun _ => ⟨rfl, rfl⟩, by decide, fun _ => ⟨rfl, rfl, rfl⟩, nofun, nofun⟩, reset_engine_wf,
    fun c hc => by cases hc; exact ⟨reset_engine_wf, rfl⟩⟩

theorem kindAt_plain {p : Platform} (hp : p.regions = []) {a : Nat} (ha : a < 2 ^ 32) : p.kindAt a = .plain := by
  rw [Platform.kindAt, if_neg (by rw [Config.memSize]; omega), hp]; rfl

theorem noDevice_of_nil {p : Platform} (hp : p.regions = []) : p.noDevice := fun a => by
  rw [Platform.kindAt, hp]
  split <;> simp

theorem plainOn_of_nil {p : Platform} (hp : p.regions = []) {r : ByteRange} (hr : r.hi ≤ 2 ^ 32) : p.plainOn r :=
  fun _ _ ha => kindAt_plain hp (by omega)

/-! ### LOADHT and DECODE -/

theorem test_witness_TableLengthsAreLegal : busyState.wf := busyState_wf

theorem test_witness_HeaderFields : Params.reset.skip24 = 28 ∧ Params.reset.skip32 = 36 := by decide +kernel

theorem test_witness_DecodeRunsTheSequenceLoop :
    Ready vdc1 ∧ vdc1.eng.mem.wf ∧ vdc1.plat.noDevice ∧ decodeVerdict vdc1.params vdc1.eng.tables ⟨0, 0, 0, 1⟩ = none ∧
      streamEnded vdc1.eng.port = true :=
  ⟨⟨rfl, rfl, rfl⟩, by decide, noDevice_of_nil rfl, by decide +kernel, by decide⟩

theorem test_witness_SequenceLoopHasOneOutcome :
    DecodeEnds State.reset.env State.reset.eng.tables .h24 ⟨0, 0, 0, 1⟩ [] 1 ⟨0, [], 0, 0, 0⟩ none true ⟨0, [], 0, 0, 0⟩ :=
  .endOfStream 0 ⟨0, [], 0, 0, 0⟩ 0 ⟨by decide, by decide +kernel, by omega⟩

theorem test_witness_DecodeWithoutBudget :
    Ready (withTables 0 vdc1) ∧ decodeVerdict (withTables 0 vdc1).params (withTables 0 vdc1).eng.tables ⟨0, 0, 0, 1⟩ = none ∧
      (withTables 0 vdc1).params.seqCount = 0 := ⟨⟨rfl, rfl, rfl⟩, by decide +kernel, rfl⟩

/-- V-DC1's plane and tables with another stream. -/
def decodeState (stream : List Byte) : State := withTables 1 (block [(0, ⟨0x1000, 4, 2⟩)] [] stream)

/-- Ready to decode plane Y of `decodeState`, up to the stream. -/
theorem decodeState_ready (stream : List Byte) :
    Ready (decodeState stream) ∧ (decodeState stream).eng.mem.wf ∧
      decodeVerdict (decodeState stream).params (decodeState stream).eng.tables ⟨0, 0, 0, 1⟩ = none ∧
      (decodeState stream).params.seqCount = 1 ∧ (decodeState stream).params.seqCount ≠ 0 :=
  ⟨⟨rfl, rfl, rfl⟩, ⟨.nil, nofun⟩, by show decodeVerdict (decodeState []).params (decodeState []).eng.tables _ = none; decide +kernel, rfl,
    by show (1 : Word) ≠ 0; decide⟩

/-- 32 zero bits, SYNC_LEN = 20: the search ends at bit 13. A mask with a gap, and those with their lowest 1 bit at the ends. -/
theorem test_witness_DecodeWithoutMarker :
    (streamEnded (decodeState [0, 0, 0, 0]).eng.port = true ∧
      searchEnds (decodeState [0, 0, 0, 0]).params (streamBytes (decodeState [0, 0, 0, 0]).eng.port) 0 13) ∧
    ((0x80000100 : Word).getLsbD 8 = true ∧ ∀ k, k < 8 → (0x80000100 : Word).getLsbD k = false) ∧
    (0x00000001 : Word).getLsbD 0 = true ∧
    (0x80000000 : Word).getLsbD 31 = true ∧ ∀ k, k < 31 → (0x80000000 : Word).getLsbD k = false := by
  refine ⟨⟨by decide, by decide, by decide +kernel, ?_⟩, by decide +kernel⟩
  unfold isMarker
  decide +kernel

/-- V-DC10: the stream ends in the header skip. With a marker of 8 bits it can also end in the first 16 bits. -/
theorem test_witness_HeaderCutFaults :
    (markerFrom Params.reset [0xFF, 0xFF, 0xE0, 0x00] 0 0 ∧ 8 * 4 < payloadAt Params.reset .h24 0) ∧
    (let par := { Params.reset with syncMask := 0xFF000000 }
     markerFrom par [0xFF] 0 0 ∧ 8 * 1 < payloadAt par .h32 0 ∧ 8 * 1 < 0 + 16) := by
  unfold markerFrom isMarker
  decide +kernel

/-- V-DC6's header: plane code 6. -/
theorem test_witness_InvalidPlaneFaults :
    markerFrom Params.reset [0xFF, 0xFF, 0xE1, 0x80, 0x00, 0x00, 0x00] 0 0 ∧
      payloadAt Params.reset .h24 0 ≤ 8 * 7 ∧ (headerAt .h24 [0xFF, 0xFF, 0xE1, 0x80, 0x00, 0x00, 0x00] 0).pc = 6 := by
  unfold markerFrom isMarker
  decide +kernel

/-- V-DC7's first sequence, row 9 of a plane of two rows; and V-DC9's, whose plane C2 is not enabled. -/
theorem test_witness_SequenceIsSkipped :
    (markerFrom Params.reset [0xFF, 0xFF, 0xE0, 0x00, 0x12, 0x0F] 0 0 ∧ payloadAt Params.reset .h24 0 ≤ 8 * 6 ∧
      planeOfCode (headerAt .h24 [0xFF, 0xFF, 0xE0, 0x00, 0x12, 0x0F] 0).pc = some .y ∧
      isSkipped (decodeState []).env .h24 ⟨0, 0, 0, 1⟩ .y (headerAt .h24 [0xFF, 0xFF, 0xE0, 0x00, 0x12, 0x0F] 0)) ∧
    (markerFrom Params.reset [0xFF, 0xFF, 0xE1, 0x00, 0x06, 0x0C] 0 0 ∧ payloadAt Params.reset .h24 0 ≤ 8 * 6 ∧
      planeOfCode (headerAt .h24 [0xFF, 0xFF, 0xE1, 0x00, 0x06, 0x0C] 0).pc = some .c2 ∧
      isSkipped (decodeState []).env .h24 ⟨0, 0, 0, 1⟩ .c2 (headerAt .h24 [0xFF, 0xFF, 0xE1, 0x00, 0x06, 0x0C] 0)) := by
  unfold markerFrom isMarker isSkipped
  decide +kernel

/-- V-DC1: the marker at bit 3, four known symbols of row 1, in a plane of plain memory. -/
theorem test_witness_SequenceIsDecoded :
    Ready vdc1 ∧ vdc1.eng.mem.wf ∧ decodeVerdict vdc1.params vdc1.eng.tables ⟨0, 0, 0, 1⟩ = none ∧ vdc1.params.seqCount = 1 ∧
    streamEnded vdc1.eng.port = true ∧
    (let bs := streamBytes vdc1.eng.port
     let d := vdc1.params.slot 0
     let off := firstOffset vdc1.params .h24 .y d (headerAt .h24 bs 3)
     markerFrom vdc1.params bs 0 3 ∧ payloadAt vdc1.params .h24 3 ≤ 8 * bs.length ∧
      planeOfCode (headerAt .h24 bs 3).pc = some .y ∧ ¬isSkipped vdc1.env .h24 ⟨0, 0, 0, 1⟩ .y (headerAt .h24 bs 3) ∧
      (∀ k, k < symbolCount vdc1.params d → symbolLen codesA bs (payloadAt vdc1.params .h24 3) k ≠ 31) ∧
      symbolPos codesA bs (payloadAt vdc1.params .h24 3) (symbolCount vdc1.params d) ≤ 8 * bs.length ∧
      ∀ k, k < symbolCount vdc1.params d → off + k < d.w.toNat * d.h.toNat →
        vdc1.plat.kindAt (d.base.toNat + (off + k)) = .plain) := by
  refine ⟨⟨rfl, rfl, rfl⟩, by decide, by decide +kernel, rfl, by decide, ?_⟩
  unfold markerFrom isMarker isSkipped
  decide +kernel

/-- A sequence whose second symbol, `00`, is unknown, and one whose first is. -/
theorem test_witness_UnknownSymbolRecovers :
    (let bs : List Byte := [0xFF, 0xFF, 0xE0, 0x00, 0x00, 0x08]
     markerFrom Params.reset bs 0 0 ∧ payloadAt Params.reset .h24 0 ≤ 8 * bs.length ∧ planeOfCode (headerAt .h24 bs 0).pc = some .y ∧
      ¬isSkipped (decodeState bs).env .h24 ⟨0, 0, 0, 1⟩ .y (headerAt .h24 bs 0) ∧
      1 < symbolCount (decodeState bs).params ((decodeState bs).params.slot 0) ∧
      (∀ k, k < 1 → symbolLen codesA bs 44 k ≠ 31) ∧ symbolLen codesA bs 44 1 = 31 ∧ symbolPos codesA bs 44 1 ≤ 8 * bs.length ∧
      ∀ k, k < 4 → (decodeState bs).plat.kindAt (0x1000 + k) = .plain) ∧
    symbolLen codesA [0xFF, 0xFF, 0xE0, 0x00, 0x00, 0x00] 44 0 = 31 := by
  unfold markerFrom isMarker isSkipped
  decide +kernel

/-- Table block B, newest entry first, and V-DC11's stream: its fourth code is cut. -/
def codesB : List Code := [⟨0x4000, 2, 0xFF⟩, ⟨0x0000, 2, 0x11⟩, ⟨0x8000, 1, 0x2A⟩]

theorem test_witness_SymbolCutFaults :
    let bs : List Byte := [0xFF, 0xFF, 0xE0, 0x00, 0x00, 0x0E]
    markerFrom Params.reset bs 0 0 ∧ payloadAt Params.reset .h24 0 ≤ 8 * bs.length ∧ planeOfCode (headerAt .h24 bs 0).pc = some .y ∧
      ¬isSkipped (decodeState bs).env .h24 ⟨0, 0, 0, 1⟩ .y (headerAt .h24 bs 0) ∧
      3 < symbolCount (decodeState bs).params ((decodeState bs).params.slot 0) ∧
      (∀ k, k ≤ 3 → symbolLen codesB bs 44 k ≠ 31) ∧ symbolPos codesB bs 44 3 ≤ 8 * bs.length ∧
      8 * bs.length < symbolPos codesB bs 44 (3 + 1) ∧
      ∀ k, k ≤ 3 → (decodeState bs).plat.kindAt (0x1000 + k) = .plain := by
  unfold markerFrom isMarker isSkipped
  decide +kernel

theorem test_witness_DecodeCounters :
    vdc1.busy = false ∧ vdc1.fault = false ∧ after (exec (decodeInstr .h24 ⟨0, 0, 0, 1⟩) vdc1) (fun _ => [1]) = [1] := by
  decide +kernel

/-! ### UPRES and CONVERT -/

theorem test_witness_Upres :
    Ready vup ∧ vup.eng.mem.wf ∧ upresVerdict vup.params 0 1 = none ∧ upresAddVerdict vup.params 0 1 1 = none ∧
      vup.plat.plainOn (vup.params.slot 0).range ∧ vup.plat.plainOn (vup.params.slot 1).range :=
  ⟨⟨rfl, rfl, rfl⟩, by decide +kernel, by decide +kernel, by decide +kernel, plainOn_of_nil rfl (by decide +kernel),
    plainOn_of_nil rfl (by decide +kernel)⟩

/-- UPRES.ADD with a delta plane apart from the destination. -/
theorem test_witness_UpresAdd_apart :
    upresAddVerdict (block [(0, ⟨0x2000, 2, 2⟩), (1, ⟨0x2100, 4, 4⟩), (5, ⟨0x2110, 4, 4⟩)] [] []).params 0 1 5 = none := by
  decide +kernel

theorem test_witness_ConvertWritesEveryElement :
    Ready vp3 ∧ vp3.eng.mem.wf ∧ convertVerdict vp3.params 0 1 2 = none ∧ convertPlain vp3.env 0 1 2 := by
  refine ⟨⟨rfl, rfl, rfl⟩, by decide +kernel, by decide +kernel, fun r c hr hc => ?_⟩
  replace hr : r < 2 := hr
  replace hc : c < 3 := hc
  refine ⟨fun x hx => kindAt_plain rfl ?_, fun ch hch j hj => kindAt_plain rfl ?_⟩
  · replace hx : x ∈ [((0 : Nat), (0 : SlotIx)), (1, 1), (2, 2)] := hx
    fin_cases hx <;> interval_cases r <;> interval_cases c <;> decide +kernel
  · replace hj : j < 1 := hj
    interval_cases r <;> interval_cases c <;> interval_cases j <;> cases ch <;> decide +kernel

/-- Access n is the first of a command whose byte does not respond: the premises on its accesses, and the access itself. -/
def firstAbsent (s : State) (accesses : List Access) (n : Nat) (x : Access) : Prop :=
  accesses = accesses.take n ++ x :: accesses.drop (n + 1) ∧ s.plat.allPlain (accesses.take n) ∧ s.plat.kindAt x.addr = .absent

/-- V-UP1's and V-UP3's planes with the first source byte, the last destination byte and, for UPRES.ADD, a delta byte absent: the first
access of all, the last of all, and a read between two writes (R226). -/
theorem test_witness_Upres_absent :
    Ready (withHole 0x2000 vup) ∧ (withHole 0x2000 vup).eng.mem.wf ∧ upresVerdict (withHole 0x2000 vup).params 0 1 = none ∧
    firstAbsent (withHole 0x2000 vup) (upresBlAccesses vup.eng.mem ⟨0x2000, 2, 2⟩ ⟨0x2100, 4, 4⟩) 0 (.read 0x2000) ∧
    firstAbsent (withHole 0x210F vup) (upresBlAccesses vup.eng.mem ⟨0x2000, 2, 2⟩ ⟨0x2100, 4, 4⟩) 31 (.write 0x210F 40) ∧
    firstAbsent (withHole 0x2000 vup) (upresNnAccesses vup.eng.mem ⟨0x2000, 2, 2⟩ ⟨0x2100, 4, 4⟩) 0 (.read 0x2000) ∧
    firstAbsent (withHole 0x210F vup) (upresNnAccesses vup.eng.mem ⟨0x2000, 2, 2⟩ ⟨0x2100, 4, 4⟩) 19 (.write 0x210F 40) ∧
    firstAbsent (withHole 0x2101 vup) (upresAddAccesses vup.eng.mem ⟨0x2000, 2, 2⟩ ⟨0x2100, 4, 4⟩ ⟨0x2100, 4, 4⟩) 6 (.read 0x2101) ∧
    firstAbsent (withHole 0x210F vup) (upresAddAccesses vup.eng.mem ⟨0x2000, 2, 2⟩ ⟨0x2100, 4, 4⟩ ⟨0x2200, 4, 4⟩) 47
      (.write 0x210F 40) := by
  refine ⟨⟨rfl, rfl, rfl⟩, by decide +kernel, by decide +kernel, ?_⟩
  unfold firstAbsent Platform.allPlain
  decide +kernel

/-- P3's block with a luma byte, a chroma byte and the alpha byte of its first pixel absent (R244). -/
theorem test_witness_Convert_absent :
    Ready (withHole 0x4000 vp3) ∧ (withHole 0x4000 vp3).eng.mem.wf ∧ convertVerdict (withHole 0x4000 vp3).params 0 1 2 = none ∧
    firstAbsent (withHole 0x4000 vp3) (convertAccesses vp3.env 0 1 2 vp3.eng.mem) 0 (.read 0x4000) ∧
    firstAbsent (withHole 0x4021 vp3) (convertAccesses vp3.env 0 1 2 vp3.eng.mem) 16 (.read 0x4021) ∧
    firstAbsent (withHole 0x5013 vp3) (convertAccesses vp3.env 0 1 2 vp3.eng.mem) 6 (.write 0x5013 0xFF) := by
  refine ⟨⟨rfl, rfl, rfl⟩, by decide +kernel, by decide +kernel, ?_⟩
  unfold firstAbsent Platform.allPlain
  decide +kernel

/-- One pixel, three channels side by side. -/
def onePixel : Params :=
  { Params.reset with
    convCfg := 8
    outR := 0x5000
    outG := 0x5001
    outB := 0x5002
    slots := Params.reset.slots.set 0 ⟨0x4000, 1, 1⟩ }

theorem test_witness_ConvertedElements :
    Memory.wf [] ∧ elementsApart onePixel 0 ∧ isElement onePixel 0 ⟨.b, 0, 0⟩ ∧
      ∃ b, (channelElement ⟨onePixel, ⟨[], false⟩, State.reset.roms, 0⟩ ⟨0, 0, 0⟩ .b)[0]? = some b := by
  refine ⟨by decide, ?_, by unfold isElement; decide +kernel, _, rfl⟩
  rintro ⟨ch, r, c⟩ ⟨ch', r', c'⟩ ⟨hch, hr, hc⟩ ⟨hch', hr', hc'⟩ hne
  obtain rfl : r = 0 := Nat.lt_one_iff.1 hr
  obtain rfl : r' = 0 := Nat.lt_one_iff.1 hr'
  obtain rfl : c = 0 := Nat.lt_one_iff.1 hc
  obtain rfl : c' = 0 := Nat.lt_one_iff.1 hc'
  replace hch : ch ∈ [Channel.r, .g, .b] := hch
  replace hch' : ch' ∈ [Channel.r, .g, .b] := hch'
  fin_cases hch <;> fin_cases hch' <;> first | exact absurd rfl hne | decide +kernel

/-- CONVERT's forms: with and without alpha, with and without chroma, and each element size. -/
theorem test_witness_Convert_forms :
    onePixel.outA = 0 ∧ vp3.params.outA ≠ 0 ∧ onePixel.convCfg.getLsbD 3 = true ∧ vp3.params.convCfg.getLsbD 3 = false ∧
      [0x00, 0x10, 0x20].map (fun c : Nat => (BitVec.ofNat 10 c).toNat / 2 ^ 4 % 4) = [0, 1, 2] := by decide +kernel

theorem test_witness_RotationIsABijection : (3 < 4) ∧ (1 < 2) ∧ (2 < 3) ∧ rotIndex 3 1 2 3 2 = 4 ∧ 5 < 3 * 2 := by decide

/-- CONV_CFG = 0, 1, 2, 3. -/
theorem test_witness_ColourPipelines :
    [0, 1, 2, 3].map (fun c : Nat => Params.cspace { Params.reset with convCfg := BitVec.ofNat 10 c }) =
      [.raw709, .lin709, .srgb, .ycc] := by decide +kernel

/-- CONV_CFG = 0x00, 0x10, 0x20; and the bytes of 0.0, 1.0 and negative zero (R7, R254). -/
theorem test_witness_ElementBytes :
    State.reset.env.plat.outBigEndian = false ∧
      [0x00, 0x10, 0x20].map (fun c : Nat => Params.fmt { Params.reset with convCfg := BitVec.ofNat 10 c }) = [0, 1, 2] ∧
      [0x00, 0x10, 0x20].map (fun c : Nat => Params.elemSize { Params.reset with convCfg := BitVec.ofNat 10 c }) = [1, 2, 4] ∧
      [UnitFloat.nonneg 0, .nonneg 0x3F800000, .negZero].map (fun k => bytes32 (floatPattern k)) =
        [[0, 0, 0, 0], [0, 0, 0x80, 0x3F], [0, 0, 0, 0x80]] := by
  decide +kernel

/-! ### Every command and every step -/

/-- A LOADHT that waits for its first byte. -/
def waiting : State := { State.reset with params := { Params.reset with seqCount := 1 } }

/-- A command that ends, one that is ignored, one that faults, and one that goes on running. -/
theorem test_witness_CommandFrame :
    [exec (.clear 4) vcl, exec .nop faultState, exec (.clear 3) vcl, exec (.loadht 1 0 false) waiting].map
      (fun o => after o fun t => [t.busy.toNat, t.done.toNat, t.fault.toNat]) = [[0, 1, 0], [0, 0, 1], [0, 0, 1], [1, 0, 0]] := by
  decide +kernel

theorem test_witness_EngineFrame :
    vcl.busy = false ∧ vcl.fault = false ∧ takesStream (encode (.clear 4)) = false ∧ after (exec (.clear 4) vcl) (fun _ => [1]) = [1] ∧
      after (exec (.loadht 1 2 false) vdc1) (fun _ => [1]) = [1] ∧ ((1 : Nat) < (2 : BitVec 2).toNat) ∧
      (Instr.decodeH32 1 2 3 7 = decodeInstr .h32 ⟨1, 2, 3, 7⟩) := by decide +kernel

theorem test_witness_CommandsWriteOnlyTheirRanges :
    vcl.eng.mem.wf ∧ after (exec (.clear 4) vcl) (fun _ => [1]) = [1] ∧
      (∀ ρ ∈ writtenRanges vcl.params (.clear 4), ρ.holds 0x10FF = false) ∧
      ∀ ρ ∈ writtenRanges vcl.params (.clear 4), ρ.holds 0x1108 = false := by decide +kernel

/-- A stream that is there before its command; deliveries during reset, to an idle block, to a command that runs, and while an EOS is
outstanding. -/
theorem test_witness_EndedCommandDiscardsItsStream :
    (vdc1.busy = false ∧ vdc1.fault = false ∧ takesStream (encode (.decodeH24 0 0 0 1)) = true ∧ streamEnded vdc1.eng.port = true ∧
      after (exec (.decodeH24 0 0 0 1) vdc1) (fun t => [t.busy.toNat]) = [0]) ∧
    { busyState with resetLine := true }.resetLine = true ∧
    (waiting.resetLine = false ∧ waiting.eng.toDiscard = 0 ∧ waiting.running = none ∧ streamEnded waiting.eng.port = false) ∧
    (busyState.resetLine = false ∧ busyState.eng.toDiscard = 0 ∧ streamEnded busyState.eng.port = false ∧
      busyState.running = some ⟨.command .nop, Engine.reset, 0⟩ ∧ Engine.reset.toDiscard = 0) ∧
    after (exec (.loadht 0 0 false) waiting) (fun t => [t.resetLine.toNat, t.eng.toDiscard]) = [0, 0 + 1] := by decide +kernel

/-- A LOADHT that has been launched and has no byte to take. -/
def starved : State := { waiting with busy := true, running := some ⟨.command (.loadht 1 0 false), Engine.reset, 1⟩ }

theorem starved_wf : starved.wf :=
  ⟨⟨rfl, fun _ => ⟨rfl, rfl⟩, by decide, fun _ => ⟨rfl, rfl, rfl⟩, nofun, nofun⟩, reset_engine_wf,
    fun c hc => by cases hc; exact ⟨reset_engine_wf, rfl⟩⟩

/-- Whether an outcome is a fault. -/
def faults (o : Host.Outcome State Machine.Fault Refusal) : Bool :=
  match o with
  | .fault _ => true
  | _ => false

/-- A command that ends, one that waits, and the fault of a step that can only wait. -/
theorem test_witness_EveryCommandEnds :
    (Ready vdc1 ∧ vdc1.plat.noDevice ∧ (takesStream (encode (.loadht 3 0 true)) = true → streamEnded vdc1.eng.port = true)) ∧
    (Ready waiting ∧ waiting.inbox = [] ∧ after (exec (.loadht 1 0 false) waiting) (fun t => [t.busy.toNat]) = [1]) ∧
    starved.wf ∧ faults (step starved) = true :=
  ⟨⟨⟨rfl, rfl, rfl⟩, noDevice_of_nil rfl, fun _ => by decide⟩, ⟨⟨rfl, rfl, rfl⟩, rfl, by decide +kernel⟩, starved_wf,
    by decide +kernel⟩

/-- V-UP12: the write of a byte that does not respond; and a fault that is no BUS_ERROR. -/
theorem test_witness_BusErrorNamesAnAbsentByte :
    (let s := withHole 0x2105 (block [(0, ⟨0x2000, 2, 1⟩), (1, ⟨0x2100, 4, 2⟩)] [(0x2000, 5), (0x2001, 9)] [])
     s.busy = false ∧ s.fault = false ∧ after (exec (.upresBl 0 1) s) (fun t => [t.fault.toNat, t.faultCode.toNat]) = [1, 9]) ∧
    after (exec (.clear 3) vcl) (fun t => [t.fault.toNat, t.faultCode.toNat]) = [1, 2] := by decide +kernel

theorem test_witness_LateDeliveryDoesNotMatter :
    waiting.busy = false ∧ waiting.fault = false ∧ waiting.resetLine = false ∧ waiting.eng.toDiscard = 0 ∧
      after (exec (.loadht 1 0 false) waiting) (fun t => [t.busy.toNat]) = [1] := by decide +kernel

/-- A CLEAR of V-CL1's plane that runs and has made no access. -/
def clearing : State := { vcl with busy := true, running := some ⟨.command (.clear 4), launched vcl.eng, 0⟩ }

theorem vcl_engine_wf : vcl.eng.wf := ⟨by decide +kernel, nofun, nofun, nofun, fun h => absurd h (by decide)⟩

theorem clearing_wf : clearing.wf :=
  ⟨⟨rfl, fun _ => ⟨rfl, rfl⟩, by decide, fun _ => ⟨rfl, rfl, rfl⟩, nofun, nofun⟩, vcl_engine_wf,
    fun c hc => by cases hc; exact ⟨vcl_engine_wf, rfl⟩⟩

/-- The host writes the last byte of data memory, then launches V-CL1's CLEAR. -/
def placing : State := { vcl with inbox := [.memWrite 0xFFFFFFFF 7, .write 0x00C .word 0x42] }

theorem placing_wf : placing.wf :=
  ⟨⟨rfl, nofun, by decide, fun _ => ⟨rfl, rfl, rfl⟩, nofun, nofun⟩, vcl_engine_wf, nofun⟩

/-- The first and the last byte of a running CLEAR's plane, the bytes just outside it, and a host write before a launch. -/
theorem test_witness_HostMemoryAccesses :
    (∃ ρ ∈ bufferRanges clearing.params (.clear 4), ρ.holds (0x1100 : Word).toNat = true ∧ ρ.holds (0x1107 : Word).toNat = true) ∧
    (outsideBuffers clearing 0x10FF ∧ outsideBuffers clearing 0x1108 ∧ clearing.wf) ∧
    (placing.wf ∧ placing.busy = false ∧ placing.resetLine = false ∧
      placing.inbox = .memWrite 0xFFFFFFFF 7 :: .write 0x00C .word 0x42 :: [] ∧ decode 0x42 = .ok (.clear 4)) ∧
    (vcl.busy = false ∧ vcl.fault = false ∧ after (exec (.clear 4) vcl) (fun t => [t.busy.toNat]) = [0]) := by
  have outside {a : Nat} (h : ∀ ρ ∈ bufferRanges vcl.params (.clear 4), ρ.holds a = false) : outsideBuffers clearing a := by
    intro c i hc hi
    cases hc
    cases hi
    exact h
  exact ⟨by decide +kernel, ⟨outside (by decide +kernel), outside (by decide +kernel), clearing_wf⟩, ⟨placing_wf, rfl, rfl, rfl, rfl⟩,
    by decide +kernel⟩

/-- R88, R342: what the host reads back, and an access it is refused. -/
theorem test_host_memory :
    after (hostAct (.memWrite 0x1108 0xA5) clearing) (fun t => after (hostAct (.memRead 0x1108) t) fun u => [u.busRead.toNat]) = [0xA5] ∧
      after (hostAct (.memRead 0x1107) clearing) (fun _ => [1]) = [] := by decide +kernel

/-- The step that a paused NOP ends with, and one that a fault survives. -/
theorem test_witness_Steps :
    (busyState.wf ∧ after (step busyState) (fun _ => [1]) = [1]) ∧
      faultState.wf ∧ faultState.fault = true ∧ after (step faultState) (fun _ => [1]) = [1] :=
  ⟨⟨busyState_wf, by decide +kernel⟩, faultState_wf, by decide +kernel⟩

end Sys2Proof.Tests
end

section
/-! SUPPORT and PROOFS. The register window: where each register stands, what a host access to it comes to, what a write leaves of the
other registers, and the statements about registers (10_state.md R32 to R50). -/

namespace Sys2Proof.Machine

/-! ## The register map (10_state.md R32) -/

/-- The offset of a register (R32); `regAt_eq_some_iff` ties it to the machine's `regAt`. -/
def Reg.offset : Reg → BitVec 12
  | .id => 0x000
  | .ctrl => 0x004
  | .status => 0x008
  | .cmd => 0x00C
  | .faultInfo => 0x010
  | .faultAddr => 0x014
  | .bytesIn => 0x018
  | .seqDone => 0x01C
  | .seqSkip => 0x020
  | .symErrs => 0x024
  | .seqCount => 0x028
  | .seqSize => 0x02C
  | .colOffset => 0x030
  | .hdrCfg => 0x034
  | .syncPat => 0x038
  | .syncMask => 0x03C
  | .convCfg => 0x040
  | .outR => 0x044
  | .outG => 0x048
  | .outB => 0x04C
  | .outA => 0x050
  | .outStride => 0x054
  | .tblValid => 0x058
  | .wb i => BitVec.ofNat 12 (0x060 + 4 * i.val)
  | .descBase k => BitVec.ofNat 12 (0x100 + 8 * k.toNat)
  | .descSize k => BitVec.ofNat 12 (0x104 + 8 * k.toNat)

@[simp] theorem regAt_offset (r : Reg) : regAt r.offset = some r := by
  cases r with
  | wb i => revert i; decide
  | descBase k => revert k; decide
  | descSize k => revert k; decide
  | _ => rfl

/-- An offset names at most the register that stands there. -/
theorem offset_of_regAt {off : BitVec 12} {r : Reg} (h : regAt off = some r) : off = r.offset := by
  apply BitVec.eq_of_toNat_eq
  unfold regAt at h
  split at h
  case h_24 n =>
    split_ifs at h with h4 hwb hslot h8 <;> cases h
    · have := hwb
      simp only [Reg.offset, BitVec.toNat_ofNat]; omega
    · simp only [Reg.offset, BitVec.toNat_ofNat]; omega
    · simp only [Reg.offset, BitVec.toNat_ofNat]; omega
  all_goals cases h; assumption

theorem regAt_eq_some_iff (off : BitVec 12) (r : Reg) : regAt off = some r ↔ off = r.offset :=
  ⟨offset_of_regAt, fun h => h ▸ regAt_offset r⟩

/-- Registers stand at word offsets. -/
theorem Reg.offset_aligned (r : Reg) : r.offset.toNat % 4 = 0 := by
  cases r with
  | wb i => simp only [Reg.offset, BitVec.toNat_ofNat]; omega
  | descBase k => simp only [Reg.offset, BitVec.toNat_ofNat]; omega
  | descSize k => simp only [Reg.offset, BitVec.toNat_ofNat]; omega
  | _ => rfl

theorem aligned_of_regAt {off : BitVec 12} {r : Reg} (h : regAt off = some r) : off.toNat % 4 = 0 :=
  offset_of_regAt h ▸ r.offset_aligned

theorem readOffset_of_regAt {off : BitVec 12} {r : Reg} (h : regAt off = some r) (s : State) : readOffset s off = readReg s r := by
  rw [readOffset, h]

@[simp] theorem readOffset_offset (s : State) (r : Reg) : readOffset s r.offset = readReg s r := readOffset_of_regAt (regAt_offset r) s

theorem readOffset_reserved {off : BitVec 12} (h : regAt off = none) (s : State) : readOffset s off = 0 := by rw [readOffset, h]

/-- Two states whose registers all read alike. -/
theorem readOffset_congr {s t : State} (h : ∀ r, readReg t r = readReg s r) (off : BitVec 12) : readOffset t off = readOffset s off := by
  unfold readOffset
  split
  · exact h _
  · rfl

/-! ## Host accesses (20_memory.md R81) -/

/-- Out of reset an aligned 32-bit access is answered. -/
theorem whenAnswered_word {s : State} {off : BitVec 12} (hr : s.resetLine = false) (ha : off.toNat % 4 = 0)
    (answer : Host.Outcome State Fault Refusal) : whenAnswered off .word s answer = answer := by
  rw [whenAnswered, hr, if_neg Bool.false_ne_true, if_pos (by simp [accessAllowed, ha])]

/-- While the reset input is asserted no access is (70_reset_and_hazards.md R320). -/
theorem whenAnswered_held {s : State} (hr : s.resetLine = true) (off : BitVec 12) (width : Width)
    (answer : Host.Outcome State Fault Refusal) : whenAnswered off width s answer = .refused .heldInReset := by
  rw [whenAnswered, if_pos hr]

/-- An access that is answered with a next state has the answer of its register. -/
theorem whenAnswered_next {s t : State} {off : BitVec 12} {width : Width} {answer : Host.Outcome State Fault Refusal}
    (h : whenAnswered off width s answer = .next t) : answer = .next t := by
  unfold whenAnswered at h
  split_ifs at h
  exact h

theorem hostAct_read_word {s : State} {off : BitVec 12} (hr : s.resetLine = false) (ha : off.toNat % 4 = 0) :
    hostAct (.read off .word) s = .next { s with busRead := readOffset s off } := whenAnswered_word hr ha _

theorem hostAct_write_word {s : State} {off : BitVec 12} (hr : s.resetLine = false) (ha : off.toNat % 4 = 0) (v : Word) :
    hostAct (.write off .word v) s = hostWrite off v s := whenAnswered_word hr ha _

theorem hostWrite_reserved {off : BitVec 12} (h : regAt off = none) (v : Word) (s : State) : hostWrite off v s = .next s := by
  rw [hostWrite, h]

theorem hostWrite_cmd {off : BitVec 12} (h : regAt off = some .cmd) (v : Word) (s : State) :
    hostWrite off v s = commandWrite v s := by
  rw [hostWrite, h]

theorem hostWrite_of_regAt {off : BitVec 12} {r : Reg} (h : regAt off = some r) (hr : r ≠ .cmd) (v : Word) (s : State) :
    hostWrite off v s = .next (writeReg r v s) := by
  rw [hostWrite, h]
  split
  · contradiction
  · next h' => cases h'; contradiction
  · next h' => cases h'; rfl

/-- A word write to a register other than CMD, out of reset. -/
theorem hostAct_write_reg {s : State} {off : BitVec 12} {r : Reg} (hr : s.resetLine = false) (h : regAt off = some r) (hc : r ≠ .cmd)
    (v : Word) : hostAct (.write off .word v) s = .next (writeReg r v s) := by
  rw [hostAct_write_word hr (aligned_of_regAt h), hostWrite_of_regAt h hc]

/-! ## Register writes (10_state.md R34, R35, R49, R50) -/

theorem writeReg_idle {s : State} {r : Reg} (hb : s.busy = false) (hc : r ≠ .ctrl) (hs : r ≠ .status) (v : Word) :
    writeReg r v s = { s with params := writeParam r v s.params } := by
  unfold writeReg
  split
  · contradiction
  · contradiction
  · exact if_neg (by simp [hb])

theorem writeReg_busy {s : State} {r : Reg} (hb : s.busy = true) (hc : r ≠ .ctrl) (hs : r ≠ .status) (v : Word) :
    writeReg r v s = { s with ovr := true } := by
  unfold writeReg
  split
  · contradiction
  · contradiction
  · exact if_pos hb

theorem writeCtrl_reset {v : Word} (h : v.getLsbD 31 = true) (s : State) : writeCtrl v s = resetBlock s := by rw [writeCtrl, if_pos h]

theorem writeCtrl_irqEn {v : Word} (h : v.getLsbD 31 = false) (s : State) :
    writeCtrl v s = { s with irqEn := v.getLsbD 0 } := by
  rw [writeCtrl, h, if_neg Bool.false_ne_true]

/-- A STATUS write field by field (R35, R37). -/
theorem writeStatus_eq (v : Word) (s : State) :
    writeStatus v s = { s with
      done := s.done && !v.getLsbD 1
      fault := s.fault && !v.getLsbD 2
      ovr := s.ovr && !v.getLsbD 4
      faultCode := if v.getLsbD 2 then 0 else s.faultCode
      faultInfo := if v.getLsbD 2 then 0 else s.faultInfo
      faultAddr := if v.getLsbD 2 then 0 else s.faultAddr } := by
  unfold writeStatus
  cases v.getLsbD 1 <;> cases v.getLsbD 2 <;> cases v.getLsbD 4 <;> simp [clearFault]

/-- A register that is no parameter register takes nothing of a write into the parameters. -/
theorem writeParam_of_not_isParam {r : Reg} (h : r.isParam = false) (v : Word) (p : Params) : writeParam r v p = p := by
  cases r <;> simp_all [Reg.isParam, writeParam]

theorem Reg.isParam_of_isReadOnly {r : Reg} (h : r.isReadOnly = true) : r.isParam = false := by
  cases r <;> simp_all [Reg.isReadOnly, Reg.isParam]

/-! ### What a parameter write leaves of the other registers' fields -/

section OtherFields

variable {r : Reg} (v : Word) (p : Params)

theorem writeParam_seqCount (h : r ≠ .seqCount) : (writeParam r v p).seqCount = p.seqCount := by
  cases r with | seqCount => exact absurd rfl h | _ => rfl
theorem writeParam_seqSize (h : r ≠ .seqSize) : (writeParam r v p).seqSize = p.seqSize := by
  cases r with | seqSize => exact absurd rfl h | _ => rfl
theorem writeParam_colOffset (h : r ≠ .colOffset) : (writeParam r v p).colOffset = p.colOffset := by
  cases r with | colOffset => exact absurd rfl h | _ => rfl
theorem writeParam_skip24 (h : r ≠ .hdrCfg) : (writeParam r v p).skip24 = p.skip24 := by
  cases r with | hdrCfg => exact absurd rfl h | _ => rfl
theorem writeParam_skip32 (h : r ≠ .hdrCfg) : (writeParam r v p).skip32 = p.skip32 := by
  cases r with | hdrCfg => exact absurd rfl h | _ => rfl
theorem writeParam_syncPat (h : r ≠ .syncPat) : (writeParam r v p).syncPat = p.syncPat := by
  cases r with | syncPat => exact absurd rfl h | _ => rfl
theorem writeParam_syncMask (h : r ≠ .syncMask) : (writeParam r v p).syncMask = p.syncMask := by
  cases r with | syncMask => exact absurd rfl h | _ => rfl
theorem writeParam_convCfg (h : r ≠ .convCfg) : (writeParam r v p).convCfg = p.convCfg := by
  cases r with | convCfg => exact absurd rfl h | _ => rfl
theorem writeParam_outR (h : r ≠ .outR) : (writeParam r v p).outR = p.outR := by
  cases r with | outR => exact absurd rfl h | _ => rfl
theorem writeParam_outG (h : r ≠ .outG) : (writeParam r v p).outG = p.outG := by
  cases r with | outG => exact absurd rfl h | _ => rfl
theorem writeParam_outB (h : r ≠ .outB) : (writeParam r v p).outB = p.outB := by
  cases r with | outB => exact absurd rfl h | _ => rfl
theorem writeParam_outA (h : r ≠ .outA) : (writeParam r v p).outA = p.outA := by
  cases r with | outA => exact absurd rfl h | _ => rfl
theorem writeParam_outStride (h : r ≠ .outStride) : (writeParam r v p).outStride = p.outStride := by
  cases r with | outStride => exact absurd rfl h | _ => rfl

theorem writeParam_wb {i : Fin 9} (h : r ≠ .wb i) : (writeParam r v p).wb[i] = p.wb[i] := by
  cases r with
  | wb j => exact Vector.getElem_set_ne j.isLt i.isLt fun hij => h (congrArg Reg.wb (Fin.ext hij))
  | _ => rfl

theorem writeParam_slot_base {k : SlotIx} (h : r ≠ .descBase k) : ((writeParam r v p).slot k).base = (p.slot k).base := by
  cases r with
  | descBase j =>
    have hjk : j.toNat ≠ k.toNat := fun hjk => h (congrArg Reg.descBase (BitVec.eq_of_toNat_eq hjk))
    simp [writeParam, Params.slot, Vector.getElem_set_ne, hjk]
  | descSize j =>
    by_cases hjk : j = k
    · subst hjk; simp [writeParam, Params.slot]
    · simp [writeParam, Params.slot, Vector.getElem_set_ne, mt BitVec.eq_of_toNat_eq hjk]
  | _ => rfl

theorem writeParam_slot_sizeWord {k : SlotIx} (h : r ≠ .descSize k) :
    ((writeParam r v p).slot k).sizeWord = (p.slot k).sizeWord := by
  cases r with
  | descSize j =>
    have hjk : j.toNat ≠ k.toNat := fun hjk => h (congrArg Reg.descSize (BitVec.eq_of_toNat_eq hjk))
    simp [writeParam, Params.slot, Vector.getElem_set_ne, hjk]
  | descBase j =>
    by_cases hjk : j = k
    · subst hjk; simp [writeParam, Params.slot, Desc.sizeWord]
    · simp [writeParam, Params.slot, Vector.getElem_set_ne, mt BitVec.eq_of_toNat_eq hjk]
  | _ => rfl

end OtherFields

/-- A parameter write leaves what every other register reads. -/
theorem readReg_writeParam_other {r r' : Reg} (h : r ≠ r') (v : Word) (s : State) :
    readReg { s with params := writeParam r v s.params } r' = readReg s r' := by
  cases r' with
  | seqCount => exact writeParam_seqCount v _ h
  | seqSize => exact congrArg (BitVec.setWidth 32) (writeParam_seqSize v _ h)
  | colOffset => exact congrArg (BitVec.setWidth 32) (writeParam_colOffset v _ h)
  | hdrCfg => simp only [readReg, Params.hdrCfgWord, writeParam_skip24 v _ h, writeParam_skip32 v _ h]
  | syncPat => exact writeParam_syncPat v _ h
  | syncMask => exact writeParam_syncMask v _ h
  | convCfg => exact congrArg (BitVec.setWidth 32) (writeParam_convCfg v _ h)
  | outR => exact writeParam_outR v _ h
  | outG => exact writeParam_outG v _ h
  | outB => exact writeParam_outB v _ h
  | outA => exact writeParam_outA v _ h
  | outStride => exact writeParam_outStride v _ h
  | wb i => exact congrArg (BitVec.signExtend 32) (writeParam_wb v _ h)
  | descBase k => exact writeParam_slot_base v _ h
  | descSize k => exact writeParam_slot_sizeWord v _ h
  | _ => rfl

/-! ### What a parameter register reads after a write -/

/-- The low n bits of a word, under a mask of them. -/
theorem setWidth_low_field (v mask : Word) (n : Nat) (hm : ∀ i, i < 32 → mask.getLsbD i = decide (i < n)) :
    (v.extractLsb' 0 n).setWidth 32 = v &&& mask := by
  apply BitVec.eq_of_getLsbD_eq
  intro i hi
  rw [BitVec.getLsbD_and, hm i hi]
  simp [hi, Bool.and_comm]

/-- SKIP24 and SKIP32 in their places are HDR_CFG's implemented bits (R42). -/
theorem hdrCfg_fields (v : Word) :
    (v.extractLsb' 0 6).setWidth 32 ||| (v.extractLsb' 8 6).setWidth 32 <<< 8 = v &&& 0x3F3F := by
  have hm : ∀ i, i < 32 → (0x3F3F : Word).getLsbD i = (decide (i < 6) || !decide (i < 8) && decide (i - 8 < 6)) := by decide
  apply BitVec.eq_of_getLsbD_eq
  intro i hi
  rw [BitVec.getLsbD_and, hm i hi]
  by_cases h8 : i < 8
  · simp [hi, h8, Bool.and_comm]
  · simp [hi, h8, show ¬i < 6 by omega, show 8 + (i - 8) = i by omega, Bool.and_comm]

/-- A word's two halves. -/
theorem halves_append (v : Word) : v.extractLsb' 16 16 ++ v.extractLsb' 0 16 = v := by
  rw [BitVec.extractLsb'_append_extractLsb'_eq_extractLsb' (by decide)]
  exact BitVec.extractLsb'_eq_self

/-- A parameter register reads the implemented bits of the word written to it (R49). -/
theorem readReg_writeParam_self {r : Reg} (h : r.isParam = true) (v : Word) (s : State) :
    readReg { s with params := writeParam r v s.params } r = r.kept v := by
  cases r with
  | seqSize => exact setWidth_low_field v 0xFFFF 16 (by decide)
  | colOffset => exact setWidth_low_field v 0xFFFF 16 (by decide)
  | hdrCfg => exact hdrCfg_fields v
  | convCfg => exact setWidth_low_field v 0x3FF 10 (by decide)
  | wb i => simp [readReg, writeParam, Reg.kept, BitVec.setWidth_eq_extractLsb']
  | descBase k => simp [readReg, writeParam, Reg.kept]
  | descSize k => simp [readReg, writeParam, Reg.kept, Desc.sizeWord, halves_append]
  | seqCount => rfl
  | syncPat => rfl
  | syncMask => rfl
  | outR => rfl
  | outG => rfl
  | outB => rfl
  | outA => rfl
  | outStride => rfl
  | _ => cases h

/-! ## Reserved bits (R49) -/

section Masked

variable {v v' m : Word} (h : v &&& m = v' &&& m)
include h

theorem getLsbD_of_masked {i : Nat} (hi : m.getLsbD i = true) : v.getLsbD i = v'.getLsbD i := by
  have := congrArg (·.getLsbD i) h
  simpa [hi] using this

theorem extractLsb'_of_masked {lo len : Nat} (hm : ∀ i, i < len → m.getLsbD (lo + i) = true) :
    v.extractLsb' lo len = v'.extractLsb' lo len := by
  apply BitVec.eq_of_getLsbD_eq
  intro i hi
  simp [hi, getLsbD_of_masked h (hm i hi)]

end Masked

theorem and_not_allOnes (v : Word) : v &&& ~~~(0xFFFFFFFF : Word) = 0 := BitVec.and_zero

theorem eq_of_masked_allOnes {v v' : Word} (h : v &&& 0xFFFFFFFF = v' &&& 0xFFFFFFFF) : v = v' :=
  calc v = v &&& 0xFFFFFFFF := (BitVec.and_allOnes (w := 32)).symm
    _ = v' &&& 0xFFFFFFFF := h
    _ = v' := BitVec.and_allOnes (w := 32)

/-- A parameter write takes nothing of the reserved bits. -/
theorem writeParam_of_masked {r : Reg} {v v' : Word} (h : v &&& r.implemented = v' &&& r.implemented) (p : Params) :
    writeParam r v p = writeParam r v' p := by
  cases r with
  | seqSize => rw [writeParam, writeParam, extractLsb'_of_masked h (lo := 0) (len := 16) (by decide)]
  | colOffset => rw [writeParam, writeParam, extractLsb'_of_masked h (lo := 0) (len := 16) (by decide)]
  | hdrCfg =>
    rw [writeParam, writeParam, extractLsb'_of_masked h (lo := 0) (len := 6) (by decide),
      extractLsb'_of_masked h (lo := 8) (len := 6) (by decide)]
  | convCfg => rw [writeParam, writeParam, extractLsb'_of_masked h (lo := 0) (len := 10) (by decide)]
  | ctrl => rfl
  | status => rfl
  | tblValid => rfl
  | _ => rw [eq_of_masked_allOnes h]

/-- No register write takes anything of the reserved bits. -/
theorem writeReg_of_masked {r : Reg} {v v' : Word} (h : v &&& r.implemented = v' &&& r.implemented) (s : State) :
    writeReg r v s = writeReg r v' s := by
  cases r with
  | ctrl =>
    show writeCtrl v s = writeCtrl v' s
    rw [writeCtrl, writeCtrl, getLsbD_of_masked h (i := 31) (by decide), getLsbD_of_masked h (i := 0) (by decide)]
  | status =>
    show writeStatus v s = writeStatus v' s
    rw [writeStatus_eq, writeStatus_eq, getLsbD_of_masked h (i := 1) (by decide), getLsbD_of_masked h (i := 2) (by decide),
      getLsbD_of_masked h (i := 4) (by decide)]
  | _ => simp only [writeReg, writeParam_of_masked h]

/-- A value's bits under a mask of bits above it. -/
theorem setWidth_and_above {n : Nat} (x : BitVec n) (mask : Word) (h : ∀ i, i < n → mask.getLsbD (0 + i) = false) :
    x.setWidth 32 &&& mask = 0 := by
  simpa [placeField] using Laws.MatchesTable.placeField_and x 0 mask h

open Laws.MatchesTable in
/-- The reserved bits of every register read 0. -/
theorem readReg_reserved_bits (s : State) (r : Reg) : readReg s r &&& ~~~r.implemented = 0 := by
  cases r with
  | ctrl => exact placeField_and (BitVec.ofBool s.irqEn) 0 _ (by decide)
  | status =>
    show (placeField (BitVec.ofBool s.busy) 0 ||| placeField (BitVec.ofBool s.done) 1 ||| placeField (BitVec.ofBool s.fault) 2 |||
      placeField (BitVec.ofBool s.eng.eosSync) 3 ||| placeField (BitVec.ofBool s.ovr) 4 |||
      placeField (BitVec.ofBool s.eng.symErr) 5 ||| placeField s.faultCode 8) &&& _ = 0
    rw [or_field _ _ _ _ (by decide), or_field _ _ _ _ (by decide), or_field _ _ _ _ (by decide), or_field _ _ _ _ (by decide),
      or_field _ _ _ _ (by decide), or_field _ _ _ _ (by decide)]
    exact placeField_and _ _ _ (by decide)
  | tblValid =>
    show (placeField (BitVec.ofBool s.eng.tables.y.valid) 0 ||| placeField (BitVec.ofBool s.eng.tables.c1.valid) 1 |||
      placeField (BitVec.ofBool s.eng.tables.c2.valid) 2) &&& _ = 0
    rw [or_field _ _ _ _ (by decide), or_field _ _ _ _ (by decide)]
    exact placeField_and _ _ _ (by decide)
  | seqSize => exact setWidth_and_above _ _ (by decide)
  | colOffset => exact setWidth_and_above _ _ (by decide)
  | hdrCfg =>
    show (s.params.skip24.setWidth 32 ||| placeField s.params.skip32 8) &&& _ = 0
    rw [or_field _ _ _ _ (by decide)]
    exact setWidth_and_above _ _ (by decide)
  | convCfg => exact setWidth_and_above _ _ (by decide)
  | _ => exact and_not_allOnes _

/-! ## The registers' words bit by bit (R35, R47) -/

theorem flagBit_getLsbD (b : Bool) {k i : Nat} (hi : i < 32) : (flagBit b k).getLsbD i = (b && decide (i = k)) := by
  rw [flagBit, BitVec.getLsbD_shiftLeft, BitVec.getLsbD_setWidth, BitVec.getLsbD_ofBool]
  rcases Nat.lt_trichotomy i k with h | h | h
  · simp [h, Nat.ne_of_lt h]
  · subst h; simp [hi]
  · simp [Nat.not_lt.2 h.le, Nat.ne_of_gt h, show i - k ≠ 0 by omega]

theorem statusWord_getLsbD (s : State) {i : Nat} (hi : i < 32) :
    s.statusWord.getLsbD i = (s.busy && decide (i = 0) || s.done && decide (i = 1) || s.fault && decide (i = 2) ||
      s.eng.eosSync && decide (i = 3) || s.ovr && decide (i = 4) || s.eng.symErr && decide (i = 5) ||
      !decide (i < 8) && s.faultCode.getLsbD (i - 8)) := by
  simp only [State.statusWord, BitVec.getLsbD_or, flagBit_getLsbD _ hi, BitVec.getLsbD_shiftLeft, BitVec.getLsbD_setWidth]
  simp [hi, show i - 8 < 32 by omega]

/-- Above the flags STATUS holds FAULT_CODE alone (R35). -/
theorem statusWord_getLsbD_high (s : State) {i : Nat} (h6 : 6 ≤ i) (hi : i < 32) :
    s.statusWord.getLsbD i = (!decide (i < 8) && s.faultCode.getLsbD (i - 8)) := by
  rw [statusWord_getLsbD s hi]
  simp [show i ≠ 0 by omega, show i ≠ 1 by omega, show i ≠ 2 by omega, show i ≠ 3 by omega, show i ≠ 4 by omega,
    show i ≠ 5 by omega]

theorem validWord_getLsbD (ts : Tables) {i : Nat} (hi : i < 32) :
    ts.validWord.getLsbD i = (ts.y.valid && decide (i = 0) || ts.c1.valid && decide (i = 1) || ts.c2.valid && decide (i = 2)) := by
  simp only [Tables.validWord, BitVec.getLsbD_or, flagBit_getLsbD _ hi]

/-- TBL_VALID as a number. -/
theorem validWord_toNat (ts : Tables) :
    ts.validWord.toNat = ts.y.valid.toNat + 2 * ts.c1.valid.toNat + 4 * ts.c2.valid.toNat := by
  rw [Tables.validWord]
  cases ts.y.valid <;> cases ts.c1.valid <;> cases ts.c2.valid <;> rfl

/-- STATUS bit by bit (R35). -/
theorem statusWord_fields (s : State) :
    s.statusWord.getLsbD 0 = s.busy ∧ s.statusWord.getLsbD 1 = s.done ∧ s.statusWord.getLsbD 2 = s.fault ∧
      s.statusWord.getLsbD 3 = s.eng.eosSync ∧ s.statusWord.getLsbD 4 = s.ovr ∧ s.statusWord.getLsbD 5 = s.eng.symErr ∧
      s.statusWord.extractLsb' 6 2 = 0 ∧ s.statusWord.extractLsb' 8 8 = s.faultCode ∧ s.statusWord.extractLsb' 16 16 = 0 := by
  refine ⟨?_, ?_, ?_, ?_, ?_, ?_, ?_, ?_, ?_⟩
  iterate 6 rw [statusWord_getLsbD s (by decide)]; simp
  · apply BitVec.eq_of_getLsbD_eq
    intro i hi
    rw [BitVec.getLsbD_extractLsb', statusWord_getLsbD_high s (by omega) (by omega)]
    simp [show 6 + i < 8 by omega]
  · apply BitVec.eq_of_getLsbD_eq
    intro i hi
    rw [BitVec.getLsbD_extractLsb', statusWord_getLsbD_high s (by omega) (by omega)]
    simp [hi]
  · apply BitVec.eq_of_getLsbD_eq
    intro i hi
    rw [BitVec.getLsbD_extractLsb', statusWord_getLsbD_high s (by omega) (by omega)]
    simp [BitVec.getLsbD_of_ge s.faultCode (16 + i - 8) (by omega)]

/-- HDR_CFG as a number (R42). -/
theorem hdrCfgWord_toNat (p : Params) : p.hdrCfgWord.toNat = p.skip24.toNat + 2 ^ 8 * p.skip32.toNat := by
  have h24 : p.skip24.toNat < 2 ^ 8 := Nat.lt_trans p.skip24.isLt (by decide)
  have h32 := p.skip32.isLt
  rw [Params.hdrCfgWord, BitVec.toNat_or, BitVec.toNat_shiftLeft, BitVec.toNat_setWidth, BitVec.toNat_setWidth,
    Nat.mod_eq_of_lt (by omega), Nat.mod_eq_of_lt (by omega), Nat.shiftLeft_eq, Nat.mod_eq_of_lt (by omega), Nat.or_comm,
    Nat.mul_comm, ← Nat.two_pow_add_eq_or_of_lt h24, Nat.add_comm]

/-- DESC_SIZE as a number (R45). -/
theorem sizeWord_toNat (d : Desc) : d.sizeWord.toNat = d.w.toNat + 2 ^ 16 * d.h.toNat := by
  rw [Desc.sizeWord, BitVec.toNat_append, Nat.shiftLeft_eq, Nat.mul_comm, ← Nat.two_pow_add_eq_or_of_lt d.w.isLt, Nat.add_comm]

/-! ## The statements -/

/-- Settles O1: closed equations between words, one for each register. -/
theorem resetRegisters : Obligations.ResetRegisters := by
  unfold Obligations.ResetRegisters
  simp only [resetMap, List.forall_mem_append, List.forall_mem_cons, List.not_mem_nil, IsEmpty.forall_iff, implies_true, and_true,
    List.forall_mem_map, List.mem_range]
  refine ⟨⟨?_, ?_⟩, by decide⟩ <;> and_intros <;> rfl

/-- Settles O3. -/
theorem parameterWriteReadsBack : Obligations.ParameterWriteReadsBack := by
  unfold Obligations.ParameterWriteReadsBack
  intro s off r v hr hb hreg hpar
  have hcmd : r ≠ .cmd := by rintro rfl; cases hpar
  have hctrl : r ≠ .ctrl := by rintro rfl; cases hpar
  have hstatus : r ≠ .status := by rintro rfl; cases hpar
  refine ⟨writeParam r v s.params, ?_, writeParam_took r v s.params, ?_, ?_⟩
  · rw [hostAct_write_reg hr hreg hcmd, writeReg_idle hb hctrl hstatus]
  · rw [readOffset_of_regAt hreg, readReg_writeParam_self hpar]
  · intro off' hne
    cases hreg' : regAt off' with
    | none => rw [readOffset_reserved hreg', readOffset_reserved hreg']
    | some r' =>
      have hrr : r ≠ r' := by
        rintro rfl
        exact hne ((offset_of_regAt hreg').trans (offset_of_regAt hreg).symm)
      rw [readOffset_of_regAt hreg', readOffset_of_regAt hreg', readReg_writeParam_other hrr]

/-- Settles O4. -/
theorem reservedBitsAndReadOnlyRegisters : Obligations.ReservedBitsAndReadOnlyRegisters := by
  unfold Obligations.ReservedBitsAndReadOnlyRegisters
  intro s off r hreg
  refine ⟨?_, fun hcmd v v' hv => ?_, fun hro hr hb v => ?_⟩
  · rw [readOffset_of_regAt hreg]
    exact readReg_reserved_bits s r
  · simp only [hostAct, hostWrite_of_regAt hreg hcmd, writeReg_of_masked hv]
  · have hcmd : r ≠ .cmd := by rintro rfl; cases hro
    have hctrl : r ≠ .ctrl := by rintro rfl; cases hro
    have hstatus : r ≠ .status := by rintro rfl; cases hro
    rw [hostAct_write_reg hr hreg hcmd, writeReg_idle hb hctrl hstatus,
      writeParam_of_not_isParam (Reg.isParam_of_isReadOnly hro)]

/-- Settles O5. -/
theorem reservedOffsets : Obligations.ReservedOffsets := by
  unfold Obligations.ReservedOffsets
  intro s off hr hreg ha
  refine ⟨fun v => ?_, ?_⟩
  · rw [hostAct_write_word hr ha, hostWrite_reserved hreg]
  · rw [hostAct_read_word hr ha, readOffset_reserved hreg]

/-- Settles O8. -/
theorem statusWriteClears : Obligations.StatusWriteClears := by
  unfold Obligations.StatusWriteClears
  intro s v hr
  rw [hostAct_write_reg hr (r := .status) rfl (by decide)]
  exact congrArg _ (writeStatus_eq v s)

/-- Settles O9. -/
theorem ctrlWriteSetsIrqEn : Obligations.CtrlWriteSetsIrqEn := by
  unfold Obligations.CtrlWriteSetsIrqEn
  intro s v hr h31
  rw [hostAct_write_reg hr (r := .ctrl) rfl (by decide)]
  exact congrArg _ (writeCtrl_irqEn h31 s)

/-- Settles O10. -/
theorem registerReadHasNoEffect : Obligations.RegisterReadHasNoEffect := by
  unfold Obligations.RegisterReadHasNoEffect
  refine ⟨fun s off hr ha => hostAct_read_word hr ha, fun s => ?_⟩
  have low {n : Nat} (x : BitVec n) (hn : n ≤ 32) : (x.setWidth 32).toNat = x.toNat := BitVec.toNat_setWidth_of_le hn
  refine ⟨rfl, ?_, statusWord_fields s, rfl, ⟨rfl, rfl, rfl, rfl, rfl, rfl⟩,
    ⟨rfl, low _ (by decide), low _ (by decide), hdrCfgWord_toNat _, rfl, rfl, low _ (by decide)⟩, ⟨rfl, rfl, rfl, rfl, rfl⟩,
    validWord_toNat _, ?_, ?_, ?_⟩
  · show flagBit s.irqEn 0 = _
    cases s.irqEn <;> rfl
  · intro t ht
    show s.eng.tables.validWord.getLsbD t = _
    rw [validWord_getLsbD _ (by omega)]
    interval_cases t <;> simp [Tables.get]
  · intro i
    rw [show readOffset s (BitVec.ofNat 12 (0x060 + 4 * i.val)) = _ from readOffset_offset s (.wb i)]
    exact BitVec.toInt_signExtend_of_le (by decide)
  · intro k
    refine ⟨readOffset_offset s (.descBase k), ?_⟩
    rw [show readOffset s (BitVec.ofNat 12 (0x104 + 8 * k.toNat)) = _ from readOffset_offset s (.descSize k)]
    exact sizeWord_toNat _

end Sys2Proof.Machine
end

section
/-! SUPPORT and PROOFS. Commands and host actions as a whole: what a launched command leaves of everything that is not its own, what each
action of the host can come to, and the statements about resets, ignored writes and steps (10_state.md R50, R52, R55, R56; 40_control.md
R140, R142; 70_reset_and_hazards.md R320, R321). -/

namespace Sys2Proof.Machine

/-! ## What a command leaves around it (R142) -/

/-- The parts of the state that are not a command's: the parameter registers, IRQ_EN, the ROMs, the platform and the host's side. -/
structure SameSurroundings (s t : State) : Prop where
  params : t.params = s.params
  irqEn : t.irqEn = s.irqEn
  roms : t.roms = s.roms
  plat : t.plat = s.plat
  resetLine : t.resetLine = s.resetLine
  busRead : t.busRead = s.busRead
  resets : t.resets = s.resets
  pace : t.pace = s.pace
  inbox : t.inbox = s.inbox

theorem ignoreWrite_surroundings (s : State) : SameSurroundings s (ignoreWrite s) := ⟨rfl, rfl, rfl, rfl, rfl, rfl, rfl, rfl, rfl⟩

/-- However a command is settled, what surrounds it is as at its launch. -/
theorem settle_surroundings {work : Work} {base : Engine} {s t : State} {o : EStateM.Result Stop Run Unit}
    (h : settle work base s o = .next t) : SameSurroundings s t := by
  obtain ⟨r, -, rfl⟩ | ⟨f, info, addr, r, -, rfl⟩ | ⟨r, -, rfl⟩ := settle_next h <;>
    exact ⟨rfl, rfl, rfl, rfl, rfl, rfl, rfl, rfl, rfl⟩

/-- A settled command leaves OVR and CUR, and the fault words unless it has faulted (R37). -/
theorem settle_flags {work : Work} {base : Engine} {s t : State} {o : EStateM.Result Stop Run Unit}
    (h : settle work base s o = .next t) : t.ovr = s.ovr ∧ t.cur = s.cur ∧
      (t.fault = false → t.faultCode = s.faultCode ∧ t.faultInfo = s.faultInfo ∧ t.faultAddr = s.faultAddr) := by
  obtain ⟨r, -, rfl⟩ | ⟨f, info, addr, r, -, rfl⟩ | ⟨r, -, rfl⟩ := settle_next h
  · exact ⟨rfl, rfl, fun _ => ⟨rfl, rfl, rfl⟩⟩
  · exact ⟨rfl, rfl, nofun⟩
  · exact ⟨rfl, rfl, fun _ => ⟨rfl, rfl, rfl⟩⟩

/-- A CMD write, taken or ignored, leaves what surrounds the command. -/
theorem launch_surroundings {w : Word} {work : Work} {rule : Env → Cmd Unit} {s t : State} (h : launch w work rule s = .next t) :
    SameSurroundings s t := by
  unfold launch at h
  split at h
  · cases h; exact ignoreWrite_surroundings s
  · obtain ⟨h1, h2, h3, h4, h5, h6, h7, h8, h9⟩ := settle_surroundings h
    exact ⟨h1, h2, h3, h4, h5, h6, h7, h8, h9⟩

theorem exec_surroundings {i : Instr} {s t : State} (h : exec i s = .next t) : SameSurroundings s t :=
  launch_surroundings ((exec_rule i s).symm.trans h)

theorem commandWrite_surroundings {w : Word} {s t : State} (h : commandWrite w s = .next t) : SameSurroundings s t := by
  unfold commandWrite at h
  split at h
  · exact exec_surroundings h
  · exact launch_surroundings h

/-- A CMD write while BUSY or FAULT is 1 (R140). -/
theorem commandWrite_ignored {s : State} (h : s.busy = true ∨ s.fault = true) (w : Word) :
    commandWrite w s = .next (ignoreWrite s) := by
  unfold commandWrite
  split
  · exact exec_ignored h _
  · exact launch_ignored h _ _ _

theorem commandWrite_ok {w : Word} {i : Instr} (h : decode w = .ok i) (s : State) : commandWrite w s = exec i s := by
  rw [commandWrite, h]

theorem commandWrite_error {w : Word} {why : DecodeError} (h : decode w = .error why) (s : State) :
    commandWrite w s = rejectWord w why s := by
  rw [commandWrite, h]

/-- A running command that goes on leaves what surrounds it. -/
theorem proceed_surroundings {n : Option Nat} {s t : State} (h : proceed n s = .next t) : SameSurroundings s t := by
  unfold proceed at h
  split at h
  · cases h; exact ⟨rfl, rfl, rfl, rfl, rfl, rfl, rfl, rfl, rfl⟩
  · exact settle_surroundings h

/-! ## What an action of the host can come to -/

/-- The effects a register write can have, CMD apart (R34, R35, R49, R50). -/
inductive WriteEffect (s : State) : State → Prop where
  | softReset : WriteEffect s (resetBlock s)
  | irqEn (b : Bool) : WriteEffect s { s with irqEn := b }
  | status (v : Word) : WriteEffect s (writeStatus v s)
  | ignored (hb : s.busy = true) : WriteEffect s (ignoreWrite s)
  | params (hb : s.busy = false) (p : Params) : WriteEffect s { s with params := p }

theorem writeReg_effect (r : Reg) (v : Word) (s : State) : WriteEffect s (writeReg r v s) := by
  by_cases hc : r = .ctrl
  · subst hc
    cases h : v.getLsbD 31 with
    | true => rw [show writeReg .ctrl v s = _ from writeCtrl_reset h s]; exact .softReset
    | false => rw [show writeReg .ctrl v s = _ from writeCtrl_irqEn h s]; exact .irqEn _
  by_cases hs : r = .status
  · subst hs; exact .status v
  cases hb : s.busy with
  | true => rw [writeReg_busy hb hc hs]; exact .ignored hb
  | false => rw [writeReg_idle hb hc hs]; exact .params hb _

/-- The effects an action of the host can have. -/
inductive HostEffect (s : State) : State → Prop where
  | nothing : HostEffect s s
  | register {t : State} (h : WriteEffect s t) : HostEffect s t
  | command {w : Word} {t : State} (h : commandWrite w s = .next t) : HostEffect s t
  | answered (b : Word) : HostEffect s { s with busRead := b }
  | engine (f : Engine → Engine) : HostEffect s (updateBoth f s)
  | goesOn {n : Option Nat} {t : State} (h : proceed n s = .next t) : HostEffect s t
  | paced (n : Option Nat) : HostEffect s { s with pace := n }
  | reset : HostEffect s { resetBlock s with resetLine := true }
  | released : HostEffect s { s with resetLine := false }

theorem hostWrite_effect {off : BitVec 12} {v : Word} {s t : State} (h : hostWrite off v s = .next t) : HostEffect s t := by
  unfold hostWrite at h
  split at h
  · cases h; exact .nothing
  · exact .command h
  · cases h; exact .register (writeReg_effect _ v s)

theorem deliver_effect (x : PortItem) (s : State) : HostEffect s (deliver x s) := by
  cases h : s.resetLine with
  | true => rw [deliver_in_reset h]; exact .nothing
  | false => rw [deliver_to_block h]; exact .engine _

/-- What a host action that has a next state has done. -/
theorem hostAct_effect {ev : HostEvent} {s t : State} (h : hostAct ev s = .next t) : HostEffect s t := by
  cases ev with
  | write off width v => exact hostWrite_effect (whenAnswered_next h)
  | read off width => cases whenAnswered_next h; exact .answered _
  | streamByte b => cases h; exact deliver_effect _ s
  | streamEnd => cases h; exact deliver_effect _ s
  | memWrite a b =>
    rw [hostAct, hostMemWrite] at h
    split at h
    · cases h
    · cases h; exact .engine _
  | memRead a =>
    rw [hostAct, hostMemRead] at h
    split at h
    · cases h
    · cases h; exact .answered _
  | letRun n => exact .goesOn h
  | setPace n => cases h; exact .paced n
  | assertReset => cases h; exact .reset
  | releaseReset => cases h; exact .released

/-! ## Reset (10_state.md R55; 70_reset_and_hazards.md R320, R321) -/

/-- What a reset makes of the block, as the host sees it: registers, interrupt output, command and port. -/
def AtReset (t : State) : Prop :=
  (∀ x ∈ resetMap, readOffset t x.1 = x.2) ∧ t.irq = false ∧ t.busy = false ∧ t.running = none ∧ t.eng.port = [] ∧
    t.eng.toDiscard = 0

/-- The interrupt output is deasserted where IRQ_EN is 0 (60_exceptions.md R298). -/
theorem irq_of_irqEn {s : State} (h : s.irqEn = false) : s.irq = false := by rw [State.irq, h, Bool.false_and]

/-- Whatever the reset input is, after a reset every register reads as right after power-on. -/
theorem readReg_resetBlock (s : State) (b : Bool) (r : Reg) :
    readReg { resetBlock s with resetLine := b } r = readReg State.reset r := by
  cases r <;> rfl

theorem resetBlock_atReset (s : State) (b : Bool) : AtReset { resetBlock s with resetLine := b } :=
  ⟨fun x hx => (readOffset_congr (readReg_resetBlock s b) x.1).trans (resetRegisters x hx), irq_of_irqEn rfl, rfl, rfl, rfl, rfl⟩

/-- In a legal state no command runs while the reset input is asserted (R320). -/
theorem held_running {s : State} (hw : s.wf) (hr : s.resetLine = true) : s.busy = false ∧ s.running = none := by
  obtain ⟨⟨hbusy, -, -, -, -, hheld⟩, -, -⟩ := hw
  refine ⟨hheld hr, ?_⟩
  rw [hheld hr] at hbusy
  simpa using hbusy.symm

/-- A read of CTRL shows IRQ_EN (R34). -/
theorem irqEn_of_ctrl {s : State} (h : readOffset s 0x004 = 0) : s.irqEn = false := by
  change flagBit s.irqEn 0 = 0 at h
  cases hi : s.irqEn with
  | false => rfl
  | true => rw [hi] at h; exact absurd h (by decide)

/-- While the reset input is asserted only its release changes what the host sees of the reset (R320). -/
theorem hostAct_held {s t : State} {ev : HostEvent} (hs : AtReset s) (hr : s.resetLine = true) (h : hostAct ev s = .next t) :
    AtReset t ∧ (t.resetLine = false ↔ ev = .releaseReset) := by
  have ⟨_, _, _, hrun, _, _⟩ := hs
  cases ev with
  | write off width v => rw [hostAct, whenAnswered_held hr] at h; cases h
  | read off width => rw [hostAct, whenAnswered_held hr] at h; cases h
  | streamByte b => rw [hostAct, deliver_in_reset hr] at h; cases h; exact ⟨hs, by simp [hr]⟩
  | streamEnd => rw [hostAct, deliver_in_reset hr] at h; cases h; exact ⟨hs, by simp [hr]⟩
  | memWrite a b =>
    rw [hostAct, hostMemWrite, updateBoth_idle _ _ hrun] at h
    split at h <;> cases h
    exact ⟨hs, by simp [hr]⟩
  | memRead a =>
    rw [hostAct, hostMemRead] at h
    split at h <;> cases h
    exact ⟨hs, by simp [hr]⟩
  | letRun n => rw [hostAct, proceed, hrun] at h; cases h; exact ⟨hs, by simp [hr]⟩
  | setPace n => cases h; exact ⟨hs, by simp [hr]⟩
  | assertReset => cases h; exact ⟨resetBlock_atReset s true, by simp⟩
  | releaseReset => cases h; exact ⟨hs, by simp⟩

/-- Settles O2. -/
theorem resetRestoresTheBlock : Obligations.ResetRestoresTheBlock := by
  unfold Obligations.ResetRestoresTheBlock
  refine ⟨?_, fun s => rfl, ?_⟩
  · rintro s ev (rfl | ⟨hr, v, hv, rfl⟩)
    · obtain ⟨hread, hirq, hbusy, hrun, hport, hdis⟩ := resetBlock_atReset s true
      exact ⟨_, rfl, hread, hirq, hbusy, hrun, hport, hdis, rfl, rfl, by simp⟩
    · obtain ⟨hread, hirq, hbusy, hrun, hport, hdis⟩ := resetBlock_atReset s false
      refine ⟨{ resetBlock s with resetLine := false }, ?_, hread, hirq, hbusy, hrun, hport, hdis, rfl, rfl, by simp⟩
      rw [hostAct_write_reg hr (r := .ctrl) rfl (by decide), show writeReg .ctrl v s = _ from writeCtrl_reset hv s, ← hr]
      rfl
  · intro s t ev hw hr hread hport hdis h
    obtain ⟨hbusy, hrun⟩ := held_running hw hr
    have hirq : s.irq = false := irq_of_irqEn (irqEn_of_ctrl (hread (0x004, 0) (by simp [resetMap])))
    obtain ⟨⟨hread, hirq, hbusy, hrun, hport, hdis⟩, hline⟩ := hostAct_held ⟨hread, hirq, hbusy, hrun, hport, hdis⟩ hr h
    exact ⟨hread, hirq, hbusy, hrun, hport, hdis, hline⟩

/-! ## Writes while BUSY (R50) -/

/-- No host action changes the parameter registers of a command that still runs after it. -/
theorem HostEffect.params_of_busy {s t : State} (h : HostEffect s t) (hs : s.busy = true) (ht : t.busy = true) :
    t.params = s.params := by
  cases h with
  | register hw =>
    cases hw with
    | softReset => cases ht
    | irqEn b => rfl
    | status v => rw [writeStatus_eq]
    | ignored hb => rfl
    | params hb p => rw [hs] at hb; cases hb
  | command h => exact (commandWrite_surroundings h).params
  | goesOn h => exact (proceed_surroundings h).params
  | reset => cases ht
  | nothing => rfl
  | answered b => rfl
  | engine f => rfl
  | paced n => rfl
  | released => rfl

/-- Settles O6. -/
theorem busyWritesAreIgnored : Obligations.BusyWritesAreIgnored := by
  unfold Obligations.BusyWritesAreIgnored
  refine ⟨fun s off r v hr hb hreg hctrl hstatus => ?_, fun s t ev hs h ht => (hostAct_effect h).params_of_busy hs ht⟩
  by_cases hcmd : r = .cmd
  · subst hcmd
    rw [hostAct_write_word hr (aligned_of_regAt hreg), hostWrite_cmd hreg, commandWrite_ignored (.inl hb)]
    rfl
  · rw [hostAct_write_reg hr hreg hcmd, writeReg_busy hb hctrl hstatus]

/-! ## Every command and every step -/

/-- Settles O50. -/
theorem commandFrame : Obligations.CommandFrame := by
  unfold Obligations.CommandFrame
  intro s t i h
  obtain ⟨h1, h2, h3, h4, h5, h6, h7, h8, h9⟩ := exec_surroundings h
  refine ⟨h1, h2, h3, h4, h5, h6, h7, h8, h9, ?_⟩
  by_cases hig : s.busy = true ∨ s.fault = true
  · rw [exec_ignored hig] at h
    cases h
    have hor : (s.busy || s.fault) = true := by simpa using hig
    exact ⟨by simp [Bool.or_assoc, hor], (if_pos hor).symm, fun _ => ⟨rfl, rfl, rfl⟩⟩
  · obtain ⟨hb, hf⟩ : s.busy = false ∧ s.fault = false := by simpa using hig
    rw [exec_launched hb hf] at h
    obtain ⟨hovr, hcur, hwords⟩ := settle_flags h
    exact ⟨by simp [hovr, hb, hf], by simp [hcur, hb, hf], fun hor => hwords (hor.resolve_left (by simp [hf]))⟩

/-- No host action changes the ROMs or the platform. -/
theorem HostEffect.roms_plat {s t : State} (h : HostEffect s t) : t.roms = s.roms ∧ t.plat = s.plat := by
  cases h with
  | register hw =>
    cases hw with
    | status v => rw [writeStatus_eq]; exact ⟨rfl, rfl⟩
    | softReset => exact ⟨rfl, rfl⟩
    | irqEn b => exact ⟨rfl, rfl⟩
    | ignored hb => exact ⟨rfl, rfl⟩
    | params hb p => exact ⟨rfl, rfl⟩
  | command h => exact ⟨(commandWrite_surroundings h).roms, (commandWrite_surroundings h).plat⟩
  | goesOn h => exact ⟨(proceed_surroundings h).roms, (proceed_surroundings h).plat⟩
  | nothing => exact ⟨rfl, rfl⟩
  | answered b => exact ⟨rfl, rfl⟩
  | engine f => exact ⟨rfl, rfl⟩
  | paced n => exact ⟨rfl, rfl⟩
  | reset => exact ⟨rfl, rfl⟩
  | released => exact ⟨rfl, rfl⟩

/-- With no host action left, a step that has a next state is the running command's going on. -/
theorem withoutHost_next {s t : State} (h : withoutHost s = .next t) : proceed none s = .next t := by
  unfold withoutHost at h
  split at h
  · next s' hp => split at h <;> cases h; exact hp
  · exact h

/-- Settles O57. -/
theorem stepKeepsRomsAndPlatform : Obligations.StepKeepsRomsAndPlatform := by
  unfold Obligations.StepKeepsRomsAndPlatform
  intro s t h
  unfold step at h
  split at h
  · have hp := proceed_surroundings (withoutHost_next h)
    exact ⟨hp.roms, hp.plat⟩
  · exact (hostAct_effect h).roms_plat

/-- A step whose next host action is a CMD write. -/
theorem step_cmd {s : State} {w : Word} {rest : List HostEvent} (hin : s.inbox = .write 0x00C .word w :: rest)
    (hr : s.resetLine = false) : step s = commandWrite w { s with inbox := rest } := by
  rw [step, hin]
  exact (hostAct_write_word (s := { s with inbox := rest }) hr (by decide) w).trans (hostWrite_cmd rfl w _)

/-- Settles O19. -/
theorem stepRunsTheDecodedCommand : Obligations.StepRunsTheDecodedCommand := by
  unfold Obligations.StepRunsTheDecodedCommand
  intro s w rest hin hr
  exact ⟨fun i hi => (step_cmd hin hr).trans (commandWrite_ok hi _),
    fun why hwhy => (step_cmd hin hr).trans (commandWrite_error hwhy _)⟩

end Sys2Proof.Machine
end

section
/-! SUPPORT and PROOFS. Sequence headers: the fields of a header as stream bits, where its payload starts and where its symbols go
(30_encoding.md R114, R115; 42_delta_decoder.md R179 to R188). -/

namespace Sys2Proof.Machine

/-! ## Fields of a window -/

/-- A field of n window bits is the number its stream bits write, the most significant first: bits k0, k0 + 1, ... of the window are
the stream bits from p + k0 on (00_scope.md R11). -/
theorem window_field (bs : List Byte) (p k0 n : Nat) (h : k0 + n ≤ 32) (b : Nat → Nat)
    (hb : ∀ k, b k = (streamBit bs (p + (k0 + k))).toNat) :
    (window bs p).toNat / 2 ^ (32 - (k0 + n)) % 2 ^ n = (List.range n).foldl (fun acc k => 2 * acc + b k) 0 := by
  induction n with
  | zero => simp [Nat.mod_one]
  | succ n ih =>
    obtain ⟨m, hm⟩ : ∃ m, 32 - (k0 + (n + 1)) = m := ⟨_, rfl⟩
    have hbit : b n = (window bs p).toNat / 2 ^ m % 2 := by
      rw [hb, ← window_getMsbD bs p (k0 + n) (by omega), BitVec.getMsbD, ← Nat.toNat_testBit]
      simp [show k0 + n < 32 by omega, BitVec.getLsbD, show 31 - (k0 + n) = m by omega]
    rw [List.range_succ, List.foldl_append, ← ih (by omega), List.foldl_cons, List.foldl_nil, hbit, hm,
      show 32 - (k0 + n) = m + 1 by omega, Nat.pow_succ 2 n, Nat.mul_comm (2 ^ n), Nat.mod_mul, Nat.div_div_eq_div_mul,
      ← Nat.pow_succ, Nat.add_comm]

/-- A shifted word under a mask of n low bits. -/
theorem shift_and_mask_toNat (w : Word) (lo n : Nat) (hn : n ≤ 32) :
    ((w >>> lo) &&& BitVec.ofNat 32 (2 ^ n - 1)).toNat = w.toNat / 2 ^ lo % 2 ^ n := by
  have hlt : 2 ^ n - 1 < 2 ^ 32 := Nat.lt_of_lt_of_le (Nat.sub_lt (Nat.two_pow_pos n) (by decide)) (Nat.pow_le_pow_right (by decide) hn)
  rw [BitVec.toNat_and, BitVec.toNat_ushiftRight, BitVec.toNat_ofNat, Nat.mod_eq_of_lt hlt, Nat.and_two_pow_sub_one_eq_mod,
    Nat.shiftRight_eq_div_pow]

/-- A plane code is twice its two bits (R179, R180). -/
theorem shift_and_six_toNat (w : Word) (lo : Nat) : ((w >>> lo) &&& 6).toNat = 2 * (w.toNat / 2 ^ (lo + 1) % 2 ^ 2) := by
  have hsix (x : Nat) : x &&& 6 = 2 * (x / 2 % 2 ^ 2) := by
    rw [← Nat.and_two_pow_sub_one_eq_mod, ← Nat.div_add_mod (x &&& 6) 2, Nat.and_div_two, Nat.and_mod_two_pow (n := 1)]
    simp
  rw [BitVec.toNat_and, BitVec.toNat_ushiftRight, Nat.shiftRight_eq_div_pow]
  exact (hsix _).trans (by rw [Nat.div_div_eq_div_mul, ← Nat.pow_succ])

/-- A plane code's two bits, at window bits k0 and k0 + 1. -/
theorem window_planeCode (bs : List Byte) (p k0 lo : Nat) (h : k0 + lo = 29) :
    ((window bs p >>> lo) &&& 6).toNat =
      4 * (streamBit bs (p + k0)).toNat + 2 * (streamBit bs (p + (k0 + 1))).toNat := by
  have hfield := window_field bs p k0 2 (by omega) _ fun _ => rfl
  rw [show 32 - (k0 + 2) = lo + 1 by omega] at hfield
  rw [shift_and_six_toNat, hfield]
  simp only [List.range_succ, List.range_zero, List.nil_append, List.cons_append, List.foldl_cons, List.foldl_nil, Nat.add_zero]
  omega

/-- A field of n bits at window bits k0, k0 + 1, ... -/
theorem window_number (bs : List Byte) (p k0 n lo : Nat) (h : k0 + n + lo = 32) (b : Nat → Nat)
    (hb : ∀ k, b k = (streamBit bs (p + (k0 + k))).toNat) :
    ((window bs p >>> lo) &&& BitVec.ofNat 32 (2 ^ n - 1)).toNat = (List.range n).foldl (fun acc k => 2 * acc + b k) 0 := by
  rw [shift_and_mask_toNat _ _ _ (by omega), ← window_field bs p k0 n (by omega) b hb, show 32 - (k0 + n) = lo by omega]

/-! ## The fields of a header -/

/-- An H24 header's fields (R114): plane code h3, h4, row h6 to h18. -/
theorem headerAt_h24 (bs : List Byte) (p : Nat) :
    headerAt .h24 bs p = ⟨4 * (streamBit bs (p + 20 + 3)).toNat + 2 * (streamBit bs (p + 20 + 4)).toNat,
      (List.range 13).foldl (fun n k => 2 * n + (streamBit bs (p + 20 + (6 + k))).toNat) 0, 0⟩ := by
  rw [headerAt, Header.fields, HeaderFields.mk.injEq]
  refine ⟨window_planeCode bs (p + 16) 7 22 rfl, ?_, rfl⟩
  exact window_number bs (p + 16) 10 13 9 rfl _ fun k => by rw [show p + 20 + (6 + k) = p + 16 + (10 + k) by omega]

/-- An H32 header's fields (R115): plane code h6, h7, row h8 to h21, sequence h23 to h26. -/
theorem headerAt_h32 (bs : List Byte) (p : Nat) :
    headerAt .h32 bs p = ⟨4 * (streamBit bs (p + 20 + 6)).toNat + 2 * (streamBit bs (p + 20 + 7)).toNat,
      (List.range 14).foldl (fun n k => 2 * n + (streamBit bs (p + 20 + (8 + k))).toNat) 0,
      (List.range 4).foldl (fun n k => 2 * n + (streamBit bs (p + 20 + (23 + k))).toNat) 0⟩ := by
  rw [headerAt, Header.fields, HeaderFields.mk.injEq]
  refine ⟨window_planeCode bs (p + 16) 10 19 rfl, ?_, ?_⟩
  · exact window_number bs (p + 16) 12 14 6 rfl _ fun k => by rw [show p + 20 + (8 + k) = p + 16 + (12 + k) by omega]
  · exact window_number bs (p + 16) 27 4 1 rfl _ fun k => by rw [show p + 20 + (23 + k) = p + 16 + (27 + k) by omega]

/-! ## What the fields name -/

/-- The plane of each plane code (R183). -/
theorem planeOfCode_eq_some_iff (pc : Nat) (pl : Plane) :
    planeOfCode pc = some pl ↔ (pc = 0 ∧ pl = .y) ∨ (pc = 2 ∧ pl = .c1) ∨ ((pc = 3 ∨ pc = 4) ∧ pl = .c2) := by
  unfold planeOfCode
  split
  case h_5 h0 h2 h3 h4 =>
    simpa using ⟨fun h => (h0 h).elim, fun h => (h2 h).elim, fun h => (h.elim h3 h4).elim⟩
  all_goals simp [eq_comm]

/-- The symbols of a sequence (R187), SEQ_SIZE as a number. -/
theorem symbolCount_eq (p : Params) (d : Desc) :
    symbolCount p d = if p.seqSize.toNat = 0 then d.w.toNat else p.seqSize.toNat := by
  rw [symbolCount]
  exact if_congr BitVec.toNat_inj.symm rfl rfl

/-- The column offset of a chroma plane (R185). -/
theorem columnOffset_chroma (p : Params) {pl : Plane} (h : pl ≠ .y) : columnOffset p pl = p.colOffset.toNat / 2 := by
  cases pl with
  | y => contradiction
  | c1 => exact Nat.shiftRight_one _
  | c2 => exact Nat.shiftRight_one _

/-- The row index of a chroma plane (R184): an H24 header counts luma rows, an H32 header chroma rows. -/
theorem rowIndex_chroma {pl : Plane} (h : pl ≠ .y) (row : Nat) :
    Header.rowIndex .h24 pl row = row / 2 ∧ Header.rowIndex .h32 pl row = row := by
  cases pl with
  | y => contradiction
  | c1 => exact ⟨Nat.shiftRight_one _, rfl⟩
  | c2 => exact ⟨Nat.shiftRight_one _, rfl⟩

theorem ne_y_of_chroma {pl : Plane} (h : pl = .c1 ∨ pl = .c2) : pl ≠ .y := by
  rcases h with rfl | rfl <;> decide

/-! ## The statements -/

/-- Settles O28. -/
theorem headerFieldsH24 : Obligations.HeaderFieldsH24 := by
  unfold Obligations.HeaderFieldsH24
  refine ⟨fun bs p => ⟨headerAt_h24 bs p, fun par => ⟨rfl, fun h => ?_⟩⟩, ?_, planeOfCode_eq_some_iff,
    fun o => ⟨⟨rfl, rfl, rfl⟩, ⟨rfl, rfl, rfl⟩, ⟨rfl, rfl, rfl⟩⟩, symbolCount_eq⟩
  · rw [payloadAt, Header.skip, h]; rfl
  · intro par d f
    refine ⟨rfl, rfl, fun pl hpl => ?_⟩
    obtain ⟨hrow, -⟩ := rowIndex_chroma (ne_y_of_chroma hpl) f.row
    exact ⟨hrow, by rw [firstOffset, hrow, columnOffset_chroma par (ne_y_of_chroma hpl)]⟩

/-- Settles O29. -/
theorem headerFieldsH32 : Obligations.HeaderFieldsH32 := by
  unfold Obligations.HeaderFieldsH32
  refine ⟨fun bs p => ⟨headerAt_h32 bs p, fun par => ⟨rfl, fun h => ?_⟩⟩, ?_⟩
  · rw [payloadAt, Header.skip, h]; rfl
  · intro par d f
    refine ⟨rfl, rfl, fun pl hpl => ?_⟩
    obtain ⟨-, hrow⟩ := rowIndex_chroma (ne_y_of_chroma hpl) f.row
    exact ⟨hrow, by rw [firstOffset, hrow, columnOffset_chroma par (ne_y_of_chroma hpl)]⟩

end Sys2Proof.Machine
end

section
/-! SUPPORT and PROOFS. What a launched command leaves of the engine's data, from the frames of its rule in Laws/Frame.lean, and the
statements about frames, DECODE's counters and its search for a marker (10_state.md R38, R39, R43, R51,
R56; 42_delta_decoder.md R175 to R194). -/

namespace Sys2Proof.Machine

/-! ## From a rule's run to the state it leaves -/

/-- What every run of a launched command's rule leaves of the engine's data, however it ends, the next state holds. -/
theorem exec_eng_of_triple {i : Instr} {s t : State} {I : Run → Prop} {J : Unit → Run → Prop} {S : Stop → Run → Prop}
    {Z : Engine → Prop} (hb : s.busy = false) (hf : s.fault = false) (h : exec i s = .next t)
    (hT : Triple I (whileBusy (ruleOf (.command i) s.env)) J S) (hI : I ⟨launched s.eng, 0, s.pace⟩)
    (hJ : ∀ r, J () r → Z r.eng) (hfault : ∀ f info addr r, S (.fault f info addr) r → Z r.eng)
    (hpause : ∀ r, S .pause r → Z r.eng) : Z t.eng := by
  rw [exec_launched hb hf] at h
  obtain ⟨r, ho, rfl⟩ | ⟨f, info, addr, r, ho, rfl⟩ | ⟨r, ho, rfl⟩ := settle_next h
  · exact hJ r (hT.ok hI ho)
  · exact hfault f info addr r (hT.error hI ho)
  · exact hpause r (hT.error hI ho)

/-- A command that takes no stream changes memory alone, and only within its ranges (20_memory.md R87). -/
theorem exec_memOnly {i : Instr} {s t : State} (hb : s.busy = false) (hf : s.fault = false) (h : exec i s = .next t)
    (hi : takesStream (encode i) = false) : MemOnly (writtenRanges s.params i) (launched s.eng) t.eng :=
  exec_eng_of_triple hb hf h (commandRule_writes s.env hi (launched s.eng)) ⟨.refl _ _, rfl⟩ (fun _ hr => hr.1)
    (fun _ _ _ _ hr => hr.1) fun _ hr => hr.1

/-- Discarding the stream touches the port alone (R144). -/
theorem Engine.drain_eq (e : Engine) : e.drain = { e with port := e.drain.port, toDiscard := e.drain.toDiscard } := by
  unfold Engine.drain
  split <;> rfl

/-- Data that satisfies Z but for the port, which may have been discarded. -/
def UpToPort (Z : Engine → Prop) (e : Engine) : Prop := ∃ e', Z e' ∧ e = { e' with port := e.port, toDiscard := e.toDiscard }

theorem UpToPort.of_drained {Z : Engine → Prop} {e : Engine} (h : Z e ∨ Drained Z e) : UpToPort Z e := by
  rcases h with h | ⟨e', h, rfl⟩
  · exact ⟨e, h, rfl⟩
  · exact ⟨e', h, e'.drain_eq⟩

/-- A command with a stream, its rule's frame being Z. -/
theorem exec_upToPort {i : Instr} {s t : State} {I : Run → Prop} {Z : Engine → Prop} (hb : s.busy = false) (hf : s.fault = false)
    (h : exec i s = .next t)
    (hT : Triple I (whileBusy (ruleOf (.command i) s.env)) (fun _ => Held s.pace (Drained Z)) (StopsDrained s.plat s.pace Z))
    (hI : I ⟨launched s.eng, 0, s.pace⟩) : UpToPort Z t.eng :=
  exec_eng_of_triple hb hf h hT hI (fun _ hr => .of_drained (.inr hr.1)) (fun _ _ _ _ hr => .of_drained (.inr hr.1))
    fun _ hr => .of_drained hr.1

theorem exec_loadht_tablesOnly {nt first : BitVec 2} {ept : Bool} {s t : State} (hb : s.busy = false) (hf : s.fault = false)
    (h : exec (.loadht nt first ept) s = .next t) :
    UpToPort (TablesOnly first.toNat nt.toNat (launched s.eng)) t.eng :=
  exec_upToPort hb hf h (loadhtRule_drains s.env nt first ept (launched s.eng)) ⟨rfl, rfl⟩

theorem ruleOf_decodeInstr (h : Header) (o : DecodeOps) : ruleOf (.command (decodeInstr h o)) = decodeRule h o := by
  cases h <;> rfl

theorem exec_decode_decoding {h : Header} {o : DecodeOps} {s t : State} (hb : s.busy = false) (hf : s.fault = false)
    (he : exec (decodeInstr h o) s = .next t) :
    UpToPort (DecodingTo (o.ranges s.params) (launched s.eng) s.params.seqCount.toNat) t.eng :=
  exec_upToPort hb hf he (ruleOf_decodeInstr h o ▸ decodeRule_drains s.env h o s.eng) ⟨rfl, rfl⟩

/-! ## DECODE's counters (R38, R39) -/

/-- The bounds of R38, R39 and R193 hold wherever a DECODE has got to. -/
theorem DecodingTo.counters {rs : List ByteRange} {e0 e : Engine} {n : Word} (h : DecodingTo rs e0 n.toNat e) :
    e.pos ≤ 8 * (streamBytes e0.port).length ∧ e.bytesIn = BitVec.ofNat 32 ((e.pos + 7) / 8) ∧ e.seqDone.toNat ≤ n.toNat ∧
      e.seqSkip.toNat + e.symErrs.toNat ≤ e.seqDone.toNat ∧ (e.symErr = true ↔ e.symErrs ≠ 0) := by
  obtain ⟨k, m, hmk, hkn, -, -, hpos, hbytes, hdone, skips, errors, hsum, hskip, herr, hflag⟩ := h
  have hn := n.isLt
  have hk : e.seqDone.toNat = k := by rw [hdone, BitVec.toNat_ofNat, Nat.mod_eq_of_lt (by omega)]
  have hs : e.seqSkip.toNat = skips := by rw [hskip, BitVec.toNat_ofNat, Nat.mod_eq_of_lt (by omega)]
  have hr : e.symErrs.toNat = errors := by rw [herr, BitVec.toNat_ofNat, Nat.mod_eq_of_lt (by omega)]
  refine ⟨hpos, hbytes, by omega, by omega, hflag.trans ?_⟩
  rw [ne_eq, ← BitVec.toNat_inj, hr]
  exact Nat.pos_iff_ne_zero

/-! ## The search for a marker (R175, R178) -/

/-- Where a search finds a marker, no search from the same bit ends without one. -/
theorem not_searchEnds_of_markerFrom {par : Params} {bs : List Byte} {start p q : Nat} (hm : markerFrom par bs start q) :
    ¬searchEnds par bs start p := by
  rintro ⟨-, hshort, hbefore⟩
  obtain ⟨hq, hfits, hmatch, -⟩ := hm
  rcases Nat.lt_or_ge q p with hlt | hge
  · exact (hbefore q hq hlt).2 hmatch
  · omega

/-- A search without a match ends at one bit only. -/
theorem searchEnds_unique {par : Params} {bs : List Byte} {start p q : Nat} (hp : searchEnds par bs start p)
    (hq : searchEnds par bs start q) : p = q := by
  obtain ⟨hp1, hp2, hp3⟩ := hp
  obtain ⟨hq1, hq2, hq3⟩ := hq
  rcases Nat.lt_trichotomy p q with hlt | heq | hgt
  · have := (hq3 p hp1 hlt).1; omega
  · exact heq
  · have := (hp3 q hq1 hgt).1; omega

/-- SYNC_LEN counts the bits from the lowest 1 of SYNC_MASK up (R43). -/
theorem syncLen_of_lowest {mask : Word} {z : Nat} (hz : mask.getLsbD z = true) (hlow : ∀ k, k < z → mask.getLsbD k = false) :
    syncLen mask = 32 - z := by
  have hlt : z < 32 := by
    by_contra hge
    rw [BitVec.getLsbD_of_ge mask z (by omega)] at hz
    cases hz
  have hfind : (List.range 32).find? (mask.getLsbD ·) = some z :=
    List.find?_range_eq_some.2 ⟨hz, List.mem_range.2 hlt, fun k hk => by simp [hlow k hk]⟩
  rw [syncLen, hfind, Option.getD_some]

/-- The launch checks of a DECODE that passes them change nothing (R172, R173). -/
theorem decodeChecks_gives {env : Env} {e : Engine} {o : DecodeOps} (h : decodeVerdict env.params e.tables o = none) :
    Gives (decodeChecks env o) e () e := (decodeChecks_verdict env e.tables o).gives rfl h

/-- A DECODE that passes its launch checks runs its sequence loop, then its stream is discarded. -/
theorem decodeRule_gives {env : Env} {e e' : Engine} {h : Header} {o : DecodeOps} (hv : decodeVerdict env.params e.tables o = none)
    (hg : Gives (sequencesFrom env h o env.params.seqCount.toNat) e () e') : Gives (decodeRule h o env) e () e'.drain :=
  withStream_gives ((decodeChecks_gives hv).bind hg)

/-- A sequence loop with a budget, on a stream that has ended and holds no marker from here on (R178). -/
theorem sequencesFrom_without_marker {env : Env} {e : Engine} {g : Progress} {p n : Nat} (h : Header) (o : DecodeOps)
    (hmask : env.params.syncMask ≠ 0) (hend : streamEnded e.port = true) (hg : g.pos ≤ 8 * (streamBytes e.port).length) (hn : n ≠ 0)
    (hs : searchEnds env.params (streamBytes e.port) g.pos p) :
    Gives (sequencesFrom env h o n) (progressed e (streamBytes e.port) g false) ()
      (progressed e (streamBytes e.port) { g with pos := p } true) := by
  obtain ⟨n, rfl⟩ := Nat.exists_eq_succ_of_ne_zero hn
  obtain ⟨q, -, ⟨hm, -⟩ | ⟨hq, hrun⟩⟩ := sync_gives hend hmask g hg
  · exact absurd hs (not_searchEnds_of_markerFrom hm)
  · rw [searchEnds_unique hs hq]
    refine hrun.bind ?_
    rw [if_neg Bool.false_ne_true]
    exact Gives.updateEngine _ _

/-- A DECODE that passes its launch checks has a mask (R172). -/
theorem syncMask_of_decodeVerdict {p : Params} {ts : Tables} {o : DecodeOps} (h : decodeVerdict p ts o = none) : p.syncMask ≠ 0 := by
  intro h0
  simp [decodeVerdict, firstFailure, h0] at h

/-- At its launch a DECODE has made no progress (R140, R53). -/
theorem progressed_start (e : Engine) (bs : List Byte) : progressed e bs ⟨0, e.mem, 0, 0, 0⟩ false = launched e := by
  simp [progressed, launched, bytesAt]

/-! ## The statements -/

/-- Settles O33. -/
theorem decodeWithoutMarker : Obligations.DecodeWithoutMarker := by
  unfold Obligations.DecodeWithoutMarker
  refine ⟨fun s h o p hready hv hn hend hs => exec_gives hready ?_, fun mask z => syncLen_of_lowest⟩
  have hbudget : s.params.seqCount.toNat ≠ 0 := by simpa [← BitVec.toNat_inj] using hn
  have hloop := sequencesFrom_without_marker (env := s.env) (g := ⟨0, s.eng.mem, 0, 0, 0⟩) h o (syncMask_of_decodeVerdict hv) hend
    (Nat.zero_le _) hbudget hs
  rw [progressed_start] at hloop
  rw [ruleOf_decodeInstr]
  exact decodeRule_gives hv hloop

/-- Settles O40. -/
theorem decodeCounters : Obligations.DecodeCounters := by
  unfold Obligations.DecodeCounters
  intro s t h o hb hf he
  obtain ⟨e, hdec, heq⟩ := exec_decode_decoding hb hf he
  rw [heq]
  exact hdec.counters

/-- Settles O51. -/
theorem engineFrame : Obligations.EngineFrame := by
  unfold Obligations.EngineFrame
  intro s t i hb hf h
  refine ⟨fun hi => (exec_memOnly hb hf h hi).1, ?_, ?_⟩
  · rintro nt first ept rfl
    obtain ⟨e, ⟨htab, hslots, -⟩, heq⟩ := exec_loadht_tablesOnly hb hf h
    rw [heq]
    exact ⟨by rw [htab], hslots⟩
  · rintro hd o rfl
    obtain ⟨e, ⟨k, m, -, -, hdec, -⟩, heq⟩ := exec_decode_decoding hb hf h
    rw [heq, hdec]
    exact ⟨rfl, rfl⟩

end Sys2Proof.Machine
end

section
/-! SUPPORT and PROOFS. Memory and stream of a launched command: where it may write, what a BUS_ERROR of it names, what an ended one
has discarded, and the statements about them (20_memory.md R86, R87, R90; 60_exceptions.md R281, R282). -/

namespace Sys2Proof.Machine

/-! ## Commands that take a stream (R90) -/

/-- The commands with a stream are LOADHT and the two forms of DECODE. -/
theorem takesStream_cases {i : Instr} (h : takesStream (encode i) = true) :
    (∃ nt first ept, i = .loadht nt first ept) ∨ ∃ hd o, i = decodeInstr hd o := by
  rw [takesStream_encode] at h
  cases i with
  | loadht nt first ept => exact .inl ⟨nt, first, ept, rfl⟩
  | decodeH24 ys c1s c2s pen => exact .inr ⟨.h24, ⟨ys, c1s, c2s, pen⟩, rfl⟩
  | decodeH32 ys c1s c2s pen => exact .inr ⟨.h32, ⟨ys, c1s, c2s, pen⟩, rfl⟩
  | _ => cases h

/-- The ranges a DECODE may write are its enabled planes. -/
theorem writtenRanges_decodeInstr (p : Params) (h : Header) (o : DecodeOps) : writtenRanges p (decodeInstr h o) = o.ranges p := by
  cases h <;> rfl

/-- From e0, memory has changed only within rs and the port not at all. -/
structure KeepsPort (rs : List ByteRange) (e0 e : Engine) : Prop where
  mem : WrittenIn rs e0.mem e.mem
  port : e.port = e0.port
  toDiscard : e.toDiscard = e0.toDiscard

theorem TablesOnly.keepsPort {first nt : Nat} {e0 e : Engine} (h : TablesOnly first nt e0 e) (rs : List ByteRange) :
    KeepsPort rs e0 e := by
  obtain ⟨heq, -, -⟩ := h
  rw [heq]
  exact ⟨.refl rs _, rfl, rfl⟩

theorem DecodingTo.keepsPort {rs : List ByteRange} {n : Nat} {e0 e : Engine} (h : DecodingTo rs e0 n e) : KeepsPort rs e0 e := by
  obtain ⟨k, m, -, -, heq, hmem, -⟩ := h
  exact ⟨hmem, by rw [heq], by rw [heq]⟩

/-- A command with a stream, from its launch to its end: it writes within its ranges, and touches the port only where it discards
the stream at its end. -/
theorem streamCommand_drains (env : Env) {i : Instr} (hi : takesStream (encode i) = true) (L : Option Nat) (e : Engine) :
    ∃ Z, Triple (Held L (· = launched e)) (whileBusy (ruleOf (.command i) env)) (fun _ => Held L (Drained Z))
        (StopsDrained env.plat L Z) ∧
      ∀ e', Z e' → KeepsPort (writtenRanges env.params i) (launched e) e' := by
  obtain ⟨nt, first, ept, rfl⟩ | ⟨h, o, rfl⟩ := takesStream_cases hi
  · exact ⟨_, loadhtRule_drains env nt first ept (launched e), fun _ hz => hz.keepsPort _⟩
  · rw [ruleOf_decodeInstr, writtenRanges_decodeInstr]
    exact ⟨_, decodeRule_drains env h o e, fun _ hz => hz.keepsPort⟩

/-! ## How a launched command stands (40_control.md R141) -/

/-- A command settled with BUSY fallen has ended, normally or by a fault, and none runs. -/
theorem settle_ended {work : Work} {base : Engine} {s t : State} {o : EStateM.Result Stop Run Unit} (hb : s.busy = true)
    (h : settle work base s o = .next t) (ht : t.busy = false) :
    t.running = none ∧ ∃ r, t.eng = r.eng ∧ (o = .ok () r ∨ ∃ f info addr, o = .error (.fault f info addr) r) := by
  obtain ⟨r, ho, rfl⟩ | ⟨f, info, addr, r, ho, rfl⟩ | ⟨r, -, rfl⟩ := settle_next h
  · exact ⟨rfl, r, rfl, .inl ho⟩
  · exact ⟨rfl, r, rfl, .inr ⟨f, info, addr, ho⟩⟩
  · exact absurd (hb.symm.trans ht) (by decide)

/-- Once a launched command has ended, no command runs. -/
theorem exec_ended_running {i : Instr} {s t : State} (hb : s.busy = false) (hf : s.fault = false) (h : exec i s = .next t)
    (ht : t.busy = false) : t.running = none := by
  rw [exec_launched hb hf] at h
  exact (settle_ended rfl h ht).1

/-- A launched command that has ended has discarded its stream. -/
theorem exec_drained {i : Instr} {s t : State} {Z : Engine → Prop} (hb : s.busy = false) (hf : s.fault = false)
    (h : exec i s = .next t) (ht : t.busy = false)
    (hT : Triple (Held s.pace (· = launched s.eng)) (whileBusy (ruleOf (.command i) s.env)) (fun _ => Held s.pace (Drained Z))
      (StopsDrained s.plat s.pace Z)) : Drained Z t.eng := by
  rw [exec_launched hb hf] at h
  obtain ⟨-, r, heng, ho | ⟨f, info, addr, ho⟩⟩ := settle_ended rfl h ht
  · exact heng ▸ (hT.ok ⟨rfl, rfl⟩ ho).1
  · exact heng ▸ (hT.error ⟨rfl, rfl⟩ ho).1

/-- Discarding a stream whose EOS has been delivered leaves what was delivered after it. -/
theorem Drained.port_eq {Z : Engine → Prop} {rs : List ByteRange} {e0 e : Engine} (hZ : ∀ e', Z e' → KeepsPort rs e0 e')
    (hend : streamEnded e0.port = true) (h : Drained Z e) :
    e.port = afterStream e0.port ∧ e.toDiscard = e0.toDiscard := by
  obtain ⟨e', hz, rfl⟩ := h
  obtain ⟨-, hport, hdis⟩ := hZ e' hz
  rw [Engine.drain, hport, if_pos hend]
  exact ⟨rfl, hdis⟩

/-- R90, R144, R282: what the port holds once a command with a stream has ended. -/
theorem exec_ended_port {i : Instr} {s t : State} (hb : s.busy = false) (hf : s.fault = false) (hi : takesStream (encode i) = true)
    (hend : streamEnded s.eng.port = true) (h : exec i s = .next t) (ht : t.busy = false) :
    t.eng.port = afterStream s.eng.port ∧ t.eng.toDiscard = s.eng.toDiscard := by
  obtain ⟨Z, hT, hZ⟩ := streamCommand_drains s.env hi s.pace s.eng
  exact (exec_drained hb hf h ht hT).port_eq (e0 := launched s.eng) hZ hend

/-! ## Memory outside a command's ranges (R87) -/

/-- A launched command, however it ends and wherever it is paused, has written only within its ranges. -/
theorem exec_writtenIn {i : Instr} {s t : State} (hb : s.busy = false) (hf : s.fault = false) (h : exec i s = .next t) :
    WrittenIn (writtenRanges s.params i) s.eng.mem t.eng.mem := by
  cases hi : takesStream (encode i) with
  | false => exact (exec_memOnly hb hf h hi).2
  | true =>
    obtain ⟨Z, hT, hZ⟩ := streamCommand_drains s.env hi s.pace s.eng
    obtain ⟨e', hz, heq⟩ := exec_upToPort hb hf h hT ⟨rfl, rfl⟩
    rw [heq]
    exact (hZ e' hz).mem

/-- Settles O52. -/
theorem commandsWriteOnlyTheirRanges : Obligations.CommandsWriteOnlyTheirRanges := by
  unfold Obligations.CommandsWriteOnlyTheirRanges
  intro s t i a hwf h ha
  by_cases hig : s.busy = true ∨ s.fault = true
  · rw [exec_ignored hig] at h
    cases h
    rfl
  · obtain ⟨hb, hf⟩ : s.busy = false ∧ s.fault = false := by simpa using hig
    exact (exec_writtenIn hb hf h hwf).2 a ha

/-! ## Faults (R86, R281) -/

theorem FaultName.code_range (f : FaultName) : 1 ≤ f.code.toNat ∧ f.code.toNat ≤ 9 := by cases f <;> decide

/-- BUS_ERROR's code is no other fault's (R281). -/
theorem FaultName.eq_busError_of_code {f : FaultName} (h : f.code = FaultName.busError.code) : f = .busError := by
  cases f with
  | busError => rfl
  | _ => exact absurd h (by decide)

/-- Whatever its pace, a command raises BUS_ERROR only for a read or a write of a byte that does not respond (R86). -/
theorem command_busError (env : Env) (i : Instr) (L : Option Nat) (e : Engine) {info addr : Nat} {r : Run}
    (h : whileBusy (ruleOf (.command i) env) ⟨launched e, 0, L⟩ = .error (.fault .busError info addr) r) :
    info ≤ 1 ∧ addr < Config.memSize ∧ env.plat.kindAt addr = .absent := by
  cases hi : takesStream (encode i) with
  | false => exact ((commandRule_writes env hi (launched e)).error ⟨.refl _ _, rfl⟩ h).2 rfl
  | true =>
    obtain ⟨Z, hT, -⟩ := streamCommand_drains env hi L e
    exact (hT.error ⟨rfl, rfl⟩ h).2 rfl

/-- A launched command that has ended with FAULT = 1 has raised a fault in its run. -/
theorem exec_faulted {i : Instr} {s t : State} (hb : s.busy = false) (hf : s.fault = false) (h : exec i s = .next t)
    (ht : t.fault = true) :
    ∃ f info addr r, whileBusy (ruleOf (.command i) s.env) ⟨launched s.eng, 0, s.pace⟩ = .error (.fault f info addr) r ∧
      t.faultCode = f.code ∧ t.faultInfo = BitVec.ofNat 32 info ∧ t.faultAddr = BitVec.ofNat 32 addr := by
  rw [exec_launched hb hf] at h
  obtain ⟨r, -, rfl⟩ | ⟨f, info, addr, r, ho, rfl⟩ | ⟨r, -, rfl⟩ := settle_next h
  · exact absurd (hf.symm.trans ht) (by decide)
  · exact ⟨f, info, addr, r, ho, rfl, rfl, rfl⟩
  · exact absurd (hf.symm.trans ht) (by decide)

/-- Settles O55. -/
theorem busErrorNamesAnAbsentByte : Obligations.BusErrorNamesAnAbsentByte := by
  unfold Obligations.BusErrorNamesAnAbsentByte
  refine ⟨⟨rfl, rfl, rfl, rfl, rfl, rfl, rfl, rfl, rfl⟩, fun s t i hb hf h ht => ?_⟩
  obtain ⟨f, info, addr, r, hrun, hcode, hinfo, haddr⟩ := exec_faulted hb hf h ht
  rw [hcode, hinfo, haddr]
  refine ⟨f.code_range, fun hbus => ?_⟩
  obtain rfl := FaultName.eq_busError_of_code hbus
  obtain ⟨h1, hlt, habs⟩ := command_busError s.env i s.pace s.eng hrun
  refine ⟨?_, ?_⟩
  · interval_cases info
    · exact .inl rfl
    · exact .inr rfl
  · rw [BitVec.toNat_ofNat, Nat.mod_eq_of_lt (show addr < 2 ^ 32 from hlt)]
    exact habs

end Sys2Proof.Machine
end

section
/-! SUPPORT and PROOFS. The host's deliveries on the stream port, its accesses to data memory and its refused register accesses, and the
statements about them (20_memory.md R81, R88, R90, R94, R95; 70_reset_and_hazards.md R320, R342 to R344). -/

namespace Sys2Proof.Machine

/-! ## Several deliveries (R90, R344) -/

/-- Several deliveries to the engine's data; `deliverAll_eq` ties it to the host's `deliverAll`. -/
def Engine.deliverAll (items : List PortItem) (e : Engine) : Engine := items.foldl (fun e x => e.deliver x) e

theorem deliverAll_in_reset {s : State} (h : s.resetLine = true) (items : List PortItem) : deliverAll items s = s := by
  induction items with
  | nil => rfl
  | cons x rest ih => rw [deliverAll, List.foldl_cons, deliver_in_reset h]; exact ih

theorem updateBoth_id (s : State) : updateBoth (fun e => e) s = s := by
  simp [updateBoth]

theorem updateBoth_updateBoth (f g : Engine → Engine) (s : State) :
    updateBoth g (updateBoth f s) = updateBoth (fun e => g (f e)) s := by
  simp [updateBoth, Function.comp_def]

/-- Out of reset, deliveries reach the engine's data and that of a running command's launch alike. -/
theorem deliverAll_eq {s : State} (h : s.resetLine = false) (items : List PortItem) :
    deliverAll items s = updateBoth (Engine.deliverAll items) s := by
  induction items generalizing s with
  | nil => exact (updateBoth_id s).symm
  | cons x rest ih =>
    have hcons : deliverAll (x :: rest) s = deliverAll rest (updateBoth (Engine.deliver x) s) := by
      rw [← deliver_to_block h]
      rfl
    rw [hcons, ih (by exact h), updateBoth_updateBoth]
    rfl

/-- With no EOS outstanding, deliveries join the end of what the port holds. -/
theorem Engine.deliverAll_joins {e : Engine} (h : e.toDiscard = 0) (items : List PortItem) :
    e.deliverAll items = { e with port := e.port ++ items } := by
  induction items generalizing e with
  | nil => rw [List.append_nil]; rfl
  | cons x rest ih =>
    rw [Engine.deliverAll, List.foldl_cons, Engine.deliver_joins h]
    exact (ih (by exact h)).trans (by simp)

/-- Bytes are discarded up to and including an outstanding EOS (assumption log 8). -/
theorem Engine.deliverAll_discarded {e : Engine} {n : Nat} (h : e.toDiscard = n + 1) (bytes : List Byte) :
    e.deliverAll (bytes.map .byte ++ [.eos]) = { e with toDiscard := n } := by
  induction bytes with
  | nil => exact Engine.deliver_eos_discarded h
  | cons b rest ih =>
    rw [List.map_cons, List.cons_append, Engine.deliverAll, List.foldl_cons, Engine.deliver_byte_discarded h]
    exact ih

/-! ## The stream of a port (R90) -/

/-- A port without an EOS holds bytes alone. -/
theorem port_eq_of_open {port : List PortItem} (h : streamEnded port = false) : port = (streamBytes port).map .byte := by
  induction port with
  | nil => rfl
  | cons x rest ih =>
    cases x with
    | eos => cases h
    | byte b => rw [streamBytes_byte, List.map_cons, ← ih h]

/-- Bytes, an EOS and what comes after it. -/
theorem stream_of_bytes_eos (bs : List Byte) (rest : List PortItem) :
    streamBytes (bs.map .byte ++ .eos :: rest) = bs ∧ streamEnded (bs.map .byte ++ .eos :: rest) = true ∧
      afterStream (bs.map .byte ++ .eos :: rest) = rest := by
  induction bs with
  | nil => exact ⟨rfl, rfl, rfl⟩
  | cons b bs ih =>
    obtain ⟨hbytes, hended, hafter⟩ := ih
    exact ⟨congrArg (b :: ·) hbytes, hended, hafter⟩

/-- The stream of an open port after the bytes up to its EOS have joined it. -/
theorem stream_of_joined {port : List PortItem} (h : streamEnded port = false) (bytes : List Byte) (rest : List PortItem) :
    let joined := port ++ (bytes.map .byte ++ .eos :: rest)
    streamBytes joined = streamBytes port ++ bytes ∧ streamEnded joined = true ∧ afterStream joined = rest := by
  have hjoin : port ++ (bytes.map .byte ++ .eos :: rest) = (streamBytes port ++ bytes).map .byte ++ .eos :: rest := by
    rw [List.map_append, ← port_eq_of_open h, List.append_assoc]
  rw [hjoin]
  exact stream_of_bytes_eos _ rest

/-- Settles O53. -/
theorem endedCommandDiscardsItsStream : Obligations.EndedCommandDiscardsItsStream := by
  unfold Obligations.EndedCommandDiscardsItsStream
  refine ⟨fun s t i hb hf hi hend h ht => exec_ended_port hb hf hi hend h ht, fun s b => ⟨rfl, rfl⟩,
    fun s items hr => deliverAll_in_reset hr items, fun s items hr hdis => ?_, fun s bytes rest hr hdis hopen => ?_,
    fun s bytes n hr hdis => ?_⟩
  · rw [deliverAll_eq hr, ← Engine.deliverAll_joins hdis]
    refine ⟨rfl, fun hrun => by rw [updateBoth_running, hrun]; rfl, fun c hc hcdis => ?_⟩
    rw [updateBoth_running, hc, ← Engine.deliverAll_joins hcdis]
    rfl
  · rw [deliverAll_eq hr, updateBoth_eng, Engine.deliverAll_joins hdis]
    exact stream_of_joined hopen bytes rest
  · rw [deliverAll_eq hr, updateBoth_eng, Engine.deliverAll_discarded hdis]

/-! ## A command that goes on (R94, R142; assumption log 7) -/

/-- A launched command that still runs has been paused, and keeps the engine's data of its launch. -/
theorem exec_still_runs {i : Instr} {s t : State} (hb : s.busy = false) (hf : s.fault = false) (h : exec i s = .next t)
    (ht : t.busy = true) :
    ∃ e n, t = { launchState (encode i) s with eng := e, running := some ⟨.command i, launched s.eng, n⟩ } := by
  rw [exec_launched hb hf] at h
  obtain ⟨r, -, rfl⟩ | ⟨f, info, addr, r, -, rfl⟩ | ⟨r, -, rfl⟩ := settle_next h
  · cases ht
  · cases ht
  · exact ⟨r.eng, r.spent, rfl⟩

/-- A command run on to its end starts anew from the engine's data of its launch. -/
theorem proceed_none_of_running {s : State} {c : Running} (h : s.running = some c) :
    proceed none s = settle c.work c.base s (whileBusy (ruleOf c.work s.env) ⟨c.base, 0, none⟩) := by
  rw [proceed, h]
  rfl

/-- What a command has come to does not depend on the engine's data or the command that the state showed before, nor, but for the
pace itself, on the pace. -/
theorem settle_withPace (work : Work) (base : Engine) (s : State) (e : Engine) (c : Option Running) (p : Option Nat)
    (o : EStateM.Result Stop Run Unit) :
    settle work base { s with eng := e, running := c, pace := p } o = withPace p (settle work base s o) := by
  match o with
  | .ok _ r => rfl
  | .error (.fault f info addr) r => rfl
  | .error .pause r => rfl
  | .error (.refuse why) r => rfl

/-- Settles O56: both sides settle one unpaced run of the command's rule, from the launch and over the same stream. -/
theorem lateDeliveryDoesNotMatter : Obligations.LateDeliveryDoesNotMatter := by
  unfold Obligations.LateDeliveryDoesNotMatter
  intro s t i items hb hf hr hdis h ht
  obtain ⟨e, n, rfl⟩ := exec_still_runs hb hf h ht
  have hlaunch : launched (s.eng.deliverAll items) = (launched s.eng).deliverAll items := by
    rw [Engine.deliverAll_joins hdis, Engine.deliverAll_joins (by exact hdis)]
    rfl
  rw [deliverAll_eq (by exact hr), deliverAll_eq (by exact hr), proceed_none_of_running rfl, exec_launched (by exact hb) (by exact hf),
    ← settle_withPace (e := e.deliverAll items) (c := some ⟨.command i, (launched s.eng).deliverAll items, n⟩)]
  simp only [updateBoth_eng, hlaunch]
  rfl

/-! ## The host's accesses to data memory (R88, R95, R342) -/

theorem storesByte_write {m : Memory} (h : m.wf) (a : Nat) (b : Byte) : storesByte a b m (m.write a b) := fun x => by
  rw [Memory.read_write h.1]
  exact if_congr eq_comm rfl rfl

theorem outsideBuffers_of_idle {s : State} (h : s.running = none) (a : Nat) : outsideBuffers s a := fun c i hc => by
  rw [h] at hc
  cases hc

/-- In a legal state with BUSY = 0 no command runs. -/
theorem running_of_idle {s : State} (hw : s.wf) (hb : s.busy = false) : s.running = none := by
  obtain ⟨⟨hbusy, -⟩, -⟩ := hw
  simpa using hbusy.symm.trans hb

theorem hostAct_memRead_outside {s : State} {a : Word} (h : outsideBuffers s a.toNat) :
    hostAct (.memRead a) s = .next { s with busRead := (s.eng.mem.read a.toNat).setWidth 32 } := by
  rw [hostAct, hostMemRead, inUse_of_outside h, if_neg Bool.false_ne_true]

theorem hostAct_memWrite_outside {s : State} {a : Word} (h : outsideBuffers s a.toNat) (b : Byte) :
    hostAct (.memWrite a b) s = .next (updateBoth (fun e => { e with mem := e.mem.write a.toNat b }) s) := by
  rw [hostAct, hostMemWrite, inUse_of_outside h, if_neg Bool.false_ne_true]

/-- An access to a running command's buffers (R342; assumption log 18). -/
theorem hostAct_mem_inUse {s : State} {a : Word} (h : inUse s a.toNat = true) (b : Byte) :
    hostAct (.memRead a) s = .refused .hostBufferAccess ∧ hostAct (.memWrite a b) s = .refused .hostBufferAccess :=
  ⟨if_pos h, if_pos h⟩

/-- A step whose next host action is a write of data memory while no command runs. -/
theorem step_memWrite_idle {s : State} {a : Word} {b : Byte} {rest : List HostEvent} (hin : s.inbox = .memWrite a b :: rest)
    (hrun : s.running = none) :
    step s = .next { s with eng := { s.eng with mem := s.eng.mem.write a.toNat b }, inbox := rest } := by
  rw [step, hin]
  dsimp only
  rw [hostAct_memWrite_outside (outsideBuffers_of_idle (by exact hrun) _), updateBoth_idle _ _ (by exact hrun)]

/-- Settles O59. -/
theorem hostMemoryAccesses : Obligations.HostMemoryAccesses := by
  unfold Obligations.HostMemoryAccesses
  refine ⟨?_, fun s a hout => hostAct_memRead_outside hout, ?_, ?_, ?_⟩
  · rintro s c i a b hc hi ⟨ρ, hρ, ha⟩
    exact hostAct_mem_inUse (inUse_of_inside hc hi hρ ha) b
  · rintro s a b ⟨-, ⟨hmem, -⟩, hbase⟩ hout
    refine ⟨_, hostAct_memWrite_outside hout b, storesByte_write hmem _ b, rfl, fun hrun => ?_, fun c hc => ?_⟩
    · rw [updateBoth_running, hrun]
      rfl
    · obtain ⟨⟨hcmem, -⟩, -⟩ := hbase c hc
      exact ⟨_, by rw [updateBoth_running, hc]; rfl, storesByte_write hcmem _ b⟩
  · intro s a b w i rest hw hb hr hin hi
    have ⟨_, ⟨hmem, _⟩, _⟩ := hw
    exact ⟨_, storesByte_write hmem _ b, step_memWrite_idle hin (running_of_idle hw hb),
      (step_cmd rfl (by exact hr)).trans (commandWrite_ok hi _)⟩
  · intro s t i a hb hf h ht
    exact hostAct_memRead_outside (outsideBuffers_of_idle (exec_ended_running hb hf h ht) _)

/-! ## Refused register accesses (R81, R320) -/

/-- Out of reset an access of another width or alignment has no answer. -/
theorem whenAnswered_refused {s : State} {off : BitVec 12} {width : Width} (hr : s.resetLine = false)
    (h : width ≠ .word ∨ off.toNat % 4 ≠ 0) (answer : Host.Outcome State Fault Refusal) :
    whenAnswered off width s answer = .refused .registerAccess := by
  have hno : ¬accessAllowed off width = true := by
    simpa [accessAllowed, ← not_and_or] using h
  rw [whenAnswered, hr, if_neg Bool.false_ne_true, if_neg hno]

/-- Settles O11. -/
theorem otherRegisterAccessesRefused : Obligations.OtherRegisterAccessesRefused := by
  unfold Obligations.OtherRegisterAccessesRefused
  exact ⟨fun s off width hr h => ⟨whenAnswered_refused hr h _, fun v => whenAnswered_refused hr h _⟩,
    fun s off width hr => ⟨whenAnswered_held hr off width _, fun v => whenAnswered_held hr off width _⟩⟩

end Sys2Proof.Machine
end

section
/-! SUPPORT and PROOFS. Command words: fields read back from the places they were put in, the encoder and the decoder said through fields,
which words are illegal, and the statements about command words (30_encoding.md R100 to R108; 60_exceptions.md R283, steps 2 to 4). -/

namespace Sys2Proof.Machine

/-! ## Fields of a word (R8, R100) -/

theorem getLsbD_wordField (w : Word) (lo len k : Nat) :
    (wordField w lo len).getLsbD k = (decide (k < len) && w.getLsbD (lo + k)) :=
  BitVec.getLsbD_extractLsb' ..

theorem getLsbD_placeField {len : Nat} (v : BitVec len) (lo k : Nat) :
    (placeField v lo).getLsbD k = (decide (k < 32) && decide (lo ≤ k) && v.getLsbD (k - lo)) := by
  rw [placeField, BitVec.getLsbD_shiftLeft, BitVec.getLsbD_setWidth]
  by_cases h : k < 32
  · simp only [h, show k - lo < 32 by omega, decide_true, Bool.true_and, ← decide_not, Nat.not_lt]
  · simp only [h, decide_false, Bool.false_and]

theorem wordField_toNat (w : Word) (lo len : Nat) : (wordField w lo len).toNat = w.toNat / 2 ^ lo % 2 ^ len := by
  rw [wordField, BitVec.extractLsb'_toNat, Nat.shiftRight_eq_div_pow]

@[simp] theorem wordField_or (a b : Word) (lo len : Nat) : wordField (a ||| b) lo len = wordField a lo len ||| wordField b lo len :=
  BitVec.extractLsb'_or

theorem placeField_zero (len lo : Nat) : placeField 0#len lo = 0#32 := by
  simp [placeField]

/-- A field reads back what was put in its place. -/
@[simp] theorem wordField_placeField {len : Nat} (v : BitVec len) (lo : Nat) (h : lo + len ≤ 32) :
    wordField (placeField v lo) lo len = v :=
  BitVec.eq_of_getLsbD_eq fun k hk => by
    rw [getLsbD_wordField, getLsbD_placeField, Nat.add_sub_cancel_left]
    simp only [hk, Nat.le_add_right, show lo + k < 32 by omega, decide_true, Bool.true_and]

/-- A field reads nothing of another one's place. -/
@[simp] theorem wordField_placeField_disjoint {len : Nat} (v : BitVec len) (p lo n : Nat) (h : lo + n ≤ p ∨ p + len ≤ lo) :
    wordField (placeField v p) lo n = 0 := by
  refine BitVec.eq_of_getLsbD_eq fun k hk => ?_
  rcases h with h | h
  · simp [getLsbD_wordField, getLsbD_placeField, show ¬p ≤ lo + k by omega]
  · simp [getLsbD_wordField, getLsbD_placeField, BitVec.getLsbD_of_ge v (lo + k - p) (by omega)]

/-- A one-bit field is a bit. -/
theorem wordField_one (w : Word) (lo : Nat) : wordField w lo 1 = BitVec.ofBool (w.getLsbD lo) :=
  BitVec.eq_of_getLsbD_eq fun k hk => by
    obtain rfl : k = 0 := by omega
    rw [getLsbD_wordField, BitVec.getLsbD_ofBool]
    simp only [hk, Nat.add_zero, decide_true, Bool.true_and]

theorem getLsbD_eq_iff_field (w : Word) (lo : Nat) (b : Bool) : w.getLsbD lo = b ↔ wordField w lo 1 = BitVec.ofBool b := by
  rw [wordField_one]
  cases b <;> cases w.getLsbD lo <;> decide

theorem zeroAbove_iff (w : Word) (lo : Nat) : zeroAbove w lo = true ↔ ∀ k, lo ≤ k → w.getLsbD k = false := by
  rw [zeroAbove, beq_iff_eq]
  constructor
  · intro h k hk
    have hbit := congrArg (·.getLsbD (k - lo)) h
    simpa [show lo + (k - lo) = k by omega] using hbit
  · exact fun h => BitVec.eq_of_getLsbD_eq fun k _ => by simp [h (lo + k) (by omega)]

@[simp] theorem zeroAbove_or (a b : Word) (lo : Nat) : zeroAbove (a ||| b) lo = (zeroAbove a lo && zeroAbove b lo) := by
  rw [Bool.eq_iff_iff, Bool.and_eq_true]
  simp only [zeroAbove_iff, BitVec.getLsbD_or, Bool.or_eq_false_iff]
  exact ⟨fun h => ⟨fun k hk => (h k hk).1, fun k hk => (h k hk).2⟩, fun h k hk => ⟨h.1 k hk, h.2 k hk⟩⟩

@[simp] theorem zeroAbove_placeField {len : Nat} (v : BitVec len) (p lo : Nat) (h : p + len ≤ lo) :
    zeroAbove (placeField v p) lo = true :=
  (zeroAbove_iff _ _).2 fun k hk => by simp [getLsbD_placeField, BitVec.getLsbD_of_ge v (k - p) (by omega)]

/-- The low n bits of a word, the rest 0. -/
def lowBits (w : Word) (n : Nat) : Word := placeField (wordField w 0 n) 0

@[simp] theorem placeField_lowest (w : Word) (n : Nat) : placeField (wordField w 0 n) 0 = lowBits w n := rfl

theorem getLsbD_lowBits (w : Word) (n k : Nat) : (lowBits w n).getLsbD k = (decide (k < n) && w.getLsbD k) := by
  rw [lowBits, getLsbD_placeField, getLsbD_wordField, Nat.zero_add, Nat.sub_zero]
  by_cases hk : k < 32
  · simp [hk]
  · simp [hk, BitVec.getLsbD_of_ge w k (by omega)]

/-- The next field of a word joined to the bits below it. -/
@[simp] theorem lowBits_join (w : Word) (m n : Nat) : lowBits w m ||| placeField (wordField w m n) m = lowBits w (m + n) := by
  refine BitVec.eq_of_getLsbD_eq fun k hk => ?_
  rw [BitVec.getLsbD_or, getLsbD_lowBits, getLsbD_lowBits, getLsbD_placeField, getLsbD_wordField]
  by_cases h : k < m
  · simp [h, show k < m + n by omega]
  · simp [h, hk, show m ≤ k by omega, show m + (k - m) = k by omega, show k - m < n ↔ k < m + n by omega]

/-- A word whose bits above its last field are 0 is its fields joined. -/
theorem lowBits_of_zeroAbove {w : Word} {n : Nat} (h : zeroAbove w n = true) : lowBits w n = w := by
  refine BitVec.eq_of_getLsbD_eq fun k _ => ?_
  rw [getLsbD_lowBits]
  by_cases hkn : k < n
  · simp [hkn]
  · simp [(zeroAbove_iff w n).1 h k (by omega)]

/-! ## The encoder: each command's word is its fields at their places, the fixed ones among them (R101 to R106) -/

theorem encode_nop : encode .nop = placeField 0#4 0 := by decide

theorem encode_loadht (nt first : BitVec 2) (ept : Bool) : encode (.loadht nt first ept) =
    placeField 1#4 0 ||| placeField nt 4 ||| placeField first 6 ||| placeField (BitVec.ofBool ept) 8 := rfl

theorem encode_clear (k : SlotIx) : encode (.clear k) = placeField 2#4 0 ||| placeField k 4 := rfl

/-- DECODE's fields in the order of their places (R104). -/
def decodeWord (hdr : Bool) (ys c1s c2s : SlotIx) (pen : BitVec 3) : Word :=
  placeField 3#4 0 ||| placeField (BitVec.ofBool hdr) 4 ||| placeField ys 5 ||| placeField c1s 8 ||| placeField c2s 11 |||
    placeField pen 14

theorem encode_decodeH24 (ys c1s c2s : SlotIx) (pen : BitVec 3) :
    encode (.decodeH24 ys c1s c2s pen) = decodeWord false ys c1s c2s pen := rfl

theorem encode_decodeH32 (ys c1s c2s : SlotIx) (pen : BitVec 3) :
    encode (.decodeH32 ys c1s c2s pen) = decodeWord true ys c1s c2s pen := rfl

/-- UPRES's fields in the order of their places, MODE the last (R105). -/
def upresWord (mode : BitVec 2) (src dst dlt : SlotIx) : Word :=
  placeField 4#4 0 ||| placeField src 4 ||| placeField dst 7 ||| placeField dlt 10 ||| placeField mode 13

theorem encode_upresBl (src dst : SlotIx) : encode (.upresBl src dst) = upresWord 0#2 src dst 0#3 := by
  rw [encode, upresWord, placeField_zero, placeField_zero, BitVec.or_zero, BitVec.or_zero]
  rfl

theorem encode_upresAdd (src dst dlt : SlotIx) : encode (.upresAdd src dst dlt) = upresWord 1#2 src dst dlt := by
  rw [encode, upresWord, show (0x2004#32 : Word) = placeField 4#4 0 ||| placeField 1#2 13 from rfl]
  ac_rfl

theorem encode_upresNn (src dst : SlotIx) : encode (.upresNn src dst) = upresWord 2#2 src dst 0#3 := by
  rw [encode, upresWord, placeField_zero, BitVec.or_zero, show (0x4004#32 : Word) = placeField 4#4 0 ||| placeField 2#2 13 from rfl]
  ac_rfl

theorem encode_convert (ys c1s c2s : SlotIx) : encode (.convert ys c1s c2s) =
    placeField 5#4 0 ||| placeField ys 4 ||| placeField c1s 7 ||| placeField c2s 10 := rfl

/-! ## The decoder: one equation per command and per kind of illegal word (R101 to R108) -/

theorem opcode_cases (w : Word) : wordField w 0 4 = 0#4 ∨ wordField w 0 4 = 1#4 ∨ wordField w 0 4 = 2#4 ∨ wordField w 0 4 = 3#4 ∨
    wordField w 0 4 = 4#4 ∨ wordField w 0 4 = 5#4 ∨ 6 ≤ (wordField w 0 4).toNat := by
  generalize wordField w 0 4 = op
  revert op
  decide

theorem mode_cases (w : Word) :
    wordField w 13 2 = 0#2 ∨ wordField w 13 2 = 1#2 ∨ wordField w 13 2 = 2#2 ∨ wordField w 13 2 = 3#2 := by
  generalize wordField w 13 2 = mode
  revert mode
  decide

theorem hdr_cases (w : Word) : wordField w 4 1 = BitVec.ofBool false ∨ wordField w 4 1 = BitVec.ofBool true := by
  generalize wordField w 4 1 = hdr
  revert hdr
  decide

section Equations

variable {w : Word}

theorem decode_nop (h : wordField w 0 4 = 0#4) : decode w = if zeroAbove w 4 then .ok .nop else .error .reservedBit := by
  rw [decode, h]
  rfl

theorem decode_loadht (h : wordField w 0 4 = 1#4) : decode w =
    if zeroAbove w 9 then .ok (.loadht (wordField w 4 2) (wordField w 6 2) (w.getLsbD 8)) else .error .reservedBit := by
  rw [decode, h]
  rfl

theorem decode_clear (h : wordField w 0 4 = 2#4) : decode w =
    if zeroAbove w 7 then .ok (.clear (wordField w 4 3)) else .error .reservedBit := by
  rw [decode, h]
  rfl

theorem decode_decodeH24 (h : wordField w 0 4 = 3#4) (hdr : wordField w 4 1 = BitVec.ofBool false) : decode w =
    if zeroAbove w 17 then .ok (.decodeH24 (wordField w 5 3) (wordField w 8 3) (wordField w 11 3) (wordField w 14 3))
    else .error .reservedBit := by
  rw [decode, h, (getLsbD_eq_iff_field w 4 false).2 hdr]
  cases zeroAbove w 17 <;> rfl

theorem decode_decodeH32 (h : wordField w 0 4 = 3#4) (hdr : wordField w 4 1 = BitVec.ofBool true) : decode w =
    if zeroAbove w 17 then .ok (.decodeH32 (wordField w 5 3) (wordField w 8 3) (wordField w 11 3) (wordField w 14 3))
    else .error .reservedBit := by
  rw [decode, h, (getLsbD_eq_iff_field w 4 true).2 hdr]
  cases zeroAbove w 17 <;> rfl

theorem decode_upres (h : wordField w 0 4 = 4#4) : decode w = decodeUpres w := by
  rw [decode, h]
  rfl

/-- UPRES.BL's reserved bits are those above MODE, and DLT. -/
theorem decode_upresBl (h : wordField w 0 4 = 4#4) (hm : wordField w 13 2 = 0#2) : decode w =
    if zeroAbove w 15 ∧ wordField w 10 3 = 0#3 then .ok (.upresBl (wordField w 4 3) (wordField w 7 3)) else .error .reservedBit := by
  rw [decode_upres h, decodeUpres, hm]
  cases zeroAbove w 15 <;> simp

theorem decode_upresAdd (h : wordField w 0 4 = 4#4) (hm : wordField w 13 2 = 1#2) : decode w =
    if zeroAbove w 15 then .ok (.upresAdd (wordField w 4 3) (wordField w 7 3) (wordField w 10 3)) else .error .reservedBit := by
  rw [decode_upres h, decodeUpres, hm]
  cases zeroAbove w 15 <;> simp

theorem decode_upresNn (h : wordField w 0 4 = 4#4) (hm : wordField w 13 2 = 2#2) : decode w =
    if zeroAbove w 15 ∧ wordField w 10 3 = 0#3 then .ok (.upresNn (wordField w 4 3) (wordField w 7 3)) else .error .reservedBit := by
  rw [decode_upres h, decodeUpres, hm]
  cases zeroAbove w 15 <;> simp

/-- UPRES MODE = 3 (43_upsampler.md R227). -/
theorem decode_reservedMode (h : wordField w 0 4 = 4#4) (hm : wordField w 13 2 = 3#2) : decode w =
    if zeroAbove w 15 then .error .illegalField else .error .reservedBit := by
  rw [decode_upres h, decodeUpres, hm]
  cases zeroAbove w 15 <;> simp

theorem decode_convert (h : wordField w 0 4 = 5#4) : decode w =
    if zeroAbove w 13 then .ok (.convert (wordField w 4 3) (wordField w 7 3) (wordField w 10 3)) else .error .reservedBit := by
  rw [decode, h]
  rfl

theorem decode_reservedOp (h : 6 ≤ (wordField w 0 4).toNat) : decode w = .error .reservedOp := by
  unfold decode
  split
  case h_7 => rfl
  all_goals omega

end Equations

/-- What has passed a word check. -/
theorem of_checked_ok {c : Prop} [Decidable c] {i j : Instr} {why : DecodeError}
    (h : (if c then .ok j else .error why : Except DecodeError Instr) = .ok i) : c ∧ j = i := by
  split at h
  · next hc => exact ⟨hc, Except.ok.inj h⟩
  · cases h

/-! ## Round trips (R100 to R107) -/

/-- Settles O14: the decoder finds each field where the encoder put it, and the reserved bits 0. Each case takes the command's word
as its fields joined, and the decoder's equation for it; the simp lemmas about fields answer what is left. -/
theorem decodeEncode : Obligations.DecodeEncode := by
  unfold Obligations.DecodeEncode
  intro i
  cases i with
  | nop => rw [encode_nop, decode_nop] <;> simp
  | loadht nt first ept =>
    have hept : (encode (.loadht nt first ept)).getLsbD 8 = ept := by
      rw [getLsbD_eq_iff_field, encode_loadht]
      simp
    rw [decode_loadht, hept] <;> simp [encode_loadht]
  | clear k => rw [encode_clear, decode_clear] <;> simp
  | decodeH24 ys c1s c2s pen => rw [encode_decodeH24, decodeWord, decode_decodeH24] <;> simp
  | decodeH32 ys c1s c2s pen => rw [encode_decodeH32, decodeWord, decode_decodeH32] <;> simp
  | upresBl src dst => rw [encode_upresBl, upresWord, decode_upresBl] <;> simp
  | upresAdd src dst dlt => rw [encode_upresAdd, upresWord, decode_upresAdd] <;> simp
  | upresNn src dst => rw [encode_upresNn, upresWord, decode_upresNn] <;> simp
  | convert ys c1s c2s => rw [encode_convert, decode_convert] <;> simp

theorem decodeWord_fields {w : Word} {hdr : Bool} (hop : wordField w 0 4 = 3#4) (hhdr : wordField w 4 1 = BitVec.ofBool hdr)
    (hz : zeroAbove w 17 = true) :
    decodeWord hdr (wordField w 5 3) (wordField w 8 3) (wordField w 11 3) (wordField w 14 3) = w := by
  rw [decodeWord, ← hop, ← hhdr]
  simp [lowBits_of_zeroAbove hz]

/-- An UPRES word with no reserved bit set above MODE is its fields joined. -/
theorem upresWord_fields {w : Word} (hop : wordField w 0 4 = 4#4) (hz : zeroAbove w 15 = true) :
    upresWord (wordField w 13 2) (wordField w 4 3) (wordField w 7 3) (wordField w 10 3) = w := by
  rw [upresWord, ← hop]
  simp [lowBits_of_zeroAbove hz]

/-- Settles O15: a word that decodes has its reserved bits 0, so it is its fields joined. -/
theorem encodeDecode : Obligations.EncodeDecode := by
  unfold Obligations.EncodeDecode
  intro w i h
  rcases opcode_cases w with hop | hop | hop | hop | hop | hop | hop
  · rw [decode_nop hop] at h
    obtain ⟨hz, rfl⟩ := of_checked_ok h
    rw [encode_nop, ← hop, placeField_lowest, lowBits_of_zeroAbove hz]
  · rw [decode_loadht hop] at h
    obtain ⟨hz, rfl⟩ := of_checked_ok h
    rw [encode_loadht, ← wordField_one, ← hop]
    simp [lowBits_of_zeroAbove hz]
  · rw [decode_clear hop] at h
    obtain ⟨hz, rfl⟩ := of_checked_ok h
    rw [encode_clear, ← hop]
    simp [lowBits_of_zeroAbove hz]
  · rcases hdr_cases w with hdr | hdr
    · rw [decode_decodeH24 hop hdr] at h
      obtain ⟨hz, rfl⟩ := of_checked_ok h
      rw [encode_decodeH24, decodeWord_fields hop hdr hz]
    · rw [decode_decodeH32 hop hdr] at h
      obtain ⟨hz, rfl⟩ := of_checked_ok h
      rw [encode_decodeH32, decodeWord_fields hop hdr hz]
  · rcases mode_cases w with hm | hm | hm | hm
    · rw [decode_upresBl hop hm] at h
      obtain ⟨⟨hz, hdlt⟩, rfl⟩ := of_checked_ok h
      rw [encode_upresBl, ← hm, ← hdlt, upresWord_fields hop hz]
    · rw [decode_upresAdd hop hm] at h
      obtain ⟨hz, rfl⟩ := of_checked_ok h
      rw [encode_upresAdd, ← hm, upresWord_fields hop hz]
    · rw [decode_upresNn hop hm] at h
      obtain ⟨⟨hz, hdlt⟩, rfl⟩ := of_checked_ok h
      rw [encode_upresNn, ← hm, ← hdlt, upresWord_fields hop hz]
    · rw [decode_reservedMode hop hm] at h
      split at h <;> cases h
  · rw [decode_convert hop] at h
    obtain ⟨hz, rfl⟩ := of_checked_ok h
    rw [encode_convert, ← hop]
    simp [lowBits_of_zeroAbove hz]
  · rw [decode_reservedOp hop] at h
    cases h

/-! ## Illegal words (R108; 60_exceptions.md R283, steps 2 to 4) -/

/-- FAULT_INFO of the word check that fails, counting LOADHT's launch check of its field values (assumption log 21). -/
def wordFault : Except DecodeError Instr → Option Nat
  | .error why => some (rejectInfo why)
  | .ok i => if i.wellFormed then none else some 2

/-- R283's step 4 for LOADHT's NT and FIRST and UPRES's MODE; `illegalWord_fields` ties it to the statements' `illegalWord`. -/
def fieldFault (w : Word) (op : BitVec 4) : Option Nat :=
  if op = 1#4 ∧ (wordField w 4 2 = 0#2 ∨ wordField w 6 2 = 3#2 ∨ 3 < (wordField w 6 2).toNat + (wordField w 4 2).toNat) then some 2
  else if op = 4#4 ∧ wordField w 13 2 = 3#2 then some 2
  else none

/-- `illegalWord` said through the decoder's fields. -/
theorem illegalWord_fields (w : Word) : illegalWord w =
    if 6 ≤ (wordField w 0 4).toNat then some 0
    else if w &&& reservedBits (wordField w 0 4).toNat (wordField w 13 2).toNat ≠ 0 then some 1
    else fieldFault w (wordField w 0 4) := by
  simp only [fieldFault, ← BitVec.toNat_inj, wordField_toNat, Nat.pow_zero, Nat.div_one]
  rfl

/-- A mask of one field's bits keeps that field. -/
theorem and_placeField_allOnes (w : Word) (lo len : Nat) :
    w &&& placeField (BitVec.allOnes len) lo = placeField (wordField w lo len) lo := by
  refine BitVec.eq_of_getLsbD_eq fun k hk => ?_
  rw [BitVec.getLsbD_and, getLsbD_placeField, getLsbD_placeField, getLsbD_wordField, BitVec.getLsbD_allOnes]
  by_cases h : lo ≤ k
  · simp [h, hk, show lo + (k - lo) = k by omega, Bool.and_comm]
  · simp [h]

theorem placeField_eq_zero_iff {len lo : Nat} (v : BitVec len) (h : lo + len ≤ 32) : placeField v lo = 0 ↔ v = 0 := by
  constructor
  · intro hv
    rw [← wordField_placeField v lo h, hv]
    exact BitVec.extractLsb'_zero
  · rintro rfl
    exact placeField_zero len lo

theorem zeroAbove_iff_field (w : Word) (lo : Nat) : zeroAbove w lo = true ↔ wordField w lo (32 - lo) = 0 := by
  rw [zeroAbove_iff]
  constructor
  · exact fun h => BitVec.eq_of_getLsbD_eq fun k _ => by rw [getLsbD_wordField, h _ (by omega)]; simp
  · intro h k hk
    by_cases hlt : k < 32
    · have hbit := congrArg (·.getLsbD (k - lo)) h
      simp only [getLsbD_wordField, show lo + (k - lo) = k by omega, show k - lo < 32 - lo by omega] at hbit
      simpa using hbit
    · exact BitVec.getLsbD_of_ge w k (by omega)

/-- A mask of all the bits from lo up finds what `zeroAbove` finds. -/
theorem and_above_eq_zero_iff (w : Word) (lo : Nat) (hlo : lo ≤ 32) {mask : Word} (h : mask = placeField (BitVec.allOnes (32 - lo)) lo) :
    w &&& mask = 0 ↔ zeroAbove w lo = true := by
  rw [h, and_placeField_allOnes, placeField_eq_zero_iff _ (by omega), zeroAbove_iff_field]

/-- The mask of UPRES.BL and UPRES.NN finds the bits above MODE, and DLT. -/
theorem and_above_or_dlt_eq_zero_iff (w : Word) {mask : Word}
    (h : mask = placeField (BitVec.allOnes 17) 15 ||| placeField (BitVec.allOnes 3) 10) :
    w &&& mask = 0 ↔ zeroAbove w 15 = true ∧ wordField w 10 3 = 0 := by
  rw [h, BitVec.and_or_distrib_left, show (0 : Word) = 0#32 from rfl, BitVec.or_eq_zero_iff]
  exact and_congr (and_above_eq_zero_iff w 15 (by decide) rfl) (by
    rw [and_placeField_allOnes]
    exact placeField_eq_zero_iff _ (by decide))

/-- A word whose OP is not reserved: the reserved bits are looked at first, then NT, FIRST and MODE (R283, steps 3 and 4). -/
theorem illegalWord_of_checked {w : Word} {op : BitVec 4} {c : Prop} [Decidable c] {i : Instr} (hop : wordField w 0 4 = op)
    (hlt : op.toNat < 6) (hd : decode w = if c then .ok i else .error .reservedBit)
    (hc : w &&& reservedBits op.toNat (wordField w 13 2).toNat = 0 ↔ c)
    (hi : fieldFault w op = if i.wellFormed then none else some 2) : illegalWord w = wordFault (decode w) := by
  rw [illegalWord_fields, hop, if_neg (by omega), hd]
  by_cases h : c
  · rw [if_neg (not_not.2 (hc.2 h)), if_pos h]
    exact hi
  · rw [if_pos (mt hc.1 h), if_neg h]
    rfl

/-- The statements' `illegalWord` and the machine's word checks name the same fault for every word. -/
theorem illegalWord_eq_wordFault (w : Word) : illegalWord w = wordFault (decode w) := by
  rcases opcode_cases w with hop | hop | hop | hop | hop | hop | hop
  · exact illegalWord_of_checked hop (by decide) (decode_nop hop) (and_above_eq_zero_iff w 4 (by decide) rfl) rfl
  · refine illegalWord_of_checked hop (by decide) (decode_loadht hop) (and_above_eq_zero_iff w 9 (by decide) rfl) ?_
    rw [loadhtCheck_eq, fieldFault]
    simp only [Bool.not_eq_true', ← Bool.not_eq_true, ite_not, Bool.or_eq_true, beq_iff_eq, decide_eq_true_eq, or_assoc, true_and]
    rfl
  · exact illegalWord_of_checked hop (by decide) (decode_clear hop) (and_above_eq_zero_iff w 7 (by decide) rfl) rfl
  · rcases hdr_cases w with hdr | hdr
    · exact illegalWord_of_checked hop (by decide) (decode_decodeH24 hop hdr) (and_above_eq_zero_iff w 17 (by decide) rfl) rfl
    · exact illegalWord_of_checked hop (by decide) (decode_decodeH32 hop hdr) (and_above_eq_zero_iff w 17 (by decide) rfl) rfl
  · rcases mode_cases w with hm | hm | hm | hm
    · exact illegalWord_of_checked hop (by decide) (decode_upresBl hop hm) (and_above_or_dlt_eq_zero_iff w (by rw [hm]; rfl))
        (by rw [fieldFault, hm]; rfl)
    · exact illegalWord_of_checked hop (by decide) (decode_upresAdd hop hm) (and_above_eq_zero_iff w 15 (by decide) (by rw [hm]; rfl))
        (by rw [fieldFault, hm]; rfl)
    · exact illegalWord_of_checked hop (by decide) (decode_upresNn hop hm) (and_above_or_dlt_eq_zero_iff w (by rw [hm]; rfl))
        (by rw [fieldFault, hm]; rfl)
    · have hmask := and_above_eq_zero_iff w 15 (by decide) (mask := reservedBits (4#4).toNat (3#2).toNat) rfl
      rw [decode_reservedMode hop hm, illegalWord_fields, hop, fieldFault, hm]
      by_cases hz : zeroAbove w 15 = true
      · rw [if_pos hz, hmask.2 hz]
        rfl
      · rw [if_neg hz, if_neg (by decide), if_pos (mt hmask.1 hz)]
        rfl
  · exact illegalWord_of_checked hop (by decide) (decode_convert hop) (and_above_eq_zero_iff w 13 (by decide) rfl) rfl
  · rw [decode_reservedOp hop, illegalWord_fields, if_pos hop]
    rfl

/-- Settles O17: a word whose checks name no fault has passed them all. -/
theorem legalWordsDecode : Obligations.LegalWordsDecode := by
  unfold Obligations.LegalWordsDecode
  intro w h
  rw [illegalWord_eq_wordFault] at h
  cases hd : decode w with
  | error why =>
    rw [hd] at h
    cases h
  | ok i =>
    refine ⟨i, rfl, by_contra fun hi => ?_⟩
    rw [hd, wordFault, if_neg hi] at h
    cases h

/-! ## The fault of an illegal word (R108, R282) -/

theorem rejectRule_faults (why : DecodeError) (w : Word) (env : Env) (e : Engine) :
    Faults (rejectRule why (takesStream w) env) e .illegalCmd (rejectInfo why) 0 (drainedFor w e) := by
  rw [rejectRule, drainedFor]
  cases takesStream w
  · exact .raise _ _ _ e
  · exact withStream_faults (.raise _ _ _ e)

theorem rejectWord_faults {s : State} (h : Ready s) (w : Word) (why : DecodeError) :
    rejectWord w why s = .next (endedByFault w .illegalCmd (rejectInfo why) 0 s (drainedFor w (launched s.eng))) := by
  obtain ⟨hb, hf, hp⟩ := h
  rw [rejectWord, launch_faults hb hf hp (rejectRule_faults why w s.env _)]
  rfl

/-- Only LOADHT has field values that its own launch check refuses (R108; assumption log 21). -/
theorem loadht_of_illFormed {i : Instr} (h : i.wellFormed ≠ true) : ∃ nt first ept, i = .loadht nt first ept := by
  cases i with
  | loadht nt first ept => exact ⟨nt, first, ept, rfl⟩
  | _ => exact absurd rfl h

theorem exec_illFormed {s : State} (h : Ready s) {i : Instr} (hi : i.wellFormed ≠ true) :
    exec i s = .next (endedByFault (encode i) .illegalCmd 2 0 s (drainedFor (encode i) (launched s.eng))) := by
  obtain ⟨nt, first, ept, rfl⟩ := loadht_of_illFormed hi
  rw [drainedFor, takesStream_encode]
  exact exec_faults h (withStream_faults (Faults.check (Bool.not_eq_true _ ▸ hi) _ _ _ _).bind)

/-- Every word that R108 calls illegal ends in the fault that R283 names, its stream discarded if its OP is LOADHT's or DECODE's. -/
theorem commandWrite_illegal {s : State} {w : Word} {n : Nat} (h : Ready s) (hw : illegalWord w = some n) :
    commandWrite w s = .next (endedByFault w .illegalCmd n 0 s (drainedFor w (launched s.eng))) := by
  rw [illegalWord_eq_wordFault] at hw
  cases hd : decode w with
  | error why =>
    rw [hd, wordFault] at hw
    cases hw
    rw [commandWrite_error hd, rejectWord_faults h]
  | ok i =>
    rw [hd, wordFault] at hw
    split at hw
    · cases hw
    · next hi =>
      cases hw
      rw [commandWrite_ok hd, exec_illFormed h hi, encodeDecode w i hd]

/-- Settles O16: the discarded stream of `commandWrite_illegal` is the port and the count of outstanding EOS. -/
theorem illegalWordsFault : Obligations.IllegalWordsFault := by
  unfold Obligations.IllegalWordsFault
  intro s w n hs hw
  rw [commandWrite_illegal hs hw, drainedFor]
  split
  · next ht => exact ⟨_, _, by rw [(launched s.eng).drain_eq], fun hf => by rw [hf] at ht; cases ht⟩
  · exact ⟨s.eng.port, s.eng.toDiscard, rfl, fun _ => ⟨rfl, rfl⟩⟩

/-! ## Words of the vectors (95_test_vectors.md section 2) -/

/-- Settles O18: closed words, each decoded by evaluation. -/
theorem sampleWordsDecode : Obligations.SampleWordsDecode := by
  unfold Obligations.SampleWordsDecode
  exact ⟨rfl, rfl, rfl, rfl, rfl, rfl, rfl, rfl, rfl, rfl, rfl, rfl, rfl⟩

end Sys2Proof.Machine
end

section
/-! SUPPORT and PROOFS. A CMD write from its launch to its end: which are ignored, what a launched one can come to, when it ends and when
it waits for ever, and the statements about them (20_memory.md R90; 40_control.md R140 to R147). -/

namespace Sys2Proof.Machine

/-! ## A CMD write (R140) -/

/-- A CMD write that is taken settles one run of a rule from the launch, whether the word is a command's or is rejected. -/
theorem commandWrite_launched {s : State} (hb : s.busy = false) (hf : s.fault = false) (w : Word) :
    ∃ work, commandWrite w s = settle work (launched s.eng) (launchState w s)
      (whileBusy (ruleOf work s.env) ⟨launched s.eng, 0, s.pace⟩) := by
  cases hd : decode w with
  | ok i => exact ⟨.command i, by rw [commandWrite_ok hd, exec_launched hb hf, encodeDecode w i hd]⟩
  | error why =>
    refine ⟨.reject why (takesStream w), ?_⟩
    rw [commandWrite_error hd, rejectWord, launch_taken hb hf]
    rfl

/-- Settles O7. -/
theorem commandIgnoredWhileBusyOrFaulted : Obligations.CommandIgnoredWhileBusyOrFaulted := by
  unfold Obligations.CommandIgnoredWhileBusyOrFaulted
  intro s w hr hig
  rw [hostAct_write_word hr (by decide), hostWrite_cmd rfl, commandWrite_ignored hig]
  rfl

/-- Settles O13: the launch has cleared DONE, and the three ways to settle leave the flags of R141. -/
theorem launchedCommandRunsOrEnds : Obligations.LaunchedCommandRunsOrEnds := by
  unfold Obligations.LaunchedCommandRunsOrEnds
  intro s t w hb hf h
  obtain ⟨work, hlaunch⟩ := commandWrite_launched hb hf w
  rw [hlaunch] at h
  obtain ⟨r, -, rfl⟩ | ⟨f, info, addr, r, -, rfl⟩ | ⟨r, -, rfl⟩ := settle_next h
  · exact .inr ⟨rfl, by simp [hf], rfl, by simp [State.irq]⟩
  · exact .inr ⟨rfl, by simp, rfl, by simp [State.irq]⟩
  · exact .inl ⟨rfl, rfl, hf, rfl, by simp [State.irq, hf]⟩

/-! ## NOP (R145) -/

/-- The low four bits of a word are its opcode. -/
theorem opcode_zero_of_masked {w : Word} (h : w &&& 0xF = 0) : wordField w 0 4 = 0#4 :=
  (placeField_eq_zero_iff _ (by decide)).1 ((and_placeField_allOnes w 0 4).symm.trans h)

/-- NOP has no fields: a word with OP = 0 that is not 0 has a reserved bit set. -/
theorem decode_opcode_zero {w : Word} (h : wordField w 0 4 = 0#4) (hw : w ≠ 0) : decode w = .error .reservedBit := by
  have hd := decode_nop h
  split at hd
  · exact absurd (encodeDecode w .nop hd).symm hw
  · exact hd

/-- Settles O20. -/
theorem nopCompletes : Obligations.NopCompletes := by
  unfold Obligations.NopCompletes
  refine ⟨fun s hs => exec_gives hs (.pure () _), rfl, fun s w hs hmask hw => ?_⟩
  have hop := opcode_zero_of_masked hmask
  have hstream : takesStream w = false := by rw [takesStream, hop]; rfl
  rw [commandWrite_error (decode_opcode_zero hop hw), rejectWord_faults hs, drainedFor, hstream]
  rfl

/-! ## Commands that end, and commands that wait (R90, R141, R147) -/

/-- Whatever its pace, a command is refused only for an access to a device (20_memory.md R88). -/
theorem command_refused (env : Env) (i : Instr) (L : Option Nat) (e : Engine) {why : Refusal} {r : Run}
    (h : whileBusy (ruleOf (.command i) env) ⟨launched e, 0, L⟩ = .error (.refuse why) r) : ∃ a, env.plat.kindAt a = .device := by
  cases hi : takesStream (encode i) with
  | false =>
    obtain ⟨-, hdev⟩ := (commandRule_writes env hi (launched e)).error ⟨.refl _ _, rfl⟩ h
    exact hdev
  | true =>
    obtain ⟨Z, hT, -⟩ := streamCommand_drains env hi L e
    obtain ⟨-, hdev⟩ := hT.error ⟨rfl, rfl⟩ h
    exact hdev

/-- A command with its whole stream and no device region ends (R141). -/
theorem exec_ends {s : State} {i : Instr} (hs : Ready s) (hdev : s.plat.noDevice)
    (hend : takesStream (encode i) = true → streamEnded s.eng.port = true) : ∃ t, exec i s = .next t ∧ t.busy = false := by
  obtain ⟨hb, hf, hp⟩ := hs
  rw [exec_launched hb hf, hp]
  cases ho : whileBusy (ruleOf (.command i) s.env) ⟨launched s.eng, 0, none⟩ with
  | ok u r => exact ⟨_, rfl, rfl⟩
  | error stop r =>
    cases stop with
    | fault f info addr => exact ⟨_, rfl, rfl⟩
    | pause =>
      obtain ⟨hi, hopen, hport⟩ := unpaced_pause s.env i s.eng ho
      rw [hport, hend hi] at hopen
      cases hopen
    | refuse why =>
      obtain ⟨a, ha⟩ := command_refused s.env i none s.eng ho
      exact absurd ha (hdev a)

/-- A command that was launched without a pace and waits comes to the same when it goes on. -/
theorem proceed_of_waiting {s t : State} {i : Instr} (hs : Ready s) (h : exec i s = .next t) (ht : t.busy = true) :
    proceed none t = withPace none (exec i s) := by
  obtain ⟨hb, hf, hp⟩ := hs
  obtain ⟨e, n, heq⟩ := exec_still_runs hb hf h ht
  have hpaced : t = { launchState (encode i) s with eng := e, running := some ⟨.command i, launched s.eng, n⟩, pace := none } := by
    rw [heq, ← hp]
    rfl
  rw [exec_launched hb hf, hp, hpaced]
  exact (proceed_none_of_running rfl).trans (settle_withPace _ _ _ _ _ _ _)

/-- With no host action left, a command that can only wait is stuck (assumption log 19). -/
theorem step_of_waiting {s s' : State} (hin : s.inbox = []) (h : proceed none s = .next s') (hb : s'.busy = true) :
    step s = .fault .streamStarved := by
  rw [step, hin]
  dsimp only
  rw [withoutHost, h]
  exact if_pos hb

/-- A step faults only where no host action is left and the command, run on, still runs. -/
theorem step_fault {s : State} {f : Fault} (h : step s = .fault f) :
    f = .streamStarved ∧ s.inbox = [] ∧ ∃ s', proceed none s = .next s' ∧ s'.busy = true := by
  unfold step at h
  split at h
  · next hin =>
    unfold withoutHost at h
    split at h
    · next s' hp =>
      split at h
      · next hb => cases h; exact ⟨rfl, hin, s', hp, hb⟩
      · cases h
    · exact absurd h (hostAct_ne_fault (.letRun none) s f)
  · exact absurd h (hostAct_ne_fault _ _ f)

/-- The rule of a word that is no command faults, whether it has a stream to discard or not. -/
theorem rejectRule_ends (why : DecodeError) (stream : Bool) (env : Env) (e : Engine) :
    ∃ e', Faults (rejectRule why stream env) e .illegalCmd (rejectInfo why) 0 e' := by
  cases stream with
  | false => exact ⟨_, .raise _ _ _ e⟩
  | true => exact ⟨_, withStream_faults (.raise _ _ _ e)⟩

/-- What runs on and still waits is a command whose stream has not ended. -/
theorem unpaced_pause_work {env : Env} {work : Work} {e : Engine} {r : Run}
    (h : whileBusy (ruleOf work env) ⟨launched e, 0, none⟩ = .error .pause r) :
    ∃ i, work = .command i ∧ takesStream (encode i) = true ∧ streamEnded e.port = false := by
  cases work with
  | command i =>
    obtain ⟨hi, hopen, hport⟩ := unpaced_pause env i e h
    exact ⟨i, rfl, hi, hport ▸ hopen⟩
  | reject why stream =>
    obtain ⟨e', hfault⟩ := rejectRule_ends why stream env (launched e)
    obtain ⟨m, hm⟩ := whileBusy_faults hfault 0
    rw [show ruleOf (.reject why stream) env = rejectRule why stream env from rfl, hm] at h
    cases h

/-- In a legal state a command that runs on and still runs is one that waits for its stream. -/
theorem waits_of_proceed {s s' : State} (hw : s.wf) (hp : proceed none s = .next s') (hb : s'.busy = true) :
    s.busy = true ∧ ∃ c i, s.running = some c ∧ c.work = .command i ∧ takesStream (encode i) = true ∧
      streamEnded c.base.port = false := by
  obtain ⟨⟨hbusy, -⟩, -, hbase⟩ := hw
  cases hrun : s.running with
  | none =>
    rw [hrun] at hbusy
    rw [proceed, hrun] at hp
    cases hp
    exact absurd (hbusy.symm.trans hb) (by decide)
  | some c =>
    obtain ⟨-, hlaunched⟩ := hbase c hrun
    refine ⟨by rw [hbusy, hrun]; rfl, ?_⟩
    rw [proceed_none_of_running hrun, hlaunched] at hp
    obtain ⟨r, -, rfl⟩ | ⟨f, info, addr, r, -, rfl⟩ | ⟨r, ho, -⟩ := settle_next hp
    · cases hb
    · cases hb
    · obtain ⟨i, hwork, hi, hopen⟩ := unpaced_pause_work ho
      exact ⟨c, i, rfl, hwork, hi, hopen⟩

/-- Settles O54. -/
theorem everyCommandEnds : Obligations.EveryCommandEnds := by
  unfold Obligations.EveryCommandEnds
  refine ⟨fun s i hs hdev hend => exec_ends hs hdev hend, fun s t i hs hin h ht => ?_, fun s f hw h => ?_⟩
  · have hp := proceed_of_waiting hs h ht
    rw [h] at hp
    exact step_of_waiting ((exec_surroundings h).inbox.trans hin) hp ht
  · obtain ⟨hf, hin, s', hp, hb⟩ := step_fault h
    exact ⟨hf, hin, waits_of_proceed hw hp hb⟩

end Sys2Proof.Machine
end

section
/-! SUPPORT and PROOFS. Legal states: what keeps the engine's data legal, what keeps the phases of R141, and the invariant of every step
(10_state.md R35, R37, R55; 20_memory.md R80; 40_control.md R140, R141; 41_huffman_tables.md R153; 70_reset_and_hazards.md R320). -/

namespace Sys2Proof.Machine

/-! ## Legal engine data -/

/-- Legal lengths in every table slot, slot by slot. -/
theorem Tables.wf_iff (ts : Tables) : ts.wf ↔ ts.y.wf ∧ ts.c1.wf ∧ ts.c2.wf := by
  refine ⟨fun h => ⟨h 0, h 1, h 2⟩, fun ⟨hy, h1, h2⟩ t => ?_⟩
  match t with
  | 0 => exact hy
  | 1 => exact h1
  | _ + 2 => exact h2

theorem Engine.wf_iff (e : Engine) : e.wf ↔ e.mem.wf ∧ e.tables.wf ∧ (0 < e.toDiscard → e.port = []) := by
  simp only [Engine.wf, Tables.wf_iff, and_assoc]

/-- Discarding a stream: one whose EOS is there is discarded at once, no other EOS being outstanding; else the port is emptied. -/
theorem Engine.drain_wf {e : Engine} (h : e.wf) : e.drain.wf := by
  obtain ⟨hmem, htab, hport⟩ := e.wf_iff.1 h
  rw [Engine.wf_iff, Engine.drain]
  split
  · next hend =>
    refine ⟨hmem, htab, fun hdis => ?_⟩
    rw [hport hdis] at hend
    cases hend
  · exact ⟨hmem, htab, fun _ => rfl⟩

/-- A delivery joins the port only where no EOS is outstanding. -/
theorem Engine.deliver_wf {e : Engine} (h : e.wf) (x : PortItem) : (e.deliver x).wf := by
  obtain ⟨hmem, htab, hport⟩ := e.wf_iff.1 h
  cases hdis : e.toDiscard with
  | zero =>
    rw [Engine.deliver_joins hdis, Engine.wf_iff]
    exact ⟨hmem, htab, fun hpos => absurd hdis (Nat.ne_of_gt hpos)⟩
  | succ n =>
    cases x with
    | byte b => rw [Engine.deliver_byte_discarded hdis]; exact h
    | eos =>
      rw [Engine.deliver_eos_discarded hdis, Engine.wf_iff]
      exact ⟨hmem, htab, fun _ => hport (by omega)⟩

/-- A delivery leaves what the launch cleared (R53, R140). -/
theorem Engine.deliver_launched (e : Engine) (x : PortItem) : (launched e).deliver x = launched (e.deliver x) := by
  cases hdis : e.toDiscard with
  | zero => rw [Engine.deliver_joins hdis, Engine.deliver_joins (e := launched e) hdis]; rfl
  | succ n =>
    cases x with
    | byte b => rw [Engine.deliver_byte_discarded hdis, Engine.deliver_byte_discarded (e := launched e) hdis]
    | eos => rw [Engine.deliver_eos_discarded hdis, Engine.deliver_eos_discarded (e := launched e) hdis]; rfl

theorem MemOnly.wf {rs : List ByteRange} {e0 e : Engine} (h : MemOnly rs e0 e) (h0 : e0.wf) : e.wf := by
  obtain ⟨heq, hmem⟩ := h
  obtain ⟨hmem0, hrest⟩ := h0
  rw [heq]
  exact ⟨(hmem hmem0).1, hrest⟩

theorem TablesOnly.wf {first nt : Nat} {e0 e : Engine} (h : TablesOnly first nt e0 e) (h0 : e0.wf) : e.wf := by
  obtain ⟨heq, -, htab⟩ := h
  obtain ⟨hmem0, htab0, hport0⟩ := e0.wf_iff.1 h0
  rw [heq, Engine.wf_iff]
  exact ⟨hmem0, htab htab0, hport0⟩

theorem DecodingTo.wf {rs : List ByteRange} {e0 e : Engine} {n : Nat} (h : DecodingTo rs e0 n e) (h0 : e0.wf) : e.wf := by
  obtain ⟨k, m, -, -, heq, hmem, -⟩ := h
  obtain ⟨hmem0, hrest⟩ := h0
  rw [heq]
  exact ⟨(hmem hmem0).1, hrest⟩

/-! ## What a settled run leaves of the engine's data -/

section Settled

variable {work : Work} {base : Engine} {s t : State} {c : Cmd Unit} {r0 : Run} {plat : Platform} {L : Option Nat} {I : Run → Prop}
  {Z : Engine → Prop}

/-- What every run of a rule leaves of the engine's data, however it ends, the settled state holds. -/
theorem settle_eng_of_triple {J : Unit → Run → Prop} {S : Stop → Run → Prop} (h : settle work base s (c r0) = .next t)
    (hT : Triple I c J S) (hI : I r0) (hJ : ∀ r, J () r → Z r.eng) (hfault : ∀ f info addr r, S (.fault f info addr) r → Z r.eng)
    (hpause : ∀ r, S .pause r → Z r.eng) : Z t.eng := by
  obtain ⟨r, ho, rfl⟩ | ⟨f, info, addr, r, ho, rfl⟩ | ⟨r, ho, rfl⟩ := settle_next h
  · exact hJ r (hT.ok hI ho)
  · exact hfault f info addr r (hT.error hI ho)
  · exact hpause r (hT.error hI ho)

/-- A rule that discards no stream. -/
theorem settle_wf_of_respects {w : Bool} {E : Engine → Prop} (h : settle work base s (c r0) = .next t)
    (hT : Respects plat L w Z E c fun _ => Z) (hI : Held L E r0) (hZ : ∀ e, Z e → e.wf) : t.eng.wf :=
  settle_eng_of_triple h hT hI (fun _ hr => hZ _ hr.1) (fun _ _ _ _ hr => hZ _ hr.1) fun _ hr => hZ _ hr.1

/-- A rule that discards its stream at its end. -/
theorem settle_wf_of_drains (h : settle work base s (c r0) = .next t)
    (hT : Triple I c (fun _ => Held L (Drained Z)) (StopsDrained plat L Z)) (hI : I r0) (hZ : ∀ e, Z e → e.wf) : t.eng.wf := by
  have hdrained : ∀ e, Drained Z e → e.wf := by
    rintro _ ⟨e, he, rfl⟩
    exact Engine.drain_wf (hZ e he)
  exact settle_eng_of_triple h hT hI (fun _ hr => hdrained _ hr.1) (fun _ _ _ _ hr => hdrained _ hr.1)
    fun _ hr => hr.1.elim (hZ _) (hdrained _)

end Settled

/-- A command run from legal data of its launch leaves legal data, wherever it is paused and however it ends. -/
theorem settle_command_wf {i : Instr} {env : Env} {L : Option Nat} {e : Engine} {s t : State} (he : (launched e).wf)
    (h : settle (.command i) (launched e) s (whileBusy (ruleOf (.command i) env) ⟨launched e, 0, L⟩) = .next t) : t.eng.wf := by
  cases hi : takesStream (encode i) with
  | false => exact settle_wf_of_respects h (commandRule_writes env hi (launched e)) ⟨.refl _ _, rfl⟩ fun _ hz => hz.wf he
  | true =>
    obtain ⟨nt, first, ept, rfl⟩ | ⟨hd, o, rfl⟩ := takesStream_cases hi
    · exact settle_wf_of_drains h (loadhtRule_drains env nt first ept (launched e)) ⟨rfl, rfl⟩ fun _ hz => hz.wf he
    · rw [ruleOf_decodeInstr] at h
      exact settle_wf_of_drains h (decodeRule_drains env hd o e) ⟨rfl, rfl⟩ fun _ hz => hz.wf he

/-- A rejected word changes no more than its port. -/
theorem settle_reject_wf {why : DecodeError} {stream : Bool} {env : Env} {L : Option Nat} {e : Engine} {s t : State} (he : e.wf)
    (h : settle (.reject why stream) e s (whileBusy (ruleOf (.reject why stream) env) ⟨e, 0, L⟩) = .next t) : t.eng.wf := by
  have hraise (w : Bool) : Respects env.plat L w (· = e) (· = e) (raise .illegalCmd (rejectInfo why) 0 : Cmd Unit)
      fun _ => (· = e) :=
    Triple.raise (Held.fault (fun _ h => h) (by decide))
  have hwf : ∀ e', e' = e → e'.wf := fun _ he' => he' ▸ he
  cases stream with
  | false => exact settle_wf_of_respects h (Respects.whileBusy (fun _ h => h) (hraise false)) ⟨rfl, rfl⟩ hwf
  | true => exact settle_wf_of_drains h (withStream_drains (fun _ h => h) (hraise true)) ⟨rfl, rfl⟩ hwf

/-- Whatever was launched, legal data of its launch stays legal. -/
theorem settle_eng_wf {work : Work} {env : Env} {L : Option Nat} {e : Engine} {s t : State} (he : e.wf) (hl : e = launched e)
    (h : settle work e s (whileBusy (ruleOf work env) ⟨e, 0, L⟩) = .next t) : t.eng.wf := by
  cases work with
  | command i =>
    rw [hl] at he h
    exact settle_command_wf he h
  | reject why stream => exact settle_reject_wf he h

/-! ## The phases (R141) -/

/-- The phase in which a command runs, out of reset: BUSY is 1, DONE and FAULT and the fault words are 0. -/
structure UnderWay (s : State) : Prop where
  busy : s.busy = true
  done : s.done = false
  fault : s.fault = false
  words : s.faultCode = 0 ∧ s.faultInfo = 0 ∧ s.faultAddr = 0
  line : s.resetLine = false

/-- The phase right after a launch. -/
theorem launchState_underWay {s : State} (hw : s.wf) (hf : s.fault = false) (hr : s.resetLine = false) (w : Word) :
    UnderWay (launchState w s) := by
  obtain ⟨⟨-, -, -, hwords, -, -⟩, -, -⟩ := hw
  exact ⟨rfl, rfl, hf, hwords hf, hr⟩

/-- The phase of a legal state in which a command runs. -/
theorem State.wf.underWay {s : State} {c : Running} (hw : s.wf) (hc : s.running = some c) : UnderWay s := by
  obtain ⟨⟨hbusy, hidle, -, hwords, -, hline⟩, -, -⟩ := hw
  have hb : s.busy = true := by rw [hbusy, hc]; rfl
  obtain ⟨hd, hf⟩ := hidle hb
  refine ⟨hb, hd, hf, hwords hf, ?_⟩
  cases hr : s.resetLine with
  | false => rfl
  | true => exact absurd (hb.symm.trans (hline hr)) (by decide)

/-- A command that is settled leaves a legal state: it has completed, has faulted, or still runs from its launch. -/
theorem settle_wf {work : Work} {base : Engine} {s t : State} {o : EStateM.Result Stop Run Unit} (hs : UnderWay s) (hb : base.wf)
    (hl : base = launched base) (h : settle work base s o = .next t) (he : t.eng.wf) : t.wf := by
  obtain ⟨hbusy, hdone, hfault, hwords, hline⟩ := hs
  have hno : s.fault ≠ true := by simp [hfault]
  obtain ⟨r, -, rfl⟩ | ⟨f, info, addr, r, -, rfl⟩ | ⟨r, -, rfl⟩ := settle_next h
  · exact ⟨⟨rfl, nofun, fun h => hno h.2, fun _ => hwords, fun h => absurd h hno, fun _ => rfl⟩, he, nofun⟩
  · exact ⟨⟨rfl, nofun, fun h => absurd (hdone.symm.trans h.1) (by decide), nofun, fun _ => f.code_range, fun _ => rfl⟩, he, nofun⟩
  · refine ⟨⟨hbusy, fun _ => ⟨hdone, hfault⟩, fun h => hno h.2, fun _ => hwords, fun h => absurd h hno,
      fun h => absurd (hline.symm.trans h) (by decide)⟩, he, fun c hc => ?_⟩
    cases hc
    exact ⟨hb, hl⟩

/-- A CMD write out of reset, taken or ignored. -/
theorem commandWrite_wf {w : Word} {s t : State} (hw : s.wf) (hr : s.resetLine = false) (h : commandWrite w s = .next t) : t.wf := by
  by_cases hig : s.busy = true ∨ s.fault = true
  · rw [commandWrite_ignored hig] at h
    cases h
    exact hw
  · obtain ⟨hb, hf⟩ : s.busy = false ∧ s.fault = false := by simpa using hig
    obtain ⟨work, hlaunch⟩ := commandWrite_launched hb hf w
    rw [hlaunch] at h
    have ⟨_, heng, _⟩ := hw
    have he : (launched s.eng).wf := heng
    exact settle_wf (launchState_underWay hw hf hr w) he rfl h (settle_eng_wf he rfl h)

/-- A running command that goes on. -/
theorem proceed_wf {n : Option Nat} {s t : State} (hw : s.wf) (h : proceed n s = .next t) : t.wf := by
  unfold proceed at h
  split at h
  · cases h; exact hw
  · next c hc =>
    have ⟨_, _, hbase⟩ := hw
    obtain ⟨hb, hl⟩ := hbase c hc
    exact settle_wf (hw.underWay hc) hb hl h (settle_eng_wf hb hl h)

/-! ## The host's actions -/

/-- Reset from a legal state, whatever the reset input then is (R55, R320, R321). -/
theorem resetBlock_wf {s : State} (hw : s.wf) (line : Bool) : ({ resetBlock s with resetLine := line } : State).wf := by
  obtain ⟨-, ⟨hmem, hy, h1, h2, -⟩, -⟩ := hw
  exact ⟨⟨rfl, nofun, nofun, fun _ => ⟨rfl, rfl, rfl⟩, nofun, fun _ => rfl⟩, ⟨hmem, hy, h1, h2, fun _ => rfl⟩, nofun⟩

/-- Clearing flags keeps the phases: FAULT is cleared together with its three words (R35, R37). -/
theorem writeStatus_wf {s : State} (hw : s.wf) (v : Word) : (writeStatus v s).wf := by
  obtain ⟨⟨hbusy, hidle, hone, hwords, hcode, hline⟩, heng, hbase⟩ := hw
  rw [writeStatus_eq]
  generalize v.getLsbD 1 = clearsDone, v.getLsbD 2 = clearsFault
  refine ⟨⟨hbusy, fun hb => ?_, fun h => ?_, fun h => ?_, fun h => ?_, hline⟩, heng, hbase⟩
  · obtain ⟨hd, hf⟩ := hidle hb
    exact ⟨by simp [hd], by simp [hf]⟩
  · simp only [Bool.and_eq_true] at h
    obtain ⟨⟨hd, -⟩, hf, -⟩ := h
    exact hone ⟨hd, hf⟩
  · cases clearsFault with
    | true => exact ⟨rfl, rfl, rfl⟩
    | false => exact hwords (by simpa using h)
  · cases clearsFault with
    | true => simp at h
    | false => exact hcode (by simpa using h)

/-- A register write other than to CMD. -/
theorem WriteEffect.wf {s t : State} (h : WriteEffect s t) (hw : s.wf) : t.wf := by
  cases h with
  | softReset => exact resetBlock_wf hw s.resetLine
  | status v => exact writeStatus_wf hw v
  | irqEn b => exact hw
  | ignored hb => exact hw
  | params hb p => exact hw

/-- A change from outside that keeps the engine's data legal, and keeps what a launch cleared. -/
theorem updateBoth_wf {f : Engine → Engine} {s : State} (hw : s.wf) (hf : ∀ e : Engine, e.wf → (f e).wf)
    (hl : ∀ e, f (launched e) = launched (f e)) : (updateBoth f s).wf := by
  obtain ⟨⟨hbusy, hphase⟩, heng, hbase⟩ := hw
  refine ⟨⟨?_, hphase⟩, hf _ heng, fun c hc => ?_⟩
  · rw [updateBoth_running, Option.isSome_map]
    exact hbusy
  · rw [updateBoth_running, Option.map_eq_some_iff] at hc
    obtain ⟨c, hrun, rfl⟩ := hc
    obtain ⟨hc, hlc⟩ := hbase c hrun
    exact ⟨hf _ hc, (congrArg f hlc).trans (hl c.base)⟩

/-- A delivery on the stream port (R90, R320). -/
theorem deliver_wf {s : State} (hw : s.wf) (x : PortItem) : (deliver x s).wf := by
  cases hr : s.resetLine with
  | true => rw [deliver_in_reset hr]; exact hw
  | false =>
    rw [deliver_to_block hr]
    exact updateBoth_wf hw (fun _ he => Engine.deliver_wf he x) fun e => e.deliver_launched x

/-- A host write of data memory keeps the canonical form: the host's addresses are 32-bit words. -/
theorem hostMemWrite_wf {s t : State} {a : Word} {b : Byte} (hw : s.wf) (h : hostMemWrite a.toNat b s = .next t) : t.wf := by
  unfold hostMemWrite at h
  split at h
  · cases h
  · cases h
    exact updateBoth_wf hw (fun _ ⟨hmem, hrest⟩ => ⟨Memory.write_wf hmem a.isLt b, hrest⟩) fun _ => rfl

/-- A register access that has a next state was made out of reset (R320). -/
theorem resetLine_of_answered {s t : State} {off : BitVec 12} {width : Width} {answer : Host.Outcome State Fault Refusal}
    (h : whenAnswered off width s answer = .next t) : s.resetLine = false := by
  cases hr : s.resetLine with
  | false => rfl
  | true =>
    rw [whenAnswered_held hr] at h
    cases h

theorem hostWrite_wf {off : BitVec 12} {v : Word} {s t : State} (hw : s.wf) (hr : s.resetLine = false)
    (h : hostWrite off v s = .next t) : t.wf := by
  unfold hostWrite at h
  split at h
  · cases h; exact hw
  · exact commandWrite_wf hw hr h
  · cases h; exact (writeReg_effect _ v s).wf hw

/-- Every action of the host keeps a legal state legal. -/
theorem hostAct_wf {ev : HostEvent} {s t : State} (hw : s.wf) (h : hostAct ev s = .next t) : t.wf := by
  cases ev with
  | write off width v => exact hostWrite_wf hw (resetLine_of_answered h) (whenAnswered_next h)
  | read off width => cases whenAnswered_next h; exact hw
  | streamByte b => cases h; exact deliver_wf hw _
  | streamEnd => cases h; exact deliver_wf hw _
  | memWrite a b => exact hostMemWrite_wf hw h
  | memRead a =>
    rw [hostAct, hostMemRead] at h
    split at h
    · cases h
    · cases h; exact hw
  | letRun n => exact proceed_wf hw h
  | setPace n => cases h; exact hw
  | assertReset => cases h; exact resetBlock_wf hw true
  | releaseReset =>
    cases h
    obtain ⟨⟨hbusy, hidle, hone, hwords, hcode, -⟩, heng, hbase⟩ := hw
    exact ⟨⟨hbusy, hidle, hone, hwords, hcode, nofun⟩, heng, hbase⟩

/-! ## Every step -/

theorem step_wf {s t : State} (hw : s.wf) (h : step s = .next t) : t.wf := by
  unfold step at h
  split at h
  · exact proceed_wf hw (withoutHost_next h)
  · exact hostAct_wf (by exact hw) h

theorem Engine.reset_wf : Engine.reset.wf := ⟨Memory.reset_wf, nofun, nofun, nofun, fun _ => rfl⟩

theorem State.reset_wf : State.reset.wf :=
  ⟨⟨rfl, nofun, nofun, fun _ => ⟨rfl, rfl, rfl⟩, nofun, fun _ => rfl⟩, Engine.reset_wf, nofun⟩

/-- Settles O58. -/
theorem stepKeepsLegalStates : Obligations.StepKeepsLegalStates := by
  unfold Obligations.StepKeepsLegalStates
  exact ⟨fun _ _ hw h => step_wf hw h, State.reset_wf⟩

end Sys2Proof.Machine
end

section
/-! SUPPORT and PROOFS. LOADHT from its launch to its end: the tables in a row, the EPT byte and the first fault among them, what an
entry writes, and the statements about them (41_huffman_tables.md R150 to R160). -/

namespace Sys2Proof.Machine

/-! ## Tables -/

/-- R155's range of i: the greatest i of an entry is 2^(16-len) - 1. -/
theorem covers_iff_le (c : Code) (idx : BitVec 16) :
    c.covers idx = true ↔ ∃ i : BitVec 16, i.toNat ≤ 2 ^ (16 - c.len.toNat) - 1 ∧ idx = c.cw ||| i := by
  simp only [covers_iff, Nat.le_sub_one_iff_lt (Nat.two_pow_pos _)]

/-- Settles O24: a lookup finds the newest entry that covers the index. -/
theorem tableEntryWritesItsIndices : Obligations.TableEntryWritesItsIndices := by
  unfold Obligations.TableEntryWritesItsIndices
  intro c codes idx _ _
  rw [← covers_iff_le, keyAt_cons, lenAt_cons]
  refine ⟨⟨keyAt_nil idx, lenAt_nil idx⟩, fun hcov => ?_, fun hcov => ?_⟩
  · exact ⟨if_pos hcov, if_pos hcov⟩
  · exact ⟨if_neg hcov, if_neg hcov⟩

/-- Settles O27: a lookup's length is the sentinel or some applied entry's. -/
theorem tableLengthsAreLegal : Obligations.TableLengthsAreLegal := by
  unfold Obligations.TableLengthsAreLegal
  rintro s t idx ⟨-, heng, -⟩
  obtain ⟨-, htab, -⟩ := s.eng.wf_iff.1 heng
  obtain h31 | ⟨c, hc, hlen⟩ := lenAt_cases (s.eng.tables.get t).codes idx
  · exact .inl h31
  · rw [hlen]
    exact .inr (htab t c hc)

/-! ## The rule of LOADHT (R160) -/

/-- A well-formed LOADHT's slots FIRST, ..., FIRST + NT - 1 exist (R108). -/
theorem lastSlot_of_wellFormed {nt first : BitVec 2} {ept : Bool} (hw : (Instr.loadht nt first ept).wellFormed = true) :
    first.toNat + nt.toNat ≤ 3 := by
  simp only [Instr.wellFormed, Instr.lastSlotExists, Bool.and_eq_true, decide_eq_true_eq] at hw
  exact hw.2

section Launched

variable {s : State} {nt first : BitVec 2} {ept : Bool} {tables : List (List RawEntry)} {more : List Byte}

/-- What follows the tables in the stream, once their bytes are taken. -/
theorem drop_tables (hbytes : streamBytes s.eng.port = tables.flatMap tableBytes ++ more) :
    (streamBytes s.eng.port).drop (tables.flatMap tableBytes).length = more := by
  rw [hbytes, List.drop_left]

/-- NT whole tables, one after the other (R160). -/
theorem loadht_tables_give (hw : (Instr.loadht nt first ept).wellFormed = true) (hnt : tables.length = nt.toNat)
    (hb : allBuildable 0 tables) (hbytes : streamBytes s.eng.port = tables.flatMap tableBytes ++ more) :
    Gives (forUpTo nt.toNat fun j => buildTable j (first.toNat + j)) (launched s.eng) ()
      (loadedTables s.eng (loadTables first.toNat 0 tables s.eng.tables) (tables.flatMap tableBytes).length) := by
  have hslots := lastSlot_of_wellFormed hw
  have := buildTables_gives (first := first.toNat) tables s.eng.tables 0 0 more hbytes hb (by omega)
  rwa [hnt, Nat.zero_add] at this

/-- A LOADHT that ends normally: its tables, then the EPT byte where it has one. -/
theorem exec_loadht_completes {e' : Engine} (hs : Ready s) (hw : (Instr.loadht nt first ept).wellFormed = true)
    (hnt : tables.length = nt.toNat) (hb : allBuildable 0 tables)
    (hbytes : streamBytes s.eng.port = tables.flatMap tableBytes ++ more)
    (hept : Gives (if ept then do let _ ← nextByte (first.toNat + nt.toNat - 1); pure () else pure ())
      (loadedTables s.eng (loadTables first.toNat 0 tables s.eng.tables) (tables.flatMap tableBytes).length) () e') :
    exec (.loadht nt first ept) s = .next (endedNormally (.loadht nt first ept) s e'.drain) :=
  exec_gives hs (withStream_gives ((Gives.check hw _ _ _ _).bind ((loadht_tables_give hw hnt hb hbytes).bind hept)))

/-- A LOADHT that faults in table j after the tables before it: the fault of that table is the command's, and nothing comes after it
(R157, 60_exceptions.md R282). -/
theorem exec_loadht_faults_in_table {f : FaultName} {info addr : Nat} {e' : Engine} (hs : Ready s)
    (hw : (Instr.loadht nt first ept).wellFormed = true) (hnt : tables.length < nt.toNat) (hb : allBuildable 0 tables)
    (hbytes : streamBytes s.eng.port = tables.flatMap tableBytes ++ more)
    (hfault : Faults (buildTable tables.length (first.toNat + tables.length))
      (loadedTables s.eng (loadTables first.toNat 0 tables s.eng.tables) (tables.flatMap tableBytes).length) f info addr e') :
    exec (.loadht nt first ept) s = .next (endedByFault (encode (.loadht nt first ept)) f info addr s e'.drain) := by
  have hslots := lastSlot_of_wellFormed hw
  obtain ⟨k, hk⟩ : ∃ k, nt.toNat = tables.length + (k + 1) := ⟨nt.toNat - tables.length - 1, by omega⟩
  have hloop : Faults (forUpTo nt.toNat fun j => buildTable j (first.toNat + j)) (launched s.eng) f info addr e' := by
    rw [hk]
    refine buildTables_then tables s.eng.tables 0 0 (k + 1) more hbytes hb (by omega) ?_
    rw [Nat.zero_add, Nat.zero_add]
    exact hfault.bind
  exact exec_faults hs (withStream_faults ((Gives.check hw _ _ _ _).bind_faults hloop.bind))

/-- A LOADHT whose stream ends at the EPT byte (R150, R158). -/
theorem exec_loadht_faults_at_ept (hs : Ready s) (hw : (Instr.loadht nt first true).wellFormed = true)
    (hnt : tables.length = nt.toNat) (hb : allBuildable 0 tables) (he : streamEnded s.eng.port = true)
    (hbytes : streamBytes s.eng.port = tables.flatMap tableBytes ++ []) :
    exec (.loadht nt first true) s = .next (endedByFault (encode (.loadht nt first true)) .eofInTable
      (first.toNat + nt.toNat - 1) (tables.flatMap tableBytes).length s
      (loadedTables s.eng (loadTables first.toNat 0 tables s.eng.tables) (tables.flatMap tableBytes).length).drain) := by
  have hept := loaded_nextByte_end (ts := loadTables first.toNat 0 tables s.eng.tables) he
    (drop_tables hbytes) (first.toNat + nt.toNat - 1)
  exact exec_faults hs (withStream_faults ((Gives.check hw _ _ _ _).bind_faults
    ((loadht_tables_give hw hnt hb hbytes).bind_faults hept.bind)))

end Launched

/-! ## The statements about LOADHT -/

/-- Settles O23: after the tables, the EPT byte is taken where there is one. -/
theorem loadhtBuildsItsTables : Obligations.LoadhtBuildsItsTables := by
  unfold Obligations.LoadhtBuildsItsTables
  intro s nt first ept tables last rest hs hw hnt hb hlast hbytes
  rw [List.append_assoc] at hbytes
  refine exec_loadht_completes hs hw hnt hb hbytes ?_
  cases ept with
  | false =>
    obtain rfl : last = [] := List.length_eq_zero_iff.1 hlast
    rw [List.append_nil]
    exact .pure () _
  | true =>
    obtain ⟨b, rfl⟩ := List.length_eq_one_iff.1 hlast
    rw [List.length_append]
    exact (loaded_nextByte (drop_tables hbytes) _).bind (.pure () _)

/-- Settles O25: the cut table's own fault, or the EPT byte's after every table. -/
theorem streamEndsInTable : Obligations.StreamEndsInTable := by
  unfold Obligations.StreamEndsInTable
  intro s nt first ept tables part hs hw hb he hbytes
  refine ⟨fun hlt hcut => ?_, fun hnt hept hpart => ?_⟩
  · have hslots := lastSlot_of_wellFormed hw
    obtain ⟨ts, hfault, hvalid, hothers⟩ := buildTable_cut (ts := loadTables first.toNat 0 tables s.eng.tables) he
      (drop_tables hbytes) hcut (show first.toNat + tables.length < 3 by omega)
    rw [← List.length_append] at hfault
    exact ⟨ts, exec_loadht_faults_in_table hs hw hlt hb hbytes hfault, hvalid, hothers⟩
  · subst hept hpart
    rw [List.append_nil]
    exact exec_loadht_faults_at_ept hs hw hnt hb he hbytes

/-- Settles O26: the over-long entry's fault is that of its table. -/
theorem longCodeFaults : Obligations.LongCodeFaults := by
  unfold Obligations.LongCodeFaults
  intro s nt first ept tables count es bad rest hs hw hb hlt hes hcopy hlen hbad hbytes
  have hslots := lastSlot_of_wellFormed hw
  obtain ⟨ts, hfault, hvalid, hothers⟩ := buildTable_tooLong (ts := loadTables first.toNat 0 tables s.eng.tables)
    (drop_tables hbytes) hes hcopy hlen hbad (show first.toNat + tables.length < 3 by omega)
  exact ⟨ts, exec_loadht_faults_in_table hs hw hlt hb hbytes hfault, hvalid, hothers⟩

end Sys2Proof.Machine
end

section
/-! SUPPORT and PROOFS. The launch checks of every command and what their first failure comes to (60_exceptions.md R282 to R284). -/

namespace Sys2Proof.Machine

/-! ## Checks before the rest of a rule -/

/-- A rule whose checks fail raises their first failure, whatever it would do after them. -/
theorem Verdict.rule_faults {P : Engine → Prop} {c : Cmd Unit} {rest : Unit → Cmd Unit} {cs : List (Bool × FaultName × Nat)}
    (h : Verdict P c cs) {e : Engine} (he : P e) {f : FaultName} {info : Nat} (hf : firstFailure cs = some (f, info)) :
    Faults (c >>= rest) e f info 0 e := (h.faults he hf).bind

/-- The checks of UPRES.BL and UPRES.NN as one rule (R221). -/
def upresChecks (env : Env) (src dst : SlotIx) : Cmd Unit := do
  checkUpresSlots env src dst
  checkUpresOverlap env src dst

/-- The checks of UPRES.ADD as one rule (R221). -/
def upresAddChecks (env : Env) (src dst dlt : SlotIx) : Cmd Unit := do
  checkUpresSlots env src dst
  checkDeltaSlot env dst dlt
  checkUpresOverlap env src dst
  checkDeltaOverlap env dst dlt

theorem upresBlRule_eq (env : Env) (src dst : SlotIx) : upresBlRule src dst env =
    (upresChecks env src dst >>= fun _ =>
      forPixels (env.params.slot src).w.toNat (env.params.slot src).h.toNat (bilinearPixel env src dst)) := by
  simp only [upresBlRule, upresChecks, bind_assoc]

theorem upresNnRule_eq (env : Env) (src dst : SlotIx) : upresNnRule src dst env =
    (upresChecks env src dst >>= fun _ =>
      forPixels (env.params.slot src).w.toNat (env.params.slot src).h.toNat (nearestPixel env src dst)) := by
  simp only [upresNnRule, upresChecks, bind_assoc]

theorem upresAddRule_eq (env : Env) (src dst dlt : SlotIx) : upresAddRule src dst dlt env =
    (upresAddChecks env src dst dlt >>= fun _ =>
      forPixels (env.params.slot src).w.toNat (env.params.slot src).h.toNat (addPixel env src dst dlt)) := by
  simp only [upresAddRule, upresAddChecks, bind_assoc]

theorem upresChecks_verdict (P : Engine → Prop) (env : Env) (src dst : SlotIx) :
    Verdict P (upresChecks env src dst)
      (upresGeometry env.params src dst ++ [((env.params.slot dst).meets (env.params.slot src), .overlap, 1)]) :=
  .append (checkUpresSlots_verdict P env src dst) (checkUpresOverlap_verdict P env src dst)

theorem upresAddChecks_verdict (P : Engine → Prop) (env : Env) (src dst dlt : SlotIx) :
    Verdict P (upresAddChecks env src dst dlt) (upresGeometry env.params src dst ++ upresDelta env.params src dst dlt) :=
  .append (checkUpresSlots_verdict P env src dst) (checkDelta_verdict P env src dst dlt)

/-- LOADHT's check of NT and FIRST (R108). -/
theorem loadhtCheck_verdict (P : Engine → Prop) (nt first : BitVec 2) (ept : Bool) :
    Verdict P (check (Instr.loadht nt first ept).wellFormed .illegalCmd 2 0)
      [(nt == 0 || first == 3 || decide (3 < first.toNat + nt.toNat), .illegalCmd, 2)] :=
  .check (loadhtCheck_eq nt first ept) _ _

/-- A DECODE whose checks fail raises their first failure (R172, R173), its stream being discarded. -/
theorem decodeRule_check_faults {env : Env} {e : Engine} (h : Header) {o : DecodeOps} {f : FaultName} {info : Nat}
    (hv : decodeVerdict env.params e.tables o = some (f, info)) : Faults (decodeRule h o env) e f info 0 e.drain :=
  withStream_faults ((decodeChecks_verdict env e.tables o).rule_faults rfl hv)

/-- Every command's rule raises the first failure of its launch checks, having changed nothing but that its stream, if it takes one, is
discarded (R282, R283). -/
theorem ruleOf_check_faults {env : Env} {e : Engine} {i : Instr} {f : FaultName} {info : Nat}
    (hv : launchVerdict env.params e.tables i = some (f, info)) :
    Faults (ruleOf (.command i) env) e f info 0 (drainedFor (encode i) e) := by
  rw [drainedFor, takesStream_encode]
  cases i with
  | nop => cases hv
  | loadht nt first ept => exact withStream_faults ((loadhtCheck_verdict (fun _ => True) nt first ept).rule_faults trivial hv)
  | clear k => exact (checkSlot_verdict (fun _ => True) env k).rule_faults trivial hv
  | decodeH24 ys c1s c2s pen => exact decodeRule_check_faults .h24 hv
  | decodeH32 ys c1s c2s pen => exact decodeRule_check_faults .h32 hv
  | upresBl src dst =>
    show Faults (upresBlRule src dst env) e f info 0 e
    rw [upresBlRule_eq]
    exact (upresChecks_verdict (fun _ => True) env src dst).rule_faults trivial hv
  | upresAdd src dst dlt =>
    show Faults (upresAddRule src dst dlt env) e f info 0 e
    rw [upresAddRule_eq]
    exact (upresAddChecks_verdict (fun _ => True) env src dst dlt).rule_faults trivial hv
  | upresNn src dst =>
    show Faults (upresNnRule src dst env) e f info 0 e
    rw [upresNnRule_eq]
    exact (upresChecks_verdict (fun _ => True) env src dst).rule_faults trivial hv
  | convert ys c1s c2s => exact (convertChecks_verdict (fun _ => True) env ys c1s c2s).rule_faults trivial hv

/-- Settles O22. -/
theorem launchChecksFault : Obligations.LaunchChecksFault := by
  unfold Obligations.LaunchChecksFault
  exact fun s i f info hs hv => exec_faults hs (ruleOf_check_faults hv)

/-- Settles O32: with no budget the sequence loop does nothing. -/
theorem decodeWithoutBudget : Obligations.DecodeWithoutBudget := by
  unfold Obligations.DecodeWithoutBudget
  intro s h o hs hv hcount
  refine exec_gives hs ?_
  rw [ruleOf_decodeInstr]
  refine decodeRule_gives hv ?_
  rw [show s.env.params.seqCount.toNat = 0 from congrArg BitVec.toNat hcount]
  exact .pure () _

end Sys2Proof.Machine
end


section
/-! SUPPORT and PROOFS. What puts leave in memory, and CLEAR, which puts a zero at every offset of its plane (42_delta_decoder.md R170,
R190). -/

namespace Sys2Proof.Machine

/-! ## Memory after puts (R190) -/

theorem putIn_wf {plat : Platform} {d : Desc} {i : Nat} {m : Memory} (hm : m.wf)
    (hp : i < d.w.toNat * d.h.toNat → plat.kindAt (d.base.toNat + i) = .plain) (v : Byte) : (putIn d m i v).wf := by
  rw [putIn]
  split
  · next hi => exact Memory.write_wf hm (Platform.plain_lt (hp hi)) v
  · exact hm

/-- A byte after a put: the value at the put's address if its offset lies in the plane, else what it was. -/
theorem read_putIn {d : Desc} {i : Nat} {m : Memory} (hm : m.wf) (v : Byte) (a : Nat) :
    (putIn d m i v).read a = if i < d.w.toNat * d.h.toNat ∧ a = d.base.toNat + i then v else m.read a := by
  rw [putIn]
  by_cases hi : i < d.w.toNat * d.h.toNat
  · rw [if_pos hi, Memory.read_write hm.1]
    simp only [hi, true_and, eq_comm]
  · rw [if_neg hi, if_neg fun h => hi h.1]

section Puts

variable {plat : Platform} {d : Desc} {off : Nat} {v : Nat → Byte} {m : Memory} {n : Nat}

theorem putAll_wf (hm : m.wf)
    (hp : ∀ k, k < n → off + k < d.w.toNat * d.h.toNat → plat.kindAt (d.base.toNat + (off + k)) = .plain) :
    (putAll d off v m n).wf := by
  induction n with
  | zero => exact hm
  | succ n ih =>
    rw [putAll_succ]
    exact putIn_wf (ih fun k hk => hp k (by omega)) (hp n (by omega)) _

/-- Puts leave every byte that is none of theirs. -/
theorem read_putAll_other (hm : m.wf)
    (hp : ∀ k, k < n → off + k < d.w.toNat * d.h.toNat → plat.kindAt (d.base.toNat + (off + k)) = .plain) {a : Nat}
    (ha : ∀ k, k < n → off + k < d.w.toNat * d.h.toNat → a ≠ d.base.toNat + (off + k)) :
    (putAll d off v m n).read a = m.read a := by
  induction n with
  | zero => rfl
  | succ n ih =>
    rw [putAll_succ, read_putIn (putAll_wf hm fun k hk => hp k (by omega)), if_neg fun h => ha n (by omega) h.1 h.2]
    exact ih (fun k hk => hp k (by omega)) fun k hk => ha k (by omega)

/-- Puts at consecutive offsets leave each its value, within the plane. -/
theorem read_putAll_at (hm : m.wf)
    (hp : ∀ k, k < n → off + k < d.w.toNat * d.h.toNat → plat.kindAt (d.base.toNat + (off + k)) = .plain) {k : Nat} (hk : k < n)
    (hin : off + k < d.w.toNat * d.h.toNat) : (putAll d off v m n).read (d.base.toNat + (off + k)) = v k := by
  induction n with
  | zero => omega
  | succ n ih =>
    have hp' : ∀ j, j < n → off + j < d.w.toNat * d.h.toNat → plat.kindAt (d.base.toNat + (off + j)) = .plain :=
      fun j hj => hp j (by omega)
    rw [putAll_succ, read_putIn (putAll_wf hm hp')]
    rcases Nat.lt_succ_iff_lt_or_eq.1 hk with hlt | rfl
    · rw [if_neg (by omega)]
      exact ih hp' hlt
    · rw [if_pos ⟨hin, rfl⟩]

end Puts

/-! ## Zeros -/

/-- The engine's data e after zeros at the offsets of plane d from off up to i. -/
def Engine.zeroed (e : Engine) (d : Desc) (off i : Nat) : Engine := { e with mem := putAll d off (fun _ => 0) e.mem (i - off) }

theorem Engine.zeroed_self (e : Engine) (d : Desc) (off : Nat) : e.zeroed d off off = e := by
  rw [Engine.zeroed, Nat.sub_self, putAll_zero]

/-- One more zero. -/
theorem zeroed_putByte {env : Env} {d : Desc} {off k : Nat}
    (hp : off + k < d.w.toNat * d.h.toNat → env.plat.kindAt (d.base.toNat + (off + k)) = .plain) (e : Engine) :
    Gives (putByte env d (off + k) 0) (e.zeroed d off (off + k)) () (e.zeroed d off (off + k + 1)) := by
  have hput := putByte_gives hp 0 (e.zeroed d off (off + k))
  have hsucc := putAll_succ d off (fun _ => 0) e.mem k
  rw [Engine.zeroed, Nat.add_sub_cancel_left] at hput
  rw [Engine.zeroed, Engine.zeroed, Nat.add_sub_cancel_left, Nat.add_assoc, Nat.add_sub_cancel_left, hsucc]
  exact hput

/-- Zeros at n consecutive offsets whose bytes are plain memory. -/
theorem zeros_give {env : Env} {d : Desc} {off n : Nat} (e : Engine)
    (hp : ∀ k, k < n → off + k < d.w.toNat * d.h.toNat → env.plat.kindAt (d.base.toNat + (off + k)) = .plain) :
    Gives (forFrom (fun i => putByte env d i 0) off n) e () (e.zeroed d off (off + n)) := by
  have := Gives.forFrom (body := fun i => putByte env d i 0) (e.zeroed d off) n off fun i h1 h2 => by
    obtain ⟨k, rfl⟩ := Nat.exists_eq_add_of_le h1
    exact zeroed_putByte (hp k (by omega)) e
  rwa [e.zeroed_self] at this

/-- Zeros up to the first offset whose byte does not respond. -/
theorem zeros_fault {env : Env} {d : Desc} {off n stop : Nat} (e : Engine) (hs : stop < n) (hin : off + stop < d.w.toNat * d.h.toNat)
    (habs : env.plat.kindAt (d.base.toNat + (off + stop)) = .absent)
    (hp : ∀ k, k < stop → off + k < d.w.toNat * d.h.toNat → env.plat.kindAt (d.base.toNat + (off + k)) = .plain) :
    Faults (forFrom (fun i => putByte env d i 0) off n) e .busError 1 (d.base.toNat + (off + stop)) (e.zeroed d off (off + stop)) := by
  have := Faults.forFrom (body := fun i => putByte env d i 0) (e.zeroed d off) n off stop hs
    (fun i h1 h2 => by
      obtain ⟨k, rfl⟩ := Nat.exists_eq_add_of_le h1
      exact zeroed_putByte (hp k (by omega)) e)
    (putByte_faults hin habs 0 _)
  rwa [e.zeroed_self] at this

/-! ## CLEAR (R170) -/

/-- A loop's passes may be replaced by equal ones. -/
theorem forFrom_congr {body body' : Nat → Cmd Unit} : ∀ {n i : Nat}, (∀ k, i ≤ k → k < i + n → body k = body' k) →
    forFrom body i n = forFrom body' i n
  | 0, _, _ => rfl
  | n + 1, i, h => by
    rw [forFrom, forFrom, h i (le_refl i) (by omega), forFrom_congr fun k h1 h2 => h k (by omega) (by omega)]

/-- CLEAR puts a zero at every offset of its plane. -/
theorem clearRule_eq (k : SlotIx) (env : Env) :
    clearRule k env =
      (checkSlot env k >>= fun _ =>
        forFrom (fun i => putByte env (env.params.slot k) i 0) 0 (env.params.slot k).bytes) := by
  rw [clearRule]
  exact congrArg _ (funext fun _ => forFrom_congr fun i _ hi => by
    rw [putByte, if_pos (show i < (env.params.slot k).bytes by omega)])

/-- A slot that fits passes its check (60_exceptions.md R284). -/
theorem checkSlot_gives {env : Env} {k : SlotIx} (h : (env.params.slot k).unfit = false) (e : Engine) :
    Gives (checkSlot env k) e () e := .check (by rw [geometryOk_eq, h]; rfl) _ _ _ e

/-- Plain bytes at the start of a plane, as bytes of puts from offset 0 on. -/
theorem plain_from_zero {plat : Platform} {d : Desc} {n : Nat} (hp : ∀ j, j < n → plat.kindAt (d.base.toNat + j) = .plain) :
    ∀ j, j < n → 0 + j < d.w.toNat * d.h.toNat → plat.kindAt (d.base.toNat + (0 + j)) = .plain := fun j hj _ => by
  rw [Nat.zero_add]
  exact hp j hj

/-- Memory after the zeros at the first n offsets of a plane. -/
theorem read_zeroed {plat : Platform} {d : Desc} {e : Engine} {n : Nat} (hm : e.mem.wf) (hn : n ≤ d.w.toNat * d.h.toNat)
    (hp : ∀ j, j < n → plat.kindAt (d.base.toNat + j) = .plain) (a : Nat) :
    (e.zeroed d 0 n).mem.read a = if d.base.toNat ≤ a ∧ a < d.base.toNat + n then 0 else e.mem.read a := by
  split
  · next h =>
    have := read_putAll_at (v := fun _ => 0) hm (plain_from_zero hp) (k := a - d.base.toNat) (by omega) (by omega)
    rwa [show d.base.toNat + (0 + (a - d.base.toNat)) = a by omega] at this
  · exact read_putAll_other hm (plain_from_zero hp) fun j hj _ => by omega

/-- Settles O21. -/
theorem clearZeroesThePlane : Obligations.ClearZeroesThePlane := by
  unfold Obligations.ClearZeroesThePlane
  intro s k hs hm
  have hrule : ruleOf (.command (.clear k)) s.env = clearRule k s.env := rfl
  refine ⟨fun hunfit => ?_, fun hfit hp => ?_, fun i hfit hi hp habs => ?_⟩
  · exact exec_faults hs ((checkSlot_verdict (fun _ => True) s.env k).rule_faults trivial (if_pos hunfit))
  · refine ⟨_, exec_gives hs ?_, read_zeroed hm (Nat.le_refl _) hp⟩
    rw [hrule, clearRule_eq]
    have := zeros_give (env := s.env) (n := (s.params.slot k).bytes) (launched s.eng) (plain_from_zero hp)
    rw [Nat.zero_add] at this
    exact (checkSlot_gives hfit _).bind this
  · refine ⟨_, exec_faults hs ?_, read_zeroed hm (Nat.le_of_lt hi) hp⟩
    rw [hrule, clearRule_eq]
    have := zeros_fault (env := s.env) (off := 0) (launched s.eng) hi (by rwa [Nat.zero_add])
      (by rwa [Nat.zero_add]) (plain_from_zero hp)
    rw [Nat.zero_add] at this
    exact (checkSlot_gives hfit _).bind_faults this

end Sys2Proof.Machine
end

section
/-! SUPPORT and PROOFS. DECODE on a stream that has ended: every end that the description of its symbols, sequences and sequence loop
gives is the end of the machine's run, wherever data memory responds as the description says (42_delta_decoder.md R171 to R193, R198). -/

namespace Sys2Proof.Machine

/-! ## Runs that end either way -/

theorem exec_runs {s : State} {i : Instr} {out : Option Failure} {e' : Engine} (hs : Ready s)
    (h : Runs (ruleOf (.command i) s.env) (launched s.eng) out e') : exec i s = .next (ended i s out e') := by
  cases out with
  | none => exact exec_gives hs h
  | some f => exact exec_faults hs h

theorem withStream_runs {body : Cmd Unit} {e e' : Engine} {out : Option Failure} (h : Runs body e out e') :
    Runs (withStream body) e out e'.drain := by
  cases out with
  | none => exact withStream_gives h
  | some f => exact withStream_faults h

/-- A run that has failed does not go on. -/
theorem Runs.bind_failed {c : Cmd Unit} {rest : Unit → Cmd Unit} {e e' : Engine} {f : Failure} (h : Runs c e (some f) e') :
    Runs (c >>= rest) e (some f) e' := Faults.bind h

/-! ## The symbol loop (R189) -/

/-- Progress once k known symbols of a sequence have been put and consumed. -/
def Progress.afterSymbols (g : Progress) (d : Desc) (codes : List Code) (bs : List Byte) (off k : Nat) : Progress :=
  { g with pos := symbolPos codes bs g.pos k, mem := putAll d off (symbolKey codes bs g.pos) g.mem k }

/-- The values of a recovery are the known symbols, then zeros (R192). -/
theorem putAll_recoveredValue (d : Desc) (codes : List Code) (bs : List Byte) (start off bad : Nat) (m : Memory) (r : Nat) :
    putAll d off (recoveredValue codes bs start bad) m (bad + r) =
      putAll d (off + bad) (fun _ => 0) (putAll d off (symbolKey codes bs start) m bad) r := by
  induction r with
  | zero => exact putAll_congr fun k hk => if_pos hk
  | succ r ih =>
    rw [← Nat.add_assoc, putAll_succ, putAll_succ, ih, Nat.add_assoc]
    exact congrArg _ (if_neg (by omega))

section Symbols

variable {env : Env} {d : Desc} {t : Nat} {e e' : Engine} {codes : List Code} {bs : List Byte} {off n : Nat} {g : Progress}
  {out : Option Failure}

/-- The symbol loop looks the next symbol up and goes on by its length (R189, R192). -/
theorem symbolsFrom_lookup (hend : streamEnded e.port = true) (hbs : streamBytes e.port = bs) (hcodes : (e.tables.get t).codes = codes)
    (h : Runs (if symbolLen codes bs g.pos 0 = 31 then recoverSymbol env d off (n + 1)
        else do
          putByte env d off (symbolKey codes bs g.pos 0)
          consume (symbolLen codes bs g.pos 0)
          symbolsFrom env d t (off + 1) n) (progressed e bs g false) out e') :
    Runs (symbolsFrom env d t off (n + 1)) (progressed e bs g false) out e' := by
  subst hbs hcodes
  have hw : Gives windowHere (progressed e (streamBytes e.port) g false) (window (streamBytes e.port) g.pos)
      (progressed e (streamBytes e.port) g false) := windowHere_gives (.inl hend)
  exact hw.bind_runs ((Gives.engine _).bind_runs h)

/-- A known symbol is put, then consumed. -/
theorem symbolsFrom_known (hend : streamEnded e.port = true) (hbs : streamBytes e.port = bs) (hcodes : (e.tables.get t).codes = codes)
    (known : symbolLen codes bs g.pos 0 ≠ 31)
    (h : Runs (do
        putByte env d off (symbolKey codes bs g.pos 0)
        consume (symbolLen codes bs g.pos 0)
        symbolsFrom env d t (off + 1) n) (progressed e bs g false) out e') :
    Runs (symbolsFrom env d t off (n + 1)) (progressed e bs g false) out e' :=
  symbolsFrom_lookup hend hbs hcodes (by rwa [if_neg known])

/-- An unknown symbol begins the recovery. -/
theorem symbolsFrom_unknown (hend : streamEnded e.port = true) (hbs : streamBytes e.port = bs)
    (hcodes : (e.tables.get t).codes = codes) (unknown : symbolLen codes bs g.pos 0 = 31)
    (h : Runs (recoverSymbol env d off (n + 1)) (progressed e bs g false) out e') :
    Runs (symbolsFrom env d t off (n + 1)) (progressed e bs g false) out e' :=
  symbolsFrom_lookup hend hbs hcodes (by rwa [if_pos unknown])

/-- Consume within the stream moves the reader alone (R182). -/
theorem progressed_consume (hbs : streamBytes e.port = bs) {len : Nat} (h : g.pos + len ≤ 8 * bs.length) :
    Gives (consume len) (progressed e bs g false) () (progressed e bs { g with pos := g.pos + len } false) := by
  subst hbs
  have := consume_gives (e := progressed e (streamBytes e.port) g false) (n := len) h
  rwa [progressed_atPos e _ rfl] at this

/-- Consume past the end of the stream changes nothing (R182). -/
theorem progressed_consume_cut (hend : streamEnded e.port = true) (hbs : streamBytes e.port = bs) {len : Nat}
    (h : 8 * bs.length < g.pos + len) :
    Faults (consume len) (progressed e bs g false) .eofInSeq 0 g.pos (progressed e bs g false) := by
  subst hbs
  exact consume_faults (e := progressed e (streamBytes e.port) g false) hend h

/-- Putting a known symbol moves memory on by one put. -/
theorem afterSymbols_put (k : Nat) (hp : off + k < d.w.toNat * d.h.toNat → env.plat.kindAt (d.base.toNat + (off + k)) = .plain) :
    Gives (putByte env d (off + k) (symbolKey codes bs g.pos k)) (progressed e bs (g.afterSymbols d codes bs off k) false) ()
      (progressed e bs { g.afterSymbols d codes bs off k with mem := putAll d off (symbolKey codes bs g.pos) g.mem (k + 1) } false) := by
  rw [putAll_succ]
  exact putByte_gives hp _ _

/-- After k known symbols, put in plain memory and consumed within the stream, the loop goes on with the rest. -/
theorem symbolsFrom_after (hend : streamEnded e.port = true) (hbs : streamBytes e.port = bs)
    (hcodes : (e.tables.get t).codes = codes) (k : Nat) : ∀ {n : Nat}, (∀ j, j < k → symbolLen codes bs g.pos j ≠ 31) →
    symbolPos codes bs g.pos k ≤ 8 * bs.length →
    (∀ j, j < k → off + j < d.w.toNat * d.h.toNat → env.plat.kindAt (d.base.toNat + (off + j)) = .plain) →
    Runs (symbolsFrom env d t (off + k) n) (progressed e bs (g.afterSymbols d codes bs off k) false) out e' →
    Runs (symbolsFrom env d t off (k + n)) (progressed e bs g false) out e' := by
  induction k with
  | zero =>
    intro n _ _ _ h
    rwa [Nat.zero_add]
  | succ k ih =>
    intro n known fits plain h
    rw [show k + 1 + n = k + (n + 1) by omega]
    refine ih (fun j hj => known j (by omega)) (Nat.le_trans (Nat.le_add_right _ _) fits) (fun j hj => plain j (by omega)) ?_
    refine symbolsFrom_known hend hbs hcodes (known k (by omega)) ?_
    exact (afterSymbols_put k (plain k (by omega))).bind_runs ((progressed_consume hbs fits).bind_runs h)

/-- A recovery whose bytes are plain memory (R192). -/
theorem recoverSymbol_gives
    (hp : ∀ k, k < n → off + k < d.w.toNat * d.h.toNat → env.plat.kindAt (d.base.toNat + (off + k)) = .plain) :
    Gives (recoverSymbol env d off n) (progressed e bs g false) ()
      (progressed e bs { g with mem := putAll d off (fun _ => 0) g.mem n, errors := g.errors + 1 } false) := by
  have hcount := Gives.updateEngine (fun e => { e with symErrs := e.symErrs + 1, symErr := true })
    (progressed e bs { g with mem := putAll d off (fun _ => 0) g.mem n } false)
  have hz := zeros_give (progressed e bs g false) hp
  rw [Engine.zeroed, Nat.add_sub_cancel_left] at hz
  exact hz.bind (by simpa [progressed, BitVec.ofNat_add] using hcount)

/-- However the description says the symbols of a sequence end, the symbol loop ends so. -/
theorem SymbolsEnd.runs {pos errors : Nat} {m : Memory} (hend : streamEnded e.port = true) (hbs : streamBytes e.port = bs)
    (hcodes : (e.tables.get t).codes = codes) (h : SymbolsEnd env.plat d codes bs off n g.pos g.mem out pos m errors) :
    Runs (symbolsFrom env d t off n) (progressed e bs g false) out
      (progressed e bs { g with pos := pos, mem := m, errors := g.errors + errors } false) := by
  cases h with
  | decoded known fits plain => exact symbolsFrom_after (n := 0) (out := none) hend hbs hcodes n known fits plain (Gives.pure () _)
  | recovered bad inside known fits unknown plain =>
    obtain ⟨r, rfl⟩ : ∃ r, n = bad + (r + 1) := ⟨n - bad - 1, by omega⟩
    refine symbolsFrom_after hend hbs hcodes bad known fits (fun k hk => plain k (by omega)) ?_
    refine symbolsFrom_unknown hend hbs hcodes unknown ?_
    rw [putAll_recoveredValue]
    exact recoverSymbol_gives fun k hk => by rw [Nat.add_assoc]; exact plain (bad + k) (by omega)
  | truncated cut inside known fits past plain =>
    obtain ⟨r, rfl⟩ : ∃ r, n = cut + (r + 1) := ⟨n - cut - 1, by omega⟩
    refine symbolsFrom_after hend hbs hcodes cut (fun k hk => known k (by omega)) fits (fun k hk => plain k (by omega)) ?_
    refine symbolsFrom_known hend hbs hcodes (known cut (le_refl _)) ?_
    exact (afterSymbols_put cut (plain cut (le_refl _))).bind_runs (Faults.bind (progressed_consume_cut hend hbs past))
  | noResponse stop inside known fits inPlane absent plain =>
    obtain ⟨r, rfl⟩ : ∃ r, n = stop + (r + 1) := ⟨n - stop - 1, by omega⟩
    refine symbolsFrom_after hend hbs hcodes stop (fun k hk => known k (by omega)) fits (fun k hk => plain k hk) ?_
    refine symbolsFrom_known hend hbs hcodes (known stop (le_refl _)) ?_
    exact (putByte_faults inPlane absent _ _).bind
  | noResponseInRecovery bad stop after inside known fits unknown inPlane absent plain =>
    obtain ⟨r, rfl⟩ : ∃ r, n = bad + (r + 1) := ⟨n - bad - 1, by omega⟩
    obtain ⟨z, rfl⟩ := Nat.exists_eq_add_of_le after
    refine symbolsFrom_after hend hbs hcodes bad known fits (fun k hk => plain k (by omega)) ?_
    refine symbolsFrom_unknown hend hbs hcodes unknown ?_
    rw [putAll_recoveredValue]
    rw [← Nat.add_assoc off bad z] at inPlane absent ⊢
    have hz := zeros_fault (progressed e bs (g.afterSymbols d codes bs off bad) false) (show z < r + 1 by omega) inPlane absent
      fun k hk => by rw [Nat.add_assoc]; exact plain (bad + k) (by omega)
    rw [Engine.zeroed, Nat.add_sub_cancel_left] at hz
    exact hz.bind

end Symbols

/-! ## One sequence (R181 to R188) -/

section Sequence

variable {env : Env} {e e' : Engine} {h : Header} {o : DecodeOps} {bs : List Byte} {g : Progress} {out : Option Failure}

/-- The engine's data once a header has been consumed and counted. -/
theorem progressed_counted (e : Engine) (bs : List Byte) (g : Progress) :
    Gives (updateEngine fun e => { e with seqDone := e.seqDone + 1 }) (progressed e bs g false) ()
      (progressed e bs { g with headers := g.headers + 1 } false) := by
  have := Gives.updateEngine (fun e => { e with seqDone := e.seqDone + 1 }) (progressed e bs g false)
  simpa [progressed, BitVec.ofNat_add] using this

/-- R186: a skipped sequence is counted so. -/
theorem skipSequence_gives (e : Engine) (bs : List Byte) (g : Progress) :
    Gives skipSequence (progressed e bs g false) () (progressed e bs { g with skips := g.skips + 1 } false) := by
  have := Gives.updateEngine (fun e => { e with seqSkip := e.seqSkip + 1 }) (progressed e bs g false)
  simpa [skipSequence, progressed, BitVec.ofNat_add] using this

/-- What a sequence whose marker is at p does once its header f is consumed and counted (R183 to R189). -/
def pastHeader (env : Env) (h : Header) (o : DecodeOps) (p : Nat) (f : HeaderFields) : Cmd Unit :=
  match planeOfCode f.pc with
  | none => raise .badPlane f.pc p
  | some pl => planeSequence env h o pl f

theorem decodeSequence_eq (env : Env) (h : Header) (o : DecodeOps) : decodeSequence env h o = (do
    let p := (← engine).pos
    consume 16
    let f := h.fields (← windowHere)
    consume (h.skip env.params)
    updateEngine fun e => { e with seqDone := e.seqDone + 1 }
    pastHeader env h o p f) := rfl

section PastHeader

variable {p : Nat} {pl : Plane} {f : HeaderFields}

theorem pastHeader_badPlane (invalid : planeOfCode f.pc = none) : pastHeader env h o p f = raise .badPlane f.pc p := by
  rw [pastHeader, invalid]

theorem pastHeader_skipped (plane : planeOfCode f.pc = some pl) (out : isSkipped env h o pl f) :
    pastHeader env h o p f = skipSequence := by
  rw [pastHeader, plane]
  exact if_pos ((skip_iff env h o pl f).2 out)

theorem pastHeader_used (plane : planeOfCode f.pc = some pl) (used : ¬isSkipped env h o pl f) :
    pastHeader env h o p f =
      symbolsFrom env (env.params.slot (o.slotOf pl)) pl.index (firstOffset env.params h pl (env.params.slot (o.slotOf pl)) f)
        (symbolCount env.params (env.params.slot (o.slotOf pl))) := by
  rw [pastHeader, plane]
  exact if_neg fun hsk => used ((skip_iff env h o pl f).1 hsk)

end PastHeader

/-- A sequence past its first 16 bits. -/
theorem decodeSequence_after_marker (hend : streamEnded e.port = true) (hbs : streamBytes e.port = bs)
    (fits : g.pos + 16 ≤ 8 * bs.length)
    (hrest : Runs (do
        consume (h.skip env.params)
        updateEngine fun e => { e with seqDone := e.seqDone + 1 }
        pastHeader env h o g.pos (headerAt h bs g.pos))
      (progressed e bs { g with pos := g.pos + 16 } false) out e') :
    Runs (decodeSequence env h o) (progressed e bs g false) out e' := by
  have hw : Gives windowHere (progressed e bs { g with pos := g.pos + 16 } false) (window bs (g.pos + 16))
      (progressed e bs { g with pos := g.pos + 16 } false) := by
    subst hbs
    exact windowHere_gives (.inl hend)
  rw [decodeSequence_eq]
  exact (Gives.engine _).bind_runs ((progressed_consume hbs fits).bind_runs (hw.bind_runs hrest))

/-- A sequence past its header. -/
theorem decodeSequence_after_header (hend : streamEnded e.port = true) (hbs : streamBytes e.port = bs)
    (fits : payloadAt env.params h g.pos ≤ 8 * bs.length)
    (hrest : Runs (pastHeader env h o g.pos (headerAt h bs g.pos))
      (progressed e bs { g with pos := payloadAt env.params h g.pos, headers := g.headers + 1 } false) out e') :
    Runs (decodeSequence env h o) (progressed e bs g false) out e' := by
  refine decodeSequence_after_marker hend hbs (Nat.le_trans (Nat.le_add_right _ _) fits) ?_
  refine (progressed_consume (g := { g with pos := g.pos + 16 }) hbs fits).bind_runs ?_
  exact (progressed_counted e bs { g with pos := payloadAt env.params h g.pos }).bind_runs hrest

/-- However the description says a sequence ends, the machine's ends so. -/
theorem SequenceEnds.runs {g' : Progress} (hend : streamEnded e.port = true) (hbs : streamBytes e.port = bs)
    (hs : SequenceEnds env e.tables h o bs g out g') :
    Runs (decodeSequence env h o) (progressed e bs g false) out (progressed e bs g' false) := by
  cases hs with
  | cutMarker past => exact (Gives.engine _).bind_runs (Faults.bind (progressed_consume_cut hend hbs past))
  | cutHeader fits past =>
    refine decodeSequence_after_marker hend hbs fits (Faults.bind ?_)
    exact progressed_consume_cut (g := { g with pos := g.pos + 16 }) hend hbs past
  | badPlane fits invalid =>
    refine decodeSequence_after_header hend hbs fits ?_
    rw [pastHeader_badPlane invalid]
    exact Faults.raise _ _ _ _
  | skipped pl fits plane out =>
    refine decodeSequence_after_header hend hbs fits ?_
    rw [pastHeader_skipped plane out]
    exact skipSequence_gives e bs _
  | symbols pl _ pos m errors fits plane used ends =>
    refine decodeSequence_after_header hend hbs fits ?_
    rw [pastHeader_used plane used]
    exact ends.runs (g := { g with pos := payloadAt env.params h g.pos, headers := g.headers + 1 }) hend hbs rfl

/-- A sequence that ends without a fault leaves the reader within the stream. -/
theorem SequenceEnds.pos_le {ts : Tables} {g' : Progress} (hs : SequenceEnds env ts h o bs g none g') : g'.pos ≤ 8 * bs.length := by
  cases hs with
  | skipped pl fits plane out => exact fits
  | symbols pl _ pos m errors fits plane used ends =>
    cases ends with
    | decoded known fits plain => exact fits
    | recovered bad inside known fits unknown plain => exact fits

end Sequence

/-! ## The sequence loop (R171) -/

/-- The first marker is at one bit only. -/
theorem markerFrom_unique {par : Params} {bs : List Byte} {start p q : Nat} (hp : markerFrom par bs start p)
    (hq : markerFrom par bs start q) : p = q := by
  obtain ⟨hp1, -, hp3, hp4⟩ := hp
  obtain ⟨hq1, -, hq3, hq4⟩ := hq
  rcases Nat.lt_trichotomy p q with hlt | heq | hgt
  · exact absurd hp3 (hq4 p hp1 hlt)
  · exact heq
  · exact absurd hq3 (hp4 q hq1 hgt)

section Loop

variable {env : Env} {e e' : Engine} {h : Header} {o : DecodeOps} {bs : List Byte} {g g' : Progress} {out : Option Failure} {n p : Nat}

/-- Where the stream holds a marker from here on, the search finds it (R175, R176). -/
theorem sync_finds (hmask : env.params.syncMask ≠ 0) (hend : streamEnded e.port = true) (hbs : streamBytes e.port = bs)
    (hg : g.pos ≤ 8 * bs.length) (found : markerFrom env.params bs g.pos p) :
    Gives (sync env.params) (progressed e bs g false) true (progressed e bs { g with pos := p } false) := by
  subst hbs
  obtain ⟨q, -, ⟨hq, hrun⟩ | ⟨hq, -⟩⟩ := sync_gives hend hmask g hg
  · rwa [markerFrom_unique found hq]
  · exact absurd hq (not_searchEnds_of_markerFrom found)

/-- A sequence that is found, then whatever follows it. -/
theorem sequencesFrom_found (hmask : env.params.syncMask ≠ 0) (hend : streamEnded e.port = true) (hbs : streamBytes e.port = bs)
    (hg : g.pos ≤ 8 * bs.length) (found : markerFrom env.params bs g.pos p)
    (hrest : Runs (decodeSequence env h o >>= fun _ => sequencesFrom env h o n) (progressed e bs { g with pos := p } false) out e') :
    Runs (sequencesFrom env h o (n + 1)) (progressed e bs g false) out e' := by
  refine (sync_finds hmask hend hbs hg found).bind_runs ?_
  rwa [if_pos rfl]

/-- However the description says the sequence loop ends, the machine's ends so. -/
theorem DecodeEnds.runs {eos : Bool} (hmask : env.params.syncMask ≠ 0) (hend : streamEnded e.port = true)
    (hbs : streamBytes e.port = bs) (hd : DecodeEnds env e.tables h o bs n g out eos g') (hg : g.pos ≤ 8 * bs.length) :
    Runs (sequencesFrom env h o n) (progressed e bs g false) out (progressed e bs g' eos) := by
  induction hd with
  | budget g => exact Gives.pure () _
  | endOfStream n g p ends =>
    subst hbs
    exact sequencesFrom_without_marker h o hmask hend hg (Nat.succ_ne_zero n) ends
  | failed n g g' p f found ends =>
    exact sequencesFrom_found hmask hend hbs hg found (ends.runs hend hbs).bind_failed
  | next n g g' g'' p out eos found ends rest ih =>
    exact sequencesFrom_found hmask hend hbs hg found (Gives.bind_runs (ends.runs hend hbs) (ih ends.pos_le))

end Loop

/-- A DECODE that passes its launch checks, on a stream that has ended, ends as the description of its sequence loop says. -/
theorem exec_decode_ends {s : State} {h : Header} {o : DecodeOps} {out : Option Failure} {eos : Bool} {g : Progress} (hs : Ready s)
    (hv : decodeVerdict s.params s.eng.tables o = none) (hend : streamEnded s.eng.port = true)
    (hd : DecodeEnds s.env s.eng.tables h o (streamBytes s.eng.port) s.params.seqCount.toNat ⟨0, s.eng.mem, 0, 0, 0⟩ out eos g) :
    exec (decodeInstr h o) s =
      .next (ended (decodeInstr h o) s out (progressed s.eng (streamBytes s.eng.port) g eos).drain) := by
  refine exec_runs hs ?_
  rw [ruleOf_decodeInstr]
  have hloop := hd.runs (env := s.env) (e := s.eng) (syncMask_of_decodeVerdict hv) hend rfl (Nat.zero_le _)
  rw [progressed_start] at hloop
  exact withStream_runs ((decodeChecks_gives (env := s.env) (e := launched s.eng) hv).bind_runs hloop)

end Sys2Proof.Machine
end

section
/-! SUPPORT and PROOFS. The statements about DECODE's sequence loop: that it ends as described and in one way only, and what its first
sequence comes to (42_delta_decoder.md R171 to R193, R198). -/

namespace Sys2Proof.Machine

/-! ## There is an end (R171) -/

/-- Without device regions the sequence loop has an end, from any bit of the stream on. -/
theorem exists_decodeEnds {env : Env} {e : Engine} {bs : List Byte} (hmask : env.params.syncMask ≠ 0) (hdev : env.plat.noDevice)
    (hend : streamEnded e.port = true) (hbs : streamBytes e.port = bs) (h : Header) (o : DecodeOps) (n : Nat) :
    ∀ g : Progress, g.pos ≤ 8 * bs.length → ∃ out eos g', DecodeEnds env e.tables h o bs n g out eos g' := by
  subst hbs
  induction n with
  | zero => exact fun g _ => ⟨none, false, g, .budget g⟩
  | succ n ih =>
    intro g hg
    obtain ⟨p, hp, ⟨found, -⟩ | ⟨ends, -⟩⟩ := sync_gives hend hmask g hg
    · obtain ⟨out, g', hseq, hpos, -⟩ := decodeSequence_runs hdev h o hend { g with pos := p } hp
      cases out with
      | some f => exact ⟨some f, false, g', .failed n g g' p f found hseq⟩
      | none =>
        obtain ⟨out, eos, g'', hrest⟩ := ih g' hpos
        exact ⟨out, eos, g'', .next n g g' g'' p out eos found hseq hrest⟩
    · exact ⟨none, true, { g with pos := p }, .endOfStream n g p ends⟩

/-- Settles O30. -/
theorem decodeRunsTheSequenceLoop : Obligations.DecodeRunsTheSequenceLoop := by
  unfold Obligations.DecodeRunsTheSequenceLoop
  intro s h o hs _ hdev hv hend
  obtain ⟨out, eos, g, hd⟩ := exists_decodeEnds (env := s.env) (syncMask_of_decodeVerdict hv) hdev hend rfl h o
    s.params.seqCount.toNat ⟨0, s.eng.mem, 0, 0, 0⟩ (Nat.zero_le _)
  exact ⟨out, eos, g, hd, exec_decode_ends hs hv hend hd⟩

/-! ## There is one end (R198) -/

/-- The result of a run that ends as `out` says. -/
def resultOf (out : Option Failure) (r : Run) : EStateM.Result Stop Run Unit :=
  match out with
  | none => .ok () r
  | some f => .error (.fault f.name f.info f.addr) r

theorem Runs.result {c : Cmd Unit} {e e' : Engine} {out : Option Failure} (h : Runs c e out e') :
    ∃ m, c ⟨e, 0, none⟩ = resultOf out ⟨e', m, none⟩ := by
  cases out with
  | none => exact h 0
  | some f => exact h 0

theorem resultOf_inj {out1 out2 : Option Failure} {r1 r2 : Run} (h : resultOf out1 r1 = resultOf out2 r2) : out1 = out2 ∧ r1 = r2 := by
  cases out1 with
  | none =>
    cases out2 with
    | none => cases h; exact ⟨rfl, rfl⟩
    | some f => cases h
  | some f =>
    cases out2 with
    | none => cases h
    | some f' =>
      obtain ⟨name, info, addr⟩ := f
      obtain ⟨name', info', addr'⟩ := f'
      cases h
      exact ⟨rfl, rfl⟩

/-- A rule is a function: it runs from the same data to one end only. -/
theorem Runs.unique {c : Cmd Unit} {e e1 e2 : Engine} {out1 out2 : Option Failure} (h1 : Runs c e out1 e1) (h2 : Runs c e out2 e2) :
    out1 = out2 ∧ e1 = e2 := by
  obtain ⟨m1, hm1⟩ := h1.result
  obtain ⟨m2, hm2⟩ := h2.result
  obtain ⟨hout, hrun⟩ := resultOf_inj (hm1.symm.trans hm2)
  exact ⟨hout, congrArg Run.eng hrun⟩

/-- Each count of g' is that of g or one more. -/
structure CountsNext (g g' : Progress) : Prop where
  headers : g.headers ≤ g'.headers ∧ g'.headers ≤ g.headers + 1
  skips : g.skips ≤ g'.skips ∧ g'.skips ≤ g.skips + 1
  errors : g.errors ≤ g'.errors ∧ g'.errors ≤ g.errors + 1

/-- A sequence adds at most 1 to each count. -/
theorem SequenceEnds.counts {env : Env} {ts : Tables} {h : Header} {o : DecodeOps} {bs : List Byte} {g g' : Progress}
    {out : Option Failure} (hs : SequenceEnds env ts h o bs g out g') : CountsNext g g' := by
  cases hs with
  | cutMarker | cutHeader | badPlane | skipped => constructor <;> simp
  | symbols pl _ pos m errors fits plane used ends =>
    have : errors ≤ 1 := by cases ends <;> simp
    exact ⟨by simp, by simp, by simpa using this⟩

/-- A 32-bit count tells numbers apart that lie at most 1 above the same one. -/
theorem eq_of_ofNat_eq {n a b : Nat} (ha : n ≤ a ∧ a ≤ n + 1) (hb : n ≤ b ∧ b ≤ n + 1)
    (h : BitVec.ofNat 32 a = BitVec.ofNat 32 b) : a = b := by
  have := congrArg BitVec.toNat h
  rw [BitVec.toNat_ofNat, BitVec.toNat_ofNat] at this
  omega

/-- Progress from one point by a sequence is told by the engine's data, for its counts change by at most 1. -/
theorem Progress.eq_of_progressed {e : Engine} {bs : List Byte} {g g1 g2 : Progress} (h1 : CountsNext g g1) (h2 : CountsNext g g2)
    (h : progressed e bs g1 false = progressed e bs g2 false) : g1 = g2 := by
  obtain ⟨hh1, hs1, he1⟩ := h1
  obtain ⟨hh2, hs2, he2⟩ := h2
  obtain ⟨pos1, m1, headers1, skips1, errors1⟩ := g1
  obtain ⟨pos2, m2, headers2, skips2, errors2⟩ := g2
  obtain rfl : pos1 = pos2 := congrArg Engine.pos h
  obtain rfl : m1 = m2 := congrArg Engine.mem h
  obtain rfl : headers1 = headers2 := eq_of_ofNat_eq hh1 hh2 (congrArg Engine.seqDone h)
  obtain rfl : skips1 = skips2 := eq_of_ofNat_eq hs1 hs2 (congrArg Engine.seqSkip h)
  obtain rfl : errors1 = errors2 := eq_of_ofNat_eq he1 he2 (congrArg Engine.symErrs h)
  rfl

/-- A sequence has one end: both descriptions of it are of the machine's run on an engine that holds the stream and the tables. -/
theorem SequenceEnds.unique {env : Env} {ts : Tables} {h : Header} {o : DecodeOps} {bs : List Byte} {g g1 g2 : Progress}
    {out1 out2 : Option Failure} (h1 : SequenceEnds env ts h o bs g out1 g1) (h2 : SequenceEnds env ts h o bs g out2 g2) :
    out1 = out2 ∧ g1 = g2 := by
  obtain ⟨hbytes, hended, -⟩ := stream_of_bytes_eos bs []
  have runs {out : Option Failure} {g' : Progress} (hs : SequenceEnds env ts h o bs g out g') :=
    SequenceEnds.runs (e := { Engine.reset with tables := ts, port := bs.map .byte ++ [.eos] }) hended hbytes hs
  obtain ⟨hout, heng⟩ := (runs h1).unique (runs h2)
  exact ⟨hout, Progress.eq_of_progressed h1.counts h2.counts heng⟩

/-- Settles O31: the search, then each sequence, has one end. -/
theorem sequenceLoopHasOneOutcome : Obligations.SequenceLoopHasOneOutcome := by
  unfold Obligations.SequenceLoopHasOneOutcome
  intro env ts h o bs n g g1 g2 out1 out2 eos1 eos2 h1 h2
  induction h1 with
  | budget g => cases h2; exact ⟨rfl, rfl, rfl⟩
  | endOfStream n g p ends =>
    cases h2 with
    | endOfStream _ _ q ends' => rw [searchEnds_unique ends ends']; exact ⟨rfl, rfl, rfl⟩
    | failed _ _ _ q _ found' => exact absurd ends (not_searchEnds_of_markerFrom found')
    | next _ _ _ _ q _ _ found' => exact absurd ends (not_searchEnds_of_markerFrom found')
  | failed n g g' p f found ends =>
    cases h2 with
    | endOfStream _ _ q ends' => exact absurd ends' (not_searchEnds_of_markerFrom found)
    | failed _ _ _ q _ found' ends' =>
      obtain rfl := markerFrom_unique found found'
      obtain ⟨hout, hg⟩ := ends.unique ends'
      exact ⟨hout, rfl, hg⟩
    | next _ _ _ _ q _ _ found' ends' =>
      obtain rfl := markerFrom_unique found found'
      cases (ends.unique ends').1
  | next n g g' g'' p out eos found ends rest ih =>
    cases h2 with
    | endOfStream _ _ q ends' => exact absurd ends' (not_searchEnds_of_markerFrom found)
    | failed _ _ _ q _ found' ends' =>
      obtain rfl := markerFrom_unique found found'
      cases (ends.unique ends').1
    | next _ _ _ _ q _ _ found' ends' rest' =>
      obtain rfl := markerFrom_unique found found'
      obtain rfl := (ends.unique ends').2
      exact ih rest'

/-! ## The first sequence (R181 to R193) -/

section FirstSequence

variable {s : State} {h : Header} {o : DecodeOps} {p : Nat} {g : Progress}

/-- A DECODE whose first sequence fails ends in its fault. -/
theorem exec_decode_first_fails {f : Failure} (hs : Ready s) (hv : decodeVerdict s.params s.eng.tables o = none)
    (hn : s.params.seqCount ≠ 0) (hend : streamEnded s.eng.port = true) (found : markerFrom s.params (streamBytes s.eng.port) 0 p)
    (ends : SequenceEnds s.env s.eng.tables h o (streamBytes s.eng.port) ⟨p, s.eng.mem, 0, 0, 0⟩ (some f) g) :
    exec (decodeInstr h o) s = .next (endedByFault (encode (decodeInstr h o)) f.name f.info f.addr s
      (progressed s.eng (streamBytes s.eng.port) g false).drain) := by
  obtain ⟨n, hcount⟩ := Nat.exists_eq_succ_of_ne_zero (show s.params.seqCount.toNat ≠ 0 by simpa [← BitVec.toNat_inj] using hn)
  refine exec_decode_ends hs hv hend (out := some f) ?_
  rw [hcount]
  exact .failed n ⟨0, s.eng.mem, 0, 0, 0⟩ g p f found ends

/-- A DECODE with a budget of one whose first sequence ends without a fault completes (R193). -/
theorem exec_decode_first_ends (hs : Ready s) (hv : decodeVerdict s.params s.eng.tables o = none) (hn : s.params.seqCount = 1)
    (hend : streamEnded s.eng.port = true) (found : markerFrom s.params (streamBytes s.eng.port) 0 p)
    (ends : SequenceEnds s.env s.eng.tables h o (streamBytes s.eng.port) ⟨p, s.eng.mem, 0, 0, 0⟩ none g) :
    exec (decodeInstr h o) s =
      .next (endedNormally (decodeInstr h o) s (progressed s.eng (streamBytes s.eng.port) g false).drain) := by
  refine exec_decode_ends hs hv hend (out := none) ?_
  rw [hn]
  exact .next 0 ⟨0, s.eng.mem, 0, 0, 0⟩ g g p none false found ends (.budget g)

end FirstSequence

/-- The plane codes that name no plane (R183). -/
theorem planeOfCode_eq_none {pc : Nat} (h0 : pc ≠ 0) (h2 : pc ≠ 2) (h3 : pc ≠ 3) (h4 : pc ≠ 4) : planeOfCode pc = none := by
  refine Option.eq_none_iff_forall_ne_some.2 fun pl hpl => ?_
  have := (planeOfCode_eq_some_iff pc pl).1 hpl
  tauto

/-- Settles O34. -/
theorem headerCutFaults : Obligations.HeaderCutFaults := by
  unfold Obligations.HeaderCutFaults
  intro s h o p hs hv hn hend bs found past
  by_cases hcut : 8 * bs.length < p + 16
  · simp only [if_pos hcut]
    exact exec_decode_first_fails hs hv hn hend found (.cutMarker ⟨p, s.eng.mem, 0, 0, 0⟩ hcut)
  · simp only [if_neg hcut]
    exact exec_decode_first_fails hs hv hn hend found (.cutHeader ⟨p, s.eng.mem, 0, 0, 0⟩ (Nat.le_of_not_lt hcut) past)

/-- Settles O35. -/
theorem invalidPlaneFaults : Obligations.InvalidPlaneFaults := by
  unfold Obligations.InvalidPlaneFaults
  intro s h o p hs hv hn hend bs found fits pc h0 h2 h3 h4
  exact exec_decode_first_fails hs hv hn hend found
    (.badPlane ⟨p, s.eng.mem, 0, 0, 0⟩ fits (planeOfCode_eq_none h0 h2 h3 h4))

/-- Settles O36. -/
theorem sequenceIsSkipped : Obligations.SequenceIsSkipped := by
  unfold Obligations.SequenceIsSkipped
  intro s h o p pl hs hv hn hend bs found fits plane out
  exact exec_decode_first_ends hs hv hn hend found (.skipped ⟨p, s.eng.mem, 0, 0, 0⟩ pl fits plane out)

/-- Settles O37. -/
theorem sequenceIsDecoded : Obligations.SequenceIsDecoded := by
  unfold Obligations.SequenceIsDecoded
  intro s h o p pl hs hm hv hn hend bs found fits plane used d codes start n off known inside plain
  refine ⟨_, exec_decode_first_ends hs hv hn hend found
    (.symbols ⟨p, s.eng.mem, 0, 0, 0⟩ pl none _ _ 0 fits plane used (.decoded known inside plain)), ?_, ?_⟩
  · exact fun k hk hin => read_putAll_at hm plain hk hin
  · exact fun a ha => read_putAll_other hm plain ha

/-- Settles O38. -/
theorem unknownSymbolRecovers : Obligations.UnknownSymbolRecovers := by
  unfold Obligations.UnknownSymbolRecovers
  intro s h o p pl bad hs hm hv hn hend bs found fits plane used d codes start n off hbad known unknown inside plain
  refine ⟨_, exec_decode_first_ends hs hv hn hend found
    (.symbols ⟨p, s.eng.mem, 0, 0, 0⟩ pl none _ _ 1 fits plane used (.recovered bad hbad known inside unknown plain)), ?_, ?_⟩
  · exact fun k hk hin => read_putAll_at hm plain hk hin
  · exact fun a ha => read_putAll_other hm plain ha

/-- Settles O39. -/
theorem symbolCutFaults : Obligations.SymbolCutFaults := by
  unfold Obligations.SymbolCutFaults
  intro s h o p pl cut hs hm hv hn hend bs found fits plane used d codes start off hcut known inside past plain
  have plain' : ∀ k, k < cut + 1 → off + k < d.w.toNat * d.h.toNat → s.plat.kindAt (d.base.toNat + (off + k)) = .plain :=
    fun k hk => plain k (Nat.le_of_lt_succ hk)
  refine ⟨_, exec_decode_first_fails hs hv hn hend found
    (.symbols ⟨p, s.eng.mem, 0, 0, 0⟩ pl _ _ _ 0 fits plane used (.truncated cut hcut known inside past plain)), ?_, ?_⟩
  · exact fun k hk hin => read_putAll_at hm plain' (Nat.lt_succ_of_le hk) hin
  · exact fun a ha => read_putAll_other hm plain' fun k hk => ha k (Nat.le_of_lt_succ hk)

end Sys2Proof.Machine
end

section
/-! SUPPORT and PROOFS. The statements about UPRES, from the accesses its commands make and the pixels they paint
(43_upsampler.md R222 to R230). -/

namespace Sys2Proof.Machine

/-! ## What the launch checks say of the planes (R221) -/

theorem upresVerdict_geometry {p : Params} {src dst : SlotIx} (hv : upresVerdict p src dst = none) :
    (p.slot dst).w.toNat = 2 * (p.slot src).w.toNat ∧ (p.slot dst).h.toNat = 2 * (p.slot src).h.toNat := by
  rw [upresVerdict, firstFailure_append, Option.or_eq_none_iff] at hv
  exact upres_geometry hv.1

theorem upresAddVerdict_geometry {p : Params} {src dst dlt : SlotIx} (hv : upresAddVerdict p src dst dlt = none) :
    (p.slot dst).w.toNat = 2 * (p.slot src).w.toNat ∧ (p.slot dst).h.toNat = 2 * (p.slot src).h.toNat := by
  rw [upresAddVerdict, firstFailure_append, Option.or_eq_none_iff] at hv
  exact upres_geometry hv.1

theorem upresAddVerdict_delta {p : Params} {src dst dlt : SlotIx} (hv : upresAddVerdict p src dst dlt = none) :
    (p.slot dlt).w = (p.slot dst).w ∧ (p.slot dlt).h = (p.slot dst).h := by
  have hx := firstFailure_none.1 hv ((p.slot dlt).unfit || (p.slot dlt).w != (p.slot dst).w || (p.slot dlt).h != (p.slot dst).h,
    .geom, dlt.toNat) (by simp [upresDelta])
  simp only [Bool.or_eq_false_iff, bne_eq_false_iff_eq] at hx
  exact ⟨hx.1.2, hx.2⟩

/-! ## Values that fit a byte (R224, R229) -/

theorem toNat_bilinearByte (m : Memory) (s : Desc) (x y : Nat) : (BitVec.ofNat 8 (bilinearAt m s x y)).toNat = bilinearAt m s x y := by
  rw [BitVec.toNat_ofNat]
  exact Nat.mod_eq_of_lt (bilinearAt_lt m s x y)

theorem addedAt_bounds (m : Memory) (s dlt : Desc) (x y : Nat) : 0 ≤ addedAt m s dlt x y ∧ addedAt m s dlt x y < 256 := by
  rw [addedAt]
  omega

theorem toNat_addedByte (m : Memory) (s dlt : Desc) (x y : Nat) :
    ((BitVec.ofInt 8 (addedAt m s dlt x y)).toNat : Int) = addedAt m s dlt x y := by
  obtain ⟨hlo, hhi⟩ := addedAt_bounds m s dlt x y
  rw [BitVec.toNat_ofInt, Int.toNat_of_nonneg (Int.emod_nonneg _ (by decide))]
  exact Int.emod_eq_of_lt hlo hhi

/-! ## The statements -/

/-- A command that paints a whole destination over plain memory: each pixel holds its value, and no other byte changes. -/
theorem exec_paints (i : Instr) {s : State} {d : Desc} {w h : Nat} {val : Nat → Nat → Byte} {l : List Access} (hs : Ready s)
    (hw : d.w.toNat = 2 * w) (hp : s.plat.allPlain l)
    (ht : Traces s.env (· = launched s.eng) (ruleOf (.command i) s.env) l (Paints (launched s.eng) d w h val (h * w * 4))) :
    ∃ m, exec i s = .next (endedNormally i s { launched s.eng with mem := m }) ∧
      (∀ x y, x < 2 * w → y < 2 * h → m.read (d.base.toNat + y * (2 * w) + x) = val x y) ∧
      ∀ z, d.range.holds z = false → m.read z = s.eng.mem.read z := by
  obtain ⟨hrun, -, hpainted⟩ := (exec_traces i hs ht).1 hp
  refine ⟨_, hrun, fun x y hx hy => ?_, hpainted.2.2⟩
  rw [← hw]
  exact hpainted.read hx hy

/-- Settles O41. -/
theorem upresBlInterpolates : Obligations.UpresBlInterpolates := by
  unfold Obligations.UpresBlInterpolates
  intro s src dst hs hm hv a d
  obtain ⟨hw, hh⟩ := upresVerdict_geometry hv
  have ht := upresBl_traces (env := s.env) (e0 := launched s.eng) hm hv
  refine ⟨fun ha hd => ?_, (exec_traces (.upresBl src dst) hs ht).2⟩
  obtain ⟨m, hrun, hval, hframe⟩ := exec_paints (.upresBl src dst) hs hw (upresBl_plain _ hw hh ha hd) ht
  refine ⟨m, hrun, fun x y hx hy => ?_, hframe⟩
  rw [hval x y hx hy]
  exact toNat_bilinearByte s.eng.mem a x y

/-- Settles O42. -/
theorem upresAddSaturates : Obligations.UpresAddSaturates := by
  unfold Obligations.UpresAddSaturates
  intro s src dst dlt hs hm hv a d x
  obtain ⟨hw, hh⟩ := upresAddVerdict_geometry hv
  obtain ⟨hxw, hxh⟩ := upresAddVerdict_delta hv
  have ht := upresAdd_traces (env := s.env) (e0 := launched s.eng) hm hv
  refine ⟨fun ha hd hx => ?_, (exec_traces (.upresAdd src dst dlt) hs ht).2⟩
  obtain ⟨m, hrun, hval, hframe⟩ := exec_paints (.upresAdd src dst dlt) hs hw (upresAdd_plain _ hw hh hxw hxh ha hd hx) ht
  refine ⟨m, hrun, fun c r hc hr => ?_, hframe⟩
  rw [hval c r hc hr]
  exact toNat_addedByte s.eng.mem a x c r

/-- Settles O43. -/
theorem upresNnReplicates : Obligations.UpresNnReplicates := by
  unfold Obligations.UpresNnReplicates
  intro s src dst hs hm hv a d
  obtain ⟨hw, hh⟩ := upresVerdict_geometry hv
  have ht := upresNn_traces (env := s.env) (e0 := launched s.eng) hm hv
  refine ⟨fun ha hd => ?_, (exec_traces (.upresNn src dst) hs ht).2⟩
  obtain ⟨m, hrun, hval, hframe⟩ := exec_paints (.upresNn src dst) hs hw (upresNn_plain _ hw hh ha hd) ht
  refine ⟨m, hrun, fun x y hx hy => ?_, hframe⟩
  rw [hval x y hx hy]
  rfl

end Sys2Proof.Machine
end

section
/-! SUPPORT and PROOFS. The statements about CONVERT: its accesses and the memory it leaves, the elements that memory holds, the rotated
raster, and the value of an element from its samples to its bytes (44_color_converter.md R240 to R260). -/

namespace Sys2Proof.Machine

/-! ## Memory whose addresses rise: what a write of several bytes leaves

The elements of `ConvertedElements` may lie past 2^32, so only the order of the listed addresses is kept, and not `Memory.wf`. -/

/-- The listed addresses rise strictly: the part of `Memory.wf` that every write keeps, whatever its address. -/
abbrev Memory.rising (m : Memory) : Prop := m.Pairwise fun c d => c.1 < d.1

theorem rising_cellFor_append {m : Memory} (h : m.rising) {a : Nat} (ha : ∀ c ∈ m, a < c.1) (v : Byte) :
    Memory.rising (cellFor a v ++ m) := by
  unfold cellFor
  split
  · exact h
  · exact List.pairwise_cons.2 ⟨ha, h⟩

theorem Memory.rising.write {m : Memory} (h : m.rising) (a : Nat) (v : Byte) : (m.write a v).rising := by
  induction m with
  | nil => simpa [Memory.write] using rising_cellFor_append h (by simp) v (a := a)
  | cons d rest ih =>
    obtain ⟨k, w⟩ := d
    obtain ⟨hk, hrest⟩ := List.pairwise_cons.1 h
    rw [Memory.write]
    split
    · next hlt =>
      refine rising_cellFor_append h (fun c hc => ?_) v
      rcases List.mem_cons.1 hc with rfl | hc
      · exact hlt
      · exact Nat.lt_trans hlt (hk c hc)
    · next hge =>
      split
      · next heq => exact rising_cellFor_append hrest (heq ▸ hk) v
      · next hne =>
        refine List.pairwise_cons.2 ⟨fun c hc => ?_, ih hrest⟩
        rcases Memory.mem_write hc with ⟨rfl, -⟩ | hc
        · show k < a
          omega
        · exact hk c hc

theorem Memory.rising.writeAll {m : Memory} (h : m.rising) (a : Nat) (bytes : List Byte) : (writeAll m a bytes).rising := by
  induction bytes generalizing m a with
  | nil => exact h
  | cons b rest ih => exact ih (h.write a b) (a + 1)

theorem read_writeAll_outside {m : Memory} (h : m.rising) {a x : Nat} {bytes : List Byte}
    (hx : ∀ j, j < bytes.length → x ≠ a + j) : (writeAll m a bytes).read x = m.read x := by
  induction bytes generalizing m a with
  | nil => rfl
  | cons b rest ih =>
    have hhead : a ≠ x := fun heq => hx 0 (by simp) heq.symm
    have htail : ∀ j, j < rest.length → x ≠ a + 1 + j := fun j hj heq => hx (j + 1) (by simpa using hj) (by omega)
    rw [writeAll, ih (h.write a b) htail, Memory.read_write h, if_neg hhead]

theorem read_writeAll_inside {m : Memory} (h : m.rising) {a j : Nat} {b : Byte} {bytes : List Byte} (hb : bytes[j]? = some b) :
    (writeAll m a bytes).read (a + j) = b := by
  induction bytes generalizing m a j with
  | nil => simp at hb
  | cons b' rest ih =>
    cases j with
    | zero =>
      have hb' : b' = b := by simpa using hb
      rw [writeAll, read_writeAll_outside (h.write a b') (by omega), Memory.read_write h, Nat.add_zero, if_pos rfl, hb']
    | succ j =>
      rw [writeAll, show a + (j + 1) = a + 1 + j by omega]
      exact ih (h.write a b') (by simpa using hb)

/-! ## Blocks of bytes written one after the other -/

section Blocks

variable {α : Type} (addr : α → Nat) (bytes : α → List Byte)

/-- Memory after the block of each x of a list has been written at its address. -/
def writeBlocks (l : List α) (m : Memory) : Memory := l.foldl (fun m x => writeAll m (addr x) (bytes x)) m

theorem read_writeBlocks_outside {l : List α} {m : Memory} (h : m.rising) {a : Nat}
    (ha : ∀ x ∈ l, ∀ j, j < (bytes x).length → a ≠ addr x + j) : (writeBlocks addr bytes l m).read a = m.read a := by
  induction l generalizing m with
  | nil => rfl
  | cons x rest ih =>
    calc (writeBlocks addr bytes (x :: rest) m).read a
        = (writeAll m (addr x) (bytes x)).read a := ih (h.writeAll _ _) fun y hy => ha y (List.mem_cons_of_mem x hy)
      _ = m.read a := read_writeAll_outside h (ha x List.mem_cons_self)

/-- A block that meets no other block of the list is there in the end. -/
theorem read_writeBlocks_inside {l : List α} {m : Memory} (h : m.rising) {x : α} (hx : x ∈ l) {j : Nat} {b : Byte}
    (hb : (bytes x)[j]? = some b) (hapart : ∀ y ∈ l, y ≠ x → ∀ i, i < (bytes y).length → addr x + j ≠ addr y + i) :
    (writeBlocks addr bytes l m).read (addr x + j) = b := by
  induction l generalizing m with
  | nil => cases hx
  | cons y rest ih =>
    have hrest : ∀ z ∈ rest, z ≠ x → ∀ i, i < (bytes z).length → addr x + j ≠ addr z + i :=
      fun z hz => hapart z (List.mem_cons_of_mem y hz)
    by_cases hlater : x ∈ rest
    · exact ih (h.writeAll _ _) hlater hrest
    · obtain rfl : x = y := (List.mem_cons.1 hx).resolve_right hlater
      calc (writeBlocks addr bytes (x :: rest) m).read (addr x + j)
          = (writeAll m (addr x) (bytes x)).read (addr x + j) :=
            read_writeBlocks_outside addr bytes (h.writeAll _ _) fun z hz => hrest z hz fun heq => hlater (heq ▸ hz)
        _ = b := read_writeAll_inside h hb

end Blocks

/-! ## The elements a CONVERT writes (R244, R257) -/

/-- The elements of a CONVERT, in the order they are written. -/
def elementsOf (p : Params) (ys : SlotIx) : List Element :=
  (List.range (p.slot ys).h.toNat).flatMap fun r => (List.range (p.slot ys).w.toNat).flatMap fun c =>
    p.channels.map fun ch => ⟨ch, r, c⟩

theorem mem_elementsOf {p : Params} {ys : SlotIx} {x : Element} : x ∈ elementsOf p ys ↔ isElement p ys x := by
  simp only [elementsOf, isElement, List.mem_flatMap, List.mem_map, List.mem_range]
  constructor
  · rintro ⟨r, hr, c, hc, ch, hch, rfl⟩
    exact ⟨hch, hr, hc⟩
  · rintro ⟨hch, hr, hc⟩
    exact ⟨x.r, hr, x.c, hc, x.ch, hch, rfl⟩

/-- An element's address. -/
def Element.address (p : Params) (ys : SlotIx) (x : Element) : Nat := elementAddress p ys x.ch x.r x.c

/-- An element's bytes, its pixel's samples read from memory m. -/
def Element.value (env : Env) (m : Memory) (ys c1s c2s : SlotIx) (x : Element) : List Byte :=
  channelElement env (indexOf env m ys c1s c2s x.r x.c) x.ch

theorem Element.value_length (env : Env) (m : Memory) (ys c1s c2s : SlotIx) (x : Element) :
    (x.value env m ys c1s c2s).length = env.params.elemSize := elements_length _ _ _

/-- The three loops of a CONVERT write the blocks of one list. -/
theorem convertedMemory_eq_writeBlocks (env : Env) (ys c1s c2s : SlotIx) (m0 : Memory) :
    convertedMemory env ys c1s c2s m0 =
      writeBlocks (Element.address env.params ys) (Element.value env m0 ys c1s c2s) (elementsOf env.params ys) m0 := by
  simp only [convertedMemory, writeBlocks, elementsOf, List.foldl_flatMap, List.foldl_map]
  rfl

theorem Element.apart_of_elementsApart {p : Params} {ys : SlotIx} (h : elementsApart p ys) {x y : Element} (hx : isElement p ys x)
    (hy : isElement p ys y) (hne : y ≠ x) {i j : Nat} (hi : i < p.elemSize) (hj : j < p.elemSize) :
    x.address p ys + j ≠ y.address p ys + i := by
  have := h x y hx hy hne.symm
  simp only [Element.address]
  omega

theorem convertedMemory_element {env : Env} {m0 : Memory} {ys c1s c2s : SlotIx} (hm : m0.rising) (hapart : elementsApart env.params ys)
    {x : Element} (hx : isElement env.params ys x) {j : Nat} {b : Byte} (hb : (x.value env m0 ys c1s c2s)[j]? = some b) :
    (convertedMemory env ys c1s c2s m0).read (x.address env.params ys + j) = b := by
  have hj : j < env.params.elemSize := by
    obtain ⟨hlt, -⟩ := List.getElem?_eq_some_iff.1 hb
    rwa [Element.value_length] at hlt
  rw [convertedMemory_eq_writeBlocks]
  refine read_writeBlocks_inside _ _ hm (mem_elementsOf.2 hx) hb fun y hy hne i hi => ?_
  rw [Element.value_length] at hi
  exact Element.apart_of_elementsApart hapart hx (mem_elementsOf.1 hy) hne hi hj

theorem convertedMemory_outside {env : Env} {m0 : Memory} {ys c1s c2s : SlotIx} (hm : m0.rising) {a : Nat}
    (ha : ∀ x, isElement env.params ys x → ∀ j, j < env.params.elemSize → a ≠ x.address env.params ys + j) :
    (convertedMemory env ys c1s c2s m0).read a = m0.read a := by
  rw [convertedMemory_eq_writeBlocks]
  refine read_writeBlocks_outside _ _ hm fun x hx j hj => ?_
  rw [Element.value_length] at hj
  exact ha x (mem_elementsOf.1 hx) j hj

/-! ## The fields of CONV_CFG and the channels (10_state.md R44, R46) -/

theorem sources_of_mono {p : Params} (h : p.mono = true) (ys c1s c2s : SlotIx) : p.sources ys c1s c2s = [(0, ys)] := by
  rw [Params.sources, if_pos h]

theorem sources_of_chroma {p : Params} (h : p.mono = false) (ys c1s c2s : SlotIx) :
    p.sources ys c1s c2s = [(0, ys), (1, c1s), (2, c2s)] := by
  rw [Params.sources, if_neg (Bool.eq_false_iff.1 h)]

theorem sampleReads_of_mono {p : Params} (h : p.mono = true) (ys c1s c2s : SlotIx) (r c : Nat) :
    sampleReads p ys c1s c2s r c = [.read (byteOf (p.slot ys) c r)] := by
  rw [sampleReads, if_pos h]

theorem sampleReads_length_of_chroma {p : Params} (h : p.mono = false) (ys c1s c2s : SlotIx) (r c : Nat) :
    (sampleReads p ys c1s c2s r c).length = 3 := by
  rw [sampleReads, if_neg (Bool.eq_false_iff.1 h)]
  rfl

theorem channels_of_alpha_zero {p : Params} (h : p.outA = 0) : p.channels = [.r, .g, .b] :=
  if_pos (beq_iff_eq.2 h)

theorem channels_of_alpha {p : Params} (h : p.outA ≠ 0) : p.channels = [.r, .g, .b, .a] :=
  if_neg (mt beq_iff_eq.1 h)

theorem Params.fmt_eq_div (p : Params) : p.fmt = p.convCfg.toNat / 2 ^ 4 % 4 := by
  rw [Params.fmt, BitVec.extractLsb'_toNat, Nat.shiftRight_eq_div_pow]

theorem elemSize_of_u8 {p : Params} (h : p.fmt = 0) : p.elemSize = 1 := by simp only [Params.elemSize, h]

theorem elemSize_of_u16 {p : Params} (h : p.fmt = 1) : p.elemSize = 2 := by simp only [Params.elemSize, h]

theorem elemSize_of_f32 {p : Params} (h : p.fmt = 2) : p.elemSize = 4 := by simp only [Params.elemSize, h]

/-- Settles O44, from the accesses a CONVERT makes in order. -/
theorem convertWritesEveryElement : Obligations.ConvertWritesEveryElement := by
  unfold Obligations.ConvertWritesEveryElement
  refine ⟨fun s ys c1s c2s hs hm hv => ?_, fun p ys c1s c2s r c => ⟨fun hmono => ?_, fun hchroma => ?_⟩⟩
  · have ht := convert_traces (env := s.env) (e0 := launched s.eng) hm hv
    obtain ⟨hends, hstops⟩ := exec_traces (.convert ys c1s c2s) hs ht
    refine ⟨fun hplain => ?_, hstops⟩
    obtain ⟨hrun, hafter, -⟩ := hends (convert_plain _ hplain)
    rw [hrun, hafter]
    rfl
  · exact ⟨sources_of_mono hmono ys c1s c2s, sampleReads_of_mono hmono ys c1s c2s r c⟩
  · exact ⟨sources_of_chroma hchroma ys c1s c2s, sampleReads_length_of_chroma hchroma ys c1s c2s r c⟩

/-- Settles O45, from the list of blocks that the loops write. -/
theorem convertedElements : Obligations.ConvertedElements := by
  unfold Obligations.ConvertedElements
  refine ⟨fun env m0 ys c1s c2s hwf => ⟨fun hapart x hx j b hb => convertedMemory_element hwf.1 hapart hx hb,
    fun a ha => convertedMemory_outside hwf.1 ha⟩, fun p => ?_⟩
  refine ⟨channels_of_alpha_zero, channels_of_alpha, ⟨rfl, rfl, rfl, rfl⟩, ?_⟩
  rw [← Params.fmt_eq_div]
  exact ⟨elemSize_of_u8, elemSize_of_u16, elemSize_of_f32⟩

/-! ## The rotated raster (R256, R258) -/

/-- Column and row of a raster of width n are read off the index. -/
theorem raster_injective {n a b a' b' : Nat} (ha : a < n) (ha' : a' < n) (h : a + b * n = a' + b' * n) : a = a' ∧ b = b' := by
  have hcol : a = a' := by simpa [Nat.add_mul_mod_self_right, Nat.mod_eq_of_lt, ha, ha'] using congrArg (· % n) h
  have hrow : b * n = b' * n := by omega
  exact ⟨hcol, Nat.eq_of_mul_eq_mul_right (by omega) hrow⟩

theorem raster_onto {n m k : Nat} (hk : k < n * m) : ∃ a b, a < n ∧ b < m ∧ a + b * n = k := by
  have hn : 0 < n := Nat.pos_of_mul_pos_right (by omega : 0 < n * m)
  exact ⟨k % n, k / n, Nat.mod_lt _ hn, Nat.div_lt_of_lt_mul hk, by rw [Nat.mul_comm]; exact Nat.mod_add_div k n⟩

/-- Different source pixels have different indices. -/
theorem rotIndex_injective {rot r c r' c' w h : Nat} (hr : r < h) (hc : c < w) (hr' : r' < h) (hc' : c' < w)
    (heq : rotIndex rot r c w h = rotIndex rot r' c' w h) : r = r' ∧ c = c' := by
  unfold rotIndex at heq
  split at heq
  · obtain ⟨hcol, hrow⟩ := raster_injective hc hc' heq
    exact ⟨hrow, hcol⟩
  · obtain ⟨hcol, hrow⟩ := raster_injective hr hr' heq
    exact ⟨hcol, by omega⟩
  · obtain ⟨hcol, hrow⟩ := raster_injective (n := w) (by omega) (by omega) heq
    exact ⟨by omega, by omega⟩
  · obtain ⟨hcol, hrow⟩ := raster_injective (n := h) (by omega) (by omega) heq
    exact ⟨by omega, hrow⟩

/-- Every place of the output raster has a source pixel: the raster's column and row, turned back. -/
theorem rotIndex_onto {rot w h n : Nat} (hn : n < w * h) : ∃ r c, r < h ∧ c < w ∧ rotIndex rot r c w h = n := by
  unfold rotIndex
  split
  · obtain ⟨a, b, ha, hb, rfl⟩ := raster_onto hn
    exact ⟨b, a, hb, ha, rfl⟩
  · obtain ⟨a, b, ha, hb, rfl⟩ := raster_onto (Nat.mul_comm w h ▸ hn)
    exact ⟨a, w - 1 - b, ha, by omega, by rw [Nat.sub_sub_self (by omega)]⟩
  · obtain ⟨a, b, ha, hb, rfl⟩ := raster_onto hn
    exact ⟨h - 1 - b, w - 1 - a, by omega, by omega, by rw [Nat.sub_sub_self (by omega), Nat.sub_sub_self (by omega)]⟩
  · obtain ⟨a, b, ha, hb, rfl⟩ := raster_onto (Nat.mul_comm w h ▸ hn)
    exact ⟨h - 1 - a, b, by omega, hb, by rw [Nat.sub_sub_self (by omega)]⟩

/-- Settles O46, from the output raster's columns and rows. -/
theorem rotationIsABijection : Obligations.RotationIsABijection := by
  unfold Obligations.RotationIsABijection
  refine ⟨fun _ _ _ _ => ⟨rfl, rfl, rfl, rfl⟩, fun rot w h _ => ⟨?_, ?_, ?_⟩, fun _ _ _ _ _ => rfl⟩
  · exact fun r c hr hc => rotIndex_lt hr hc
  · exact fun r c r' c' hr hc hr' hc' heq => rotIndex_injective hr hc hr' hc' heq
  · exact fun n hn => rotIndex_onto hn

/-! ## From samples to indices (R246 to R253) -/

theorem clampColour_val (v : Int) : ((clampColour v).val : Int) = if v < 0 then 0 else if 1388 < v then 1388 else v := by
  simp only [clampColour]
  split
  · omega
  · split <;> omega

/-- The arithmetic shift is the floored division (00_scope.md R10). -/
theorem shiftRight_eq_fdiv (v : Int) (n : Nat) : v >>> n = v.fdiv (2 ^ n : Nat) := by
  rw [Int.shiftRight_eq_div_pow, Int.fdiv_eq_ediv_of_nonneg _ (Int.natCast_nonneg _)]

/-- Where Mathlib reads a literal shift count as an integer, the shift is the one by that number. -/
theorem shiftRight_int_ofNat (v : Int) (n : Nat) : v >>> (no_index (OfNat.ofNat n : Int)) = v >>> n :=
  Int.shiftRight_natCast_right v n

theorem matrixIndex_chroma (l c1 c2 : Nat) :
    matrixIndex l (some (c1, c2)) =
      { r := clampColour (((l : Int) * 5573 + ((c2 : Int) - 137) * 7461).fdiv 1024)
        g := clampColour (((l : Int) * 5573).fdiv 1024 - (((c1 : Int) - 156) * 9085).tdiv 5278 - (((c2 : Int) - 137) * 7461).tdiv 2012)
        b := clampColour (((l : Int) * 5573 + ((c1 : Int) - 156) * 9085).fdiv 1024) } := by
  simp only [matrixIndex, matrixInputs, shiftRight_int_ofNat, shiftRight_eq_fdiv]
  rfl

/-- Without chroma the two divisions have nothing to take away: the three indices are one (R259). -/
theorem matrixIndex_mono (l : Nat) :
    matrixIndex l none = ⟨clampColour (((l : Int) * 5573).fdiv 1024), clampColour (((l : Int) * 5573).fdiv 1024),
      clampColour (((l : Int) * 5573).fdiv 1024)⟩ := by
  simp only [matrixIndex, matrixInputs, shiftRight_int_ofNat, shiftRight_eq_fdiv, Int.zero_tdiv, Int.sub_zero, Int.add_zero]
  rfl

/-- Settles O47, from the matrix written with floored divisions. -/
theorem matrixIndices : Obligations.MatrixIndices := by
  unfold Obligations.MatrixIndices
  intro l c1 c2 clamp li c1i c2i v mono
  have hv : v = ⟨clampColour ((li + c2i).fdiv 1024), clampColour (li.fdiv 1024 - c1i.tdiv 5278 - c2i.tdiv 2012),
      clampColour ((li + c1i).fdiv 1024)⟩ := matrixIndex_chroma l c1 c2
  have hmono : mono = ⟨clampColour (li.fdiv 1024), clampColour (li.fdiv 1024), clampColour (li.fdiv 1024)⟩ := matrixIndex_mono l
  rw [hv, hmono]
  exact ⟨⟨clampColour_val _, clampColour_val _, clampColour_val _⟩, clampColour_val _, rfl, rfl⟩

/-- A white-balance row is the row's sum over 2^13, floored (R251). -/
theorem wbRow_eq_fdiv (p : Params) (i j k : Fin 9) (v : Rgb Colour) :
    wbRow p i j k v = (p.wb[i].toInt * v.r.val + p.wb[j].toInt * v.g.val + p.wb[k].toInt * v.b.val).fdiv 8192 := by
  simp only [wbRow, Params.wbCoeff, shiftRight_int_ofNat, shiftRight_eq_fdiv]
  rfl

theorem whiteBalance_of_d50 {p : Params} (h : p.wbD50 = true) (v : Rgb Colour) :
    whiteBalance p v = ⟨clampColour (wbRow p 0 1 2 v), clampColour (wbRow p 3 4 5 v), clampColour (wbRow p 6 7 8 v)⟩ := if_pos h

theorem whiteBalance_of_d65 {p : Params} (h : p.wbD50 = false) (v : Rgb Colour) : whiteBalance p v = v :=
  if_neg (Bool.eq_false_iff.1 h)

theorem pixelIndex_raw709 {env : Env} (h : env.params.cspace = .raw709) (l : Nat) (chroma : Option (Nat × Nat)) :
    pixelIndex env l chroma = whiteBalance env.params (matrixIndex l chroma) := by
  simp only [pixelIndex, h]

theorem pixelIndex_lin709 {env : Env} (h : env.params.cspace = .lin709) (l : Nat) (chroma : Option (Nat × Nat)) :
    pixelIndex env l chroma = whiteBalance env.params ((matrixIndex l chroma).map fun v => env.roms.lin[v]) := by
  simp only [pixelIndex, h]

theorem pixelIndex_srgb {env : Env} (h : env.params.cspace = .srgb) (l : Nat) (chroma : Option (Nat × Nat)) :
    pixelIndex env l chroma =
      (whiteBalance env.params ((matrixIndex l chroma).map fun v => env.roms.lin[v])).map fun v => env.roms.srgb[v] := by
  simp only [pixelIndex, h]

theorem pixelIndex_ycc {env : Env} (h : env.params.cspace = .ycc) (l : Nat) (chroma : Option (Nat × Nat)) :
    pixelIndex env l chroma = yccPixel l chroma := by
  simp only [pixelIndex, h]

/-- Settles O48, from the model's pipeline of each colour space and its white balance on or off. -/
theorem colourPipelines : Obligations.ColourPipelines := by
  unfold Obligations.ColourPipelines
  intro env l chroma p clamp m coeff row balanced linear yidx out
  have hrow (i j k : Fin 9) (v : Rgb Colour) : ((clampColour (wbRow p i j k v)).val : Int) = row i j k v := by
    rw [wbRow_eq_fdiv]
    exact clampColour_val _
  have hbalance (v : Rgb Colour) : balanced (whiteBalance p v) v := by
    simp only [balanced]
    split
    · next h50 =>
      rw [whiteBalance_of_d50 h50]
      exact ⟨hrow 0 1 2 v, hrow 3 4 5 v, hrow 6 7 8 v⟩
    · next h65 => exact whiteBalance_of_d65 (Bool.eq_false_iff.2 h65) v
  refine ⟨fun h => ?_, fun h => ?_, fun h => ⟨whiteBalance p linear, hbalance linear, ?_⟩, fun h => ?_⟩
  · have hout : out = whiteBalance p m := pixelIndex_raw709 h l chroma
    exact hout ▸ hbalance m
  · have hout : out = whiteBalance p linear := pixelIndex_lin709 h l chroma
    exact hout ▸ hbalance linear
  · exact pixelIndex_srgb h l chroma
  · have hout : out = yccPixel l chroma := pixelIndex_ycc h l chroma
    rw [hout]
    cases chroma with
    | none => exact ⟨rfl, rfl, rfl⟩
    | some c => exact ⟨rfl, rfl, rfl⟩

/-! ## From indices to bytes (R254, R255; 20_memory.md R84) -/

theorem extractLsb'_byte {w : Nat} (v : BitVec w) (lo : Nat) : v.extractLsb' lo 8 = BitVec.ofNat 8 (v.toNat / 2 ^ lo) := by
  rw [BitVec.extractLsb', Nat.shiftRight_eq_div_pow]

theorem bytes16_getElem? (v : BitVec 16) {j : Nat} (hj : j < 2) : (bytes16 v)[j]? = some (BitVec.ofNat 8 (v.toNat / 2 ^ (8 * j))) := by
  simp only [bytes16, extractLsb'_byte]
  interval_cases j <;> rfl

theorem bytes32_getElem? (v : BitVec 32) {j : Nat} (hj : j < 4) : (bytes32 v)[j]? = some (BitVec.ofNat 8 (v.toNat / 2 ^ (8 * j))) := by
  simp only [bytes32, extractLsb'_byte]
  interval_cases j <;> rfl

theorem floatPattern_toNat (x : UnitFloat) :
    (floatPattern x).toNat = match x with | .nonneg pattern => pattern.val | .negZero => 0x80000000 := by
  cases x with
  | nonneg pattern => exact Nat.mod_eq_of_lt (by omega)
  | negZero => rfl

theorem memoryOrder_little {plat : Platform} (h : plat.outBigEndian = false) (bytes : List Byte) : memoryOrder plat bytes = bytes :=
  if_neg (Bool.eq_false_iff.1 h)

/-- The bytes of a value in the output format, least significant first, the value being given in each of the three formats (R254). -/
def formatBytes (p : Params) (u8 : Byte) (u16 : BitVec 16) (f32 : BitVec 32) : List Byte :=
  match p.fmt with
  | 0 => [u8]
  | 1 => bytes16 u16
  | _ => bytes32 f32

/-- The same value as a number. -/
def formatWhole (p : Params) (u8 : Byte) (u16 : BitVec 16) (f32 : BitVec 32) : Nat :=
  match p.fmt with
  | 0 => u8.toNat
  | 1 => u16.toNat
  | _ => f32.toNat

theorem formatWhole_of_u8 {p : Params} (h : p.fmt = 0) (u8 : Byte) (u16 : BitVec 16) (f32 : BitVec 32) :
    formatWhole p u8 u16 f32 = u8.toNat := by simp only [formatWhole, h]

theorem formatWhole_of_u16 {p : Params} (h : p.fmt = 1) (u8 : Byte) (u16 : BitVec 16) (f32 : BitVec 32) :
    formatWhole p u8 u16 f32 = u16.toNat := by simp only [formatWhole, h]

theorem formatWhole_of_f32 {p : Params} (h : p.fmt = 2) (u8 : Byte) (u16 : BitVec 16) (f32 : BitVec 32) :
    formatWhole p u8 u16 f32 = f32.toNat := by simp only [formatWhole, h]

theorem formatBytes_getElem? {p : Params} (hfmt : p.fmt ≤ 2) (u8 : Byte) (u16 : BitVec 16) (f32 : BitVec 32) {j : Nat}
    (hj : j < p.elemSize) :
    (formatBytes p u8 u16 f32)[j]? = some (BitVec.ofNat 8 (formatWhole p u8 u16 f32 / 2 ^ (8 * j))) := by
  obtain h | h | h : p.fmt = 0 ∨ p.fmt = 1 ∨ p.fmt = 2 := by omega
  · rw [elemSize_of_u8 h] at hj
    obtain rfl : j = 0 := by omega
    simp [formatBytes, formatWhole_of_u8 h, h]
  · rw [elemSize_of_u16 h] at hj
    simpa only [formatWhole_of_u16 h, formatBytes, h] using bytes16_getElem? u16 hj
  · rw [elemSize_of_f32 h] at hj
    simpa only [formatWhole_of_f32 h, formatBytes, h] using bytes32_getElem? f32 hj

theorem outElement_eq {env : Env} (h : env.plat.outBigEndian = false) (k : Colour) :
    outElement env k =
      formatBytes env.params env.roms.out8[k] env.roms.out16[k] (floatPattern env.roms.outf[k]) :=
  memoryOrder_little h _

theorem opaqueElement_eq {env : Env} (h : env.plat.outBigEndian = false) :
    opaqueElement env = formatBytes env.params 0xFF 0xFFFF 0x3F800000 :=
  memoryOrder_little h _

/-- The number whose bytes a channel's element holds, by the index the channel takes from the tables: none for alpha. -/
def wholeElement (env : Env) : Option Colour → Nat
  | some k => formatWhole env.params env.roms.out8[k] env.roms.out16[k] (floatPattern env.roms.outf[k])
  | none => formatWhole env.params 0xFF 0xFFFF 0x3F800000

/-- The index a channel takes from the tables. -/
def Rgb.index (v : Rgb Colour) : Channel → Option Colour
  | .r => some v.r
  | .g => some v.g
  | .b => some v.b
  | .a => none

theorem channelElement_getElem? {env : Env} (hlittle : env.plat.outBigEndian = false) (hfmt : env.params.fmt ≤ 2) (v : Rgb Colour)
    (ch : Channel) {j : Nat} (hj : j < env.params.elemSize) :
    (channelElement env v ch)[j]? = some (BitVec.ofNat 8 (wholeElement env (v.index ch) / 2 ^ (8 * j))) := by
  have hout (k : Colour) : (outElement env k)[j]? = some (BitVec.ofNat 8 (wholeElement env (some k) / 2 ^ (8 * j))) := by
    rw [outElement_eq hlittle]
    exact formatBytes_getElem? hfmt _ _ _ hj
  cases ch with
  | r => exact hout v.r
  | g => exact hout v.g
  | b => exact hout v.b
  | a =>
    rw [channelElement, opaqueElement_eq hlittle]
    exact formatBytes_getElem? hfmt _ _ _ hj

/-- Settles O49, from the bytes of a value in each output format. -/
theorem elementBytes : Obligations.ElementBytes := by
  unfold Obligations.ElementBytes
  intro env v ch j hlittle hfmt index whole
  refine ⟨elements_length env v ch, fun hj => ?_⟩
  have hwhole : whole = wholeElement env index := by
    obtain h | h | h : env.params.fmt = 0 ∨ env.params.fmt = 1 ∨ env.params.fmt = 2 := by omega
    all_goals simp only [whole, h]
    · cases index with
      | some k => exact (formatWhole_of_u8 h _ _ _).symm
      | none => exact (formatWhole_of_u8 h 0xFF 0xFFFF 0x3F800000).symm
    · cases index with
      | some k => exact (formatWhole_of_u16 h _ _ _).symm
      | none => exact (formatWhole_of_u16 h 0xFF 0xFFFF 0x3F800000).symm
    · cases index with
      | some k => exact ((formatWhole_of_f32 h _ _ _).trans (floatPattern_toNat _)).symm
      | none => exact (formatWhole_of_f32 h 0xFF 0xFFFF 0x3F800000).symm
  rw [channelElement_getElem? hlittle hfmt v ch hj, hwhole]
  cases ch <;> rfl

end Sys2Proof.Machine
end

section
/-! SUPPORT and PROOFS. A fault and what the host sees of it: what keeps FAULT and the fault words, what deasserts the interrupt output, and
the statements about them (10_state.md R34, R35, R37; 60_exceptions.md R286, R298; 70_reset_and_hazards.md R348). -/

namespace Sys2Proof.Machine

/-! ## What keeps a fault (R286) -/

/-- FAULT and the words that describe the fault are the same in two states. -/
structure SameFault (s t : State) : Prop where
  fault : t.fault = s.fault
  code : t.faultCode = s.faultCode
  info : t.faultInfo = s.faultInfo
  addr : t.faultAddr = s.faultAddr

theorem SameFault.refl (s : State) : SameFault s s := ⟨rfl, rfl, rfl, rfl⟩

/-- The host's actions that end a fault: a STATUS write with a 1 in FAULT, a soft reset and the reset input (R35, R320, R321). -/
inductive EndsFault : HostEvent → Prop where
  | statusClear {v : Word} (h : v.getLsbD 2 = true) : EndsFault (.write 0x008 .word v)
  | softReset {v : Word} (h : v.getLsbD 31 = true) : EndsFault (.write 0x004 .word v)
  | resetInput : EndsFault .assertReset

theorem writeStatus_sameFault {v : Word} (h : v.getLsbD 2 = false) (s : State) : SameFault s (writeStatus v s) := by
  rw [writeStatus_eq, h]
  exact ⟨Bool.and_true _, rfl, rfl, rfl⟩

theorem writeCtrl_sameFault {v : Word} (h : v.getLsbD 31 = false) (s : State) : SameFault s (writeCtrl v s) := by
  rw [writeCtrl_irqEn h]
  exact ⟨rfl, rfl, rfl, rfl⟩

/-- Of the register writes only a STATUS clear and a soft reset touch a fault. -/
theorem writeReg_sameFault {r : Reg} {v : Word} {s : State} (hstatus : r = .status → v.getLsbD 2 = false)
    (hctrl : r = .ctrl → v.getLsbD 31 = false) : SameFault s (writeReg r v s) := by
  by_cases hc : r = .ctrl
  · subst hc; exact writeCtrl_sameFault (hctrl rfl) s
  by_cases hs : r = .status
  · subst hs; exact writeStatus_sameFault (hstatus rfl) s
  cases hb : s.busy with
  | true => rw [writeReg_busy hb hc hs]; exact ⟨rfl, rfl, rfl, rfl⟩
  | false => rw [writeReg_idle hb hc hs]; exact ⟨rfl, rfl, rfl, rfl⟩

/-- A store in the register window: while FAULT is 1 a CMD write is ignored (R140). -/
theorem hostWrite_sameFault {off : BitVec 12} {v : Word} {s t : State} (hf : s.fault = true)
    (hstatus : off = 0x008 → v.getLsbD 2 = false) (hctrl : off = 0x004 → v.getLsbD 31 = false)
    (h : hostWrite off v s = .next t) : SameFault s t := by
  cases hreg : regAt off with
  | none =>
    rw [hostWrite_reserved hreg] at h
    cases h
    exact .refl s
  | some r =>
    have hoff := offset_of_regAt hreg
    by_cases hcmd : r = .cmd
    · subst hcmd
      rw [hostWrite_cmd hreg, commandWrite_ignored (.inr hf)] at h
      cases h
      exact ⟨rfl, rfl, rfl, rfl⟩
    · rw [hostWrite_of_regAt hreg hcmd] at h
      cases h
      exact writeReg_sameFault (fun hr => hstatus (hoff.trans (congrArg Reg.offset hr)))
        fun hr => hctrl (hoff.trans (congrArg Reg.offset hr))

theorem deliver_sameFault (x : PortItem) (s : State) : SameFault s (deliver x s) := by
  cases hr : s.resetLine with
  | true => rw [deliver_in_reset hr]; exact .refl s
  | false => rw [deliver_to_block hr]; exact ⟨rfl, rfl, rfl, rfl⟩

/-- An access that is answered with a next state was a 32-bit one (R81). -/
theorem width_of_answered {s t : State} {off : BitVec 12} {width : Width} {answer : Host.Outcome State Fault Refusal}
    (h : whenAnswered off width s answer = .next t) : width = .word := by
  by_contra hw
  rw [whenAnswered_refused (resetLine_of_answered h) (.inl hw)] at h
  cases h

/-- With no command running there is nothing to go on with. -/
theorem proceed_idle {s : State} (h : s.running = none) (n : Option Nat) : proceed n s = .next s := by rw [proceed, h]

/-- In a legal state no command runs while FAULT is 1 (R141). -/
theorem running_of_fault {s : State} (hw : s.wf) (hf : s.fault = true) : s.running = none :=
  Option.eq_none_iff_forall_ne_some.2 fun _ hc => absurd ((hw.underWay hc).fault.symm.trans hf) Bool.false_ne_true

/-- While FAULT is 1 and no command runs, every other action of the host keeps the fault. -/
theorem hostAct_sameFault {ev : HostEvent} {s t : State} (hrun : s.running = none) (hf : s.fault = true) (hev : ¬EndsFault ev)
    (h : hostAct ev s = .next t) : SameFault s t := by
  cases ev with
  | write off width v =>
    obtain rfl := width_of_answered h
    refine hostWrite_sameFault hf ?_ ?_ (whenAnswered_next h)
    · rintro rfl; exact Bool.eq_false_iff.2 fun hv => hev (.statusClear hv)
    · rintro rfl; exact Bool.eq_false_iff.2 fun hv => hev (.softReset hv)
  | read off width => cases whenAnswered_next h; exact ⟨rfl, rfl, rfl, rfl⟩
  | streamByte b => cases h; exact deliver_sameFault _ s
  | streamEnd => cases h; exact deliver_sameFault _ s
  | memWrite a b =>
    rw [hostAct, hostMemWrite] at h
    split at h <;> cases h
    exact ⟨rfl, rfl, rfl, rfl⟩
  | memRead a =>
    rw [hostAct, hostMemRead] at h
    split at h <;> cases h
    exact ⟨rfl, rfl, rfl, rfl⟩
  | letRun n => rw [hostAct, proceed_idle hrun] at h; cases h; exact .refl s
  | setPace n => cases h; exact ⟨rfl, rfl, rfl, rfl⟩
  | assertReset => exact absurd .resetInput hev
  | releaseReset => cases h; exact ⟨rfl, rfl, rfl, rfl⟩

/-- A step from a legal state keeps the fault, unless the host's next action ends it. -/
theorem step_sameFault {s t : State} (hw : s.wf) (hf : s.fault = true) (h : step s = .next t) :
    SameFault s t ∨ ∃ ev rest, s.inbox = ev :: rest ∧ EndsFault ev := by
  have hrun := running_of_fault hw hf
  cases hin : s.inbox with
  | nil =>
    rw [step, hin] at h
    have hp := withoutHost_next h
    rw [proceed_idle hrun] at hp
    cases hp
    exact .inl (.refl s)
  | cons ev rest =>
    rw [step, hin] at h
    by_cases hev : EndsFault ev
    · exact .inr ⟨ev, rest, rfl, hev⟩
    · obtain ⟨hfault, hcode, hinfo, haddr⟩ := hostAct_sameFault (by exact hrun) (by exact hf) hev h
      exact .inl ⟨hfault, hcode, hinfo, haddr⟩

/-- Settles O60: the host's action that ends the fault is one of the three. -/
theorem faultIsSticky : Obligations.FaultIsSticky := by
  unfold Obligations.FaultIsSticky
  intro s t hw hf h
  obtain ⟨hfault, hcode, hinfo, haddr⟩ | ⟨ev, rest, hin, hev⟩ := step_sameFault hw hf h
  · exact .inl ⟨hfault.trans hf, hcode, hinfo, haddr⟩
  · cases hev with
    | statusClear hv => exact .inr (.inl ⟨_, rest, hin, hv⟩)
    | softReset hv => exact .inr (.inr (.inl ⟨_, rest, hin, hv⟩))
    | resetInput => exact .inr (.inr (.inr ⟨rest, hin⟩))

/-! ## The interrupt output (R298) -/

theorem irq_eq_true_iff (s : State) : s.irq = true ↔ s.irqEn = true ∧ (s.done = true ∨ s.fault = true) := by
  rw [State.irq, Bool.and_eq_true, Bool.or_eq_true]

/-- With neither DONE nor FAULT the output is deasserted, whatever IRQ_EN is. -/
theorem irq_of_flags {s : State} (hd : s.done = false) (hf : s.fault = false) : s.irq = false := by
  rw [State.irq, hd, hf, Bool.or_false, Bool.and_false]

/-- A store to a register other than CMD that has a next state has written the register. -/
theorem hostAct_write_next {off : BitVec 12} {width : Width} {r : Reg} {v : Word} {s t : State} (hreg : regAt off = some r)
    (hcmd : r ≠ .cmd) (h : hostAct (.write off width v) s = .next t) : t = writeReg r v s := by
  have hw := whenAnswered_next h
  rw [hostWrite_of_regAt hreg hcmd] at hw
  cases hw
  rfl

/-- A STATUS write that clears both DONE and FAULT. -/
theorem writeStatus_irq {v : Word} (hd : v.getLsbD 1 = true) (hf : v.getLsbD 2 = true) (s : State) : (writeStatus v s).irq = false := by
  rw [writeStatus_eq, hd, hf]
  exact irq_of_flags (Bool.and_false _) (Bool.and_false _)

/-- A CTRL write with IRQ_EN 0 clears it, as a soft reset does. -/
theorem writeCtrl_irq {v : Word} (h0 : v.getLsbD 0 = false) (s : State) : (writeCtrl v s).irq = false := by
  apply irq_of_irqEn
  cases h31 : v.getLsbD 31 with
  | true => rw [writeCtrl_reset h31, resetBlock_irqEn]
  | false => rw [writeCtrl_irqEn h31]; exact h0

/-- Settles O12. -/
theorem interruptOutput : Obligations.InterruptOutput := by
  unfold Obligations.InterruptOutput
  refine ⟨irq_eq_true_iff, fun s t v hd hf h => ?_, fun s t v h0 h => ?_, fun s t h => ?_, fun s b => rfl⟩
  · obtain rfl := hostAct_write_next (r := .status) rfl (by decide) h
    exact writeStatus_irq hd hf s
  · obtain rfl := hostAct_write_next (r := .ctrl) rfl (by decide) h
    exact writeCtrl_irq h0 s
  · cases h
    exact irq_of_irqEn rfl

end Sys2Proof.Machine
end
